-- ==== Sys2Proof/Word.lean ====
section
/-! DEFINITION. The plain types of the OL-5120 model: words, cell masks, row sets, and the numbers that
name rows, words of a row and driver modules. -/

namespace Sys2Proof

/-- A 16-bit word of image memory or of the bus. Bit 15 is the leftmost cell of an image word. -/
abbrev Word := BitVec 16

/-- A byte of the driver link. -/
abbrev Byte := BitVec 8

/-- A word address of the terminal processor's bus. -/
abbrev BusAddr := BitVec 20

/-- The 512 cells of one row, in the image word layout (R18): the cell in column c is bit 511 - c, so
word w of the row is bits 511 - 16w down to 496 - 16w and its bit 15 is the leftmost cell. -/
abbrev Mask := BitVec 512

/-- A set of image rows (R44): row r is a member exactly when bit r is set. -/
abbrev RowSet := BitVec 512

/-- A set of driver modules: module m is a member exactly when bit m is set (as status word 2, R194). -/
abbrev ModuleSet := BitVec 8

/-- The 64 columns of one driver module, bit 63 the leftmost. -/
abbrev SliceCells := BitVec 64

/-- An image row, 0..511. -/
abbrev Row := Fin 512

/-- A word of a row, of the command row or of the status row, 0..31. -/
abbrev WordIx := Fin 32

/-- A column driver module, 0..7. -/
abbrev ModuleNo := Fin 8

/-- A sparse store: key and value pairs. Its canonical form and its operations are in Machine/Ops.lean. -/
abbrev Cells (α : Type) := List (Nat × α)

/-- Image memory: word offset (0..16,447) and word. -/
abbrev Memory := Cells Word

/-- All rows of the image. -/
abbrev RowSet.all : RowSet := BitVec.allOnes 512

end Sys2Proof
end

