-- ==== Sys2Proof/Syntax.lean ====
section
/-! DEFINITION. The commands of the OL-5120: one constructor for each row of spec/opcode_table.json, with
the operands that the row's own rules speak of. A command is a bus cycle, a posting of a command through
the command row, the grant of a port unit, an event of the driver link as its lines show it, an event of
the panel drive, of the supply-good input or of the sense input. -/

namespace Sys2Proof

/-- The sources of a reset that act: power-on, the reset input, or both together (R132, R179). -/
inductive ResetSources where
  | powerOn
  | resetInput
  | together
  deriving DecidableEq, Repr

/-- A pass-through cycle (R1): a read, with the data the memory side returns, or a write with its data. -/
inductive SideCycle where
  | read (returned : Word)
  | write (data : Word)
  deriving DecidableEq, Repr

/-- A cycle in the void (R8): a read or a write with its data. -/
inductive VoidCycle where
  | read
  | write (data : Word)
  deriving DecidableEq, Repr

/-- What an idle check of the link finds (R79): both lines high at once; LDA freed by a number of clock
pulses, and whether both lines read high after the CLOSE that follows; or LDA still low after nine. -/
inductive IdleCheck where
  | clear
  | freed (pulses : Nat) (highAfterClose : Bool)
  | stuck
  deriving DecidableEq, Repr

/-- Where a clock stretch reached its limit (R71): in an idle check; inside a message, with LDA as it was
sampled in the bytes clocked before (nine samples a byte: bits 8..1 the data bits, bit 0 the acknowledge)
and whether LCK read high after the CLOSE attempt's further half-bit (R82); or in a recovery attempt. -/
inductive StretchPlace where
  | idleCheck
  | message (samples : List (BitVec 9)) (lckFreed : Bool)
  | recovery
  deriving DecidableEq, Repr

/-- The commands: one constructor per row of the table. -/
inductive Instr where
  | reset (sources : ResetSources)
  | passThroughCycle (addr : BusAddr) (cycle : SideCycle)
  | voidAccess (addr : BusAddr) (cycle : VoidCycle)
  | processorRead (addr : BusAddr)
  | imageWordWrite (addr : BusAddr) (data : Word)
  | readCombineWrite
  | holdExpiry
  | apertureWrite (addr : BusAddr) (data : Word)
  | setupSequenceWrite (addr : BusAddr) (data : Word)
  | noticeClear (addr : BusAddr) (data : Word)
  | repaint (addr : BusAddr) (data : Word)
  | clearAndRepaint (addr : BusAddr) (data : Word)
  | area (addr : BusAddr) (data : Word)
  | blank (addr : BusAddr) (data : Word)
  | unblank (addr : BusAddr) (data : Word)
  | probe (addr : BusAddr) (data : Word)
  | abort (addr : BusAddr) (data : Word)
  | storeRead (addr : BusAddr) (data : Word)
  | storeErase (addr : BusAddr) (data : Word)
  | storeWrite (addr : BusAddr) (data : Word)
  | settingsApply (addr : BusAddr) (data : Word)
  | badCode (addr : BusAddr) (data : Word)
  | storeEraseEnd
  | storeWriteEnd
  | commandRowWordWrite
  | noticeWordUpdate
  | statusBurst
  | burstTimerExpiry
  | areaWord
  | schedulerTake
  | snapshotWordRead
  | loadMessage (idle : IdleCheck) (samples : List (BitVec 9))
  | probeMessage (idle : IdleCheck) (samples : List (BitVec 9))
  | stretchExpiry (place : StretchPlace)
  | recoveryTimerExpiry
  | recoveryAttempt (idle : IdleCheck) (linesHigh : Bool)
  | periodEnd
  | strobe
  | globalEraseStrobe
  | driverClearPulse
  | clearPulseEnd
  | primingEraseEnd
  | sampleInstant (level : Int)
  | conversionCompletion
  | goodHigh
  | goodLow
  | settleLimitReached
  | lossLimitReached
  | supplyGoodSample (level : Bool)
  deriving DecidableEq, Repr

end Sys2Proof
end

