-- ==== Sys2Proof/Config.lean ====
section
/-! DEFINITION. What the manual fixes as constants of the part, and the free values: constants without a
body, about which nothing can be proved, standing for what the manual leaves open. -/

namespace Sys2Proof.Config

/-- Number of slots of the Change Table (R18). -/
def slots : Nat := 32

/-- Ticks of a status burst timer or recovery timer before it expires (R177, R87). -/
def timerTicks : Nat := 16384

/-- Ticks of an erase of a store page (R187). -/
def storeEraseTicks : Nat := 96000

/-- Ticks of a write of a store word (R188). -/
def storeWriteTicks : Nat := 256

/-- Ticks of a conversion of the Sense Converter (R137). -/
def conversionTicks : Nat := 40

/-- Ticks of a driver clear pulse (R110). -/
def clearPulseTicks : Nat := 4

/-- Consecutive agreeing samples after which the filtered supply-good level changes (R112). -/
def filterSamples : Nat := 3

/-- Consecutive deviating completions that confirm a drift (R142). -/
def driftRun : Nat := 3

/-- Number of past periods the window history holds (R97). -/
def windowPeriods : Nat := 15

/-- Index of the last period of a frame (R106). -/
def lastPeriod : Nat := 255

/-- The largest value of the 16-bit counters (R179). -/
def counterMax : Nat := 65535

/-- The format word of the settings page (R182). -/
def formatWord : Word := 0x0F51

/-- What an erased store word reads (R181). -/
def erasedWord : Word := 0xFFFF

/-- The five values that open the setup state; the closing sequence is the same in reverse (R185). -/
def openingSequence : List Word := [0x2E71, 0xD18E, 0x47B2, 0xB84D, 0x0C3F]

/-- Offset of command word 0 (R2). -/
def commandBase : Nat := 16384

/-- Offset of status word 0 (R2). -/
def statusBase : Nat := 16416

/-- What a word of image memory that nothing has written reads as. DESIGN CHOICE (log 2), unsafe: the
manual states no contents of image memory at power-on. -/
def blankWord : Word := 0

/-- FREE VALUE (log 5): what a row of the panel shows after an ADDRESS period was cut before its strobe;
the manual says the cut phase 'may have done anything to its row'. The argument is the free-value counter. -/
opaque cutRow : Nat → Mask

/-- FREE VALUE (log 5): for a global erase cut before its strobe, the cells of a row it did not reach. The
arguments are the free-value counter and the row. -/
opaque unreached : Nat → Nat → Mask

/-- FREE VALUE (log 6): whether a store word whose page erase was cut by a reset kept its value, and
whether a word whose write was cut took the new value (R189). The arguments are the free-value counter
and the word's index. -/
opaque cutKept : Nat → Nat → Bool

/-- FREE VALUE (log 21): which of the units that the port may be serving a reset finds being served, by its place
among them; no unit where there is none at that place (R17). The argument is the free-value counter. -/
opaque servedUnit : Nat → Nat

/-- FREE VALUE (log 21): whether a word of the unit that a reset finds being served already holds its new
value (R9, R17). The arguments are the free-value counter and the word's offset. -/
opaque servedWord : Nat → Nat → Bool

/-- FREE VALUE (log 7): which of two coincident events is taken first where the manual says either may
be and one step of the model has to order them (R12, R30, R78, R123, R160). The argument is the free-value counter. -/
opaque firstWins : Nat → Bool

/-- FREE VALUE (log 33): whether the request for the next word of a snapshot comes only after the port's next
grant (R54 says only that it is 'then requested'). The argument is the free-value counter. -/
opaque requestedLate : Nat → Bool

/-- FREE VALUE (log 9): whether LCK is held low from outside the controller in a tick of a message or of a recovery
attempt, as a module may (R69, R71, R72). The argument is the free-value counter. -/
opaque lckHeld : Nat → Bool

/-- FREE VALUE (log 9): whether LDA is held low from outside the controller in a tick of a message or of a recovery
attempt: an acknowledge, or a line that is not free (R69, R72, R79, R83). The argument is the free-value counter. -/
opaque ldaHeld : Nat → Bool

/-- FREE VALUE (log 8): whether the addressed module latched a message whose stretch expired after the
last acknowledge and whose CLOSE was then formed (R82: it 'may have latched it'). -/
opaque latchedAtClose : Nat → Bool

end Sys2Proof.Config
end

