-- ==== Sys2Proof/Machine/State.lean ====
section
/-! DEFINITION. Every piece of state the manual gives the OL-5120, block by block, as plain data; the state
after reset; and the reasons a command can stop. -/

namespace Sys2Proof.Machine

/-! ## The bus and the Write Merge Unit -/

/-- The last cycle driven onto the memory side bus (R1). -/
structure SideBus where
  addr : BusAddr
  cycle : SideCycle
  deriving DecidableEq, Repr

/-- The processor bus as the controller drives it: READY (R4, R9, R15), the word last returned on the data
lines, whether a clear through status word 0 holds READY (R7), and the memory side bus (R1). -/
structure BusPins where
  ready : Bool
  readData : Word
  clearHeld : Bool
  side : Option SideBus
  deriving DecidableEq, Repr

/-- The word a write that the Write Merge Unit has accepted goes to (R9). -/
inductive WriteTarget where
  | image (row : Row) (word : WordIx)
  | command (word : WordIx)
  deriving DecidableEq, Repr

/-- A write the Write Merge Unit has accepted: its target, the number 0..7 of the view of the aperture it
came through, and its data (R9). -/
structure WriteCycle where
  target : WriteTarget
  view : BitVec 3
  data : Word
  deriving DecidableEq, Repr

/-- The held change record (R11). -/
structure HeldChange where
  row : Row
  word : WordIx
  rise : Word
  fall : Word
  deriving DecidableEq, Repr

/-- The Write Merge Unit's state; the held change record is present in HOLDING and absent otherwise. -/
inductive WmuState where
  | idle
  | merging (cycle : WriteCycle)
  | holding (held : HeldChange)
  deriving DecidableEq, Repr

/-- The Write Merge Unit (table above R9). -/
structure WriteMerge where
  state : WmuState
  holdCounter : Nat
  deriving DecidableEq, Repr

/-- The units of the port's third rank, served in the order requested (R17). -/
inductive ThirdRank where
  | noticeUpdate
  | commandWrite
  deriving DecidableEq, Repr

/-- Requests waiting at the Image Memory Port that no block's record shows by itself: the status burst,
and the third-rank units in the order requested, each at most once (R16, R17). -/
structure PortRequests where
  burst : Bool
  third : List ThirdRank
  deriving DecidableEq, Repr

/-- Which units have stood first among those waiting at the port, at some instant since they were requested and since
the port last finished a unit, so that the port may have granted them (R17, log 21): the status burst, the first
third-rank unit and the area word. Of a unit that does not wait it says nothing. The MODEL's own record. -/
structure PortReached where
  burst : Bool
  third : Bool
  area : Bool
  deriving DecidableEq, Repr

/-! ## The Change Table, the Resync Sets and the Row Scheduler -/

/-- An entry of the Change Table (R18): its row, its set mask and its clear mask. -/
structure Entry where
  row : Row
  setMask : Mask
  clearMask : Mask
  deriving DecidableEq, Repr

/-- The Change Table: the OPEN entries in the order of the age queue, oldest first (R21), and the TAKEN
entry (R19). Which slot an entry occupies has no effect (R18), so slots are only counted. -/
structure ChangeTable where
  ageQueue : List Entry
  taken : Option Entry
  deriving DecidableEq, Repr

/-- The Resync Sets (R44). -/
structure ResyncSets where
  full : RowSet
  fill : RowSet
  cursor : Row
  deriving DecidableEq, Repr

/-- The kind of a row operation (R52). -/
inductive OpKind where
  | delta
  | full
  | fill
  deriving DecidableEq, Repr

/-- The kind of a phase that loads and fires: erase or write (R52, R195). -/
inductive Phase where
  | erase
  | write
  deriving DecidableEq, Repr

/-- The phase field of a row operation (R52). -/
inductive OpPhase where
  | erase
  | write
  | complete
  deriving DecidableEq, Repr

/-- The stage field of a row operation (R52). -/
inductive Stage where
  | snapshot
  | loading
  | ready
  | firing
  deriving DecidableEq, Repr

/-- A row operation (R52), with three fields of the model's own: whether the snapshot word read for the word at the
cursor has been requested (R54), the modules whose slices are still to be handed to the link in this phase (R55),
and whether a link fault came while the phase was FIRING, so that the operation is returned at the strobe (R101). -/
structure RowOp where
  kind : OpKind
  row : Row
  eraseMask : Mask
  writeMask : Mask
  cursor : Option Nat
  asked : Bool
  phase : OpPhase
  stage : Stage
  loaded : ModuleSet
  eraseDone : Bool
  writeDone : Bool
  toHand : List ModuleNo
  returnDue : Bool
  deriving DecidableEq, Repr

/-- The Row Scheduler (R48), but for the lit table and L. -/
structure Scheduler where
  op : Option RowOp
  runCount : Nat
  clearWaiting : Bool
  deriving DecidableEq, Repr

/-- The lit table, by key 8 * row + module, and its sum L (R48, R59). -/
structure LitTable where
  counts : Cells Nat
  total : Nat
  deriving DecidableEq, Repr

/-! ## The driver link and the driver modules -/

/-- The link state (R75). -/
inductive LinkState where
  | ok
  | faulted
  deriving DecidableEq, Repr

/-- The link activity (R75). SENDING and CLOSING are reached in the course of a message (log 9). -/
inductive Activity where
  | idle
  | checking
  | sending
  | closing
  | recovering
  deriving DecidableEq, Repr

/-- What a message is for (R75). -/
inductive Purpose where
  | phaseLoad
  | probe
  deriving DecidableEq, Repr

/-- Which attempt a message is (R75, R84). -/
inductive Attempt where
  | first
  | retry
  deriving DecidableEq, Repr

/-- A message in progress (R75). -/
structure Message where
  purpose : Purpose
  modNo : ModuleNo
  phase : Phase
  presence : Byte
  data : List Byte
  attempt : Attempt
  bytesSent : Nat
  beforeLoss : Bool
  deriving DecidableEq, Repr

/-- A slice handed by the Row Scheduler and not yet begun (R75). -/
structure Slice where
  modNo : ModuleNo
  phase : Phase
  cells : SliceCells
  deriving DecidableEq, Repr

/-- A probe round: the modules still to be probed, and whether any was restored (R75, R90). -/
structure ProbeRound where
  left : List ModuleNo
  restored : Bool
  deriving DecidableEq, Repr

/-- The parts of what the controller does on the lines for a message or a recovery attempt: the idle check, which
reads the lines, gives clock pulses and a CLOSE, and reads them again (R79); the nine clock pulses of an attempt (R88);
OPEN, a byte, and CLOSE (R70); the rest of a byte after contention (R83); the CLOSE attempted when a stretch has
expired (R82); and the end, with both lines released. -/
inductive CoursePart where
  | check
  | pulses
  | checkClose
  | recheck
  | clocks
  | opening
  | byte
  | spoiled
  | closing
  | attempt
  | ended
  deriving DecidableEq, Repr

/-- How far the message or the attempt on the link has come (R70, R71): the part it is in, the half-bit of that part,
the ticks passed of that half-bit while it is not stretched, the ticks counted of a stretch, and whether LDA read low
when it was last sampled. -/
structure LinkCourse where
  part : CoursePart
  half : Nat
  tick : Nat
  stretch : Nat
  ldaLow : Bool
  deriving DecidableEq, Repr

/-- A part of the course begins. -/
def LinkCourse.start (p : CoursePart) : LinkCourse :=
  { part := p, half := 0, tick := 0, stretch := 0, ldaLow := false }

/-- The Driver Link Controller (R75), with the half-bit and stretch limit read when the message's idle check
or the recovery attempt began (R69), the ticks passed since then, and how far it has come on the lines (R70, R71); and
whether the recovery timer has just returned to 0 from its last tick, so that its expiry is due (R87, log 18): the
MODEL's own field. -/
structure DriverLink where
  state : LinkState
  activity : Activity
  failed : ModuleSet
  message : Option Message
  waiting : Option Slice
  round : Option ProbeRound
  timer : Nat
  expired : Bool
  halfBit : Nat
  stretchLimit : Nat
  elapsed : Nat
  course : LinkCourse
  deriving DecidableEq, Repr

/-- The latches of the eight driver modules (R73): the latched columns of all modules in the row layout, and
the modules whose latched phase is write. -/
structure ModuleLatches where
  cols : Mask
  writePhase : ModuleSet
  deriving DecidableEq, Repr

/-! ## The Period Generator -/

/-- The timing copy (R94). -/
structure Timing where
  ws : Nat
  dr : Nat
  wr : Nat
  dc : Nat
  wc : Nat
  allowance : Nat
  pMin : Nat
  pMax : Nat
  k : Nat
  sampleIndex : Nat
  deriving DecidableEq, Repr

/-- The kind of a period (R94). -/
inductive PeriodKind where
  | sustain
  | address
  | globalErase
  deriving DecidableEq, Repr

/-- A kind as the window history records it (R97). -/
inductive WindowKind where
  | sustain
  | address
  deriving DecidableEq, Repr

/-- The current period (R94): its kind, for an ADDRESS period the row and the phase it fires, the tick reached,
whether its strobe has been taken, and whether its sample instant has been marked (R98). -/
structure Period where
  kind : PeriodKind
  fires : Option (Row × Phase)
  tick : Nat
  strobed : Bool
  sampled : Bool
  deriving DecidableEq, Repr

/-- The clear pulse state (R94, R110). While a pulse is being given, `again` says that a request came which
that pulse does not serve. -/
inductive ClearPulse where
  | idle
  | pending
  | given (tick : Nat) (again : Bool)
  deriving DecidableEq, Repr

/-- The Period Generator (R94). -/
structure PeriodGen where
  length : Nat
  timing : Timing
  index : Nat
  current : Option Period
  window : List WindowKind
  frameCount : Nat
  clearPulse : ClearPulse
  deriving DecidableEq, Repr

/-! ## The Panel Sequencer and the Sense Converter -/

/-- The sequencer's states (R113). -/
inductive SeqState where
  | dark
  | settling
  | priming
  | lit
  | gap
  | resuming
  deriving DecidableEq, Repr

/-- The Panel Sequencer (R112, R113), with the level of the raw supply-good input and whether this tick's
sample of it has been taken. -/
structure Sequencer where
  state : SeqState
  blanked : Bool
  settle : Nat
  gap : Nat
  gapLength : Nat
  filtered : Bool
  runCount : Nat
  input : Bool
  sampled : Bool
  deriving DecidableEq, Repr

/-- A conversion in progress (R136, R137): the captured L, the expected code it gives, the tick reached and
the held level. -/
structure Conversion where
  capturedL : Nat
  expected : Nat
  tick : Nat
  level : Int
  deriving DecidableEq, Repr

/-- The Sense Converter (R136), with the level of the sense input. It is CONVERTING exactly while a
conversion is in progress. -/
structure SenseConverter where
  conversion : Option Conversion
  m : Nat
  e : Nat
  runCount : Nat
  holdOff : Bool
  input : Int
  deriving DecidableEq, Repr

/-! ## The Area Engine, the Command Row Handler, notices and settings -/

/-- The combine of an area operation (R149, R153). -/
inductive Combine where
  | replace
  | set
  | clear
  | complement
  deriving DecidableEq, Repr

/-- The state of the area word unit (R149). -/
inductive UnitState where
  | none
  | requested
  | granted
  deriving DecidableEq, Repr

/-- The area operation (R149). -/
structure AreaOp where
  op : Combine
  privileged : Bool
  firstRow : Row
  lastRow : Row
  firstWord : WordIx
  lastWord : WordIx
  leftMask : Word
  rightMask : Word
  pattern : List Word
  truncated : Bool
  row : Row
  word : WordIx
  rowSkipped : Bool
  unit : UnitState
  abortPending : Bool
  wordsWritten : Nat
  deriving DecidableEq, Repr

/-- The running command (R163): its code, the arguments taken at acceptance (the words R193 names, in
ascending order), its result code once known, whether an ABORT has been taken, and the command-row words
still to be written. -/
structure Running where
  code : Byte
  args : List Word
  result : Option Byte
  abortTaken : Bool
  writes : List (WordIx × Word)
  deriving DecidableEq, Repr

/-- The Command Row Handler (R163). Its state is RUNNING exactly while a running command is present. -/
structure CommandHandler where
  running : Option Running
  copy : Cells Word
  openStep : Nat
  closeStep : Nat
  setupOpen : Bool
  deriving DecidableEq, Repr

/-- The reset cause: the source that acted last (R179). -/
inductive ResetCause where
  | powerOn
  | resetInput
  deriving DecidableEq, Repr

/-- The Notice and Status Unit (R175, R177, R179): the notice set with the bits of R194, the attention line,
the seven counters, the burst timer and the reset cause; and whether the burst timer has just returned to 0 from its
last tick, so that its expiry is due (R177, log 18): the MODEL's own field. -/
structure NoticeUnit where
  notices : BitVec 8
  attention : Bool
  protectedDiscards : Nat
  degradedRows : Nat
  annulled : Nat
  droppedCells : Nat
  retries : Nat
  contentions : Nat
  commandDiscards : Nat
  burstTimer : Nat
  burstExpired : Bool
  cause : ResetCause
  deriving DecidableEq, Repr

/-- The 22 settings (R182), in the order of their words. -/
structure Settings where
  aperture : Nat
  firstRow : Nat
  rowCount : Nat
  pMin : Nat
  pMax : Nat
  k : Nat
  allowance : Nat
  ws : Nat
  dr : Nat
  wr : Nat
  dc : Nat
  wc : Nat
  settleLimit : Nat
  lossLimit : Nat
  holdLimit : Nat
  weight : Nat
  halfBit : Nat
  stretchLimit : Nat
  sampleIndex : Nat
  baseCode : Nat
  gain : Nat
  tolerance : Nat
  deriving DecidableEq, Repr

/-- The store operation (R181). -/
inductive StoreOp where
  | none
  | erase (page : Nat) (elapsed : Nat)
  | write (index : Nat) (value : Word) (elapsed : Nat)
  deriving DecidableEq, Repr

/-- The Settings Store (R181): the words that do not read as erased, the store operation, the working
settings and the staged settings. -/
structure SettingsStore where
  words : Cells Word
  op : StoreOp
  settings : Settings
  staged : Option Settings
  deriving DecidableEq, Repr

/-! ## The state of the machine -/

/-- The machine. -/
structure State where
  /-- Commands waiting, first in, first out: the model's queue. -/
  pending : List Instr
  /-- Image memory (R2, R16). -/
  mem : Memory
  /-- The processor bus as the controller drives it. -/
  bus : BusPins
  /-- The Write Merge Unit. -/
  wmu : WriteMerge
  /-- Requests waiting at the Image Memory Port. -/
  port : PortRequests
  /-- The Change Table and its age queue. -/
  table : ChangeTable
  /-- The Resync Sets. -/
  sets : ResyncSets
  /-- The Row Scheduler. -/
  sched : Scheduler
  /-- The lit table and its total L. -/
  lit : LitTable
  /-- The Driver Link Controller. -/
  link : DriverLink
  /-- The latches of the eight driver modules. -/
  latches : ModuleLatches
  /-- The cells of the panel, by row, as last driven. -/
  panel : Cells Mask
  /-- The Period Generator. -/
  period : PeriodGen
  /-- The Panel Sequencer. -/
  seq : Sequencer
  /-- The Sense Converter. -/
  sense : SenseConverter
  /-- The area operation, if one exists. -/
  area : Option AreaOp
  /-- The Command Row Handler. -/
  cmd : CommandHandler
  /-- The Notice and Status Unit. -/
  notice : NoticeUnit
  /-- The Settings Store. -/
  store : SettingsStore
  /-- Whether the port has served a processor's unit and, since then, no other unit: between two processor
  cycles it grants waiting work (R17). The MODEL's own field. -/
  gapDue : Bool
  /-- Which of the units waiting at the port may have been granted (R17). The MODEL's own field. -/
  reached : PortReached
  /-- The MODEL's own counter from which free values are drawn. -/
  freeCount : Nat
  deriving DecidableEq, Repr

/-! Named updates, one per field: the operations change the state through them. -/

/-- The state with another value of `pending`. -/
def State.setPending (s : State) (v : List Instr) : State := { s with pending := v }

/-- The state with another value of `mem`. -/
def State.setMem (s : State) (v : Memory) : State := { s with mem := v }

/-- The state with another value of `bus`. -/
def State.setBus (s : State) (v : BusPins) : State := { s with bus := v }

/-- The state with another value of `wmu`. -/
def State.setWmu (s : State) (v : WriteMerge) : State := { s with wmu := v }

/-- The state with another value of `port`. -/
def State.setPort (s : State) (v : PortRequests) : State := { s with port := v }

/-- The state with another value of `table`. -/
def State.setTable (s : State) (v : ChangeTable) : State := { s with table := v }

/-- The state with another value of `sets`. -/
def State.setSets (s : State) (v : ResyncSets) : State := { s with sets := v }

/-- The state with another value of `sched`. -/
def State.setSched (s : State) (v : Scheduler) : State := { s with sched := v }

/-- The state with another value of `lit`. -/
def State.setLit (s : State) (v : LitTable) : State := { s with lit := v }

/-- The state with another value of `link`. -/
def State.setLink (s : State) (v : DriverLink) : State := { s with link := v }

/-- The state with another value of `latches`. -/
def State.setLatches (s : State) (v : ModuleLatches) : State := { s with latches := v }

/-- The state with another value of `panel`. -/
def State.setPanel (s : State) (v : Cells Mask) : State := { s with panel := v }

/-- The state with another value of `period`. -/
def State.setPeriod (s : State) (v : PeriodGen) : State := { s with period := v }

/-- The state with another value of `seq`. -/
def State.setSeq (s : State) (v : Sequencer) : State := { s with seq := v }

/-- The state with another value of `sense`. -/
def State.setSense (s : State) (v : SenseConverter) : State := { s with sense := v }

/-- The state with another value of `area`. -/
def State.setArea (s : State) (v : Option AreaOp) : State := { s with area := v }

/-- The state with another value of `cmd`. -/
def State.setCmd (s : State) (v : CommandHandler) : State := { s with cmd := v }

/-- The state with another value of `notice`. -/
def State.setNotice (s : State) (v : NoticeUnit) : State := { s with notice := v }

/-- The state with another value of `store`. -/
def State.setStore (s : State) (v : SettingsStore) : State := { s with store := v }

/-- The state with another value of `gapDue`. -/
def State.setGapDue (s : State) (v : Bool) : State := { s with gapDue := v }

/-- The state with another value of `reached`. -/
def State.setReached (s : State) (v : PortReached) : State := { s with reached := v }

/-- The state with another value of `freeCount`. -/
def State.setFreeCount (s : State) (v : Nat) : State := { s with freeCount := v }

/-! ## Reset -/

/-- The default settings (R182). -/
def defaultSettings : Settings :=
  { aperture := 3, firstRow := 496, rowCount := 16, pMin := 64, pMax := 160, k := 1200, allowance := 4,
    ws := 15, dr := 2, wr := 20, dc := 4, wc := 14, settleLimit := 1024, lossLimit := 8000,
    holdLimit := 400, weight := 4, halfBit := 1, stretchLimit := 200, sampleIndex := 128,
    baseCode := 40, gain := 150, tolerance := 24 }

/-- The timing copy of the default settings (R94). -/
def defaultTiming : Timing :=
  { ws := 15, dr := 2, wr := 20, dc := 4, wc := 14, allowance := 4, pMin := 64, pMax := 160, k := 1200,
    sampleIndex := 128 }

/-- The machine after power-on with an erased settings store (log 3) and blank image memory (log 2): the
values of R15, R17, R43, R44, R48, R75, R94, R112, R113, R136, R149, R163, R180 and R181. The store's
format word is wrong, so the settings are the defaults and SETTINGS_DEFAULT is in the notice set, with the
attention line high and a notice-word update requested (R180, R183). -/
def State.reset : State :=
  { pending := []
    mem := []
    bus := { ready := true, readData := 0, clearHeld := false, side := none }
    wmu := { state := .idle, holdCounter := 0 }
    port := { burst := false, third := [.noticeUpdate] }
    table := { ageQueue := [], taken := none }
    sets := { full := 0, fill := RowSet.all, cursor := 0 }
    sched := { op := none, runCount := 0, clearWaiting := false }
    lit := { counts := [], total := 0 }
    link := { state := .ok, activity := .idle, failed := 0, message := none, waiting := none, round := none,
              timer := 0, expired := false, halfBit := 1, stretchLimit := 200, elapsed := 0,
              course := LinkCourse.start .ended }
    latches := { cols := 0, writePhase := 0 }
    panel := []
    period := { length := 64, timing := defaultTiming, index := 0, current := none, window := [],
                frameCount := 0, clearPulse := .idle }
    seq := { state := .dark, blanked := false, settle := 0, gap := 0, gapLength := 0, filtered := false,
             runCount := 0, input := false, sampled := true }
    sense := { conversion := none, m := 0, e := 0, runCount := 0, holdOff := false, input := 0 }
    area := none
    cmd := { running := none, copy := [], openStep := 0, closeStep := 0, setupOpen := false }
    notice := { notices := 0x80, attention := true, protectedDiscards := 0, degradedRows := 0, annulled := 0,
                droppedCells := 0, retries := 0, contentions := 0, commandDiscards := 0, burstTimer := 0,
                burstExpired := false, cause := .powerOn }
    store := { words := [], op := .none, settings := defaultSettings, staged := none }
    gapDue := false
    reached := { burst := false, third := false, area := false }
    freeCount := 0 }

/-! ## Faults and refusals -/

/-- Faults. There is none: 'No cycle is ever answered with an error on the bus' (Command Row and Status
Reporting), every offset of the aperture is answered (a read of the void returns 0xFFFF, R8), and nothing
stops the controller. No command raises one. -/
inductive Fault where
  deriving DecidableEq, Repr

/-- Why a command is not a step of the machine in a state. All are safe: the model stops, and changes
nothing, at a step that the manual does not have there. -/
inductive Refusal where
  /-- A row of the table without a meaning in this model. No arm uses it. Safe. -/
  | notModelled (mnemonic : String)
  /-- Raised by the bus cycles, the postings and the supply-good samples: the address, the data or the
  level spell a step that another row of the table names (R1, R2, R112, R170). Safe: that row runs it. -/
  | anotherRow
  /-- Raised by the bus cycles and the postings while READY is low: 'the processor's cycle stays open and
  the processor issues no other cycle' (Writing the Image). Safe. -/
  | busHeld
  /-- Raised by an event, or by the grant of a port unit, whose condition does not hold in this state:
  nothing of the manual happens then. Safe. -/
  | notDue
  /-- Raised by the link events whose line samples cannot be those of the message on the link: too few or
  too many bytes, or a number of clock pulses outside 1..9 (R79, R80). Safe. -/
  | badSamples
  deriving DecidableEq, Repr

end Sys2Proof.Machine
end

