-- ==== Sys2Proof/Machine/Ops.lean ====
section
/-! DEFINITION. The plain operations: sparse stores in canonical form, image memory, row sets, cell masks
and their words, slices and counts. -/

namespace Sys2Proof.Machine

/-- What a command answers. -/
abbrev Answer := Host.Outcome State Fault Refusal

/-- A step that happens exactly when its condition holds. -/
def stepWhen (due : Bool) (why : Refusal) (after : State) : Answer :=
  if due then .next after else .refused why

/-! ## Sparse stores -/

/-- The value a sparse store holds at a key; `d` is what an unlisted key reads as. -/
def cellsRead {α : Type} (d : α) : Cells α → Nat → α
  | [], _ => d
  | (k, v) :: m, a => if a = k then v else cellsRead d m a

/-- The store with another value at a key, in canonical form again: writing `d` removes the entry. -/
def cellsWrite {α : Type} [DecidableEq α] (d : α) : Cells α → Nat → α → Cells α
  | [], a, v => if v = d then [] else [(a, v)]
  | (k, w) :: m, a, v =>
    if a < k then (if v = d then (k, w) :: m else (a, v) :: (k, w) :: m)
    else if a = k then (if v = d then m else (a, v) :: m)
    else (k, w) :: cellsWrite d m a v

/-- Several writes, the first first. -/
def cellsWriteAll {α : Type} [DecidableEq α] (d : α) (m : Cells α) (l : List (Nat × α)) : Cells α :=
  l.foldl (fun m p => cellsWrite d m p.1 p.2) m

/-- The canonical form: keys strictly rising, and no entry equal to what an unlisted key reads as. -/
abbrev CellsWf {α : Type} (d : α) (m : Cells α) : Prop :=
  m.Pairwise (fun p q => p.1 < q.1) ∧ ∀ p ∈ m, p.2 ≠ d

/-- The canonical form of image memory: rising offsets, no entry equal to a blank word, and every offset a
word of the image, of the command row or of the status row (R2). -/
abbrev Memory.wf (m : Memory) : Prop :=
  CellsWf Config.blankWord m ∧ ∀ p ∈ m, p.1 < Config.statusBase + 32

/-- Offset of an image word (R2). -/
def imageOffset (r : Row) (w : WordIx) : Nat := 32 * r.val + w.val

/-- Offset of a command word (R2). -/
def commandOffset (w : WordIx) : Nat := Config.commandBase + w.val

/-- Offset of a status word (R2). -/
def statusOffset (w : WordIx) : Nat := Config.statusBase + w.val

/-- The word image memory holds at an offset. -/
def readMem (s : State) (off : Nat) : Word := cellsRead Config.blankWord s.mem off

/-- The state after a word of image memory is written. -/
def writeMem (off : Nat) (v : Word) (s : State) : State :=
  s.setMem (cellsWrite Config.blankWord s.mem off v)

/-! ## Row sets and module sets -/

/-- The set of one row. -/
def oneRow (r : Row) : RowSet := 1#512 <<< r.val

/-- Whether a row is in a set. -/
def hasRow (q : RowSet) (r : Row) : Bool := q.getLsbD r.val

/-- The rows first..last. -/
def rowRange (first last : Nat) : RowSet :=
  (RowSet.all <<< first) &&& (RowSet.all >>> (511 - last))

/-- The first row of a set at or after a row, the search wrapping from 511 to 0 (R51): `fuel` rows are
looked at. -/
def nextRow (q : RowSet) : Nat → Row → Option Row
  | 0, _ => none
  | fuel + 1, r => if hasRow q r then some r else nextRow q fuel (r + 1)

/-- All modules, ascending. -/
def allModules : List ModuleNo := [0, 1, 2, 3, 4, 5, 6, 7]

/-- The set of one module. -/
def oneModule (m : ModuleNo) : ModuleSet := 1#8 <<< m.val

/-- Whether a module is in a set. -/
def hasModule (q : ModuleSet) (m : ModuleNo) : Bool := q.getLsbD m.val

/-! ## Cell masks -/

/-- A row's mask with a word's cells at its place and no other cell (R18). -/
def wordCells (w : WordIx) (v : Word) : Mask := v.setWidth 512 <<< (16 * (31 - w.val))

/-- Word w of a mask (R18). -/
def maskWord (m : Mask) (w : WordIx) : Word := (m >>> (16 * (31 - w.val))).setWidth 16

/-- The slice of a mask that belongs to a module: words 4m..4m + 3 (R52). -/
def maskSlice (m : Mask) (k : ModuleNo) : SliceCells := (m >>> (64 * (7 - k.val))).setWidth 64

/-- A row's mask with a slice's cells at their place and no other cell. -/
def sliceCells (k : ModuleNo) (v : SliceCells) : Mask := v.setWidth 512 <<< (64 * (7 - k.val))

/-- The columns of the modules of a set. -/
def moduleColumns (q : ModuleSet) : Mask :=
  allModules.foldl (fun acc m => if hasModule q m then acc ||| sliceCells m (BitVec.allOnes 64) else acc) 0

/-- The number of cells of a slice. -/
def cellCount (v : SliceCells) : Nat := (List.range 64).countP (fun i => v.getLsbD i)

/-- A 16-bit saturating count after an increase (R179). -/
def saturate (n : Nat) : Nat := min Config.counterMax n

/-! ## Free values -/

/-- The state after a free value has been drawn. -/
def drawFree (s : State) : State := s.setFreeCount (s.freeCount + 1)

end Sys2Proof.Machine
end

