-- ==== Sys2Proof/Machine/LinkBytes.lean ====
section
/-! DEFINITION. The driver link on its wires: the bytes of a message (R76, R77, R195), the lines half-bit by
half-bit (R70), what the samples of LDA say of a message (R81, R83), and what a module makes of one (R72, R73). -/

namespace Sys2Proof.Machine

/-- The phase bit of an address byte (R195). -/
def phaseBit : Phase → Bool
  | .erase => false
  | .write => true

/-- The address byte of a message (R195). -/
def addressByte (m : ModuleNo) (p : Phase) : Byte :=
  BitVec.ofNat 3 m.val ++ BitVec.ofBool (phaseBit p) ++ (0b1010 : BitVec 4)

/-- Data byte k of a slice: columns 8k..8k + 7 of the module, the leftmost in bit 7 (R76). -/
def dataByte (v : SliceCells) (k : Nat) : Byte := (v >>> (8 * (7 - k))).setWidth 8

/-- The presence byte of a slice: bit k is set when data byte k has a cell set (R76). -/
def presenceByte (v : SliceCells) : Byte :=
  (List.range 8).foldl (fun acc k => if dataByte v k = 0 then acc else acc ||| (1#8 <<< k)) 0

/-- The present data bytes of a slice, in ascending order (R76). -/
def presentBytes (v : SliceCells) : List Byte :=
  ((List.range 8).map (dataByte v)).filter (fun b => b != 0)

/-- The bytes of a message, in the order sent (R76, R77). -/
def messageBytes (m : Message) : List Byte := addressByte m.modNo m.phase :: m.presence :: m.data

/-- The LOAD message of a slice, on its first attempt (R76). -/
def loadMessageOf (v : Slice) : Message :=
  { purpose := .phaseLoad, modNo := v.modNo, phase := v.phase, presence := presenceByte v.cells,
    data := presentBytes v.cells, attempt := .first, bytesSent := 0, beforeLoss := false }

/-- The probe of a module (R77). -/
def probeOf (m : ModuleNo) : Message :=
  { purpose := .probe, modNo := m, phase := .erase, presence := 0, data := [], attempt := .first,
    bytesSent := 0, beforeLoss := false }

/-! ## The lines (R70) -/

/-- The levels of LCK and LDA, as the controller leaves them, in one half-bit. -/
abbrev HalfBit := Bool × Bool

/-- OPEN: both lines released, then LDA low while LCK is high (R70). -/
def openHalves : List HalfBit := [(true, true), (true, false)]

/-- One bit: a low half and a high half of LCK, with LDA at the bit's value (R70). -/
def bitHalves (b : Bool) : List HalfBit := [(false, b), (true, b)]

/-- A byte: eight data bits, most significant first, and the acknowledge bit with LDA released (R70). -/
def byteHalves (b : Byte) : List HalfBit :=
  (List.range 8).flatMap (fun i => bitHalves (b.getLsbD (7 - i))) ++ bitHalves true

/-- CLOSE: LCK and LDA low, then LCK released with LDA still low; LDA rises at its end (R70). -/
def closeHalves : List HalfBit := [(false, false), (true, false)]

/-- A message on the lines (R70, R195). -/
def messageHalves (bytes : List Byte) : List HalfBit :=
  openHalves ++ bytes.flatMap byteHalves ++ closeHalves

/-! ## What the samples say -/

/-- How far a message comes, as LDA is sampled: every byte acknowledged; a NACK of byte number `sent`, the
first being 1 (R81); contention in byte number `sent` (R83); or samples that end before the message does,
after `sent` whole bytes. -/
inductive ByteScan where
  | acked
  | nack (sent : Nat)
  | contention (sent : Nat)
  | partly (sent : Nat)
  deriving DecidableEq, Repr

/-- The samples of LDA against the bytes sent. In each sample bits 8..1 are the data bits and bit 0 is the
acknowledge; low where a 1 was sent is contention, high at the acknowledge is a NACK (R70, R81, R83).
Samples after the point where the message stops are no samples of it: `none`. -/
def scanSamples : List Byte → List (BitVec 9) → Nat → Option ByteScan
  | [], [], _ => some .acked
  | [], _ :: _, _ => none
  | _ :: _, [], n => some (.partly n)
  | b :: bs, v :: vs, n =>
    if b &&& ~~~((v >>> 1).setWidth 8) ≠ 0 then (if vs.isEmpty then some (.contention (n + 1)) else none)
    else if v.getLsbD 0 then (if vs.isEmpty then some (.nack (n + 1)) else none)
    else scanSamples bs vs (n + 1)

/-- Whether an idle check passes (R79). -/
def idlePasses : IdleCheck → Bool
  | .clear => true
  | .freed _ high => high
  | .stuck => false

/-- Whether an idle check is one the controller can make: it gives one to nine pulses (R79). -/
def idlePossible : IdleCheck → Bool
  | .clear => true
  | .freed n _ => decide (1 ≤ n) && decide (n ≤ 9)
  | .stuck => true

/-- The half-bits an idle check lasts without stretching: its pulses, and the CLOSE after a success (R79). -/
def idleHalves : IdleCheck → Nat
  | .clear => 0
  | .freed n _ => 2 * n + 2
  | .stuck => 18

/-- The half-bits a message lasts, as far as it comes, without stretching: OPEN, its bytes and CLOSE; after
contention the byte's acknowledge is not clocked (R70, R81, R83). -/
def scanHalves (bytes : List Byte) : ByteScan → Nat
  | .acked => (messageHalves bytes).length
  | .nack n => (messageHalves (bytes.take n)).length
  | .contention n => (messageHalves (bytes.take n)).length - (bitHalves true).length
  | .partly n => (messageHalves (bytes.take n)).length - closeHalves.length

/-- The fewest half-bits a message lasts before a stretch that expires after what the samples show (R71,
R82): OPEN and the whole bytes before it. -/
def stretchHalves (bytes : List Byte) (scan : ByteScan) : Nat :=
  let n := match scan with
    | .acked => bytes.length
    | .nack n => n
    | .contention n => n - 1
    | .partly n => n
  (messageHalves (bytes.take n)).length - closeHalves.length

/-- The half-bits a clean recovery attempt lasts after its idle check: nine pulses, OPEN and CLOSE (R88). -/
def recoveryHalves : Nat := 9 * (bitHalves true).length + (openHalves ++ closeHalves).length

/-! ## A module -/

/-- The columns of the data bytes a presence byte announces, each absent byte all zeros, from byte k on;
`none` when the number of bytes is not the number announced (R73). -/
def rebuildBytes (presence : Byte) : Nat → Nat → List Byte → Option SliceCells
  | 0, _, [] => some 0
  | 0, _, _ :: _ => none
  | fuel + 1, k, data =>
    if presence.getLsbD k then
      match data with
      | [] => none
      | b :: rest => (rebuildBytes presence fuel (k + 1) rest).map (· ||| (b.setWidth 64 <<< (8 * (7 - k))))
    else rebuildBytes presence fuel (k + 1) data

/-- What module `m` latches from a message it has received whole: the columns and the phase; `none` for a
message that names another module, has a wrong check pattern or is not whole (R72, R73). -/
def moduleReceives (m : ModuleNo) : List Byte → Option (SliceCells × Bool)
  | a :: presence :: data =>
    if a.extractLsb' 5 3 = BitVec.ofNat 3 m.val ∧ a.extractLsb' 0 4 = (0b1010 : BitVec 4) then
      (rebuildBytes presence 8 0 data).map (fun v => (v, a.getLsbD 4))
    else none
  | _ => none

/-- The latches after every module has seen a message's bytes and its CLOSE: the module named latches what it
received, and the others keep what they hold (R72, R73). -/
def latchMessage (bytes : List Byte) (l : ModuleLatches) : ModuleLatches :=
  allModules.foldl
    (fun acc m =>
      match moduleReceives m bytes with
      | some (v, write) =>
        { cols := (acc.cols &&& ~~~sliceCells m (BitVec.allOnes 64)) ||| sliceCells m v
          writePhase := if write then acc.writePhase ||| oneModule m else acc.writePhase &&& ~~~oneModule m }
      | none => acc)
    l

/-- The columns that the modules pulse at a column strobe of a kind: those latched in modules whose latched
phase is that kind (R74). -/
def pulsedColumns (p : Phase) (l : ModuleLatches) : Mask :=
  l.cols &&& moduleColumns (match p with | .erase => ~~~l.writePhase | .write => l.writePhase)

end Sys2Proof.Machine
end

