-- ==== Sys2Proof/Machine/LinkCourse.lean ====
section
/-! DEFINITION. The course of a message or of a recovery attempt on the link's lines, tick by tick: the idle check
(R79), OPEN, the bytes and CLOSE (R70, R80), a stretched bit (R71, R82), a byte refused or contended (R81, R83), and
the nine pulses of an attempt (R88). -/

namespace Sys2Proof.Machine

/-- The half-bits of a part of the course, LCK and LDA as the controller leaves them; none where it leaves both
released and gives no clock (R70, R79, R82, R83, R88). -/
def partHalves (b : Byte) : CoursePart → List HalfBit
  | .check => []
  | .pulses => (List.replicate 9 (bitHalves true)).flatten
  | .checkClose => closeHalves
  | .recheck => []
  | .clocks => (List.replicate 9 (bitHalves true)).flatten
  | .opening => openHalves
  | .byte => byteHalves b
  | .spoiled => (List.replicate 8 (bitHalves true)).flatten
  | .closing => closeHalves
  | .attempt => [(true, false), (true, false)]
  | .ended => []

/-- Whether the controller clocks LCK in a part, a low half and a high half in turn: a module can stretch such a part
(R71). OPEN is not such a part: it has no low half (R70). DESIGN CHOICE (log 9): LCK held low during the OPEN of a
recovery attempt is therefore no stretch, and the course goes on to CLOSE, although R88 names OPEN among the places
where a stretch can expire; R71 begins a stretch at the release of LCK after a low half and does not list OPEN. -/
def clockedPart : CoursePart → Bool
  | .pulses => true
  | .checkClose => true
  | .clocks => true
  | .byte => true
  | .spoiled => true
  | .closing => true
  | .check => false
  | .recheck => false
  | .opening => false
  | .attempt => false
  | .ended => false

/-- The activity of a message in a part of its course (R75, R79, R80, R81). DESIGN CHOICE (log 9): CHECKING until OPEN
is complete, and CLOSING in a CLOSE attempt (R82). A message at its end keeps its activity. -/
def partActivity (before : Activity) : CoursePart → Activity
  | .check => .checking
  | .pulses => .checking
  | .checkClose => .checking
  | .recheck => .checking
  | .clocks => .checking
  | .opening => .checking
  | .byte => .sending
  | .spoiled => .sending
  | .closing => .closing
  | .attempt => .closing
  | .ended => before

/-- What a passed idle check is followed by: OPEN, or an attempt's nine pulses (R79, R88). -/
def afterCheck (recovering : Bool) : CoursePart := if recovering then .clocks else .opening

/-- The controller reads the lines in an idle check: before its pulses, LDA once LCK reads high; after the CLOSE that
follows them, both (R79). While LCK is low at first, it waits. -/
def readLines (recovering lck lda : Bool) (c : LinkCourse) : LinkCourse :=
  match c.part with
  | .check =>
    if lck then c else if lda then LinkCourse.start .pulses else LinkCourse.start (afterCheck recovering)
  | .recheck =>
    if lck || lda then LinkCourse.start .ended else LinkCourse.start (afterCheck recovering)
  | _ => c

/-- What follows a part at its end, with `left` bytes still to be sent after the one in hand (R70, R79, R80, R81, R83,
R88). A byte refused is followed by CLOSE; nine pulses that have not freed LDA end the idle check, which has failed. -/
def partAfter (recovering : Bool) (left : Nat) (c : LinkCourse) : CoursePart :=
  match c.part with
  | .checkClose => .recheck
  | .clocks => .opening
  | .opening => if recovering then .closing else .byte
  | .byte => if c.ldaLow && decide (0 < left) then .byte else .closing
  | .spoiled => .closing
  | .check => .ended
  | .pulses => .ended
  | .recheck => .ended
  | .closing => .ended
  | .attempt => .ended
  | .ended => .ended

/-- One tick of a stretch (R71). At the limit it has expired: a message attempts CLOSE, and an idle check or a recovery
attempt fails (R79, R82, R88). -/
def stretchCourse (recovering : Bool) (limit : Nat) (c : LinkCourse) : LinkCourse :=
  if c.stretch + 1 < limit then { c with stretch := c.stretch + 1 }
  else
    let next := match c.part with
      | .byte | .spoiled | .closing => if recovering then CoursePart.ended else .attempt
      | _ => .ended
    { LinkCourse.start next with stretch := c.stretch + 1 }

/-- LDA is sampled as LCK reads high (R70): a data bit sent as 1 and read low is contention, and the controller gives
the byte's remaining pulses with LDA released (R83). -/
def sampleCourse (sent lda : Bool) (c : LinkCourse) : LinkCourse :=
  { c with
    part := if c.part = .byte ∧ c.half < 16 ∧ sent = true ∧ lda = true then .spoiled else c.part
    stretch := 0
    ldaLow := lda || !sent }

/-- One tick of a half-bit that no module stretches (R69, R70); after the last half-bit of a part the next begins, and
a pulse of an idle check that has freed LDA is the last (R79). -/
def advanceCourse (recovering : Bool) (halfBit left : Nat) (b : Byte) (c : LinkCourse) : LinkCourse :=
  if c.tick + 1 < halfBit then { c with tick := c.tick + 1 }
  else if c.part = .pulses ∧ c.half % 2 = 1 ∧ c.ldaLow = false then LinkCourse.start .checkClose
  else if c.half + 1 < (partHalves b c.part).length then { c with half := c.half + 1, tick := 0 }
  else LinkCourse.start (partAfter recovering left c)

/-- One tick of the course, with the lines held low from outside or not (R70, R71, R79 to R83, R88): `bytes` are those
still to be sent, the one in hand first. -/
def courseTick (recovering : Bool) (limit halfBit : Nat) (bytes : List Byte) (lck lda : Bool) (c : LinkCourse) :
    LinkCourse :=
  let b := bytes.headD 0
  let c := readLines recovering lck lda c
  let rises := c.tick = 0 ∧ c.half % 2 = 1
  if c.part = .ended then c
  else if lck = true ∧ (c.part = .check ∨ rises ∧ clockedPart c.part = true) then stretchCourse recovering limit c
  else if lck = true ∧ rises ∧ c.part = .attempt then LinkCourse.start .ended
  else
    advanceCourse recovering halfBit (bytes.length - 1) b
      (if rises then sampleCourse ((partHalves b c.part).getD c.half (true, true)).2 lda c else c)

/-- Whether a tick of the course has ended the byte in hand, with its acknowledge bit (R70, R80). DESIGN CHOICE (log 9):
a byte refused there counts as sent too. -/
def byteOver (c c' : LinkCourse) : Bool :=
  decide (c.part = .byte ∧ c.half = 17 ∧ c'.half = 0) && (c'.part == .byte || c'.part == .closing)

/-- One tick of what is on the link, with the lines held low from outside or not: its course, the activity and the
bytes sent go on (R75, R80). -/
def linkCourse (lck lda : Bool) (l : DriverLink) : DriverLink :=
  match l.message with
  | some m =>
    let c := courseTick false l.stretchLimit l.halfBit ((messageBytes m).drop m.bytesSent) lck lda l.course
    { l with
      course := c
      activity := partActivity l.activity c.part
      message := some { m with bytesSent := m.bytesSent + if byteOver l.course c then 1 else 0 } }
  | none =>
    if l.activity = .recovering then
      { l with course := courseTick true l.stretchLimit l.halfBit [] lck lda l.course }
    else l

end Sys2Proof.Machine
end

