-- ==== Sys2Proof/Machine/Operands.lean ====
section
/-! DEFINITION. Operand forms: the decoding of a bus cycle (R1, R2), the combines (R3), protection (R5), the
cell mask of an area word (R152), the arguments of commands (R193), and the store's settings (R182 to R184). -/

namespace Sys2Proof.Machine

/-! ## Bus cycles -/

/-- The regions of the aperture (R2). -/
inductive Region where
  | image (row : Row) (word : WordIx)
  | command (word : WordIx)
  | status (word : WordIx)
  | void
  deriving DecidableEq, Repr

/-- What a bus cycle's address decodes to (R1). -/
inductive Decoded where
  | passThrough
  | aperture (view : BitVec 3) (region : Region)
  deriving DecidableEq, Repr

/-- The quarter of the address space, bits 19..18 (R1). -/
def addrQuarter (a : BusAddr) : Nat := (a.extractLsb' 18 2).toNat

/-- The view of the aperture, bits 17..15 (R1). -/
def addrView (a : BusAddr) : BitVec 3 := a.extractLsb' 15 3

/-- The offset, bits 14..0 (R1). -/
def addrOffset (a : BusAddr) : Nat := (a.extractLsb' 0 15).toNat

/-- The region of an offset (R2). -/
def regionOf (off : Nat) : Region :=
  if off < Config.commandBase then .image (Fin.ofNat 512 (off / 32)) (Fin.ofNat 32 (off % 32))
  else if off < Config.statusBase then .command (Fin.ofNat 32 (off - Config.commandBase))
  else if off < Config.statusBase + 32 then .status (Fin.ofNat 32 (off - Config.statusBase))
  else .void

/-- The Aperture Decoder, with the aperture position in force (R1). -/
def decodeAddr (position : Nat) (a : BusAddr) : Decoded :=
  if addrQuarter a = position then .aperture (addrView a) (regionOf (addrOffset a)) else .passThrough

/-- The decoding of an address in a state. -/
def decodeIn (s : State) (a : BusAddr) : Decoded := decodeAddr s.store.settings.aperture a

/-- Views 4..7 are privileged (R2). -/
def privilegedView (v : BitVec 3) : Bool := v.getLsbD 2

/-- The combine of a view: 0 and 4 REPLACE, 1 and 5 SET, 2 and 6 CLEAR, 3 and 7 COMPLEMENT (R3). -/
def viewCombine (v : BitVec 3) : Combine :=
  match v.getLsbD 1, v.getLsbD 0 with
  | false, false => .replace
  | false, true => .set
  | true, false => .clear
  | true, true => .complement

/-- The new word N of the stored word O and the data D (R3). -/
def combine (c : Combine) (o d : Word) : Word :=
  match c with
  | .replace => d
  | .set => o ||| d
  | .clear => o &&& ~~~d
  | .complement => o ^^^ d

/-- The cells a write turned on (R10). -/
def riseBits (o n : Word) : Word := n &&& ~~~o

/-- The cells a write turned off (R10). -/
def fallBits (o n : Word) : Word := o &&& ~~~n

/-- Whether a row lies in the protected band (R5). -/
def inBand (t : Settings) (r : Row) : Bool :=
  decide (t.firstRow ≤ r.val) && decide (r.val < t.firstRow + t.rowCount)

/-! ## Area words -/

/-- The cells of word w that an area may change (R152). -/
def areaCells (a : AreaOp) (w : WordIx) : Word :=
  if a.firstWord = a.lastWord then a.leftMask &&& a.rightMask
  else if w = a.firstWord then a.leftMask
  else if w = a.lastWord then a.rightMask
  else BitVec.allOnes 16

/-- The pattern word of a row, by its absolute number (R153). -/
def areaPattern (a : AreaOp) (r : Row) : Word := a.pattern.getD (r.val % 4) 0

/-- The new word of an area word (R153). -/
def areaCombine (c : Combine) (o d cells : Word) : Word :=
  match c with
  | .replace => (o &&& ~~~cells) ||| (d &&& cells)
  | .set => o ||| (d &&& cells)
  | .clear => o &&& ~~~(d &&& cells)
  | .complement => o ^^^ (d &&& cells)

/-- The combine that op 0..3 names in an AREA command (R149, R150, R193). DEDUCED (log 38): the manual gives op no
numbering, and the model takes the order in which R149 lists the names, which is that of the alias numbers (R3). -/
def opCombine (op : Nat) : Combine :=
  match op with
  | 0 => .replace
  | 1 => .set
  | 2 => .clear
  | _ => .complement

/-! ## Commands -/

/-- The result codes (R169). -/
inductive Result where
  | ok
  | truncated
  | aborted
  | badCode
  | badArgument
  | notInSetup
  | alreadyWritten
  | wrongState
  deriving DecidableEq, Repr

/-- The code of a result (R169). -/
def resultCode : Result → Byte
  | .ok => 0x80
  | .truncated => 0x81
  | .aborted => 0x82
  | .badCode => 0xC0
  | .badArgument => 0xC1
  | .notInSetup => 0xC2
  | .alreadyWritten => 0xC3
  | .wrongState => 0xC4

/-- The state code of a command that runs (R169). -/
def runningCode : Byte := 0x01

/-- Command word 0 for a code and a state (R193). -/
def commandWord (code state : Byte) : Word := code ++ state

/-- The high byte of a word. -/
def highByte (v : Word) : Byte := v.extractLsb' 8 8

/-- The low byte of a word. -/
def lowByte (v : Word) : Byte := v.extractLsb' 0 8

/-- The codes that name commands (R170). -/
def commandCodes : List Byte := [0x01, 0x02, 0x03, 0x04, 0x05, 0x06, 0x07, 0x08, 0x10, 0x11, 0x12]

/-- The command words a command reads at acceptance, in ascending order (R193). -/
def argumentWords (code : Byte) : List WordIx :=
  if code = 0x01 then [1, 2]
  else if code = 0x03 then [1, 3, 4, 5, 6, 7, 8, 9, 10, 11, 12]
  else if code = 0x08 ∨ code = 0x10 then [1]
  else if code = 0x11 then [1, 2]
  else []

/-- A word of the command copy (R164). -/
def copyWord (h : CommandHandler) (w : WordIx) : Word := cellsRead 0 h.copy w.val

/-! ## The settings store -/

/-- A word of the store; a word not listed reads as erased (R181). -/
def storeWord (words : Cells Word) (i : Nat) : Word := cellsRead Config.erasedWord words i

/-- A value brought into a range (R183). -/
def intoRange (lo hi n : Nat) : Nat := max lo (min hi n)

/-- The range step of a load (R182, R183), on the words of a store whose format word is right. -/
def rangeStep (words : Cells Word) : Settings :=
  let v := fun i => (storeWord words i).toNat
  { aperture := intoRange 0 3 (v 1), firstRow := intoRange 0 511 (v 2), rowCount := intoRange 0 64 (v 3),
    pMin := intoRange 40 255 (v 4), pMax := intoRange 0 255 (v 5), k := intoRange 256 16383 (v 6),
    allowance := intoRange 1 8 (v 7), ws := intoRange 0 255 (v 8), dr := intoRange 0 255 (v 9),
    wr := intoRange 0 255 (v 10), dc := intoRange 0 255 (v 11), wc := intoRange 0 255 (v 12),
    settleLimit := intoRange 64 65535 (v 13), lossLimit := intoRange 256 65535 (v 14),
    holdLimit := intoRange 0 4095 (v 15), weight := intoRange 1 15 (v 16),
    halfBit := intoRange 1 15 (v 17), stretchLimit := intoRange 8 1023 (v 18),
    sampleIndex := intoRange 0 255 (v 19), baseCode := intoRange 0 1023 (v 20),
    gain := intoRange 0 255 (v 21), tolerance := intoRange 1 255 (v 22) }

/-- Step 1: the band ends within the image (R184). -/
def fitBand (t : Settings) : Settings :=
  if 512 < t.firstRow + t.rowCount then { t with rowCount := 512 - t.firstRow } else t

/-- Step 2: P_max is at least P_min (R184). -/
def fitLongest (t : Settings) : Settings :=
  if t.pMax < t.pMin then { t with pMax := t.pMin } else t

/-- Step 3: the sustain pulses fit (R184). -/
def fitSustain (t : Settings) : Settings :=
  if t.pMin / 2 - 2 < t.ws + 1 then { t with ws := t.pMin / 2 - 3 } else t

/-- Step 4, first part: the column pulse begins within the period (R184). -/
def fitColumnStart (t : Settings) : Settings :=
  if t.pMin - 3 < t.dc then { t with dc := 0 } else t

/-- Step 4, second part: the strobe falls two ticks before the end (R184). -/
def fitColumnWidth (t : Settings) : Settings :=
  if t.pMin - 2 < t.dc + t.wc + 1 then { t with wc := t.pMin - 3 - t.dc } else t

/-- Step 5: the row select begins no later than the column pulse (R184). -/
def fitRowStart (t : Settings) : Settings :=
  if t.dc < t.dr then { t with dr := t.dc } else t

/-- Step 6: the row select lasts at least to the strobe (R184). -/
def fitRowWidth (t : Settings) : Settings :=
  if t.dr + t.wr + 1 < t.dc + t.wc + 1 then { t with wr := t.dc + t.wc - t.dr } else t

/-- The six ordered steps of R184. -/
def fitTogether (t : Settings) : Settings :=
  fitRowWidth (fitRowStart (fitColumnWidth (fitColumnStart (fitSustain (fitLongest (fitBand t))))))

/-- Whether the format word is right (R183). -/
def formatRight (words : Cells Word) : Bool := decide (storeWord words 0 = Config.formatWord)

/-- The settings a load of the store gives (R183, R184). -/
def loadSettings (words : Cells Word) : Settings :=
  fitTogether (if formatRight words then rangeStep words else defaultSettings)

/-- The timing copy of settings (R105). -/
def timingOf (t : Settings) : Timing :=
  { ws := t.ws, dr := t.dr, wr := t.wr, dc := t.dc, wc := t.wc, allowance := t.allowance,
    pMin := t.pMin, pMax := t.pMax, k := t.k, sampleIndex := t.sampleIndex }

/-! ## The Load Limiter and the expected code -/

/-- The load quotient q: L divided by K, rounded up (R134). -/
def loadQuotient (l k : Nat) : Nat := (l + k - 1) / k

/-- The period length for a load, and whether the frame is overloaded (R134). -/
def limitPeriod (t : Timing) (l : Nat) : Nat × Bool :=
  let q := loadQuotient l t.k
  if q ≤ t.pMin then (t.pMin, false)
  else if q ≤ t.pMax then (q, false)
  else (t.pMax, true)

/-- The expected code of a captured L (R138). -/
def expectedCode (t : Settings) (l : Nat) : Nat := min 1023 (t.baseCode + l * t.gain / 65536)

/-- The code of a held level, in units of the converter's scale (R139). -/
def measuredCode (level : Int) : Nat := min 1023 level.toNat

/-! ## Pulses within a period -/

/-- The tick of the strobe of an ADDRESS period or a global erase period (R100, R102). -/
def strobeTick (t : Timing) : Nat := t.dc + t.wc + 1

/-- The length of a period: P, or P_min for a global erase (R95). -/
def periodLength (g : PeriodGen) (p : Period) : Nat :=
  match p.kind with
  | .globalErase => g.timing.pMin
  | _ => g.length

end Sys2Proof.Machine
end

