-- ==== Sys2Proof/Machine/PortRanks.lean ====
section
/-! DEFINITION. The ranks of the Image Memory Port (R17), and the requests of its units below the processor's, with
the record of which of them may have been granted (log 21). -/

namespace Sys2Proof.Machine

/-! ## Ranks -/

/-- Whether the processor's unit waits: the first rank of the port (R17). -/
def processorWaits (s : State) : Bool :=
  match s.wmu.state with
  | .merging _ => true
  | _ => false

/-- Whether the area word's unit is being served (R149). -/
def areaGranted (s : State) : Bool :=
  match s.area with
  | some a => a.unit == .granted
  | none => false

/-- Whether every rank of the port above the snapshot word read is empty, and no unit is being served (R17). -/
def upperRanksEmpty (s : State) : Bool :=
  !processorWaits s && !s.port.burst && s.port.third.isEmpty && !areaGranted s

/-- Whether a snapshot word read is requested (R54). -/
def snapshotAsked (s : State) : Bool :=
  match s.sched.op with
  | some op => op.stage == .snapshot && op.asked
  | none => false

/-- Whether the port may grant the area word's unit at this instant, once it is requested: no rank above it waits, and
no unit is being served (R17). -/
def areaGrantable (s : State) : Bool := upperRanksEmpty s && !snapshotAsked s

/-! ## Which units may have been granted -/

/-- Which units may have been granted by now: those that have stood first since the port's last unit ended, and the one
that is first now (R17). -/
def reachedNow (s : State) : PortReached :=
  { burst := s.reached.burst || (s.port.burst && !processorWaits s && !areaGranted s)
    third := s.reached.third || (!s.port.third.isEmpty && !s.port.burst && !processorWaits s && !areaGranted s)
    area := s.reached.area || (areaGrantable s && s.area.any (fun a => a.unit == .requested)) }

/-- A unit is about to be requested: those that are first until then may have been granted before it (R17). -/
def noteFirst (s : State) : State := s.setReached (reachedNow s)

/-- The first third-rank unit is newly requested, and has not been granted yet. -/
def thirdAfresh (s : State) : State := s.setReached { s.reached with third := false }

/-- The port finishes a unit, the processor's or another (R17). It grants the next one of those that wait at this
instant, so none of them was granted before (log 21); `gapDue` is set by the processor's unit and cleared by any other
(log 37). -/
def unitEnds (processors : Bool) (s : State) : State :=
  (s.setGapDue processors).setReached { burst := false, third := false, area := false }

/-- What the end of a unit leaves of the MODEL's record of the port: whose unit it was, and that no unit that waits has
been granted (R17, logs 21, 37). -/
abbrev UnitEnded (processors : Bool) (t : State) : Prop :=
  t.gapDue = processors ∧ t.reached = { burst := false, third := false, area := false }

/-! ## Requests -/

/-- A request of a status burst: one made while a burst waits is served by that burst (R177). -/
def requestBurst (s : State) : State :=
  if s.port.burst then s
  else
    let s := noteFirst s
    (s.setPort { s.port with burst := true }).setReached { s.reached with burst := false }

/-- A request of a third-rank unit, if it is not waiting already (R16, R17). -/
def requestThird (u : ThirdRank) (s : State) : State :=
  if u ∈ s.port.third then s
  else
    let s := noteFirst s
    let s := if s.port.third.isEmpty then thirdAfresh s else s
    s.setPort { s.port with third := s.port.third ++ [u] }

/-- A request of a notice-word update, if none is waiting (R176). -/
def requestNoticeUpdate (s : State) : State := requestThird .noticeUpdate s

/-- A request of a command-row word write: the handler has at most one outstanding (R16, R168). -/
def requestCommandWrite (s : State) : State := requestThird .commandWrite s

end Sys2Proof.Machine
end

