-- ==== Sys2Proof/Machine/Flags.lean ====
section
/-! DEFINITION. Notices and the attention line, the counters, the results of commands, and the layout of the
status record (R175 to R179, R194). -/

namespace Sys2Proof.Machine

/-- The eight kinds of notice. -/
inductive Notice where
  | commandDone
  | panelLost
  | linkFault
  | moduleFailed
  | drift
  | overload
  | degraded
  | settingsDefault
  deriving DecidableEq, Repr

/-- The bit of the notice word that stands for a notice (R194). -/
def noticeBit : Notice → Nat
  | .commandDone => 0
  | .panelLost => 1
  | .linkFault => 2
  | .moduleFailed => 3
  | .drift => 4
  | .overload => 5
  | .degraded => 6
  | .settingsDefault => 7

/-- Whether a notice is in the set. -/
def noticePresent (n : Notice) (s : State) : Bool := s.notice.notices.getLsbD (noticeBit n)

/-- The notice set becomes another, and the attention line follows it (R175). -/
def setNotices (v : BitVec 8) (s : State) : State :=
  s.setNotice { s.notice with notices := v, attention := v != 0 }

/-- A notice is raised (R175): a notice already present changes nothing. -/
def raiseNotice (n : Notice) (s : State) : State :=
  if noticePresent n s then s
  else requestNoticeUpdate (setNotices (s.notice.notices ||| (1#8 <<< noticeBit n)) s)

/-! ## Counters (R179) -/

/-- One more protected discard (R8). -/
def countProtected (s : State) : State :=
  s.setNotice { s.notice with protectedDiscards := saturate (s.notice.protectedDiscards + 1) }

/-- One more degraded row (R14, R157), with its notice. -/
def countDegraded (s : State) : State :=
  raiseNotice .degraded
    (s.setNotice { s.notice with degradedRows := saturate (s.notice.degradedRows + 1) })

/-- One more annulled entry (R28, R40). -/
def countAnnulled (s : State) : State :=
  s.setNotice { s.notice with annulled := saturate (s.notice.annulled + 1) }

/-- More dropped cells (R55, R56). -/
def countDropped (n : Nat) (s : State) : State :=
  s.setNotice { s.notice with droppedCells := saturate (s.notice.droppedCells + n) }

/-- One more link retry (R84). -/
def countRetry (s : State) : State :=
  s.setNotice { s.notice with retries := saturate (s.notice.retries + 1) }

/-- One more contention (R83). -/
def countContention (s : State) : State :=
  s.setNotice { s.notice with contentions := saturate (s.notice.contentions + 1) }

/-- One more command-row discard (R166). -/
def countCommandDiscard (s : State) : State :=
  s.setNotice { s.notice with commandDiscards := saturate (s.notice.commandDiscards + 1) }

/-! ## Status bursts and command results -/

/-- The block that carried out the running command hands its result and result words (R168): they are to be
written after what is still to be written, and word 0 last. A command that already has its result, or none
running, changes nothing. -/
def finishCommand (res : Result) (words : List (WordIx × Word)) (s : State) : State :=
  match s.cmd.running with
  | none => s
  | some r =>
    if r.result.isSome then s
    else
      requestCommandWrite (s.setCmd { s.cmd with
        running := some { r with
          result := some (resultCode res)
          writes := r.writes ++ words ++ [(0, commandWord r.code (resultCode res))] } })

/-- Whether an ABORT has been taken for the running command (R163). -/
def abortTaken (s : State) : Bool :=
  match s.cmd.running with
  | some r => r.abortTaken
  | none => false

/-! ## The status record -/

/-- The code of a sequencer state (R194). -/
def seqCode : SeqState → BitVec 3
  | .dark => 0
  | .settling => 1
  | .priming => 2
  | .lit => 3
  | .gap => 4
  | .resuming => 5

/-- The code of a reset cause (R194). -/
def causeBit : ResetCause → Bool
  | .powerOn => false
  | .resetInput => true

/-- Status word 1: the states of the blocks (R194). -/
def stateWord (s : State) : Word :=
  (BitVec.ofBool (causeBit s.notice.cause) ++ BitVec.ofNat 2 s.sense.runCount
    ++ BitVec.ofBool s.sense.holdOff ++ BitVec.ofBool s.cmd.setupOpen
    ++ BitVec.ofBool (s.link.state == .faulted) ++ BitVec.ofBool s.seq.filtered
    ++ BitVec.ofBool s.seq.blanked ++ seqCode s.seq.state : BitVec 11).setWidth 16

/-- The notice word (R176, R194). -/
def noticeWord (s : State) : Word := s.notice.notices.setWidth 16

/-- Word k of the status record (R194). -/
def statusWord (s : State) (k : Nat) : Word :=
  match k with
  | 0 => noticeWord s
  | 1 => stateWord s
  | 2 => s.link.failed.setWidth 16
  | 3 => BitVec.ofNat 16 s.period.frameCount
  | 4 => BitVec.ofNat 16 s.seq.gapLength
  | 5 => (BitVec.ofNat 10 s.sense.m).setWidth 16
  | 6 => (BitVec.ofNat 10 s.sense.e).setWidth 16
  | 7 => BitVec.ofNat 16 s.notice.protectedDiscards
  | 8 => BitVec.ofNat 16 s.notice.degradedRows
  | 9 => BitVec.ofNat 16 s.notice.annulled
  | 10 => BitVec.ofNat 16 s.notice.droppedCells
  | 11 => BitVec.ofNat 16 s.notice.retries
  | 12 => BitVec.ofNat 16 s.notice.contentions
  | 13 => BitVec.ofNat 16 s.notice.commandDiscards
  | _ => 0

/-- The status record as the 32 writes of a burst (R178). -/
def statusRecord (s : State) : List (Nat × Word) :=
  (List.range 32).map (fun k => (Config.statusBase + k, statusWord s k))

end Sys2Proof.Machine
end

