-- ==== Sys2Proof/Machine/TableOps.lean ====
section
/-! DEFINITION. The Change Table (R18 to R43), the requests to the Resync Sets (R44 to R47), the Write Merge
Unit's hold (R11 to R14) and the driver clear request (R110). -/

namespace Sys2Proof.Machine

/-- In DARK, SETTLING and PRIMING the controller holds no record of the panel (above R114). -/
def recordless : SeqState → Bool
  | .dark => true
  | .settling => true
  | .priming => true
  | .lit => false
  | .gap => false
  | .resuming => false

/-- Whether a row is in the FULL set or the FILL set. -/
def inResync (s : State) (r : Row) : Bool := hasRow s.sets.full r || hasRow s.sets.fill r

/-- The number of slots in use (R18). -/
def slotsInUse (t : ChangeTable) : Nat := t.ageQueue.length + (if t.taken.isSome then 1 else 0)

/-- The OPEN entry of a row. -/
def openEntry (t : ChangeTable) (r : Row) : Option Entry := t.ageQueue.find? (fun e => e.row == r)

/-- The age queue without a row's OPEN entry; the others keep their order (R21). -/
def dropRow (q : List Entry) (r : Row) : List Entry := q.filter (fun e => e.row != r)

/-- The age queue without the OPEN entries of the rows of a set (R34). -/
def dropRows (q : List Entry) (rows : RowSet) : List Entry := q.filter (fun e => !hasRow rows e.row)

/-- Cells to be lit and cells to be darkened are applied to an entry, cell by cell (R26, R39): an action
that meets its opposite removes it, and one that meets nothing or itself stands. -/
def applyActions (e : Entry) (light dark : Mask) : Entry :=
  { e with
    setMask := (e.setMask &&& ~~~dark) ||| (light &&& ~~~e.clearMask)
    clearMask := (e.clearMask &&& ~~~light) ||| (dark &&& ~~~e.setMask) }

/-- Whether both masks of an entry are empty (R28). -/
def emptyEntry (e : Entry) : Bool := e.setMask == 0 && e.clearMask == 0

/-- Whether a row is that of a FULL or FILL snapshot in progress and a word is at or above its cursor (R25). -/
def aboveCursor (s : State) (r : Row) (w : WordIx) : Bool :=
  match s.sched.op with
  | some op =>
    op.row == r && op.stage == .snapshot &&
      (match op.cursor with
       | some c => decide (c ≤ w.val)
       | none => false)
  | none => false

/-- Whether a difference is dropped at routing (R25). -/
def dropped (s : State) (r : Row) (w : WordIx) : Bool := inResync s r || aboveCursor s r w

/-- The merge of one difference (R25 to R29): `none` when the table has no room for it. -/
def mergeDifference (r : Row) (w : WordIx) (rise fall : Word) (s : State) : Option State :=
  if dropped s r w then some s
  else
    match openEntry s.table r with
    | some e =>
      let e' := applyActions e (wordCells w rise) (wordCells w fall)
      if emptyEntry e' then
        some (countAnnulled (s.setTable { s.table with ageQueue := dropRow s.table.ageQueue r }))
      else
        some (s.setTable { s.table with
          ageQueue := s.table.ageQueue.map (fun x => if x.row == r then e' else x) })
    | none =>
      if slotsInUse s.table < Config.slots then
        some (s.setTable { s.table with
          ageQueue := s.table.ageQueue ++
            [{ row := r, setMask := wordCells w rise, clearMask := wordCells w fall }] })
      else none

/-! ## The hold -/

/-- The Write Merge Unit is IDLE, READY is released and the processor's cycle completes (R10, R12 to R14). -/
def endCycle (s : State) : State :=
  (s.setWmu { s.wmu with state := .idle }).setBus { s.bus with ready := true }

/-- The held change record is offered to the merge again, and stays held if there is still no room (R12, R30). -/
def offerHeld (h : HeldChange) (s : State) : State :=
  match mergeDifference h.row h.word h.rise h.fall s with
  | some s' => endCycle s'
  | none => s

/-- Whether an area word, at the grant of its unit, would seek a slot of the Change Table: its difference is not
empty and not dropped, and its row has no OPEN entry (R153, R156, R157). -/
def areaSeeksSlot (a : AreaOp) (s : State) : Bool :=
  let o := readMem s (imageOffset a.row a.word)
  areaCombine a.op o (areaPattern a a.row) (areaCells a a.word) != o && !dropped s a.row a.word &&
    (openEntry s.table a.row).isNone

/-- Whether a held record without an OPEN entry for its row and an area word that may be granted now both seek the
one slot that is free (R12, R30, R158). With more free slots than one, each finds its own. -/
def areaContends (h : HeldChange) (s : State) : Bool :=
  match s.area with
  | some a =>
    a.unit == .requested && areaGrantable s && (openEntry s.table h.row).isNone &&
      decide (slotsInUse s.table + 1 = Config.slots) && areaSeeksSlot a s
  | none => false

/-- The area word's unit is granted (R149, R153). -/
def grantArea (s : State) : State := s.setArea (s.area.map (fun a => { a with unit := .granted }))

/-- What an event that frees a slot, gives a row an OPEN entry or adds rows to a resync set does to a hold
(R12, R13, R30): if the held row is in a resync set the record is dropped, and otherwise it is offered to
the merge again. If an area word seeks the slot too, either comes first (R158): a free value decides (log 7), and
an area word that comes first has its unit granted at this instant, with the record offered at the unit's end. -/
def settleHold (s : State) : State :=
  match s.wmu.state with
  | .holding h =>
    if inResync s h.row then endCycle s
    else if areaContends h s then
      if Config.firstWins s.freeCount then grantArea (drawFree s) else offerHeld h (drawFree s)
    else offerHeld h s
  | _ => s

/-! ## Requests to the Resync Sets -/

/-- Rows join the FULL set, and the OPEN entries of the rows added are freed (R34, R45, R47); the request is ignored
while no record of the panel is held. The hold is settled at the end of the event that asks. -/
def addFull (rows : RowSet) (s : State) : State :=
  if recordless s.seq.state then s
  else
    (s.setSets { s.sets with full := s.sets.full ||| rows, fill := s.sets.fill &&& ~~~rows }).setTable
      { s.table with ageQueue := dropRows s.table.ageQueue (rows &&& ~~~s.sets.full) }

/-- A request to add rows to the FULL set, taken as one event (R45, R47). -/
def requestFull (rows : RowSet) (s : State) : State :=
  if recordless s.seq.state then s else settleHold (addFull rows s)

/-- A request to add a row to the FILL set; a row of the FULL set stays there (R46). -/
def requestFill (r : Row) (s : State) : State :=
  if hasRow s.sets.full r then s
  else
    settleHold
      ((s.setSets { s.sets with fill := s.sets.fill ||| oneRow r }).setTable
        { s.table with ageQueue := dropRow s.table.ageQueue r })

/-- A hold, if there is one, ends with its record dropped (R13, R125). -/
def dropHold (s : State) : State :=
  match s.wmu.state with
  | .holding _ => endCycle s
  | _ => s

/-- Every row of the panel is dark and owed a write from memory, at one event (R35, R36, R47, R65): the Change
Table is emptied, the FULL set becomes empty and the FILL set holds every row, the lit table and the table
run count become 0, and a held change record is dropped. -/
def allRowsDark (s : State) : State :=
  dropHold
    ((((s.setTable { ageQueue := [], taken := none }).setSets
      { s.sets with full := 0, fill := RowSet.all }).setLit { counts := [], total := 0 }).setSched
        { s.sched with runCount := 0 })

/-- The hold expires, or would begin with a hold limit of 0 (R11, R14). -/
def degradeHeld (r : Row) (s : State) : State := endCycle (countDegraded (requestFull (oneRow r) s))

/-- The difference of a processor write is placed, or the write is held (R10, R11). -/
def placeOrHold (h : HeldChange) (s : State) : State :=
  match mergeDifference h.row h.word h.rise h.fall s with
  | some s' => endCycle s'
  | none =>
    if s.store.settings.holdLimit = 0 then degradeHeld h.row s
    else s.setWmu { state := .holding h, holdCounter := 0 }

/-! ## Merge-back -/

/-- The returned actions of a DELTA operation come back to the table (R37 to R41). -/
def mergeBack (r : Row) (writes erases : Mask) (s : State) : State :=
  let t := { s.table with taken := none }
  if inResync s r then settleHold (s.setTable t)
  else
    let e := applyActions ((openEntry s.table r).getD { row := r, setMask := 0, clearMask := 0 }) writes erases
    if emptyEntry e then
      settleHold (countAnnulled (s.setTable { t with ageQueue := dropRow t.ageQueue r }))
    else settleHold (s.setTable { t with ageQueue := e :: dropRow t.ageQueue r })

/-! ## The driver clear request -/

/-- A driver clear pulse becomes due (R110): a request while one is pending is served by it, and one while a
pulse is being given asks for another. -/
def requestClear (s : State) : State :=
  s.setPeriod { s.period with
    clearPulse :=
      match s.period.clearPulse with
      | .given t _ => .given t true
      | _ => .pending }

end Sys2Proof.Machine
end

