-- ==== Sys2Proof/Machine/RowOps.lean ====
section
/-! DEFINITION. Row operations and the driver link together: phases (R55, R56), completion (R60), the service
of slices and probes (R78), the outcomes of messages (R80 to R85, R91), the link fault (R86) and the return of
an operation (R61), and probe rounds (R92). -/

namespace Sys2Proof.Machine

/-! ## Beginning messages -/

/-- A message's idle check begins: the half-bit and the stretch limit are read (R69, R79). -/
def beginMessage (m : Message) (s : State) : State :=
  s.setLink { s.link with
    message := some m
    activity := .checking
    halfBit := s.store.settings.halfBit
    stretchLimit := s.store.settings.stretchLimit
    elapsed := 0
    course := LinkCourse.start .check }

/-- Whether the phase of the operation in flight is in stage LOADING (R78). -/
def phaseLoading (s : State) : Bool :=
  match s.sched.op with
  | some op => op.stage == .loading
  | none => false

/-- The module of the probe round to be probed next (R90). -/
def nextProbe (s : State) : Option ModuleNo :=
  match s.link.round with
  | some r => r.left.head?
  | none => none

/-- The link takes its next work if it is free and OK: a waiting slice, or, while no phase is LOADING, the
next probe of the round (R78). -/
def linkNext (s : State) : State :=
  if s.link.state == .faulted || s.link.message.isSome then s
  else
    match s.link.waiting with
    | some v => beginMessage (loadMessageOf v) (s.setLink { s.link with waiting := none })
    | none =>
      if phaseLoading s then s
      else
        match nextProbe s with
        | some m => beginMessage (probeOf m) s
        | none => s

/-- A slice of a phase already LOADING is handed: it is sent at once, or waits for the probe on the link (R78). -/
def handSlice (v : Slice) (s : State) : State :=
  if s.link.message.isSome then s.setLink { s.link with waiting := some v }
  else beginMessage (loadMessageOf v) s

/-- The first slice of a phase is handed. If the link is free and a probe is due, the link became free at this
same event, and either is taken first (R78): a free value decides (log 7). -/
def handFirst (v : Slice) (s : State) : State :=
  if s.link.message.isNone && (nextProbe s).isSome then
    match nextProbe s with
    | some m =>
      if Config.firstWins s.freeCount then beginMessage (loadMessageOf v) (drawFree s)
      else beginMessage (probeOf m) ((drawFree s).setLink { s.link with waiting := some v })
    | none => s
  else handSlice v s

/-! ## Phases -/

/-- The modules whose slice of a mask has cells. -/
def slicedModules (mask : Mask) : List ModuleNo := allModules.filter (fun m => maskSlice mask m != 0)

/-- The modules of a mask whose slices are handed to the link: nonempty slices of PRESENT modules (R55). -/
def presentSlices (failed : ModuleSet) (mask : Mask) : List ModuleNo :=
  (slicedModules mask).filter (fun m => !hasModule failed m)

/-- The number of cells in the slices dropped at a phase start: those of FAILED modules (R55). -/
def cellsDropped (failed : ModuleSet) (mask : Mask) : Nat :=
  (((slicedModules mask).filter (fun m => hasModule failed m)).map (fun m => cellCount (maskSlice mask m))).sum

/-- The mask and kind of the phase an operation works on (R52). -/
def workingPhase (op : RowOp) : Phase × Mask :=
  match op.phase with
  | .erase => (.erase, op.eraseMask)
  | .write => (.write, op.writeMask)
  | .complete => (.write, op.writeMask)

/-- The slice of the phase being worked on that belongs to a module (R55). -/
def phaseSlice (op : RowOp) (m : ModuleNo) : Slice :=
  { modNo := m, phase := (workingPhase op).1, cells := maskSlice (workingPhase op).2 m }

/-- The operation in flight becomes another record, or none. -/
def setOp (op : Option RowOp) (s : State) : State := s.setSched { s.sched with op := op }

/-- The TAKEN entry is freed with its operation, and the slot announced (R30, R32, R33). -/
def freeTaken (kind : OpKind) (s : State) : State :=
  match kind with
  | .delta => settleHold (s.setTable { s.table with taken := none })
  | _ => s

/-- A row operation completes (R60, R32). -/
def completeOp (op : RowOp) (s : State) : State := freeTaken op.kind (setOp none s)

/-- A phase enters stage LOADING and its first slice is handed (R55). -/
def enterLoading (op : RowOp) (m : ModuleNo) (rest : List ModuleNo) (s : State) : State :=
  let op' := { op with stage := .loading, loaded := 0, toHand := rest }
  handFirst (phaseSlice op' m) (setOp (some op') s)

/-- The write phase starts (R55): passed over, the operation completes. -/
def startWrite (op : RowOp) (s : State) : State :=
  let s := countDropped (cellsDropped s.link.failed op.writeMask) s
  match presentSlices s.link.failed op.writeMask with
  | [] => completeOp { op with phase := .complete, writeDone := true } s
  | m :: rest => enterLoading { op with phase := .write } m rest s

/-- The erase phase starts (R55): passed over, the write phase starts. -/
def startErase (op : RowOp) (s : State) : State :=
  let s := countDropped (cellsDropped s.link.failed op.eraseMask) s
  match presentSlices s.link.failed op.eraseMask with
  | [] => startWrite { op with eraseDone := true } s
  | m :: rest => enterLoading { op with phase := .erase } m rest s

/-- A phase is done, applied or passed over: the next phase starts, or the operation completes (R55, R57). -/
def phaseDone (op : RowOp) (s : State) : State :=
  match op.phase with
  | .erase => startWrite { op with eraseDone := true, loaded := 0 } s
  | _ => completeOp { op with phase := .complete, writeDone := true, loaded := 0 } s

/-- Loading goes on with the next slice, or ends: READY if a module is loaded, and otherwise the phase is
treated as passed over (R56). -/
def loadNext (op : RowOp) (s : State) : State :=
  match op.toHand with
  | m :: rest =>
    let op' := { op with toHand := rest }
    handSlice (phaseSlice op' m) (setOp (some op') s)
  | [] =>
    if op.loaded = 0 then phaseDone op s
    else setOp (some { op with stage := .ready }) s

/-! ## The return of an operation -/

/-- Whether the discard of an operation leaves latched slices that were not fired: a phase READY, or LOADING
with a module loaded (R67). -/
def slicesLatched (op : RowOp) : Bool :=
  op.stage == .ready || (op.stage == .loading && op.loaded != 0)

/-- What a returned operation gives back (R61). -/
def giveBack (op : RowOp) (s : State) : State :=
  match op.kind with
  | .delta =>
    mergeBack op.row (if op.writeDone then 0 else op.writeMask) (if op.eraseDone then 0 else op.eraseMask) s
  | .full => if op.eraseDone then requestFill op.row s else requestFull (oneRow op.row) s
  | .fill => requestFill op.row s

/-- The operation in flight is returned on a link fault (R61, R67). -/
def returnOp (op : RowOp) (s : State) : State :=
  let s := setOp none s
  giveBack op (if slicesLatched op then requestClear s else s)

/-- A link fault reaches the Row Scheduler: the operation is returned, at its strobe if its phase is FIRING
(R61, R101). -/
def schedulerFault (s : State) : State :=
  match s.sched.op with
  | some op =>
    if op.stage == .firing then setOp (some { op with returnDue := true }) s else returnOp op s
  | none => s

/-! ## Probe rounds and the link fault -/

/-- A probe round ends (R92). -/
def endRound (res : Result) (s : State) : State :=
  match s.link.round with
  | some r =>
    let s := s.setLink { s.link with round := none }
    finishCommand res [] (if r.restored then requestFull RowSet.all s else s)
  | none => s

/-- The message in progress becomes absent (R80, R86). -/
def endMessage (s : State) : State := s.setLink { s.link with message := none, activity := .idle }

/-- The link becomes FAULTED (R86): the fault raises its notice, a message begun before loss effects calls for
its driver clear pulse (R93), the waiting slice is withdrawn, the operation in flight is returned, and a probe
round ends with WRONG_STATE. -/
def linkFault (s : State) : State :=
  let stale := match s.link.message with | some m => m.beforeLoss | none => false
  let s := raiseNotice .linkFault
    (s.setLink { s.link with
      state := .faulted, activity := .idle, message := none, waiting := none, timer := 0,
      expired := false })
  let s := if stale then requestClear s else s
  endRound .wrongState (schedulerFault s)

/-! ## Outcomes of messages -/

/-- A LOAD message of the operation in flight ended well, or its module failed: the Row Scheduler goes on
(R56, R80, R85). -/
def reportSlice (loaded : Bool) (m : ModuleNo) (s : State) : State :=
  match s.sched.op with
  | some op =>
    if loaded then loadNext { op with loaded := op.loaded ||| oneModule m } s
    else loadNext op (countDropped (cellCount (maskSlice (workingPhase op).2 m)) s)
  | none => s

/-- The probe round goes on after a probe's outcome: the module leaves the round, and the round ends with OK
when it was the last (R91, R92). -/
def roundNext (restored : Bool) (s : State) : State :=
  match s.link.round with
  | some r =>
    let r' := { left := r.left.tail, restored := r.restored || restored : ProbeRound }
    let s := s.setLink { s.link with round := some r' }
    if r'.left.isEmpty then endRound .ok s else s
  | none => s

/-- A message succeeded (R80, R91, R93): its module has latched it. -/
def messageSucceeded (m : Message) (s : State) : State :=
  let s := (endMessage s).setLatches (latchMessage (messageBytes m) s.latches)
  match m.purpose with
  | .phaseLoad =>
    if m.beforeLoss then linkNext (requestClear s) else linkNext (reportSlice true m.modNo s)
  | .probe =>
    linkNext (roundNext true (s.setLink { s.link with failed := s.link.failed &&& ~~~oneModule m.modNo }))

/-- A message failed, with its CLOSE formed (R84, R85, R91, R93): a LOAD message is retried once, and then its
module is FAILED; a probe leaves its module FAILED; a message begun before loss effects counts nothing. DESIGN CHOICE
(log 35): where a failed retry ends the operation with a probe due, the probe is sent before the next take (R49) can
enter LOADING, where R78 lets either come first. -/
def messageFailed (m : Message) (s : State) : State :=
  match m.purpose with
  | .phaseLoad =>
    if m.beforeLoss then linkNext (requestClear (endMessage s))
    else
      match m.attempt with
      | .first => beginMessage { m with attempt := .retry, bytesSent := 0 } (countRetry s)
      | .retry =>
        let s := (endMessage s).setLink
          { s.link with message := none, activity := .idle, failed := s.link.failed ||| oneModule m.modNo }
        linkNext (reportSlice false m.modNo (raiseNotice .moduleFailed s))
  | .probe => linkNext (roundNext false (endMessage s))

/-- The outcome of a message that ran to its CLOSE without a stretch expiring (R80, R81, R83); `none` where
the samples are not those of a whole message. -/
def messageOutcome (m : Message) (scan : ByteScan) (s : State) : Option State :=
  match scan with
  | .acked => some (messageSucceeded m s)
  | .nack _ => some (messageFailed m s)
  | .contention _ => some (messageFailed m (countContention s))
  | .partly _ => none

/-- A module may have latched a message that failed at a CLOSE formed after the last acknowledge (R82): a free
value decides (log 8). -/
def mayLatch (m : Message) (s : State) : State :=
  if Config.latchedAtClose s.freeCount then
    (drawFree s).setLatches (latchMessage (messageBytes m) s.latches)
  else drawFree s

/-- A stretch expired inside a message after what the samples show (R82, R83): with LCK freed the CLOSE is
formed and the message has failed; with LCK stuck the link is FAULTED. -/
def stretchOutcome (m : Message) (scan : ByteScan) (freed : Bool) (s : State) : State :=
  let s := match scan with | .contention _ => countContention s | _ => s
  if freed then
    match scan with
    | .acked => messageFailed m (mayLatch m s)
    | _ => messageFailed m s
  else linkFault s

/-- A recovery attempt begins (R69, R88). -/
def beginRecovery (s : State) : State :=
  s.setLink { s.link with
    activity := .recovering
    halfBit := s.store.settings.halfBit
    stretchLimit := s.store.settings.stretchLimit
    elapsed := 0
    course := LinkCourse.start .check }

/-- The columns of the modules that are PRESENT (R53). -/
def presentColumns (s : State) : Mask := moduleColumns (~~~s.link.failed)

end Sys2Proof.Machine
end

