-- ==== Sys2Proof/Machine/PeriodOps.lean ====
section
/-! DEFINITION. Periods and frames (R95 to R109), leaving and entering LIT, loss effects (R125), the entries of
the Panel Sequencer's states (R114 to R122), the installation of settings (R190), and what phases and global
erases do to the panel and the lit table (R57, R58, R65, R66). -/

namespace Sys2Proof.Machine

/-! ## The panel and the lit table -/

/-- The cells of a panel row as last driven. -/
def panelRow (s : State) (r : Row) : Mask := cellsRead 0 s.panel r.val

/-- A row of the panel takes other cells. -/
def drivePanel (r : Row) (v : Mask) (s : State) : State := s.setPanel (cellsWrite 0 s.panel r.val v)

/-- Every cell of the panel is dark (R102, R125). -/
def panelDark (s : State) : State := s.setPanel []

/-- The modules pulse their latched columns of a row and clear their latches (R74). A latch cleared has the phase
erase, where the manual names none: DESIGN CHOICE (log 34), without effect, as no column is latched. -/
def strobeColumns (r : Row) (p : Phase) (s : State) : State :=
  let pulsed := pulsedColumns p s.latches
  let cells := match p with
    | .erase => panelRow s r &&& ~~~pulsed
    | .write => panelRow s r ||| pulsed
  (drivePanel r cells s).setLatches { cols := 0, writePhase := 0 }

/-- The key of a lit-table count (R48). -/
def litKey (r : Row) (m : ModuleNo) : Nat := 8 * r.val + m.val

/-- A count of the lit table. -/
def litCount (t : LitTable) (r : Row) (m : ModuleNo) : Nat := cellsRead 0 t.counts (litKey r m)

/-- A count takes another value, and L changes by the change of the count (R59). -/
def setCount (r : Row) (m : ModuleNo) (v : Nat) (t : LitTable) : LitTable :=
  { counts := cellsWrite 0 t.counts (litKey r m) v, total := t.total - litCount t r m + v }

/-- The count of a loaded module after a phase is applied (R58). -/
def countAfter (op : RowOp) (m : ModuleNo) (n : Nat) : Nat :=
  match workingPhase op with
  | (.erase, mask) =>
    match op.kind with
    | .full => 0
    | _ => n - cellCount (maskSlice mask m)
  | (.write, mask) => min 64 (n + cellCount (maskSlice mask m))

/-- The lit table after a phase is applied: the counts of the loaded modules change (R58). -/
def applyPhase (op : RowOp) (t : LitTable) : LitTable :=
  allModules.foldl
    (fun t m =>
      if hasModule op.loaded m then setCount op.row m (countAfter op m (litCount t op.row m)) t else t)
    t

/-! ## The start of a period -/

/-- The number of ADDRESS kinds in the window history (R96). -/
def addressCount (w : List WindowKind) : Nat := w.countP (fun k => k == .address)

/-- The window history after a period's kind joins it (R97). -/
def pushWindow (w : List WindowKind) (k : WindowKind) : List WindowKind :=
  let w' := w ++ [k]
  w'.drop (w'.length - Config.windowPeriods)

/-- The kind a period is recorded as: a global erase as ADDRESS (R97). -/
def windowKind : PeriodKind → WindowKind
  | .sustain => .sustain
  | .address => .address
  | .globalErase => .address

/-- Whether the budget and the sample index let the next period be an ADDRESS period (R96). -/
def budgetAllows (g : PeriodGen) : Bool :=
  g.index != g.timing.sampleIndex && decide (addressCount g.window < g.timing.allowance)

/-- A period of a kind becomes the current one, at its tick 0; an ADDRESS period carries the row and the phase
it fires (R94). -/
def beginPeriod (k : PeriodKind) (fires : Option (Row × Phase)) (s : State) : State :=
  s.setPeriod { s.period with
    current := some { kind := k, fires := fires, tick := 0, strobed := false, sampled := false } }

/-- A period starts in LIT (R96, R104). The global erase of a CLEAR_AND_REPAINT is requested while clear waiting
is yes and no operation is in flight (R64). -/
def startPeriod (s : State) : State :=
  if budgetAllows s.period then
    match s.sched.op with
    | some op =>
      if op.stage == .ready then
        beginPeriod .address (some (op.row, (workingPhase op).1)) (setOp (some { op with stage := .firing }) s)
      else beginPeriod .sustain none s
    | none => if s.sched.clearWaiting then beginPeriod .globalErase none s else beginPeriod .sustain none s
  else beginPeriod .sustain none s

/-- The timing copy is taken from the working settings (R105). -/
def takeTiming (s : State) : State :=
  s.setPeriod { s.period with timing := timingOf s.store.settings }

/-- The Load Limiter gives P for the frame that begins, and an overloaded frame raises OVERLOAD (R133 to R135). -/
def limitLoad (s : State) : State :=
  let r := limitPeriod s.period.timing s.lit.total
  let s := s.setPeriod { s.period with length := r.1, index := 0 }
  if r.2 then raiseNotice .overload s else s

/-! ## States of the sequencer -/

/-- The sequencer's state becomes another. -/
def setSeqState (q : SeqState) (s : State) : State := s.setSeq { s.seq with state := q }

/-- The burst timer and the recovery timer return to 0, with no expiry of theirs due: on entry to LIT, where they
stay, and on leaving it, where they count from 0 (R177, R87). -/
def restartTimers (s : State) : State :=
  (s.setNotice { s.notice with burstTimer := 0, burstExpired := false }).setLink
    { s.link with timer := 0, expired := false }

/-- The sequencer enters LIT (R107, R117): timing copy, P, a new frame; the burst timer and the recovery timer
become 0 (R177, R87). -/
def enterLit (s : State) : State :=
  let s := setSeqState .lit s
  let s := restartTimers s
  startPeriod (limitLoad (takeTiming s))

/-- The sequencer enters LIT from RESUMING: the gap length is recorded (R120, R131). -/
def endGap (s : State) : State :=
  enterLit (s.setSeq { s.seq with gapLength := s.seq.gap })

/-- The sequencer enters PRIMING (R103, R116): timing copy, empty window history, a driver clear pulse due. -/
def enterPriming (s : State) : State :=
  let s := takeTiming (setSeqState .priming s)
  requestClear (s.setPeriod { s.period with window := [], current := none })

/-- In DARK with the filtered level high and not blanked, the sequencer enters SETTLING with the settle
counter at 0 (R114). -/
def judgeDark (s : State) : State :=
  if s.seq.state == .dark && s.seq.filtered && !s.seq.blanked then
    s.setSeq { s.seq with state := .settling, settle := 0 }
  else s

/-- The sequencer enters DARK: both counters become 0 (R113), and a driver clear pulse is due (R110). -/
def enterDark (s : State) : State :=
  requestClear (s.setSeq { s.seq with state := .dark, settle := 0, gap := 0 })

/-- The cells of the panel that a global erase cut before its strobe did not reach keep what they show: a free
value for each row (log 5). -/
def cutErasePanel (s : State) : State :=
  (drawFree s).setPanel
    ((s.panel.map (fun p => (p.1, p.2 &&& Config.unreached s.freeCount p.1))).filter (fun p => p.2 != 0))

/-- The global erase period of PRIMING ends at once, with its lines released: past its strobe the erase
stands, and before it the erase may have reached some cells (R103). A departure on the very tick of the strobe comes
before or after it by the order of the commands (log 36). -/
def endPriming (s : State) : State :=
  let s := match s.period.current with
    | some p => if p.strobed then s else cutErasePanel s
    | none => s
  s.setPeriod { s.period with current := none }

/-- A CLEAR_AND_REPAINT that does not reach its strobe ends in the scheduler and with ABORTED (R66, R173). -/
def abandonErase (s : State) : State :=
  finishCommand .aborted [] (s.setSched { s.sched with clearWaiting := false })

/-- The loss effects (R125): every record of the panel is replaced at one event. -/
def lossEffects (s : State) : State :=
  let s := panelDark (setOp none (allRowsDark s))
  let s := s.setLink { s.link with
    waiting := none
    message :=
      match s.link.message with
      | some m => if m.purpose == .phaseLoad then some { m with beforeLoss := true } else some m
      | none => none }
  let s := requestClear s
  if s.sched.clearWaiting then abandonErase s else s

/-- The panel is judged lost while the sequencer is GAP (R121): DARK, the gap length is the loss limit, and
PANEL_LOST. -/
def lossInGap (s : State) : State :=
  let s := s.setSeq { s.seq with gapLength := s.store.settings.lossLimit }
  judgeDark (lossEffects (raiseNotice .panelLost (enterDark s)))

/-- The panel is judged lost while the sequencer is RESUMING (R122): SETTLING, with the settle counter going
on. -/
def lossInResuming (s : State) : State :=
  lossEffects (raiseNotice .panelLost
    (s.setSeq { s.seq with state := .settling, gap := 0, gapLength := s.store.settings.lossLimit }))

/-! ## The installation of settings -/

/-- A hold whose counter has reached the hold limit expires (R14). -/
def expireHold (s : State) : State :=
  match s.wmu.state with
  | .holding h => if s.store.settings.holdLimit ≤ s.wmu.holdCounter then degradeHeld h.row s else s
  | _ => s

/-- The limits of the sequencer that an installation has lowered to their counters are reached at it (R115,
R120, R124). Where both limits of RESUMING are reached, either comes first (R123): a free value decides (log 7). -/
def reachLimits (s : State) : State :=
  match s.seq.state with
  | .settling => if s.store.settings.settleLimit ≤ s.seq.settle then enterPriming s else s
  | .gap => if s.store.settings.lossLimit ≤ s.seq.gap then lossInGap s else s
  | .resuming =>
    if s.store.settings.settleLimit ≤ s.seq.settle then
      if s.store.settings.lossLimit ≤ s.seq.gap then
        if Config.firstWins s.freeCount then endGap (drawFree s) else reachAfterLoss (drawFree s)
      else endGap s
    else if s.store.settings.lossLimit ≤ s.seq.gap then lossInResuming s else s
  | _ => s
where
  /-- The loss comes first: the settle limit, reached in SETTLING, then gives PRIMING (R123). DESIGN CHOICE (log 39): the
  clear pulse that the loss makes due is still pending at the entry to PRIMING, so that one pulse serves both (R110);
  were it being given already, R103 would have the erase wait for a second. -/
  reachAfterLoss (s : State) : State := enterPriming (lossInResuming s)

/-- Settings are installed: all 22 working settings are replaced at one event, and the limits they lower are
reached there (R14, R190, R192). -/
def installSettings (t : Settings) (s : State) : State :=
  reachLimits (expireHold (s.setStore { s.store with settings := t, staged := none }))

/-- Staged settings, if there are any, are installed; SETTINGS_APPLY completes with OK, at `thenDo`'s end so
that its result follows what the event itself does (R190). -/
def installStaged (thenDo : State → State) (s : State) : State :=
  match s.store.staged with
  | some t => finishCommand .ok [] (thenDo (installSettings t s))
  | none => thenDo s

/-! ## The frame end -/

/-- The frame end (R106): staged settings, timing copy, P, frame count, a status burst (R177), and a recovery
attempt while the link is FAULTED (R87). The burst is asked for first, as it ranks before the notice-word update of a
notice raised at this same event (R17). -/
def frameEnd (s : State) : State :=
  installStaged
    (fun s =>
      let s := limitLoad (takeTiming s)
      let s := s.setPeriod { s.period with frameCount := (s.period.frameCount + 1) % 65536 }
      if s.link.state == .faulted && s.link.activity != .recovering then beginRecovery s else s)
    (requestBurst s)

/-- The current period ends (R95, R97): its kind joins the window history, and the next period, or the first of
a new frame, starts. -/
def endPeriod (p : Period) (s : State) : State :=
  let s := s.setPeriod { s.period with
    window := pushWindow s.period.window (windowKind p.kind)
    current := none }
  startPeriod
    (if s.period.index = Config.lastPeriod then frameEnd s
     else s.setPeriod { s.period with index := s.period.index + 1 })

/-! ## Leaving LIT -/

/-- The operation whose phase is FIRING is cut before its strobe (R62): its record is discarded and its row
requested to the FULL set; the panel row is a free value (log 5). The cut is one event, with one announcement to a hold
(R30). -/
def cutOperation (op : RowOp) (s : State) : State :=
  let s := drivePanel op.row (Config.cutRow s.freeCount) (drawFree s)
  let s := requestClear (setOp none s)
  let s := match op.kind with
    | .delta => s.setTable { s.table with taken := none }
    | _ => s
  settleHold (addFull (oneRow op.row) s)

/-- The global erase of CLEAR_AND_REPAINT is cut before its strobe (R66). -/
def cutErase (s : State) : State :=
  let s := requestFull RowSet.all (cutErasePanel s)
  if abortTaken s then abandonErase s else s

/-- What a cut before its strobe does to the work in a period (R108). -/
def cutWork (p : Period) (s : State) : State :=
  if p.strobed then s
  else
    match p.kind with
    | .sustain => s
    | .globalErase => cutErase s
    | .address =>
      match s.sched.op with
      | some op => cutOperation op s
      | none => s

/-- The current period is cut (R108): it is recorded as the kind it started as, and the index stays. -/
def cutPeriod (s : State) : State :=
  match s.period.current with
  | some p =>
    cutWork p (s.setPeriod { s.period with
      window := pushWindow s.period.window (windowKind p.kind)
      current := none })
  | none => s

/-- What leaving LIT does once the sequencer has its new state (R108, R118, R144): the period is cut, a
conversion is aborted, the burst timer and the recovery timer count from 0 (R177, R87), and waiting staged
settings are installed. DESIGN CHOICE (log 32): the cut comes before the installation. A hold that the cut ends, by
a slot freed or its row requested to the FULL set, does therefore not expire by a hold limit the installation lowers,
where R14 lets either come first. -/
def leaveLit (s : State) : State :=
  let s := cutPeriod s
  let s := s.setSense { s.sense with conversion := none }
  let s := restartTimers s
  installStaged id s

end Sys2Proof.Machine
end

