-- ==== Sys2Proof/Machine/AreaOps.lean ====
section
/-! DEFINITION. The area operation: its formation (R150, R151), the passing over of protected rows (R154), the
move to the next word (R155) and its completion (R161). -/

namespace Sys2Proof.Machine

/-- Whether a row is passed over by an area: protected, and the area not privileged (R154). -/
def areaSkips (t : Settings) (a : AreaOp) (r : Row) : Bool := inBand t r && !a.privileged

/-- The engine begins a row, or the first row after it that is not passed over: `none` when the last row of
the rectangle is behind it (R154). `fuel` rows are looked at. -/
def areaBegin (t : Settings) (a : AreaOp) : Nat → Nat → Option AreaOp
  | 0, _ => none
  | fuel + 1, r =>
    if a.lastRow.val < r then none
    else
      let row : Row := Fin.ofNat 512 r
      if areaSkips t a row then areaBegin t a fuel (r + 1)
      else some { a with row := row, word := a.firstWord, rowSkipped := false, unit := .requested }

/-- The area completes (R161): the engine hands its result and words written. -/
def completeArea (a : AreaOp) (s : State) : State :=
  finishCommand
    (if a.abortPending then .aborted else if a.truncated then .truncated else .ok)
    [(2, BitVec.ofNat 16 a.wordsWritten)] (s.setArea none)

/-- The area goes on at a row, or completes (R154, R161). -/
def areaFrom (a : AreaOp) (r : Nat) (s : State) : State :=
  match areaBegin s.store.settings a 512 r with
  | some a' => s.setArea (some a')
  | none => completeArea a s

/-- The engine moves to the next word once a word's unit and merge are complete (R154, R155). -/
def areaNext (a : AreaOp) (s : State) : State :=
  if a.abortPending then completeArea a s
  else if a.word.val < a.lastWord.val then
    s.setArea (some { a with word := a.word + 1, unit := .requested })
  else areaFrom a (a.row.val + 1) s

/-- The difference of an area word is placed (R156, R157): without room, its row is degraded at once. A held record
that `offer` says waits for the end of the unit is then offered again (R158). -/
def placeArea (offer : Bool) (r : Row) (w : WordIx) (rise fall : Word) (s : State) : State :=
  if rise = 0 ∧ fall = 0 then (if offer then settleHold s else s)
  else
    match mergeDifference r w rise fall s with
    | some s' => settleHold s'
    | none => countDegraded (requestFull (oneRow r) s)

/-- The arguments of an AREA command, as its words 1, 3..12 hold them (R193). -/
structure AreaArgs where
  op : Nat
  privileged : Bool
  firstRow : Nat
  rowCount : Nat
  firstWord : Nat
  wordCount : Nat
  leftMask : Word
  rightMask : Word
  pattern : List Word
  deriving DecidableEq, Repr

/-- The arguments of an AREA command from the command copy (R193). -/
def areaArgs (h : CommandHandler) : AreaArgs :=
  { op := (lowByte (copyWord h 1)).toNat
    privileged := (copyWord h 1).getLsbD 15
    firstRow := (copyWord h 3).toNat
    rowCount := (copyWord h 4).toNat
    firstWord := (copyWord h 5).toNat
    wordCount := (copyWord h 6).toNat
    leftMask := copyWord h 7
    rightMask := copyWord h 8
    pattern := [copyWord h 9, copyWord h 10, copyWord h 11, copyWord h 12] }

/-- Whether an AREA command is refused with BAD_ARGUMENT (R150). -/
def areaRefused (x : AreaArgs) : Bool :=
  decide (3 < x.op) || x.rowCount == 0 || x.wordCount == 0 || decide (511 < x.firstRow) ||
    decide (31 < x.firstWord)

/-- The last of a run of `count` from `first`, clamped below `limit` (R151, R172). -/
def lastOf (limit first count : Nat) : Nat :=
  if limit < first + count then limit - 1 else first + count - 1

/-- The area operation of an AREA command that is not refused, before its first row is begun (R151). -/
def areaRecord (x : AreaArgs) : AreaOp :=
  { op := opCombine x.op
    privileged := x.privileged
    firstRow := Fin.ofNat 512 x.firstRow
    lastRow := Fin.ofNat 512 (lastOf 512 x.firstRow x.rowCount)
    firstWord := Fin.ofNat 32 x.firstWord
    lastWord := Fin.ofNat 32 (lastOf 32 x.firstWord x.wordCount)
    leftMask := x.leftMask
    rightMask := x.rightMask
    pattern := x.pattern
    truncated := decide (512 < x.firstRow + x.rowCount) || decide (32 < x.firstWord + x.wordCount)
    row := Fin.ofNat 512 x.firstRow
    word := Fin.ofNat 32 x.firstWord
    rowSkipped := false
    unit := .none
    abortPending := false
    wordsWritten := 0 }

end Sys2Proof.Machine
end

