-- ==== Sys2Proof/Machine/CommandOps.lean ====
section
/-! DEFINITION. The Command Row Handler: what each command does at its acceptance (R170 to R173, R128, R129,
R90, R150, R186 to R190), ABORT (R167), the setup matchers (R185), and the service of a write to a command
word (R6, R164 to R166). -/

namespace Sys2Proof.Machine

/-! ## What each command does at acceptance -/

/-- REPAINT (R172). -/
def acceptRepaint (s : State) : State :=
  let first := (copyWord s.cmd 1).toNat
  let count := (copyWord s.cmd 2).toNat
  if 511 < first ∨ count = 0 then finishCommand .badArgument [] s
  else
    finishCommand (if 512 < first + count then .truncated else .ok) []
      (requestFull (rowRange first (lastOf 512 first count)) s)

/-- CLEAR_AND_REPAINT (R64, R173). -/
def acceptClear (s : State) : State :=
  if s.seq.state == .lit then s.setSched { s.sched with clearWaiting := true }
  else finishCommand .wrongState [] s

/-- AREA (R150, R151, R154). -/
def acceptArea (s : State) : State :=
  let x := areaArgs s.cmd
  if areaRefused x then finishCommand .badArgument [(2, 0)] s
  else areaFrom (areaRecord x) x.firstRow s

/-- BLANK (R128): a period of LIT is cut and staged settings are installed (R108), the priming erase ends
(R103), and from every state the loss effects apply and the sequencer is DARK and blanked. -/
def acceptBlank (s : State) : State :=
  let before := s.seq.state
  let s := enterDark (s.setSeq { s.seq with blanked := true })
  let s := match before with
    | .lit => leaveLit s
    | .priming => endPriming s
    | _ => s
  finishCommand .ok [] (lossEffects s)

/-- UNBLANK (R129). -/
def acceptUnblank (s : State) : State :=
  finishCommand .ok []
    (if s.seq.blanked then judgeDark (s.setSeq { s.seq with blanked := false }) else s)

/-- PROBE (R90). -/
def acceptProbe (s : State) : State :=
  if s.link.state == .faulted then finishCommand .wrongState [] s
  else if s.link.failed = 0 then finishCommand .ok [] s
  else
    linkNext (s.setLink { s.link with
      round := some { left := allModules.filter (fun m => hasModule s.link.failed m), restored := false } })

/-- ABORT posted while the handler is IDLE (R171). -/
def acceptAbort (s : State) : State := finishCommand .ok [] s

/-- STORE_READ (R186). -/
def acceptStoreRead (s : State) : State :=
  let i := (copyWord s.cmd 1).toNat
  if 63 < i then finishCommand .badArgument [] s
  else finishCommand .ok [(2, storeWord s.store.words i)] s

/-- STORE_ERASE (R187). -/
def acceptStoreErase (s : State) : State :=
  let page := (copyWord s.cmd 1).toNat
  if !s.cmd.setupOpen then finishCommand .notInSetup [] s
  else if 1 < page then finishCommand .badArgument [] s
  else s.setStore { s.store with op := .erase page 0 }

/-- STORE_WRITE (R188). -/
def acceptStoreWrite (s : State) : State :=
  let i := (copyWord s.cmd 1).toNat
  if !s.cmd.setupOpen then finishCommand .notInSetup [] s
  else if 63 < i then finishCommand .badArgument [] s
  else if storeWord s.store.words i ≠ Config.erasedWord then finishCommand .alreadyWritten [] s
  else s.setStore { s.store with op := .write i (copyWord s.cmd 2) 0 }

/-- SETTINGS_APPLY (R183, R184, R190): the load may raise SETTINGS_DEFAULT; the settings are installed at once,
or wait for the frame end while the sequencer is LIT. -/
def acceptApply (s : State) : State :=
  if !s.cmd.setupOpen then finishCommand .notInSetup [] s
  else
    let s := if formatRight s.store.words then s else raiseNotice .settingsDefault s
    let s := s.setStore { s.store with staged := some (loadSettings s.store.words) }
    if s.seq.state == .lit then s else installStaged id s

/-- A code that names no command (R170). -/
def acceptBad (s : State) : State := finishCommand .badCode [] s

/-- Each accepted code goes to its block (R170). -/
def acceptCode (code : Byte) (s : State) : State :=
  if code = 0x01 then acceptRepaint s
  else if code = 0x02 then acceptClear s
  else if code = 0x03 then acceptArea s
  else if code = 0x04 then acceptBlank s
  else if code = 0x05 then acceptUnblank s
  else if code = 0x06 then acceptProbe s
  else if code = 0x07 then acceptAbort s
  else if code = 0x08 then acceptStoreRead s
  else if code = 0x10 then acceptStoreErase s
  else if code = 0x11 then acceptStoreWrite s
  else if code = 0x12 then acceptApply s
  else acceptBad s

/-- The handler accepts a command (R165): it enters RUNNING with the arguments of its copy, the block acts, and
the RUNNING write of word 0 goes before every other write, and ranks before an area's first word (R17). -/
def acceptCommand (code : Byte) (s : State) : State :=
  requestCommandWrite
    (acceptCode code (s.setCmd { s.cmd with
      running := some
        { code := code
          args := (argumentWords code).map (copyWord s.cmd)
          result := none
          abortTaken := false
          writes := [(0, commandWord code runningCode)] } }))

/-! ## ABORT while RUNNING -/

/-- Whether the running command can still be stopped (R167). -/
def abortable (s : State) (r : Running) : Bool :=
  r.result.isNone && !r.abortTaken &&
    (if r.code = 0x03 then s.area.isSome
     else if r.code = 0x02 then s.sched.clearWaiting
     else if r.code = 0x12 then s.store.staged.isSome
     else false)

/-- Whether the global erase of a CLEAR_AND_REPAINT is FIRING (R66). -/
def eraseFiring (s : State) : Bool :=
  match s.period.current with
  | some p => p.kind == .globalErase && !p.strobed
  | none => false

/-- The engine is aborted (R160): the request for a word's unit is withdrawn, and the area completes. -/
def withdrawWord (a : AreaOp) (s : State) : State := completeArea { a with abortPending := true, unit := .none } s

/-- An ABORT taken stops the engine (R160): a word whose unit is granted runs to its end, where the area completes;
one requested is not combined. Where the grant of that unit comes at the same instant, as the unit that brought the
ABORT ends with no rank above waiting, either is taken first: a free value decides (log 7). -/
def abortArea (a : AreaOp) (s : State) : State :=
  if a.unit == .granted then s.setArea (some { a with abortPending := true })
  else if a.unit == .requested && areaGrantable s then
    if Config.firstWins s.freeCount then
      (drawFree s).setArea (some { a with abortPending := true, unit := .granted })
    else withdrawWord a (drawFree s)
  else withdrawWord a s

/-- An ABORT taken stops the running command (R66, R160, R191): an area as `abortArea` says; a global erase already
FIRING runs to its strobe; staged settings are dropped. -/
def takeAbort (r : Running) (s : State) : State :=
  let s := s.setCmd { s.cmd with running := some { r with abortTaken := true } }
  if r.code = 0x03 then
    match s.area with
    | some a => abortArea a s
    | none => s
  else if r.code = 0x02 then (if eraseFiring s then s else abandonErase s)
  else finishCommand .aborted [] (s.setStore { s.store with staged := none })

/-! ## The setup matchers -/

/-- One value seen by a matcher at a step (R185). -/
def matcherStep (wanted : List Word) (k : Nat) (v : Word) : Nat :=
  if wanted[k]? = some v then k + 1
  else if wanted[0]? = some v then 1
  else 0

/-- A value stored into command word 31 is seen by the matcher that acts (R185). -/
def seeSetup (v : Word) (h : CommandHandler) : CommandHandler :=
  if h.setupOpen then
    let k := matcherStep Config.openingSequence.reverse h.closeStep v
    if k = 5 then { h with openStep := 0, closeStep := 0, setupOpen := false }
    else { h with closeStep := k }
  else
    let k := matcherStep Config.openingSequence h.openStep v
    if k = 5 then { h with openStep := 0, closeStep := 0, setupOpen := true }
    else { h with openStep := k }

/-! ## A write to a command word -/

/-- A command word is stored, in image memory and in the copy (R164). -/
def storeCommandWord (w : WordIx) (n : Word) (s : State) : State :=
  (writeMem (commandOffset w) n s).setCmd { s.cmd with copy := cellsWrite 0 s.cmd.copy w.val n }

/-- The word N a privileged write to a command word results in (R3). -/
def commandResult (s : State) (view : BitVec 3) (w : WordIx) (d : Word) : Word :=
  combine (viewCombine view) (readMem s (commandOffset w)) d

/-- The handler sees a write stored while IDLE (R165, R185). -/
def seeStored (w : WordIx) (n : Word) (s : State) : State :=
  if w = 0 then (if highByte n = 0 then s else acceptCommand (highByte n) s)
  else if w = 31 then s.setCmd (seeSetup n s.cmd)
  else s

/-- The handler sees a write offered while RUNNING (R166, R167). -/
def seeOffered (r : Running) (w : WordIx) (n : Word) (s : State) : State :=
  if w = 0 ∧ highByte n = 0x07 ∧ abortable s r = true then takeAbort r s else countCommandDiscard s

/-- The unit of a privileged write to a command word is served (R6, R9): stored while the handler is IDLE, and
only offered to it while a command is RUNNING. -/
def serveCommand (view : BitVec 3) (w : WordIx) (d : Word) (s : State) : State :=
  let n := commandResult s view w d
  match s.cmd.running with
  | none => seeStored w n (storeCommandWord w n s)
  | some r => seeOffered r w n s

/-- The unit of a write to an image word is served (R9, R10). -/
def serveImage (view : BitVec 3) (r : Row) (w : WordIx) (d : Word) (s : State) : State :=
  let o := readMem s (imageOffset r w)
  let n := combine (viewCombine view) o d
  let s := writeMem (imageOffset r w) n s
  if riseBits o n = 0 ∧ fallBits o n = 0 then endCycle s
  else placeOrHold { row := r, word := w, rise := riseBits o n, fall := fallBits o n } s

end Sys2Proof.Machine
end

