-- ==== Sys2Proof/Machine/PortOps.lean ====
section
/-! DEFINITION. The units of the Image Memory Port below the processor's (R16): what each does when it is granted,
and what the port grants between two cycles of the processor (R17). -/

namespace Sys2Proof.Machine

/-! ## Status burst and third rank -/

/-- The whole status record is written (R178). -/
def burstUnit (s : State) : State :=
  unitEnds false
    ((s.setMem (cellsWriteAll Config.blankWord s.mem (statusRecord s))).setPort { s.port with burst := false })

/-- The first third-rank request is granted. -/
def popThird (s : State) : State := s.setPort { s.port with third := s.port.third.tail }

/-- The notice word is written with the set as it then stands, and a clear that waits for it completes (R7,
R176). -/
def noticeUpdateUnit (s : State) : State :=
  let s := writeMem (statusOffset 0) (noticeWord s) (popThird s)
  unitEnds false (if s.bus.clearHeld then s.setBus { s.bus with ready := true, clearHeld := false } else s)

/-- The handler completes the command when the unit that writes the result into word 0 ends (R168): the burst asked for
at that event ranks before what waits in the third rank (R17). -/
def completeCommand (s : State) : State :=
  requestBurst (raiseNotice .commandDone (s.setCmd { s.cmd with running := none }))

/-- One command-row word write (R164, R168): the word is stored in memory and in the copy, and the next write,
if there is one, is requested. -/
def commandWriteUnit (r : Running) (w : WordIx) (v : Word) (rest : List (WordIx × Word)) (s : State) : State :=
  let s := storeCommandWord w v (popThird s)
  let s := s.setCmd { s.cmd with running := some { r with writes := rest } }
  unitEnds false
    (if rest.isEmpty then (if r.result.isSome then completeCommand s else s) else requestCommandWrite s)

/-- The next word the handler has to write, with the running command and the words after it (R168). -/
def nextCommandWrite (s : State) : Option (Running × (WordIx × Word) × List (WordIx × Word)) :=
  match s.cmd.running with
  | some r =>
    match r.writes with
    | p :: rest => some (r, p, rest)
    | [] => none
  | none => none

/-- A third-rank unit is served. -/
def serveThird (u : ThirdRank) (s : State) : State :=
  match u with
  | .noticeUpdate => noticeUpdateUnit s
  | .commandWrite =>
    match nextCommandWrite s with
    | some (r, p, rest) => commandWriteUnit r p.1 p.2 rest s
    | none => unitEnds false (popThird s)

/-! ## Snapshot word read -/

/-- One snapshot word read: the word joins the write mask, and after the last one the erase phase starts (R54). The
next word is then requested: before the port's next grant or only after it, a free value (log 33). -/
def snapshotUnit (op : RowOp) (c : Nat) (s : State) : State :=
  let w : WordIx := Fin.ofNat 32 c
  let op' := { op with
    writeMask := op.writeMask ||| wordCells w (readMem s (imageOffset op.row w))
    cursor := some (c + 1) }
  unitEnds false
    (if c + 1 = 32 then startErase op' s
     else setOp (some { op' with asked := !Config.requestedLate s.freeCount }) (drawFree s))

/-- The snapshot in progress, with its cursor (R54). -/
def snapshotNext (s : State) : Option (RowOp × Nat) :=
  match s.sched.op with
  | some op =>
    match op.cursor with
    | some c => if op.stage == .snapshot && decide (c < 32) then some (op, c) else none
    | none => none
  | none => none

/-- The next word of a snapshot in progress has been requested (R54). -/
def askSnapshot (s : State) : State :=
  match s.sched.op with
  | some op => if op.stage == .snapshot then setOp (some { op with asked := true }) s else s
  | none => s

/-! ## Area word -/

/-- One area word (R153 to R157): read, combined under the mask and the pattern, written and counted, its
difference placed, and the next word requested. A held record that waited for this unit is offered again (R158), and
a snapshot's next word has been requested by its end (log 33). -/
def areaWordUnit (a : AreaOp) (s : State) : State :=
  let o := readMem s (imageOffset a.row a.word)
  let n := areaCombine a.op o (areaPattern a a.row) (areaCells a a.word)
  let a' := { a with wordsWritten := a.wordsWritten + 1, unit := .none }
  let s := (writeMem (imageOffset a.row a.word) n s).setArea (some a')
  unitEnds false
    (areaNext a' (askSnapshot (placeArea (a.unit == .granted) a.row a.word (riseBits o n) (fallBits o n) s)))

/-- The area operation whose word's unit is in a state. -/
def areaIn (u : UnitState) (s : State) : Option AreaOp := s.area.filter (fun a => a.unit == u)

/-! ## Between two cycles of the processor -/

/-- The port serves the first of the two lowest ranks that waits: the snapshot word read, if it is requested, and
then the area word (R17). -/
def serveLow (s : State) : State :=
  match snapshotNext s, areaIn .requested s with
  | some (op, c), some a => if op.asked then snapshotUnit op c s else areaWordUnit a s
  | some (op, c), none => snapshotUnit op c s
  | none, some a => areaWordUnit a s
  | none, none => s.setGapDue false

/-- The port before a cycle of the processor is accepted (R17): a unit being served runs to its end, and after a
processor's unit the port first grants the work that waits, so that the processor delays it by one cycle at most.
DESIGN CHOICE (log 37): a cycle right behind a posting is no exception, so with nothing above it waiting the RUNNING
write is served before that cycle, where R165 lets a read of word 0 go before it and show the word as posted. -/
def portGap (s : State) : State :=
  match areaIn .granted s with
  | some a => areaWordUnit a s
  | none =>
    if s.gapDue then
      if s.port.burst then burstUnit s
      else
        match s.port.third with
        | u :: _ => serveThird u s
        | [] => serveLow s
    else s

/-- The processor's unit ends (R17). -/
def cycleServed (s : State) : State := unitEnds true s

end Sys2Proof.Machine
end

