-- ==== Sys2Proof/Machine/BusFamily.lean ====
section
/-! DEFINITION. The meanings of the bus cycles and of the Write Merge Unit's steps (R1 to R15). -/

namespace Sys2Proof.Machine

/-- A step of the processor's bus: none while READY is low, and another row's step where `f` finds none. -/
def busStep (s : State) (after : Option State) : Answer :=
  if s.bus.ready then
    match after with
    | some s' => .next s'
    | none => .refused .anotherRow
  else .refused .busHeld

/-- A word is returned on the data lines. -/
def returnWord (v : Word) (s : State) : State := s.setBus { s.bus with readData := v }

/-- A pass-through cycle on the memory side bus (R1). -/
def sideCycle (addr : BusAddr) (cycle : SideCycle) (s : State) : State :=
  s.setBus { s.bus with
    side := some { addr := addr, cycle := cycle }
    readData := match cycle with | .read v => v | .write _ => s.bus.readData }

/-- PASS_THROUGH_CYCLE (R1). -/
def execPassThroughCycle (addr : BusAddr) (cycle : SideCycle) (s : State) : Answer :=
  busStep s (match decodeIn s addr with
    | .passThrough => some (sideCycle addr cycle s)
    | .aperture _ _ => none)

/-- VOID_ACCESS (R4, R8). -/
def execVoidAccess (addr : BusAddr) (cycle : VoidCycle) (s : State) : Answer :=
  busStep s (match decodeIn s addr, cycle with
    | .aperture _ .void, .read => some (returnWord 0xFFFF s)
    | .aperture _ .void, .write _ => some s
    | _, _ => none)

/-- The processor's read unit is served: the word is returned (R4). -/
def serveRead (off : Nat) (s : State) : State := cycleServed (returnWord (readMem s off) s)

/-- PROCESSOR_READ (R4): the processor's unit is the first in rank, so it is granted as soon as the port is free
for it (R17). -/
def execProcessorRead (addr : BusAddr) (s : State) : Answer :=
  busStep s (match decodeIn s addr with
    | .aperture _ (.image r w) => some (serveRead (imageOffset r w) (portGap s))
    | .aperture _ (.command w) => some (serveRead (commandOffset w) (portGap s))
    | .aperture _ (.status w) => some (serveRead (statusOffset w) (portGap s))
    | _ => none)

/-- The Write Merge Unit accepts a write (R9): MERGING, READY low, and a read-combine-write unit requested. -/
def acceptWrite (c : WriteCycle) (s : State) : State :=
  ((noteFirst s).setWmu { s.wmu with state := .merging c }).setBus { s.bus with ready := false }

/-- IMAGE_WORD_WRITE (R5 to R9): the protection check of a write to an image word, or to a command word or a
status word carried out step by step, and its acceptance by the Write Merge Unit. -/
def execImageWordWrite (addr : BusAddr) (data : Word) (s : State) : Answer :=
  busStep s (match decodeIn s addr with
    | .aperture v (.image r w) =>
      if !privilegedView v && inBand s.store.settings r then some (countProtected s)
      else some (acceptWrite { target := .image r w, view := v, data := data } (portGap s))
    | .aperture v (.command w) =>
      if privilegedView v then some (acceptWrite { target := .command w, view := v, data := data } (portGap s))
      else some (countProtected s)
    | .aperture v (.status w) =>
      if privilegedView v && w == 0 then none else some (countProtected s)
    | _ => none)

/-- READ_COMBINE_WRITE (R9, R10, R17): the unit of the accepted write is granted, ahead of all that waits. -/
def execReadCombineWrite (s : State) : Answer :=
  match s.wmu.state with
  | .merging c =>
    match c.target with
    | .image r w => .next (cycleServed (serveImage c.view r w c.data s))
    | .command w => .next (cycleServed (serveCommand c.view w c.data (endCycle s)))
  | _ => .refused .notDue

/-- HOLD_EXPIRY (R14). -/
def execHoldExpiry (s : State) : Answer :=
  match s.wmu.state with
  | .holding h =>
    stepWhen (decide (s.store.settings.holdLimit ≤ s.wmu.holdCounter)) .notDue (degradeHeld h.row s)
  | _ => .refused .notDue

/-- APERTURE_WRITE (R6, R7): command words 1..30, word 0 with a zero resulting high byte, status words 1..31,
and every write to these rows through an ordinary view. -/
def execApertureWrite (addr : BusAddr) (data : Word) (s : State) : Answer :=
  busStep s (match decodeIn s addr with
    | .aperture v (.command w) =>
      if !privilegedView v then some (countProtected s)
      else
        let g := portGap s
        if w == 31 || (w == 0 && highByte (commandResult g v w data) != 0) then none
        else some (cycleServed (serveCommand v w data (noteFirst g)))
    | .aperture v (.status w) =>
      if privilegedView v && w == 0 then none else some (countProtected s)
    | _ => none)

/-- SETUP_SEQUENCE_WRITE (R185): a write to command word 31. -/
def execSetupSequenceWrite (addr : BusAddr) (data : Word) (s : State) : Answer :=
  busStep s (match decodeIn s addr with
    | .aperture v (.command w) =>
      if w == 31 then
        (if privilegedView v then some (cycleServed (serveCommand v w data (noteFirst (portGap s))))
         else some (countProtected s))
      else none
    | _ => none)

/-- The notices a write to status word 0 names are removed (R7): if that changes the set, a notice-word update
is requested and READY is held until it has been written. -/
def clearNotices (data : Word) (s : State) : State :=
  let left := s.notice.notices &&& ~~~(lowByte data)
  if left = s.notice.notices then s
  else
    let s := requestNoticeUpdate (setNotices left s)
    s.setBus { s.bus with ready := false, clearHeld := true }

/-- NOTICE_CLEAR (R7). -/
def execNoticeClear (addr : BusAddr) (data : Word) (s : State) : Answer :=
  busStep s (match decodeIn s addr with
    | .aperture v (.status w) =>
      if privilegedView v && w == 0 then some (clearNotices data s) else none
    | _ => none)

end Sys2Proof.Machine
end

