-- ==== Sys2Proof/Machine/CommandFamily.lean ====
section
/-! DEFINITION. The meanings of the commands posted through command word 0 (R165 to R174), of the ends of the
store operations (R187, R188) and of the handler's own writes (R168). A posting is one step: the processor's
unit is the first in rank (R17), so the write is accepted, served and judged at once. -/

namespace Sys2Proof.Machine

/-- Whether a write posts, or offers while RUNNING, a code of a class: privileged, to command word 0, with a
resulting high byte of the class (R165, R166). -/
def postingOf (code : Byte → Bool) (addr : BusAddr) (data : Word) (s : State) : Option State :=
  match decodeIn s addr with
  | .aperture v (.command w) =>
    let g := portGap s
    if privilegedView v && w == 0 && code (highByte (commandResult g v w data)) then
      some (cycleServed (serveCommand v w data (noteFirst g)))
    else none
  | _ => none

/-- REPAINT (R172). -/
def execRepaint (addr : BusAddr) (data : Word) (s : State) : Answer :=
  busStep s (postingOf (fun c => c == 0x01) addr data s)

/-- CLEAR_AND_REPAINT (R173). -/
def execClearAndRepaint (addr : BusAddr) (data : Word) (s : State) : Answer :=
  busStep s (postingOf (fun c => c == 0x02) addr data s)

/-- AREA (R150). -/
def execArea (addr : BusAddr) (data : Word) (s : State) : Answer :=
  busStep s (postingOf (fun c => c == 0x03) addr data s)

/-- BLANK (R128). -/
def execBlank (addr : BusAddr) (data : Word) (s : State) : Answer :=
  busStep s (postingOf (fun c => c == 0x04) addr data s)

/-- UNBLANK (R129). -/
def execUnblank (addr : BusAddr) (data : Word) (s : State) : Answer :=
  busStep s (postingOf (fun c => c == 0x05) addr data s)

/-- PROBE (R90). -/
def execProbe (addr : BusAddr) (data : Word) (s : State) : Answer :=
  busStep s (postingOf (fun c => c == 0x06) addr data s)

/-- ABORT (R167, R171): posted while IDLE, offered while RUNNING. -/
def execAbort (addr : BusAddr) (data : Word) (s : State) : Answer :=
  busStep s (postingOf (fun c => c == 0x07) addr data s)

/-- STORE_READ (R186). -/
def execStoreRead (addr : BusAddr) (data : Word) (s : State) : Answer :=
  busStep s (postingOf (fun c => c == 0x08) addr data s)

/-- STORE_ERASE (R187). -/
def execStoreErase (addr : BusAddr) (data : Word) (s : State) : Answer :=
  busStep s (postingOf (fun c => c == 0x10) addr data s)

/-- STORE_WRITE (R188). -/
def execStoreWrite (addr : BusAddr) (data : Word) (s : State) : Answer :=
  busStep s (postingOf (fun c => c == 0x11) addr data s)

/-- SETTINGS_APPLY (R190). -/
def execSettingsApply (addr : BusAddr) (data : Word) (s : State) : Answer :=
  busStep s (postingOf (fun c => c == 0x12) addr data s)

/-- BAD_CODE (R170): a nonzero code that names no command. -/
def execBadCode (addr : BusAddr) (data : Word) (s : State) : Answer :=
  busStep s (postingOf (fun c => c != 0 && !commandCodes.contains c) addr data s)

/-- A page of the store reads all 0xFFFF (R187). -/
def erasePage (page : Nat) (words : Cells Word) : Cells Word :=
  words.filter (fun p => p.1 / 32 != page)

/-- STORE_ERASE_END (R187). -/
def execStoreEraseEnd (s : State) : Answer :=
  match s.store.op with
  | .erase page n =>
    stepWhen (decide (Config.storeEraseTicks ≤ n)) .notDue
      (finishCommand .ok []
        (s.setStore { s.store with words := erasePage page s.store.words, op := .none }))
  | _ => .refused .notDue

/-- STORE_WRITE_END (R188). -/
def execStoreWriteEnd (s : State) : Answer :=
  match s.store.op with
  | .write i v n =>
    stepWhen (decide (Config.storeWriteTicks ≤ n)) .notDue
      (finishCommand .ok []
        (s.setStore { s.store with
          words := cellsWrite Config.erasedWord s.store.words i v, op := .none }))
  | _ => .refused .notDue

/-- Whether a third-rank unit is the next to be granted (R17). -/
def thirdDue (u : ThirdRank) (s : State) : Bool :=
  !processorWaits s && !areaGranted s && !s.port.burst && s.port.third.head? == some u

/-- COMMAND_ROW_WORD_WRITE (R168). -/
def execCommandRowWordWrite (s : State) : Answer :=
  match nextCommandWrite s with
  | some (r, p, rest) => stepWhen (thirdDue .commandWrite s) .notDue (commandWriteUnit r p.1 p.2 rest s)
  | none => .refused .notDue

end Sys2Proof.Machine
end

