-- ==== Sys2Proof/Machine/StatusFamily.lean ====
section
/-! DEFINITION. The meanings of the status row's units and of the burst timer (R176 to R178). -/

namespace Sys2Proof.Machine

/-- NOTICE_WORD_UPDATE (R176). -/
def execNoticeWordUpdate (s : State) : Answer :=
  stepWhen (thirdDue .noticeUpdate s) .notDue (noticeUpdateUnit s)

/-- STATUS_BURST (R178). -/
def execStatusBurst (s : State) : Answer :=
  stepWhen (!processorWaits s && !areaGranted s && s.port.burst) .notDue (burstUnit s)

/-- BURST_TIMER_EXPIRY (R177). -/
def execBurstTimerExpiry (s : State) : Answer :=
  stepWhen (s.seq.state != .lit && s.notice.burstExpired) .notDue
    (requestBurst (s.setNotice { s.notice with burstTimer := 0, burstExpired := false }))

end Sys2Proof.Machine
end

