-- ==== Sys2Proof/Machine/RowFamily.lean ====
section
/-! DEFINITION. The meanings of the Area Engine's word (R153 to R161), of the Row Scheduler's take and snapshot
(R49 to R54) and of the strobes (R57, R65). -/

namespace Sys2Proof.Machine

/-- Whether an area word's unit runs: it is being served, or it is requested and every rank above it is empty, the
snapshot word read among them unless its request comes only after this grant (R17, log 33). -/
def areaDue (a : AreaOp) (s : State) : Bool :=
  a.unit == .granted || (a.unit == .requested && areaGrantable s)

/-- AREA_WORD (R153): the last rank of the port. -/
def execAreaWord (s : State) : Answer :=
  match s.area with
  | some a => stepWhen (areaDue a s) .notDue (areaWordUnit a s)
  | none => .refused .notDue

/-- Whether the resync sets hold a row. -/
def resyncWork (s : State) : Bool := s.sets.full ||| s.sets.fill != 0

/-- Whether the Row Scheduler takes work (R49). -/
def takeDue (s : State) : Bool :=
  !recordless s.seq.state && s.link.state == .ok && s.sched.op.isNone && !s.sched.clearWaiting &&
    (!s.table.ageQueue.isEmpty || resyncWork s)

/-- The record of an operation of kind DELTA (R22, R53). -/
def deltaOp (e : Entry) : RowOp :=
  { kind := .delta, row := e.row, eraseMask := e.clearMask, writeMask := e.setMask, cursor := none,
    asked := false, phase := .erase, stage := .loading, loaded := 0, eraseDone := false, writeDone := false,
    toHand := [], returnDue := false }

/-- The record of an operation of kind FULL or FILL (R53). -/
def resyncOp (kind : OpKind) (r : Row) (erase : Mask) : RowOp :=
  { kind := kind, row := r, eraseMask := erase, writeMask := 0, cursor := some 0, asked := true, phase := .erase,
    stage := .snapshot, loaded := 0, eraseDone := false, writeDone := false, toHand := [],
    returnDue := false }

/-- The head of the age queue is taken (R22, R50). -/
def takeEntry (e : Entry) (rest : List Entry) (s : State) : State :=
  let s := s.setTable { ageQueue := rest, taken := some e }
  let s := s.setSched { s.sched with runCount := min 15 (s.sched.runCount + 1), op := some (deltaOp e) }
  startErase (deltaOp e) s

/-- A resync row is taken: it leaves its set, the cursor moves past it, and the run count becomes 0 (R50, R51). -/
def takeRow (r : Row) (s : State) : State :=
  let op :=
    if hasRow s.sets.full r then resyncOp .full r (presentColumns s) else resyncOp .fill r 0
  ((noteFirst s).setSets
    { full := s.sets.full &&& ~~~oneRow r, fill := s.sets.fill &&& ~~~oneRow r, cursor := r + 1 }).setSched
    { s.sched with runCount := 0, op := some op }

/-- The take of R50: table work while there is no resync row or the run count is below the weight. -/
def takeWork (s : State) : State :=
  match s.table.ageQueue with
  | e :: rest =>
    if !resyncWork s || decide (s.sched.runCount < s.store.settings.weight) then takeEntry e rest s
    else takeResync s
  | [] => takeResync s
where
  /-- The next resync row, at or after the cursor (R51). -/
  takeResync (s : State) : State :=
    match nextRow (s.sets.full ||| s.sets.fill) 512 s.sets.cursor with
    | some r => takeRow r s
    | none => s

/-- SCHEDULER_TAKE (R50). -/
def execSchedulerTake (s : State) : Answer := stepWhen (takeDue s) .notDue (takeWork s)

/-- SNAPSHOT_WORD_READ (R54). -/
def execSnapshotWordRead (s : State) : Answer :=
  match snapshotNext s with
  | some (op, c) => stepWhen (upperRanksEmpty s) .notDue (snapshotUnit op c s)
  | none => .refused .notDue

/-- The current period's strobe has been taken. -/
def markStrobe (p : Period) (s : State) : State :=
  s.setPeriod { s.period with current := some { p with strobed := true } }

/-- What follows the application of a phase at its strobe: the next phase or completion (R57), or, after a link
fault, the return of what is still not done, unless the strobe completes the operation (R101). -/
def afterStrobe (op : RowOp) (s : State) : State :=
  if op.returnDue && op.phase == .erase && !(presentSlices s.link.failed op.writeMask).isEmpty then
    returnOp { op with eraseDone := true, loaded := 0 } s
  else phaseDone op s

/-- A phase is applied at its strobe (R57, R58, R74). -/
def strobePhase (op : RowOp) (p : Period) (s : State) : State :=
  let s := strobeColumns op.row (workingPhase op).1 (markStrobe p s)
  afterStrobe op (s.setLit (applyPhase op s.lit))

/-- Whether a period's strobe is due: its column or erase pulse has ended (R100, R102). -/
def strobeDue (k : PeriodKind) (p : Period) (s : State) : Bool :=
  p.kind == k && !p.strobed && decide (strobeTick s.period.timing ≤ p.tick)

/-- STROBE (R57). -/
def execStrobe (s : State) : Answer :=
  match s.period.current, s.sched.op with
  | some p, some op =>
    stepWhen (s.seq.state == .lit && strobeDue .address p s && op.stage == .firing) .notDue (strobePhase op p s)
  | _, _ => .refused .notDue

/-- The global erase of CLEAR_AND_REPAINT reaches its strobe (R65, R173). No operation is in flight then (R36,
R64), and the record is left absent. -/
def eraseStrobe (p : Period) (s : State) : State :=
  let s := panelDark (setOp none (allRowsDark (markStrobe p s)))
  finishCommand (if abortTaken s then .aborted else .ok) []
    (s.setSched { s.sched with clearWaiting := false })

/-- The global erase of PRIMING reaches its strobe: every cell is dark, and nothing else changes (R102, R103). -/
def primingStrobe (p : Period) (s : State) : State := panelDark (markStrobe p s)

/-- GLOBAL_ERASE_STROBE (R65); in PRIMING, the strobe of the priming erase (R103), for which the table has no row of
its own (log 36). -/
def execGlobalEraseStrobe (s : State) : Answer :=
  match s.period.current, s.seq.state with
  | some p, .lit => stepWhen (strobeDue .globalErase p s) .notDue (eraseStrobe p s)
  | some p, .priming => stepWhen (strobeDue .globalErase p s) .notDue (primingStrobe p s)
  | _, _ => .refused .notDue

end Sys2Proof.Machine
end

