-- ==== Sys2Proof/Machine/LinkFamily.lean ====
section
/-! DEFINITION. The meanings of the driver link's events (R79 to R92): whole messages, expired stretches, and
recovery attempts. -/

namespace Sys2Proof.Machine

/-- A message on the link, of a purpose, ends as its idle check and its samples show (R79 to R83): an idle
check that fails faults the link before OPEN, and otherwise the samples give the outcome. A message cannot end
sooner than the half-bits it takes. -/
def messageEnds (purpose : Purpose) (idle : IdleCheck) (samples : List (BitVec 9)) (s : State) : Answer :=
  match s.link.message with
  | some m =>
    if m.purpose ≠ purpose then .refused .notDue
    else if !idlePossible idle then .refused .badSamples
    else if !idlePasses idle then
      stepWhen (decide (idleHalves idle * s.link.halfBit ≤ s.link.elapsed)) .notDue (linkFault s)
    else
      match scanSamples (messageBytes m) samples 0 with
      | some scan =>
        if (idleHalves idle + scanHalves (messageBytes m) scan) * s.link.halfBit ≤ s.link.elapsed then
          match messageOutcome m scan s with
          | some s' => .next s'
          | none => .refused .badSamples
        else .refused .notDue
      | none => .refused .badSamples
  | none => .refused .notDue

/-- LOAD_MESSAGE (R80). -/
def execLoadMessage (idle : IdleCheck) (samples : List (BitVec 9)) (s : State) : Answer :=
  messageEnds .phaseLoad idle samples s

/-- PROBE_MESSAGE (R91). -/
def execProbeMessage (idle : IdleCheck) (samples : List (BitVec 9)) (s : State) : Answer :=
  messageEnds .probe idle samples s

/-- A recovery attempt fails: the link stays FAULTED (R88). -/
def recoveryFails (s : State) : State := s.setLink { s.link with activity := .idle }

/-- A recovery attempt passes: the link is OK (R89). -/
def recoveryPasses (s : State) : State :=
  linkNext (s.setLink { s.link with state := .ok, activity := .idle, timer := 0, expired := false })

/-- STRETCH_EXPIRY (R71, R79, R82, R88). -/
def execStretchExpiry (place : StretchPlace) (s : State) : Answer :=
  match place, s.link.message with
  | .idleCheck, some _ =>
    stepWhen (decide (s.link.stretchLimit ≤ s.link.elapsed)) .notDue (linkFault s)
  | .message samples freed, some m =>
    match scanSamples (messageBytes m) samples 0 with
    | some scan =>
      stepWhen
        (decide (stretchHalves (messageBytes m) scan * s.link.halfBit + s.link.stretchLimit ≤ s.link.elapsed))
        .notDue (stretchOutcome m scan freed s)
    | none => .refused .badSamples
  | .recovery, none =>
    stepWhen (s.link.activity == .recovering && decide (s.link.stretchLimit ≤ s.link.elapsed)) .notDue
      (recoveryFails s)
  | _, _ => .refused .notDue

/-- RECOVERY_TIMER_EXPIRY (R87): due when the tick has brought the timer from 16,383 back to 0; an attempt begins,
unless one is in progress. -/
def execRecoveryTimerExpiry (s : State) : Answer :=
  let s' := s.setLink { s.link with timer := 0, expired := false }
  stepWhen (s.link.state == .faulted && s.seq.state != .lit && s.link.expired) .notDue
    (if s.link.activity == .recovering then s' else beginRecovery s')

/-- RECOVERY_ATTEMPT (R88, R89): the attempt's steps as its idle check and its final sample show them. -/
def execRecoveryAttempt (idle : IdleCheck) (linesHigh : Bool) (s : State) : Answer :=
  if !idlePossible idle then .refused .badSamples
  else
    let halves := if idlePasses idle then idleHalves idle + recoveryHalves else idleHalves idle
    stepWhen (s.link.activity == .recovering && decide (halves * s.link.halfBit ≤ s.link.elapsed)) .notDue
      (if idlePasses idle && linesHigh then recoveryPasses s else recoveryFails s)

end Sys2Proof.Machine
end

