-- ==== Sys2Proof/Machine/PanelFamily.lean ====
section
/-! DEFINITION. The meanings of the events of the Period Generator (R95, R103, R110), of the Sense Converter
(R137 to R146) and of the Panel Sequencer (R112 to R124). -/

namespace Sys2Proof.Machine

/-! ## Periods and pulses -/

/-- Whether a period still owes its strobe, or its sample instant (R98, R100). -/
def periodOwes (p : Period) (g : PeriodGen) : Bool :=
  match p.kind with
  | .sustain => g.index == g.timing.sampleIndex && !p.sampled
  | _ => !p.strobed

/-- PERIOD_END (R95). -/
def execPeriodEnd (s : State) : Answer :=
  match s.period.current with
  | some p =>
    stepWhen
      (s.seq.state == .lit && decide (periodLength s.period p ≤ p.tick) && !periodOwes p s.period) .notDue
      (endPeriod p s)
  | none => .refused .notDue

/-- Whether an ADDRESS period is between its start and its strobe (R110). -/
def addressUnstrobed (s : State) : Bool :=
  match s.period.current with
  | some p => p.kind == .address && !p.strobed
  | none => false

/-- DRIVER_CLEAR_PULSE (R110). -/
def execDriverClearPulse (s : State) : Answer :=
  stepWhen (s.period.clearPulse == .pending && !addressUnstrobed s) .notDue
    (s.setPeriod { s.period with clearPulse := .given 0 false })

/-- The driver clear pulse ends (R103, R110): every latch is empty, the state returns to idle or to pending, and
in PRIMING the global erase period begins once it is idle. A latch cleared has the phase erase (log 34). -/
def endClear (again : Bool) (s : State) : State :=
  let s := (s.setLatches { cols := 0, writePhase := 0 }).setPeriod
    { s.period with clearPulse := if again then .pending else .idle }
  if s.seq.state == .priming && !again && s.period.current.isNone then beginPeriod .globalErase none s else s

/-- CLEAR_PULSE_END (R110). -/
def execClearPulseEnd (s : State) : Answer :=
  match s.period.clearPulse with
  | .given t again => stepWhen (decide (Config.clearPulseTicks ≤ t)) .notDue (endClear again s)
  | _ => .refused .notDue

/-- PRIMING_ERASE_END (R103, R116): the panel is dark, since the strobe at the latest, and the sequencer enters
LIT. -/
def execPrimingEraseEnd (s : State) : Answer :=
  match s.period.current with
  | some p =>
    stepWhen
      (s.seq.state == .priming && p.kind == .globalErase && decide (periodLength s.period p ≤ p.tick)) .notDue
      (enterLit (panelDark s))
  | none => .refused .notDue

/-! ## The Sense Converter -/

/-- Whether the sample instant of the current period is due (R98, R137). -/
def sampleDue (p : Period) (s : State) : Bool :=
  s.seq.state == .lit && p.kind == .sustain && s.period.index == s.period.timing.sampleIndex && !p.sampled &&
    decide (s.period.length / 2 ≤ p.tick)

/-- The sample instant (R137, R145): an IDLE converter samples the input, captures L and starts converting. -/
def takeSample (level : Int) (p : Period) (s : State) : State :=
  let s := s.setPeriod { s.period with current := some { p with sampled := true } }
  match s.sense.conversion with
  | some _ => s.setSense { s.sense with input := level }
  | none =>
    s.setSense { s.sense with
      input := level
      conversion := some
        { capturedL := s.lit.total
          expected := expectedCode s.store.settings s.lit.total
          tick := 0
          level := level } }

/-- SAMPLE_INSTANT (R137). -/
def execSampleInstant (level : Int) (s : State) : Answer :=
  match s.period.current with
  | some p => stepWhen (sampleDue p s) .notDue (takeSample level p s)
  | none => .refused .notDue

/-- The deviation of two codes (R141). -/
def deviation (m e : Nat) : Nat := (m - e) + (e - m)

/-- A drift is confirmed (R142). -/
def confirmDrift (s : State) : State :=
  requestFull RowSet.all
    (raiseNotice .drift (s.setSense { s.sense with runCount := 0, holdOff := true }))

/-- The comparison of a completion (R141). -/
def compareReading (s : State) : State :=
  if s.store.settings.tolerance < deviation s.sense.m s.sense.e then
    if Config.driftRun ≤ s.sense.runCount + 1 then confirmDrift s
    else s.setSense { s.sense with runCount := s.sense.runCount + 1 }
  else s.setSense { s.sense with runCount := 0 }

/-- The test of a completion while hold-off is set (R143). -/
def testHoldOff (s : State) : State :=
  if s.sets.full = 0 ∧ s.sets.fill = 0 then s.setSense { s.sense with holdOff := false } else s

/-- A conversion completes (R140). -/
def completeConversion (c : Conversion) (s : State) : State :=
  let held := s.sense.holdOff
  let s := s.setSense { s.sense with conversion := none, m := measuredCode c.level, e := c.expected }
  if held then testHoldOff s else compareReading s

/-- CONVERSION_COMPLETION (R140). -/
def execConversionCompletion (s : State) : Answer :=
  match s.sense.conversion with
  | some c => stepWhen (decide (Config.conversionTicks ≤ c.tick)) .notDue (completeConversion c s)
  | none => .refused .notDue

/-! ## The Panel Sequencer -/

/-- A sample of the supply-good input is taken, and the filtered level and run count become others (R112). -/
def sampleSupply (level filtered : Bool) (run : Nat) (s : State) : State :=
  s.setSeq { s.seq with input := level, sampled := true, filtered := filtered, runCount := run }

/-- SUPPLY_GOOD_SAMPLE (R112): the sample that would be the third agreeing one is GOOD_HIGH or GOOD_LOW. -/
def execSupplyGoodSample (level : Bool) (s : State) : Answer :=
  if s.seq.sampled then .refused .notDue
  else if level = s.seq.filtered then .next (sampleSupply level s.seq.filtered 0 s)
  else if s.seq.runCount + 1 < Config.filterSamples then
    .next (sampleSupply level s.seq.filtered (s.seq.runCount + 1) s)
  else .refused .anotherRow

/-- Whether a sample changes the filtered level to the other one (R112). -/
def filterChanges (level : Bool) (s : State) : Bool :=
  !s.seq.sampled && s.seq.filtered != level && decide (Config.filterSamples ≤ s.seq.runCount + 1)

/-- What good high does in each state (R114, R119). -/
def goodHighEffect (s : State) : State :=
  let s := sampleSupply true true 0 s
  match s.seq.state with
  | .dark => judgeDark s
  | .gap => s.setSeq { s.seq with state := .resuming, settle := 0 }
  | _ => s

/-- GOOD_HIGH (R112, R119). -/
def execGoodHigh (s : State) : Answer := stepWhen (filterChanges true s) .notDue (goodHighEffect s)

/-- What good low does in each state (R115, R116, R118, R120). -/
def goodLowEffect (s : State) : State :=
  let s := sampleSupply false false 0 s
  match s.seq.state with
  | .lit => leaveLit (s.setSeq { s.seq with state := .gap, gap := 0 })
  | .resuming => s.setSeq { s.seq with state := .gap, settle := 0 }
  | .settling => enterDark s
  | .priming => enterDark (endPriming s)
  | _ => s

/-- GOOD_LOW (R112, R118). -/
def execGoodLow (s : State) : Answer := stepWhen (filterChanges false s) .notDue (goodLowEffect s)

/-- SETTLE_LIMIT_REACHED (R115, R120). -/
def execSettleLimitReached (s : State) : Answer :=
  match s.seq.state with
  | .settling => stepWhen (decide (s.store.settings.settleLimit ≤ s.seq.settle)) .notDue (enterPriming s)
  | .resuming => stepWhen (decide (s.store.settings.settleLimit ≤ s.seq.settle)) .notDue (endGap s)
  | _ => .refused .notDue

/-- LOSS_LIMIT_REACHED (R121, R122). -/
def execLossLimitReached (s : State) : Answer :=
  match s.seq.state with
  | .gap => stepWhen (decide (s.store.settings.lossLimit ≤ s.seq.gap)) .notDue (lossInGap s)
  | .resuming => stepWhen (decide (s.store.settings.lossLimit ≤ s.seq.gap)) .notDue (lossInResuming s)
  | _ => .refused .notDue

end Sys2Proof.Machine
end

