-- ==== Sys2Proof/Machine/Lines.lean ====
section
/-! DEFINITION. The lines the controller drives to the panel and to the processor, as functions of its state:
sustain X and Y, row select, column strobe, driver clear (R99, R100, R102, R110), LCK and LDA (R69), attention
(R175) and the aperture's READY (R15). -/

namespace Sys2Proof.Machine

/-- The row select lines: none, one row's, or those of all rows. -/
inductive RowSelect where
  | none
  | row (r : Row)
  | allRows
  deriving DecidableEq, Repr

/-- Whether a pulse from tick `start`, set to width `w`, is driven at a tick: it lasts w + 1 ticks (R99). -/
def pulseAt (start w tick : Nat) : Bool := decide (start ≤ tick) && decide (tick < start + w + 1)

/-- The X sustain drive: the X pulse of a SUSTAIN period, or the erase pulse of a global erase (R99, R102). -/
def xDrive (s : State) : Bool :=
  match s.period.current with
  | some p =>
    match p.kind with
    | .sustain => pulseAt 0 s.period.timing.ws p.tick
    | .globalErase => pulseAt s.period.timing.dc s.period.timing.wc p.tick
    | .address => false
  | none => false

/-- The Y sustain drive: the Y pulse of a SUSTAIN period (R99). -/
def yDrive (s : State) : Bool :=
  match s.period.current with
  | some p =>
    match p.kind with
    | .sustain => pulseAt (s.period.length / 2) s.period.timing.ws p.tick
    | _ => false
  | none => false

/-- The row select lines (R100, R102): a row select set to run past the period's end ends with it. -/
def rowSelect (s : State) : RowSelect :=
  match s.period.current with
  | some p =>
    if pulseAt s.period.timing.dr s.period.timing.wr p.tick && decide (p.tick < periodLength s.period p) then
      match p.kind, p.fires with
      | .address, some (r, _) => .row r
      | .globalErase, _ => .allRows
      | _, _ => .none
    else .none
  | none => .none

/-- The column strobe line, with the kind of its pulse (R100). -/
def columnStrobe (s : State) : Option Phase :=
  match s.period.current with
  | some p =>
    match p.kind, p.fires with
    | .address, some (_, k) =>
      if pulseAt s.period.timing.dc s.period.timing.wc p.tick then some k else none
    | _, _ => none
  | none => none

/-- The driver clear line (R110). -/
def driverClear (s : State) : Bool :=
  match s.period.clearPulse with
  | .given _ _ => true
  | _ => false

/-- LCK and LDA as the controller leaves them, true for released (R69, R70): the half-bit that the course of the message
or of the recovery attempt on the link has reached, and both released between parts that give no clock and while the
link is not in use. While a module stretches a bit, LCK is released (R71). -/
def linkLines (s : State) : HalfBit :=
  let at_ := fun (b : Byte) => (partHalves b s.link.course.part).getD s.link.course.half (true, true)
  match s.link.message with
  | some m => at_ (((messageBytes m).drop m.bytesSent).headD 0)
  | none => if s.link.activity == .recovering then at_ 0 else (true, true)

/-- The attention line (R175). -/
def attentionLine (s : State) : Bool := s.notice.attention

end Sys2Proof.Machine
end

