-- ==== Sys2Proof/Machine/ResetFamily.lean ====
section
/-! DEFINITION. The meaning of RESET (R15, R17, R43, R44, R48, R75, R94, R113, R132, R136, R162, R163, R174,
R180, R181, R183, R189). -/

namespace Sys2Proof.Machine

/-- A store word of a page whose erase was cut: its value from before, or 0xFFFF (R189); a free value decides
for each word (log 6). -/
def cutEraseWords (free page : Nat) (words : Cells Word) : Cells Word :=
  words.filter (fun p => p.1 / 32 != page || Config.cutKept free p.1)

/-- The store words as a reset leaves them (R181, R189). -/
def cutStore (free : Nat) (t : SettingsStore) : Cells Word :=
  match t.op with
  | .none => t.words
  | .erase page _ => cutEraseWords free page t.words
  | .write i v _ => if Config.cutKept free i then cellsWrite Config.erasedWord t.words i v else t.words

/-- The write of the processor's unit, if one waits (R3, R6, R9). -/
def processorUnit (s : State) : List (List (Nat × Word)) :=
  match s.wmu.state with
  | .merging c =>
    match c.target with
    | .image r w =>
      let off := imageOffset r w
      [[(off, combine (viewCombine c.view) (readMem s off) c.data)]]
    | .command w =>
      if s.cmd.running.isNone then [[(commandOffset w, commandResult s c.view w c.data)]] else []
  | _ => []

/-- The write of a third-rank unit (R168, R176). -/
def thirdUnit (s : State) : ThirdRank → List (Nat × Word)
  | .noticeUpdate => [(statusOffset 0, noticeWord s)]
  | .commandWrite =>
    match s.cmd.running with
    | some r => (r.writes.take 1).map (fun p => (commandOffset p.1, p.2))
    | none => []

/-- The write of the area word's unit, if one waits (R153). -/
def areaUnit (s : State) : List (List (Nat × Word)) :=
  match s.area with
  | some a =>
    let off := imageOffset a.row a.word
    if a.unit != .none then
      [[(off, areaCombine a.op (readMem s off) (areaPattern a a.row) (areaCells a a.word))]]
    else []
  | none => []

/-- The writes of each unit that the port may be serving (R16, R17): an area word whose unit is granted, and no other;
with none granted, the processor's unit, which is first in rank whenever it is requested, and of the others those that
stand first or have done so since the port last finished a unit, of the third rank the first alone. A unit that has
waited behind a higher rank since then is none of them: the area word requested with or after AREA's RUNNING write
(R165) or the notice-word update of a degraded row (R157), or left waiting when a burst or a write was served, behind
what stands above it then. -/
def servableUnits (s : State) : List (List (Nat × Word)) :=
  if areaGranted s then areaUnit s
  else
    let may := reachedNow s
    processorUnit s ++ (if s.port.burst && may.burst then [statusRecord s] else []) ++
      (if may.third then (s.port.third.take 1).map (thirdUnit s) else []) ++ (if may.area then areaUnit s else [])

/-- Image memory as a reset leaves it (R9, R17, R162, R174): the requests are withdrawn, and if one of them was
being served, each word of that unit holds its old or its new value; free values decide (log 21). -/
def cutMemory (s : State) : Memory :=
  cellsWriteAll Config.blankWord s.mem
    (((servableUnits s).getD (Config.servedUnit s.freeCount) []).filter
      (fun p => Config.servedWord s.freeCount p.1))

/-- The notices after a reset: SETTINGS_DEFAULT when the load finds the format word wrong (R180, R183). -/
def resetNotices (words : Cells Word) : BitVec 8 :=
  if formatRight words then 0 else 1#8 <<< noticeBit .settingsDefault

/-- The cause recorded: power-on when both sources act together (R179). -/
def causeOf : ResetSources → ResetCause
  | .powerOn => .powerOn
  | .resetInput => .resetInput
  | .together => .powerOn

/-- The machine after a reset: every block at its reset values, with the settings loaded from the store; image
memory and the store are as they were but for a unit or an operation that the reset cuts, and the driver modules,
the panel and the inputs as they were. -/
def resetState (sources : ResetSources) (s : State) : State :=
  let words := cutStore s.freeCount s.store
  let settings := loadSettings words
  { State.reset with
    pending := s.pending
    mem := cutMemory s
    bus := { ready := true, readData := s.bus.readData, clearHeld := false, side := s.bus.side }
    port := { burst := false, third := if formatRight words then [] else [.noticeUpdate] }
    latches := s.latches
    panel := s.panel
    period := { State.reset.period with length := settings.pMin, timing := timingOf settings }
    seq := { State.reset.seq with input := s.seq.input }
    sense := { State.reset.sense with input := s.sense.input }
    notice := { State.reset.notice with
      notices := resetNotices words, attention := !formatRight words, cause := causeOf sources }
    store := { words := words, op := .none, settings := settings, staged := none }
    freeCount := s.freeCount + 1 }

/-- RESET (R132). -/
def execReset (sources : ResetSources) (s : State) : Answer := .next (resetState sources s)

end Sys2Proof.Machine
end

