-- ==== Sys2Proof/Machine/Dispatch.lean ====
section
/-! DEFINITION. What each command does to everything but the queue: one arm per row of spec/opcode_table.json. -/

namespace Sys2Proof.Machine

def exec (i : Instr) (s : State) : Host.Outcome State Fault Refusal :=
  match i with
  | .reset sources => Sys2Proof.Machine.execReset sources s
  | .passThroughCycle addr cycle => Sys2Proof.Machine.execPassThroughCycle addr cycle s
  | .voidAccess addr cycle => Sys2Proof.Machine.execVoidAccess addr cycle s
  | .processorRead addr => Sys2Proof.Machine.execProcessorRead addr s
  | .imageWordWrite addr data => Sys2Proof.Machine.execImageWordWrite addr data s
  | .readCombineWrite => Sys2Proof.Machine.execReadCombineWrite s
  | .holdExpiry => Sys2Proof.Machine.execHoldExpiry s
  | .apertureWrite addr data => Sys2Proof.Machine.execApertureWrite addr data s
  | .setupSequenceWrite addr data => Sys2Proof.Machine.execSetupSequenceWrite addr data s
  | .noticeClear addr data => Sys2Proof.Machine.execNoticeClear addr data s
  | .repaint addr data => Sys2Proof.Machine.execRepaint addr data s
  | .clearAndRepaint addr data => Sys2Proof.Machine.execClearAndRepaint addr data s
  | .area addr data => Sys2Proof.Machine.execArea addr data s
  | .blank addr data => Sys2Proof.Machine.execBlank addr data s
  | .unblank addr data => Sys2Proof.Machine.execUnblank addr data s
  | .probe addr data => Sys2Proof.Machine.execProbe addr data s
  | .abort addr data => Sys2Proof.Machine.execAbort addr data s
  | .storeRead addr data => Sys2Proof.Machine.execStoreRead addr data s
  | .storeErase addr data => Sys2Proof.Machine.execStoreErase addr data s
  | .storeWrite addr data => Sys2Proof.Machine.execStoreWrite addr data s
  | .settingsApply addr data => Sys2Proof.Machine.execSettingsApply addr data s
  | .badCode addr data => Sys2Proof.Machine.execBadCode addr data s
  | .storeEraseEnd => Sys2Proof.Machine.execStoreEraseEnd s
  | .storeWriteEnd => Sys2Proof.Machine.execStoreWriteEnd s
  | .commandRowWordWrite => Sys2Proof.Machine.execCommandRowWordWrite s
  | .noticeWordUpdate => Sys2Proof.Machine.execNoticeWordUpdate s
  | .statusBurst => Sys2Proof.Machine.execStatusBurst s
  | .burstTimerExpiry => Sys2Proof.Machine.execBurstTimerExpiry s
  | .areaWord => Sys2Proof.Machine.execAreaWord s
  | .schedulerTake => Sys2Proof.Machine.execSchedulerTake s
  | .snapshotWordRead => Sys2Proof.Machine.execSnapshotWordRead s
  | .loadMessage idle samples => Sys2Proof.Machine.execLoadMessage idle samples s
  | .probeMessage idle samples => Sys2Proof.Machine.execProbeMessage idle samples s
  | .stretchExpiry place => Sys2Proof.Machine.execStretchExpiry place s
  | .recoveryTimerExpiry => Sys2Proof.Machine.execRecoveryTimerExpiry s
  | .recoveryAttempt idle linesHigh => Sys2Proof.Machine.execRecoveryAttempt idle linesHigh s
  | .periodEnd => Sys2Proof.Machine.execPeriodEnd s
  | .strobe => Sys2Proof.Machine.execStrobe s
  | .globalEraseStrobe => Sys2Proof.Machine.execGlobalEraseStrobe s
  | .driverClearPulse => Sys2Proof.Machine.execDriverClearPulse s
  | .clearPulseEnd => Sys2Proof.Machine.execClearPulseEnd s
  | .primingEraseEnd => Sys2Proof.Machine.execPrimingEraseEnd s
  | .sampleInstant level => Sys2Proof.Machine.execSampleInstant level s
  | .conversionCompletion => Sys2Proof.Machine.execConversionCompletion s
  | .goodHigh => Sys2Proof.Machine.execGoodHigh s
  | .goodLow => Sys2Proof.Machine.execGoodLow s
  | .settleLimitReached => Sys2Proof.Machine.execSettleLimitReached s
  | .lossLimitReached => Sys2Proof.Machine.execLossLimitReached s
  | .supplyGoodSample level => Sys2Proof.Machine.execSupplyGoodSample level s

end Sys2Proof.Machine
end

