-- ==== Sys2Proof/Machine/Tick.lean ====
section
/-! DEFINITION. What the block does by itself while no command waits: the events of its own that are due, and,
when none is, one tick of its clock (log 1). -/

namespace Sys2Proof.Machine

/-- The hold counter counts in HOLDING (R11). -/
def tickWmu (w : WriteMerge) : WriteMerge :=
  match w.state with
  | .holding _ => { w with holdCounter := w.holdCounter + 1 }
  | _ => w

/-- The tick reached in the current period and in a clear pulse (R94, R110). -/
def tickPeriod (g : PeriodGen) : PeriodGen :=
  { g with
    current := g.current.map (fun p => { p with tick := p.tick + 1 })
    clearPulse :=
      match g.clearPulse with
      | .given t again => .given (t + 1) again
      | c => c }

/-- The settle counter counts in SETTLING and RESUMING, and the gap counter in GAP and RESUMING (R113); a new
sample of the supply-good input is due (R112). -/
def tickSeq (q : Sequencer) : Sequencer :=
  let settles := q.state == .settling || q.state == .resuming
  let gaps := q.state == .gap || q.state == .resuming
  { q with
    settle := if settles then min 65535 (q.settle + 1) else q.settle
    gap := if gaps then min 65535 (q.gap + 1) else q.gap
    sampled := false }

/-- A tick of the recovery timer or of the burst timer, while it counts or not: its value, within 0..16,383, and
whether it expires: it then returns to 0 where it would reach 16,384 (R87, R177). -/
def timerTick (counts : Bool) (n : Nat) : Nat × Bool :=
  if counts then (if Config.timerTicks ≤ n + 1 then (0, true) else (n + 1, false)) else (n, false)

/-- Whether a message or a recovery attempt is on the link (R69). -/
def linkUsed (l : DriverLink) : Bool := l.message.isSome || l.activity == .recovering

/-- The recovery timer counts while the link is FAULTED and the sequencer is not LIT (R87); the ticks of a message
or of a recovery attempt count while it is on the link, and it goes on in its course (R71, R80, R88). Whether the lines
are held low from outside in this tick is a free value (log 9). -/
def tickLink (lit : Bool) (free : Nat) (l : DriverLink) : DriverLink :=
  let timed := timerTick (l.state == .faulted && !lit) l.timer
  linkCourse (Config.lckHeld free) (Config.ldaHeld free) { l with
    timer := timed.1
    expired := timed.2
    elapsed := if linkUsed l then l.elapsed + 1 else l.elapsed }

/-- The burst timer counts while the sequencer is not LIT (R177). -/
def tickNotice (lit : Bool) (n : NoticeUnit) : NoticeUnit :=
  let timed := timerTick (!lit) n.burstTimer
  { n with burstTimer := timed.1, burstExpired := timed.2 }

/-- The tick reached in a conversion (R137). -/
def tickSense (c : SenseConverter) : SenseConverter :=
  { c with conversion := c.conversion.map (fun x => { x with tick := x.tick + 1 }) }

/-- The ticks elapsed in a store operation (R181). -/
def tickStore (t : SettingsStore) : SettingsStore :=
  { t with
    op :=
      match t.op with
      | .none => .none
      | .erase page n => .erase page (n + 1)
      | .write i v n => .write i v (n + 1) }

/-- One tick: every counter that counts in this state counts once. A tick of a link in use draws a free value for its
lines (log 9). -/
def tick (s : State) : State :=
  let lit := s.seq.state == .lit
  let drawn := if linkUsed s.link then drawFree s else s
  ((((((drawn.setWmu (tickWmu s.wmu)).setPeriod (tickPeriod s.period)).setSeq (tickSeq s.seq)).setLink
    (tickLink lit s.freeCount s.link)).setNotice (tickNotice lit s.notice)).setSense (tickSense s.sense)).setStore
      (tickStore s.store)

/-- The events that the block brings about by itself, in the order the model takes those that are due together
(log 1); the inputs keep their levels. The ends of messages and of recovery attempts are not among them: they
come from the link's lines. The take stands first, as it is made as soon as its conditions hold (R49). The area
word is no step while a snapshot's next word is requested (R17). -/
def ownEvents (s : State) : List Instr :=
  [.schedulerTake, .strobe, .globalEraseStrobe, .clearPulseEnd, .driverClearPulse, .conversionCompletion,
    .sampleInstant s.sense.input, .periodEnd, .primingEraseEnd, .settleLimitReached, .lossLimitReached,
    .holdExpiry, if s.seq.input then .goodHigh else .goodLow, .supplyGoodSample s.seq.input,
    .burstTimerExpiry, .recoveryTimerExpiry, .storeEraseEnd, .storeWriteEnd, .readCombineWrite,
    .statusBurst, .noticeWordUpdate, .commandRowWordWrite, .areaWord, .snapshotWordRead]

/-- The first of a list of commands that is a step of the machine now. -/
def firstStep (s : State) : List Instr → Option State
  | [] => none
  | c :: rest =>
    match exec c s with
    | .next s' => some s'
    | _ => firstStep s rest

/-- The step with no command waiting: an event of the block's own that is due, or else a tick. -/
def idleStep (s : State) : State :=
  match firstStep s (ownEvents s) with
  | some s' => s'
  | none => tick s

end Sys2Proof.Machine
end

