-- ==== Sys2Proof/Safety.lean ====
section
/-! DEFINITION. What a safe state is, in the terms the statements use: the laws of the device that the manual
prints, and the model's own forms, each as a property of one state. -/

namespace Sys2Proof.Safety

open Machine

/-- Every sparse store is in its canonical form: image memory, the command copy, the store words, the panel and
the lit table. -/
abbrev StoresCanonical (s : State) : Prop :=
  Memory.wf s.mem ∧ CellsWf 0 s.cmd.copy ∧ CellsWf Config.erasedWord s.store.words ∧ CellsWf 0 s.panel ∧
    CellsWf 0 s.lit.counts

/-- The TAKEN entry is present exactly while its DELTA operation is in flight, for the same row (R19). -/
abbrev TakenMatches (t : ChangeTable) (op : Option RowOp) : Prop :=
  match op with
  | some o => if o.kind = .delta then t.taken.map (·.row) = some o.row else t.taken = none
  | none => t.taken = none

/-- The first law of the Change Table (R19): at most 32 entries, and at most one OPEN entry for a row; there is
one TAKEN entry at most, and it is its operation's. -/
abbrev FirstLaw (s : State) : Prop :=
  slotsInUse s.table ≤ Config.slots ∧ (s.table.ageQueue.map (·.row)).Nodup ∧
    TakenMatches s.table s.sched.op

/-- The masks of an entry have no cell in common, and are not both empty (R20). -/
abbrev EntryLaw (e : Entry) : Prop := e.setMask &&& e.clearMask = 0 ∧ ¬ (e.setMask = 0 ∧ e.clearMask = 0)

/-- A held change record: rise and fall bits disjoint and not both empty (table above R9). -/
abbrev HeldLaw (w : WmuState) : Prop :=
  match w with
  | .holding h => h.rise &&& h.fall = 0 ∧ ¬ (h.rise = 0 ∧ h.fall = 0)
  | _ => True

/-- A DELTA operation: masks disjoint, as they were in its entry, and no snapshot cursor (R52, R53). -/
abbrev DeltaLaw (op : Option RowOp) : Prop :=
  match op with
  | some o => o.kind = .delta → o.eraseMask &&& o.writeMask = 0 ∧ o.cursor = none
  | none => True

/-- The second law of the Change Table (R20), of OPEN and TAKEN entries, with what it rests on in the held change
record and in a DELTA operation. -/
abbrev SecondLaw (s : State) : Prop :=
  (∀ e ∈ s.table.ageQueue, EntryLaw e) ∧ (∀ e, s.table.taken = some e → EntryLaw e) ∧ HeldLaw s.wmu.state ∧
    DeltaLaw s.sched.op

/-- The third law of the device (R45): no row in both sets, and no row of either set with an OPEN entry. -/
abbrev ThirdLaw (s : State) : Prop :=
  s.sets.full &&& s.sets.fill = 0 ∧ ∀ e ∈ s.table.ageQueue, inResync s e.row = false

/-- The fifth law of the device (R59): each count within 0..64, and L their sum; the keys are those of the 4,096
counts. -/
abbrev FifthLaw (s : State) : Prop :=
  CellsWf 0 s.lit.counts ∧ (∀ p ∈ s.lit.counts, p.1 < 4096 ∧ p.2 ≤ 64) ∧
    s.lit.total = (s.lit.counts.map (·.2)).sum

/-- The bounds on which periods rest (R134, R184): P_min..P_max in order, K at least 256, and the pulses within
the shortest period. -/
abbrev TimingFits (t : Timing) : Prop :=
  40 ≤ t.pMin ∧ t.pMin ≤ t.pMax ∧ t.pMax ≤ 255 ∧ 256 ≤ t.k ∧ 1 ≤ t.allowance ∧ t.allowance ≤ 8 ∧
    t.ws + 1 ≤ t.pMin / 2 - 2 ∧ t.dr ≤ t.dc ∧ t.dc + t.wc + 1 ≤ t.dr + t.wr + 1 ∧
    t.dc + t.wc + 1 ≤ t.pMin - 2

/-- Settings as R184 leaves them: the timing fits, and the protected band ends within the image. -/
abbrev SettingsFit (t : Settings) : Prop :=
  TimingFits (timingOf t) ∧ t.firstRow + t.rowCount ≤ 512 ∧ 1 ≤ t.weight ∧ t.weight ≤ 15

/-- The sixth law of the device (R106): while LIT, P lies within P_min..P_max in force; with the settings and
the timing copy it rests on. -/
abbrev SixthLaw (s : State) : Prop :=
  SettingsFit s.store.settings ∧ (∀ t, s.store.staged = some t → SettingsFit t) ∧
    TimingFits s.period.timing ∧
    (s.seq.state = .lit → s.period.timing.pMin ≤ s.period.length ∧ s.period.length ≤ s.period.timing.pMax)

/-- The budget's part of the seventh law and the eighth law, on the current period (R97, R98): in LIT a period
that is ADDRESS or GLOBAL ERASE is not the sample period, and fewer than A of the periods in the window were
ADDRESS. The window never holds more than 15 kinds. -/
abbrev BudgetLaw (s : State) : Prop :=
  s.period.window.length ≤ Config.windowPeriods ∧
    (s.seq.state = .lit → ∀ p, s.period.current = some p → p.kind ≠ .sustain →
      budgetAllows s.period = true)

/-- The ninth law of the device (R100): ADDRESS periods only in LIT, global erase periods only in PRIMING or LIT,
and no period in the other states. -/
abbrev NinthLaw (s : State) : Prop :=
  ∀ p, s.period.current = some p →
    s.seq.state = .lit ∨ (s.seq.state = .priming ∧ p.kind = .globalErase)

/-- The tenth law of the device (R126). -/
abbrev TenthLaw (s : State) : Prop :=
  recordless s.seq.state = true →
    s.table = { ageQueue := [], taken := none } ∧ s.sched.op = none ∧
      (∀ h, s.wmu.state ≠ .holding h) ∧ s.sets.full = 0 ∧ s.sets.fill = RowSet.all ∧
      s.lit = { counts := [], total := 0 }

/-- The attention line is high exactly while the notice set holds a notice (R175). -/
abbrev AttentionFollows (s : State) : Prop := s.notice.attention = (s.notice.notices != 0)

/-- READY is low exactly while the Write Merge Unit carries a write or a clear waits for its update, and not for
both (R7, R9, R15). -/
abbrev ReadyFollows (s : State) : Prop :=
  (s.bus.ready = true ↔ s.wmu.state = .idle ∧ s.bus.clearHeld = false) ∧
    (s.bus.clearHeld = true → s.wmu.state = .idle)

/-- The running command is a code, and has no result yet. -/
abbrev RunsOpen (s : State) (code : Byte) : Prop :=
  ∃ r ∈ s.cmd.running, r.code = code ∧ r.result = none

/-- What blocks hold for a command is held for the running one, which has no result yet: an area operation for
AREA, clear waiting for CLEAR_AND_REPAINT, a probe round for PROBE, staged settings for SETTINGS_APPLY (R149,
R48, R90, R181). -/
abbrev BlocksOwned (s : State) : Prop :=
  (s.area.isSome = true → RunsOpen s 0x03) ∧ (s.sched.clearWaiting = true → RunsOpen s 0x02) ∧
    (s.link.round.isSome = true → RunsOpen s 0x06) ∧ (s.store.staged.isSome = true → RunsOpen s 0x12) ∧
    (s.store.op ≠ .none → RunsOpen s 0x10 ∨ RunsOpen s 0x11)

/-- A cell's exceptions from panel equality (R23), as a mask of a row: rows of the resync sets, columns of FAILED
modules, words not yet read by a snapshot in progress, and the word of a held change record. -/
def exceptedCells (s : State) (r : Row) : Mask :=
  if inResync s r then BitVec.allOnes 512
  else
    let failed := moduleColumns s.link.failed
    let unread := match s.sched.op with
      | some op =>
        if op.row = r ∧ op.stage = .snapshot then BitVec.allOnes 512 >>> (16 * op.cursor.getD 32) else 0
      | none => 0
    let held := match s.wmu.state with
      | .holding h => if h.row = r then wordCells h.word (BitVec.allOnes 16) else 0
      | _ => 0
    failed ||| unread ||| held

/-- A row of the panel after the phases of the operation in flight that are not done (R23). -/
def afterOperation (s : State) (r : Row) : Mask :=
  match s.sched.op with
  | some op =>
    if op.row = r then
      let erased := if op.eraseDone then panelRow s r else panelRow s r &&& ~~~op.eraseMask
      if op.writeDone then erased else erased ||| op.writeMask
    else panelRow s r
  | none => panelRow s r

/-- The projected state of a row (R23): what the panel will show once the operation in flight and then the row's
OPEN entry are applied. -/
def projectedRow (s : State) (r : Row) : Mask :=
  match openEntry s.table r with
  | some e => (afterOperation s r ||| e.setMask) &&& ~~~e.clearMask
  | none => afterOperation s r

/-- A row of image memory as a mask. -/
def memoryRow (s : State) (r : Row) : Mask :=
  (List.finRange 32).foldl (fun acc w => acc ||| wordCells w (readMem s (imageOffset r w))) 0

/-- The fourth law of the device (R23), for one row: while the sequencer is LIT, GAP or RESUMING, the projected
state equals image memory but for the excepted cells. -/
def panelEqual (s : State) (r : Row) : Bool :=
  recordless s.seq.state || (projectedRow s r ^^^ memoryRow s r) &&& ~~~exceptedCells s r == 0

/-! ## Terms the statements use -/

/-- What holds commands for their blocks, with the ninth law and what a global erase in LIT rests on (R64, R66,
R104): its period runs unstrobed only while clear waiting is yes. -/
abbrev CommandLaw (s : State) : Prop :=
  BlocksOwned s ∧ NinthLaw s ∧
    (s.seq.state = .lit → ∀ p, s.period.current = some p → p.kind = .globalErase → p.strobed = false →
      s.sched.clearWaiting = true)

/-- The new word of a write through a view, as the table of R3 gives it. -/
abbrev WordByTable (v : BitVec 3) (o d n : Word) : Prop :=
  ((v = 0 ∨ v = 4) → n = d) ∧ ((v = 1 ∨ v = 5) → n = o ||| d) ∧ ((v = 2 ∨ v = 6) → n = o &&& ~~~d) ∧
    ((v = 3 ∨ v = 7) → n = o ^^^ d)

/-- The records of the panel's work are the same in two states. -/
abbrev SameRecords (s t : State) : Prop :=
  t.table = s.table ∧ t.sets = s.sets ∧ t.sched = s.sched ∧ t.lit = s.lit

/-- The drive of the panel is the same in two states: link, latches, panel, periods, sequencer, converter. -/
abbrev SameDrive (s t : State) : Prop :=
  t.link = s.link ∧ t.latches = s.latches ∧ t.panel = s.panel ∧ t.period = s.period ∧ t.seq = s.seq ∧
    t.sense = s.sense

/-- The processor's side is the same in two states: image memory, the bus and the Write Merge Unit. -/
abbrev SameWritePath (s t : State) : Prop := t.mem = s.mem ∧ t.bus = s.bus ∧ t.wmu = s.wmu

/-- The command for a write, through any view, to a word of the command row, by the table's rows: word 31, a
word 0 with the resulting code `code`, or another word. -/
def commandRowWrite (w : WordIx) (code : Byte) (a : BusAddr) (d : Word) : Instr :=
  if w = 31 then .setupSequenceWrite a d
  else if w ≠ 0 ∨ code = 0 then .apertureWrite a d
  else if code = 0x01 then .repaint a d
  else if code = 0x02 then .clearAndRepaint a d
  else if code = 0x03 then .area a d
  else if code = 0x04 then .blank a d
  else if code = 0x05 then .unblank a d
  else if code = 0x06 then .probe a d
  else if code = 0x07 then .abort a d
  else if code = 0x08 then .storeRead a d
  else if code = 0x10 then .storeErase a d
  else if code = 0x11 then .storeWrite a d
  else if code = 0x12 then .settingsApply a d
  else .badCode a d

/-- The port serves no unit, and owes waiting work no grant before the processor's next one (R17). Of any other state
the statement on the port's grants says that a cycle's outcome is that of the state where this holds. -/
abbrev NoGap (s : State) : Prop := s.gapDue = false ∧ areaGranted s = false

/-- The area operation is as it was, but that its waiting unit may have been granted at the instant a slot was freed
under a hold (R12, R158). -/
abbrev AreaKept (s t : State) : Prop :=
  t.area = s.area ∨
    ((∃ h, s.wmu.state = .holding h) ∧
      ∃ x, s.area = some x ∧ x.unit = .requested ∧ t.area = some { x with unit := .granted })

/-- The processor's cycle completes: IDLE, with READY released (R10, R12 to R14). -/
def cycleDone (m : State) : State :=
  (m.setWmu { m.wmu with state := .idle }).setBus { m.bus with ready := true }

/-- The held record offered to the merge: placed, with its cycle complete, or held on (R12, R30). -/
def heldOffered (h : HeldChange) (b : State) : State :=
  match mergeDifference h.row h.word h.rise h.fall b with
  | some m => cycleDone m
  | none => b

/-- The table, the hold and READY at the end of an event from s to t that leaves the table as in b are what b makes
of the hold (R12, R13, R30). -/
abbrev HoldSettled (b t : State) : Prop :=
  t.table = (settleHold b).table ∧ t.wmu = (settleHold b).wmu ∧ t.bus.ready = (settleHold b).bus.ready ∧
    t.area = (settleHold b).area

/-- The state with the operation in flight ended and the TAKEN entry's slot free (R30, R32). -/
def slotFreed (s : State) : State :=
  (s.setTable { s.table with taken := none }).setSched { s.sched with op := none }

/-- What the return of an operation gives back (R61): for a DELTA, the write actions unless the write is done and
the erase actions unless the erase is done go to the merge-back; for the others, the row goes to a resync set. -/
abbrev GivesBack (s t : State) (op : RowOp) : Prop :=
  (op.kind = .delta → (∀ h, s.wmu.state ≠ .holding h) ∨ s.area = none →
    let b := mergeBack op.row (if op.writeDone = true then 0 else op.writeMask)
      (if op.eraseDone = true then 0 else op.eraseMask) (s.setSched { s.sched with op := none })
    t.table = b.table ∧ t.sets = b.sets ∧ t.wmu = b.wmu) ∧
  (op.kind = .full → op.eraseDone = false → recordless s.seq.state = false →
    hasRow t.sets.full op.row = true) ∧
  (op.kind = .fill ∨ op.kind = .full ∧ op.eraseDone = true → inResync t op.row = true)

/-- A message on the link as loss effects leave it (R93): a LOAD message is marked as handed over before them. -/
def afterLoss (m : Message) : Message :=
  if m.purpose = .phaseLoad then { m with beforeLoss := true } else m

/-- A privileged write with READY high to word w of the command row, whose resulting word is n (R3, R6). -/
abbrev WritesCommand (s : State) (a : BusAddr) (d : Word) (w : WordIx) (n : Word) : Prop :=
  NoGap s ∧ s.bus.ready = true ∧
    ∃ v, decodeIn s a = .aperture v (.command w) ∧ privilegedView v = true ∧
      n = combine (viewCombine v) (readMem s (commandOffset w)) d

/-- A posting write of a code while the Command Row Handler is IDLE (R165). -/
abbrev Posts (s : State) (a : BusAddr) (d : Word) (code : Byte) : Prop :=
  s.cmd.running = none ∧ ∃ n, WritesCommand s a d 0 n ∧ highByte n = code

/-- Command word w of the copy, as the number it holds (R193). -/
abbrev argument (s : State) (w : WordIx) : Nat := (copyWord s.cmd w).toNat

/-- The bus cycles that the port may make wait for work it grants first (R17). -/
def usesPort : Instr → Bool
  | .processorRead _ | .imageWordWrite _ _ | .apertureWrite _ _ | .setupSequenceWrite _ _ | .repaint _ _
  | .clearAndRepaint _ _ | .area _ _ | .blank _ _ | .unblank _ _ | .probe _ _ | .abort _ _ | .storeRead _ _
  | .storeErase _ _ | .storeWrite _ _ | .settingsApply _ _ | .badCode _ _ => true
  | .reset _ | .passThroughCycle _ _ | .voidAccess _ _ | .readCombineWrite | .holdExpiry | .noticeClear _ _
  | .storeEraseEnd | .storeWriteEnd | .commandRowWordWrite | .noticeWordUpdate | .statusBurst
  | .burstTimerExpiry | .areaWord | .schedulerTake | .snapshotWordRead | .loadMessage _ _ | .probeMessage _ _
  | .stretchExpiry _ | .recoveryTimerExpiry | .recoveryAttempt _ _ | .periodEnd | .strobe
  | .globalEraseStrobe | .driverClearPulse | .clearPulseEnd | .primingEraseEnd | .sampleInstant _
  | .conversionCompletion | .goodHigh | .goodLow | .settleLimitReached | .lossLimitReached
  | .supplyGoodSample _ => false

/-- The window history after the current period, if one runs, is cut (R97, R108): it is recorded as the kind it
started as, a global erase as ADDRESS, and the 15 newest kinds stay. -/
def cutWindow (g : PeriodGen) : List WindowKind :=
  match g.current with
  | some p =>
    let all := g.window ++ [if p.kind = .sustain then .sustain else .address]
    all.drop (all.length - 15)
  | none => g.window

/-- A pulse from tick `start`, set to width `w`, is on at a tick: it lasts w + 1 ticks (R99). -/
abbrev InPulse (start w tick : Nat) : Prop := start ≤ tick ∧ tick < start + w + 1

/-- The lines to the panel follow the current period, its tick, P and the timing copy, and the driver clear line
follows the clear pulse (R95, R99, R100, R102, R108, R110). A row select ends with its period at the latest (R100). -/
abbrev PanelLinesFollow (s : State) : Prop :=
  let c := s.period.timing
  (s.period.current = none →
    xDrive s = false ∧ yDrive s = false ∧ rowSelect s = .none ∧ columnStrobe s = none) ∧
  (∀ p, s.period.current = some p → p.kind = .sustain →
    (xDrive s = true ↔ InPulse 0 c.ws p.tick) ∧ (yDrive s = true ↔ InPulse (s.period.length / 2) c.ws p.tick) ∧
      rowSelect s = .none ∧ columnStrobe s = none) ∧
  (∀ p r k, s.period.current = some p → p.kind = .address → p.fires = some (r, k) →
    xDrive s = false ∧ yDrive s = false ∧
      rowSelect s = (if InPulse c.dr c.wr p.tick ∧ p.tick < s.period.length then .row r else .none) ∧
      columnStrobe s = (if InPulse c.dc c.wc p.tick then some k else none)) ∧
  (∀ p, s.period.current = some p → p.kind = .globalErase →
    (xDrive s = true ↔ InPulse c.dc c.wc p.tick) ∧ yDrive s = false ∧
      rowSelect s = (if InPulse c.dr c.wr p.tick ∧ p.tick < c.pMin then .allRows else .none) ∧
      columnStrobe s = none) ∧
  (driverClear s = true ↔ ∃ n again, s.period.clearPulse = .given n again)

/-- A message or a recovery attempt is on the link (R69). -/
abbrev LinkInUse (l : DriverLink) : Prop := l.message ≠ none ∨ l.activity = .recovering

/-- LCK is to read high in this tick: the controller has released it at the end of a low half, or waits for it before
its idle check (R71, R79). -/
abbrev AwaitsLck (c : LinkCourse) : Prop :=
  c.part = .check ∨ c.tick = 0 ∧ c.half % 2 = 1 ∧
    c.part ∈ [CoursePart.pulses, .checkClose, .clocks, .byte, .spoiled, .closing]

/-- The half-bits of a part of the course: a byte, nine pulses, the eight data bits of a byte in contention, OPEN or
CLOSE (R70, R79, R82, R83, R88). -/
def partLength : CoursePart → Nat
  | .byte => 18
  | .pulses => 18
  | .clocks => 18
  | .spoiled => 16
  | .opening => 2
  | .closing => 2
  | .checkClose => 2
  | .attempt => 2
  | .check => 0
  | .recheck => 0
  | .ended => 0

/-- The part that follows a part run to its end, as LDA read when it was last sampled (R70, R79, R80, R81, R88): `more`
says that a byte is left to be sent, `message` that no recovery attempt is on the link. -/
def partFollowing (message more ldaLow : Bool) : CoursePart → CoursePart
  | .pulses => if ldaLow then .ended else .checkClose
  | .checkClose => .recheck
  | .clocks => .opening
  | .opening => if message then .byte else .closing
  | .byte => if ldaLow && more then .byte else .closing
  | .spoiled => .closing
  | .closing => .ended
  | .attempt => .ended
  | .check => .ended
  | .recheck => .ended
  | .ended => .ended

/-- One tick of the course of what is on the link, with LCK or LDA held low from outside or not: from l to l'.
A stretch only delays it, and is counted up to the stretch limit, where a message attempts CLOSE (R71, R82) and an idle
check or a recovery attempt is over (R79, R88). An idle check reads the lines, and again after the CLOSE that follows
its pulses (R79). Otherwise a tick of the half-bit passes, and a part at its end is followed by the next; LDA is
sampled as LCK reads high, and in a data bit sent as 1 it may show contention (R70, R83). -/
abbrev CourseGoesOn (lck lda : Bool) (sent : Bool) (l l' : DriverLink) : Prop :=
  let c := l.course
  let c' := l'.course
  let message := l.message.isSome
  let more := l.message.any (fun m => decide (m.bytesSent + 1 < 2 + m.data.length))
  let checked := if message then CoursePart.opening else .clocks
  let rises := c.tick = 0 ∧ c.half % 2 = 1
  let low := if rises then lda || !sent else c.ldaLow
  let halfEnds := l.halfBit ≤ c.tick + 1
  let contended := c.part = .byte ∧ rises ∧ c.half < 16 ∧ sent = true ∧ lda = true
  let freed := c.part = .pulses ∧ c.half % 2 = 1 ∧ low = false
  if lck = true ∧ AwaitsLck c then
    if c.stretch + 1 < l.stretchLimit then c' = { c with stretch := c.stretch + 1 }
    else c'.stretch = c.stretch + 1 ∧ c'.half = 0 ∧ c'.tick = 0 ∧
      c'.part = (if message = true ∧ c.part ∈ [CoursePart.byte, .spoiled, .closing] then .attempt else .ended)
  else if c.part = .check then c'.part = (if lda then .pulses else checked)
  else if c.part = .recheck then c'.part = (if lck || lda then .ended else checked)
  else if c.part = .ended then c' = c
  else if c.part = .attempt ∧ rises ∧ lck = true then c'.part = .ended
  else
    (rises → c'.stretch = 0) ∧
    (¬ halfEnds → c'.half = c.half ∧ c'.tick = c.tick + 1 ∧ c'.part = (if contended then .spoiled else c.part)) ∧
    (halfEnds → c.half + 1 < partLength (if contended then .spoiled else c.part) → ¬ freed →
      c'.half = c.half + 1 ∧ c'.tick = 0 ∧ c'.part = (if contended then .spoiled else c.part)) ∧
    (halfEnds → c.half + 1 = partLength (if contended then .spoiled else c.part) ∨ freed →
      c'.half = 0 ∧ c'.tick = 0 ∧ c'.part = partFollowing message more low (if contended then .spoiled else c.part))

/-- One tick of the link's course (CourseGoesOn), with the activity and the bytes sent (R75): CHECKING in an idle check
and, by the model's choice (log 9), in OPEN; SENDING in the bytes; CLOSING in CLOSE; one byte more sent at the end of
each (R80); RECOVERING throughout an attempt (R88). With nothing on the link, nothing goes on. -/
abbrev LinkGoesOn (lck lda : Bool) (sent : Bool) (l l' : DriverLink) : Prop :=
  let c := l.course
  (¬ LinkInUse l → l'.course = c ∧ l'.activity = l.activity ∧ l'.message = none) ∧
  (LinkInUse l → CourseGoesOn lck lda sent l l') ∧
  (l.message = none → l'.message = none ∧ l'.activity = l.activity) ∧
  ∀ m, l.message = some m →
    l'.activity =
      (if l'.course.part ∈ [CoursePart.check, .pulses, .checkClose, .recheck, .clocks, .opening] then .checking
        else if l'.course.part ∈ [CoursePart.byte, .spoiled] then .sending
        else if l'.course.part ∈ [CoursePart.closing, .attempt] then .closing
        else l.activity) ∧
    l'.message = some { m with
      bytesSent :=
        if c.part = .byte ∧ c.half = 17 ∧ l.halfBit ≤ c.tick + 1 ∧ ¬ (lck = true ∧ AwaitsLck c) then m.bytesSent + 1
        else m.bytesSent }

/-- The link's lines, LCK and then LDA as the controller leaves them, true for released, follow the message or the
recovery attempt on the link in the part of its course and the half-bit of it: OPEN, the bits of the byte in hand with
the most significant first and its acknowledge with LDA released, and CLOSE (R70); clock pulses with LDA released (R79,
R83, R88); and the CLOSE attempted when a stretch has expired (R82). Both are released while the lines are read, at the
end of the course, and while the link is not in use (R69). -/
abbrev LinkLinesFollow (s : State) : Prop :=
  let c := s.link.course
  let even := c.half % 2 = 0
  (¬ LinkInUse s.link → linkLines s = (true, true)) ∧
  (c.part ∈ [CoursePart.check, .recheck, .ended] → linkLines s = (true, true)) ∧
  (LinkInUse s.link →
    (c.part = .opening → c.half < 2 → linkLines s = (true, decide even)) ∧
    (c.part ∈ [CoursePart.closing, .checkClose] → c.half < 2 → linkLines s = (decide (¬ even), false)) ∧
    (c.part = .attempt → c.half < 2 → linkLines s = (true, false)) ∧
    (c.part ∈ [CoursePart.pulses, .clocks, .spoiled] → c.half < partLength c.part →
      linkLines s = (decide (¬ even), true))) ∧
  (∀ (m : Message) (b : Byte), s.link.message = some m → (messageBytes m)[m.bytesSent]? = some b → c.part = .byte →
    (c.half < 16 → linkLines s = (decide (¬ even), b.getLsbD (7 - c.half / 2))) ∧
    (c.half = 16 → linkLines s = (false, true)) ∧ (c.half = 17 → linkLines s = (true, true)))

/-- The running command has its result: the RUNNING word, the result words and the final word 0 are to be
written, in this order (R168). -/
abbrev EndsWith (t : State) (code res : Byte) (words : List (WordIx × Word)) : Prop :=
  ∃ r, t.cmd.running = some r ∧ r.code = code ∧ r.result = some res ∧
    r.writes = (0, code ++ (0x01 : Byte)) :: words ++ [(0, code ++ res)]

/-- The running command goes on, with the RUNNING word to be written (R165). -/
abbrev GoesOn (t : State) (code : Byte) : Prop :=
  ∃ r, t.cmd.running = some r ∧ r.code = code ∧ r.result = none ∧ r.abortTaken = false ∧
    r.writes = [(0, code ++ (0x01 : Byte))]

/-- The columns that a mask has in PRESENT modules (R55). -/
abbrev presentCells (failed : ModuleSet) (mask : Mask) : Mask := mask &&& moduleColumns (~~~failed)

/-- The cells that the start of a phase with this mask drops: those of the FAILED modules' slices (R55). -/
def failedCells (failed : ModuleSet) (mask : Mask) : Nat :=
  ((allModules.filter (fun m => hasModule failed m)).map (fun m => cellCount (maskSlice mask m))).sum

/-- The cells that the start of the erase phase drops, with those of the write phase where no cell of a PRESENT
module is left to erase, and the write phase starts the same way (R55). -/
def failedCellsFromErase (failed : ModuleSet) (op : RowOp) : Nat :=
  failedCells failed op.eraseMask +
    if presentCells failed op.eraseMask = 0 then failedCells failed op.writeMask else 0

/-- The dropped-cells counter has risen by a number of cells, and saturates (R55, R56). -/
abbrev Drops (s t : State) (n : Nat) : Prop :=
  t.notice.droppedCells = min 65535 (s.notice.droppedCells + n)

/-- A message begins on the link: CHECKING, with the half-bit and the stretch limit in force (R69, R79). -/
def sending (t : State) (m : Message) (l : DriverLink) : DriverLink :=
  { l with
    message := some m
    activity := .checking
    halfBit := t.store.settings.halfBit
    stretchLimit := t.store.settings.stretchLimit
    elapsed := 0
    course := LinkCourse.start .check }

/-- The module that the probe round has still to probe next (R90). -/
abbrev probeDue (l : DriverLink) : Option ModuleNo := l.round.bind (fun r => r.left.head?)

/-- What a free link sends, when its last message has ended or a round or the link's own state lets it send (R78): a
waiting slice; with none and no phase LOADING, the next probe of the round; otherwise nothing. A FAULTED link sends
nothing. -/
def linkServed (t : State) (l : DriverLink) : DriverLink :=
  if l.state = .faulted ∨ l.message ≠ none then l
  else
    match l.waiting, probeDue l with
    | some v, _ => sending t (loadMessageOf v) { l with waiting := none }
    | none, some m => if t.sched.op.any (fun o => o.stage == .loading) then l else sending t (probeOf m) l
    | none, none => l

/-- The modules whose slices of a mask the start of a phase hands to the link, in order: those PRESENT with a cell in
their slice, ascending (R55, R78). -/
def handedModules (failed : ModuleSet) (mask : Mask) : List ModuleNo :=
  [0, 1, 2, 3, 4, 5, 6, 7].filter (fun m => !hasModule failed m && maskSlice mask m != 0)

/-- The first slice of a phase has been handed to the link as it was (R78): it waits while a message is on the link,
and otherwise it is sent, or waits for a probe that was due and is sent first (log 7). -/
abbrev HandsFirst (l : DriverLink) (t : State) (v : Slice) : Prop :=
  (l.message ≠ none → t.link = { l with waiting := some v }) ∧
    (l.message = none →
      t.link = sending t (loadMessageOf v) l ∨
        ∃ m, probeDue l = some m ∧ t.link = sending t (probeOf m) { l with waiting := some v })

/-- An operation of the same record as another is LOADING its phase p, with no module loaded (R55): of the modules
whose slices are handed, the first has been, to the link as it was before, and the others are to be, in order (the
record's own field, log 31). -/
abbrev Loads (l : DriverLink) (t : State) (op : RowOp) (p : OpPhase) : Prop :=
  let mask := if p = .erase then op.eraseMask else op.writeMask
  ∃ o, t.sched.op = some o ∧ o.kind = op.kind ∧ o.row = op.row ∧ o.eraseMask = op.eraseMask ∧
    o.writeMask = op.writeMask ∧ o.phase = p ∧ o.stage = .loading ∧ o.loaded = 0 ∧
    (p = .write → o.eraseDone = true) ∧ o.writeDone = op.writeDone ∧ o.returnDue = op.returnDue ∧
    ∃ m, handedModules l.failed mask = m :: o.toHand ∧
      HandsFirst l t { modNo := m, phase := if p = .erase then .erase else .write, cells := maskSlice mask m }

/-- The write phase has started (R55), with the link as l before: LOADING, or, with no cell in a PRESENT module, passed
over, so that the operation is complete (R60) and the link is l'. -/
abbrev WriteStarts (l l' : DriverLink) (t : State) (op : RowOp) : Prop :=
  if presentCells l.failed op.writeMask ≠ 0 then Loads l t op .write
  else t.sched.op = none ∧ t.link = l' ∧ (op.kind = .delta → t.table.taken = none)

/-- The erase phase has started (R55), with the link as it was before: LOADING, or passed over, so that the write phase
has started. -/
abbrev EraseStarts (l : DriverLink) (t : State) (op : RowOp) : Prop :=
  if presentCells l.failed op.eraseMask ≠ 0 then Loads l t op .erase else WriteStarts l l t op

/-- Loading has gone on past a module (R56), with the link as l at the end of its message: the next slice is handed,
or, with none left, the phase is READY if a module is loaded, and is passed over if none is. A link then free sends
its next work (R78). -/
abbrev LoadingGoesOn (l : DriverLink) (t : State) (op : RowOp) : Prop :=
  match op.toHand with
  | m :: rest =>
    t.sched.op = some { op with toHand := rest } ∧ t.link = sending t (loadMessageOf (phaseSlice op m)) l
  | [] =>
    (op.loaded ≠ 0 → t.sched.op = some { op with stage := .ready } ∧ t.link = linkServed t l) ∧
      (op.loaded = 0 → op.phase = .erase → WriteStarts l (linkServed t l) t op) ∧
      (op.loaded = 0 → op.phase = .write → t.sched.op = none ∧ t.link = linkServed t l)

/-- The link as a message on it ends (R80, R86): no message, and IDLE. -/
abbrev messageEnded (l : DriverLink) : DriverLink := { l with message := none, activity := .idle }

/-- A sample of LDA shows contention in a byte: a data bit sent as 1 is sampled low (R83). -/
abbrev Contended (b : Byte) (v : BitVec 9) : Prop := b &&& ~~~((v >>> 1).setWidth 8) ≠ 0

/-- The first attempt of a LOAD message has failed (R84): it is to be sent once more, and is counted. -/
def retried (s : State) (m : Message) (contentions : Nat) : State :=
  (s.setNotice
    { s.notice with contentions := contentions, retries := min 65535 (s.notice.retries + 1) }).setLink
      (sending s { m with attempt := .retry, bytesSent := 0 } s.link)

/-- A LOAD message handed over before loss effects has failed (R93): it is not retried, marks no module and raises
no notice, its latch is to be cleared, and the link sends its next work (R78). -/
abbrev LateLoadFails (s t : State) (contentions : Nat) : Prop :=
  t.notice = { s.notice with contentions := contentions } ∧
    t.link = linkServed t (messageEnded s.link) ∧
    t.period = { s.period with clearPulse := t.period.clearPulse } ∧ t.period.clearPulse ≠ .idle ∧
    t.mem = s.mem ∧ t.bus = s.bus ∧ t.wmu = s.wmu ∧ t.table = s.table ∧ t.sets = s.sets ∧
    t.sched = s.sched ∧ t.lit = s.lit ∧ t.latches = s.latches ∧ t.panel = s.panel ∧ t.seq = s.seq ∧
    t.sense = s.sense ∧ t.area = s.area ∧ t.cmd = s.cmd ∧ t.store = s.store

/-- The retry of a LOAD message has failed (R85): its module is FAILED, MODULE_FAILED is in the notice set, the slice
is dropped and counted, and loading goes on; a DELTA that so completes frees its slot, and a hold is settled (R30,
R56, R60). Where the operation so completes with a probe due, the link sends it in this same step: the model's choice
(log 35). -/
abbrev RetryFails (s t : State) (m : Message) (contentions : Nat) : Prop :=
  let ended := { messageEnded s.link with failed := s.link.failed ||| oneModule m.modNo }
  t.link.failed = s.link.failed ||| oneModule m.modNo ∧ t.link.state = s.link.state ∧
    t.link.round = s.link.round ∧ (s.sched.op = none → t.link = linkServed t ended) ∧
    t.notice.notices = s.notice.notices ||| 0x08 ∧ t.notice.contentions = contentions ∧
    t.notice.retries = s.notice.retries ∧
    (∀ op, s.sched.op = some op → LoadingGoesOn ended t op ∧
      Drops s t (cellCount (maskSlice (if op.phase = .erase then op.eraseMask else op.writeMask) m.modNo) +
        if op.toHand = [] ∧ op.loaded = 0 ∧ op.phase = .erase then failedCells t.link.failed op.writeMask
        else 0) ∧
      (op.kind = .delta → t.sched.op = none → HoldSettled ((slotFreed s).setPort t.port) t)) ∧
    t.mem = s.mem ∧ t.sets = s.sets ∧ t.lit = s.lit ∧ t.latches = s.latches ∧ t.panel = s.panel ∧
    t.period = s.period ∧ t.seq = s.seq ∧ t.sense = s.sense ∧ AreaKept s t ∧ t.cmd = s.cmd ∧
    t.store = s.store

/-- The running command, if it has no result yet, has it now (R168). -/
abbrev Finishes (s t : State) (res : Byte) : Prop :=
  ∀ r, s.cmd.running = some r → r.result = none →
    t.cmd.running = some
      { r with result := some res, writes := r.writes ++ [(0, r.code ++ res)] }

/-- Every row is in the FULL set and no other record of a change is OPEN (R47). -/
abbrev AllRowsInDoubt (t : State) : Prop :=
  (∀ q : Row, hasRow t.sets.full q = true) ∧ t.sets.fill = 0 ∧ t.table.ageQueue = [] ∧
    ∀ h, t.wmu.state ≠ .holding h

/-- A probe has had its outcome (R91, R92): the link sends its next work, a waiting slice or the round's next probe
(R78); the module leaves the round, as restored or not, and after the last one the round is over, every row is
requested to the FULL set if a module was restored, and PROBE completes with OK. -/
abbrev ProbeEnds (s t : State) (m : Message) (round : ProbeRound) (acked : Bool) (contentions : Nat) : Prop :=
  let restored := round.restored || acked
  t.link.failed = (if acked = true then s.link.failed &&& ~~~oneModule m.modNo else s.link.failed) ∧
    t.latches = (if acked = true then latchMessage (messageBytes m) s.latches else s.latches) ∧
    t.link = linkServed t
      { messageEnded s.link with
        failed := if acked = true then s.link.failed &&& ~~~oneModule m.modNo else s.link.failed
        round := if round.left.tail = [] then none
          else some { left := round.left.tail, restored := restored } } ∧
    (round.left.tail ≠ [] → t.link.round = some { left := round.left.tail, restored := restored } ∧
      t.cmd = s.cmd ∧ t.sets = s.sets ∧ t.table = s.table) ∧
    (round.left.tail = [] → t.link.round = none ∧ Finishes s t 0x80 ∧
      (restored = true → recordless s.seq.state = false → AllRowsInDoubt t) ∧
      (restored = false ∨ recordless s.seq.state = true → t.sets = s.sets ∧ t.table = s.table)) ∧
    t.notice = { s.notice with contentions := contentions } ∧
    t.mem = s.mem ∧ t.sched = s.sched ∧ t.lit = s.lit ∧ t.panel = s.panel ∧ t.link.state = s.link.state ∧
    t.period = s.period ∧ t.seq = s.seq ∧ t.sense = s.sense ∧ t.area = s.area ∧ t.store = s.store

/-- Every row is dark and owed a write from memory (R47, R65, R125). -/
abbrev AllRowsDark (s t : State) : Prop :=
  t.table = { ageQueue := [], taken := none } ∧
    t.sets = { full := 0, fill := RowSet.all, cursor := s.sets.cursor } ∧
    t.lit = { counts := [], total := 0 } ∧ t.sched.op = none ∧ t.sched.runCount = 0 ∧ t.panel = [] ∧
    ∀ h, t.wmu.state ≠ .holding h

/-- What a period's start makes of the period generator and the scheduler (R96, R104): with the index, the
history and the timing in force, the period is ADDRESS for a READY phase, GLOBAL ERASE for clear waiting with
no operation in flight, and SUSTAIN otherwise, at its tick 0. -/
def started (g : PeriodGen) (d : Scheduler) : PeriodGen × Scheduler :=
  let at0 := fun (k : PeriodKind) (f : Option (Row × Phase)) =>
    { g with current := some { kind := k, fires := f, tick := 0, strobed := false, sampled := false } }
  let mayAddress := g.index ≠ g.timing.sampleIndex ∧
    (g.window.filter (fun k => k == .address)).length < g.timing.allowance
  if mayAddress then
    match d.op with
    | some op =>
      if op.stage = .ready then
        (at0 .address (some (op.row, if op.phase = .erase then .erase else .write)),
          { d with op := some { op with stage := .firing } })
      else (at0 .sustain none, d)
    | none => if d.clearWaiting = true then (at0 .globalErase none, d) else (at0 .sustain none, d)
  else (at0 .sustain none, d)

/-- A byte sent and acknowledged, as LDA is sampled: the data bits as sent, then a low acknowledge (R70). -/
def ackedSample (b : Byte) : BitVec 9 := b ++ (0 : BitVec 1)

/-- A byte sent and refused: the data bits as sent, then a high acknowledge (R70, R81). -/
def refusedSample (b : Byte) : BitVec 9 := b ++ (1 : BitVec 1)

/-- The half-bits a message lasts without stretching that fails in its byte k, of value b and sampled as v: OPEN, the
bytes up to that one and CLOSE, without its acknowledge bit after contention (R70, R81, R83). -/
def failedHalves (k : Nat) (b : Byte) (v : BitVec 9) : Nat :=
  if Contended b v then 18 * (k + 1) + 2 else 18 * (k + 1) + 4

/-- The ticks a message of a number of bytes lasts without stretching (R76). -/
abbrev messageTicks (halfBit bytes : Nat) : Nat := (18 * bytes + 4) * halfBit

end Sys2Proof.Safety
end

