-- ==== Sys2Proof/Certificates/Slice0/Obligations.lean ====
section
/-! DEFINITION. The statements for the provers, in the order of OBLIGATIONS.json. -/

section

open Sys2Proof Sys2Proof.Machine Sys2Proof.Safety

/-! ## The machine -/

/-- A step with a command at the front of the queue is that command's effect on the state with the queue's
rest. -/
def Obligations.StepRunsTheFrontCommand : Prop :=
  ∀ (s : State) (c : Instr) (rest : List Instr),
    step (s.setPending (c :: rest)) = exec c (s.setPending rest)

/-- The model's choice (log 1): with no command waiting, a step is an event of the block's own that is due, or, when
none is, one tick. What a tick does is the manual's: the hold counter counts in HOLDING (R11), the tick reached in the
current period, in a clear pulse, in a conversion and in a store operation advances (R94, R110, R137, R181), the
settle counter counts in SETTLING and RESUMING and the gap counter in GAP and RESUMING, within 16 bits (R113), the
recovery timer counts while FAULTED and the burst timer always, both outside LIT only, and where one would reach
16,384 it returns to 0 and its expiry is due (R87, R177), and a new sample of the supply-good input is due (R112). The
ticks of a message or a recovery attempt count too (log 17), and it goes on in its course: its idle check, its bits
and the bytes sent, delayed by a stretch that is counted (R70, R71, R75, R79 to R83, R88). Whether the lines are held
low from outside in a tick is free, and that OPEN is CHECKING is the model's choice (log 9). -/
def Obligations.IdleStepIsAnOwnEventOrATick : Prop :=
  ∀ s : State, s.pending = [] →
    (∃ c ∈ ownEvents s, ∃ t, exec c s = .next t ∧ step s = .next t) ∨
      ((∀ c ∈ ownEvents s, ∀ t, exec c s ≠ .next t) ∧ step s = .next (tick s) ∧
        (∀ h, s.wmu.state = .holding h →
          (tick s).wmu = { s.wmu with holdCounter := s.wmu.holdCounter + 1 }) ∧
        ((∀ h, s.wmu.state ≠ .holding h) → (tick s).wmu = s.wmu) ∧
        (tick s).period = { s.period with
          current := s.period.current.map (fun p => { p with tick := p.tick + 1 })
          clearPulse := (tick s).period.clearPulse } ∧
        (∀ n again, s.period.clearPulse = .given n again →
          (tick s).period.clearPulse = .given (n + 1) again) ∧
        ((∀ n again, s.period.clearPulse ≠ .given n again) →
          (tick s).period.clearPulse = s.period.clearPulse) ∧
        (tick s).seq = { s.seq with
          settle := if s.seq.state = .settling ∨ s.seq.state = .resuming then min 65535 (s.seq.settle + 1)
            else s.seq.settle
          gap := if s.seq.state = .gap ∨ s.seq.state = .resuming then min 65535 (s.seq.gap + 1) else s.seq.gap
          sampled := false } ∧
        (tick s).link = { s.link with
          activity := (tick s).link.activity
          message := (tick s).link.message
          course := (tick s).link.course
          timer :=
            if s.link.state = .faulted ∧ s.seq.state ≠ .lit then
              (if s.link.timer < 16383 then s.link.timer + 1 else 0)
            else s.link.timer
          expired := decide (s.link.state = .faulted ∧ s.seq.state ≠ .lit ∧ 16383 ≤ s.link.timer)
          elapsed := if s.link.message ≠ none ∨ s.link.activity = .recovering then s.link.elapsed + 1
            else s.link.elapsed } ∧
        LinkGoesOn (Config.lckHeld s.freeCount) (Config.ldaHeld s.freeCount) (linkLines s).2 s.link (tick s).link ∧
        (tick s).notice = { s.notice with
          burstTimer :=
            if s.seq.state = .lit then s.notice.burstTimer
            else if s.notice.burstTimer < 16383 then s.notice.burstTimer + 1 else 0
          burstExpired := decide (s.seq.state ≠ .lit ∧ 16383 ≤ s.notice.burstTimer) } ∧
        (tick s).sense = { s.sense with
          conversion := s.sense.conversion.map (fun x => { x with tick := x.tick + 1 }) } ∧
        (tick s).store = { s.store with
          op := match s.store.op with
            | .none => .none
            | .erase page n => .erase page (n + 1)
            | .write i v n => .write i v (n + 1) } ∧
        (tick s).mem = s.mem ∧ (tick s).bus = s.bus ∧ (tick s).port = s.port ∧ SameRecords s (tick s) ∧
        (tick s).latches = s.latches ∧ (tick s).panel = s.panel ∧ (tick s).area = s.area ∧
        (tick s).cmd = s.cmd)

/-- No command changes the queue of waiting commands: exec is its effect on everything but the queue. -/
def Obligations.CommandsLeaveTheQueue : Prop :=
  ∀ (c : Instr) (s t : State), exec c s = .next t → t.pending = s.pending

/-- RESET (R132) gives every block the values its chapter states after reset (R15, R17, R43, R44, R48, R75, R94, R113,
R136, R149, R163, R180, R181), with the settings that the load of the store gives. It leaves image memory but for the
words of the unit that the port was serving, which hold their old or their new value (R17): an area word that is
granted, and otherwise the processor's unit, or another that has stood first among those waiting since the port last
finished a unit, of the third rank the first alone; which of these it was is free (log 21). That the panel and the
latches of the modules are left as they were, at a power-on too and at a reset that cuts a period, is the model's
reading (log 23). With no store operation in progress the store words stay; a cut erase leaves each word of its page
as it was or erased, a cut write its word as it was or written, and no other word changes (R189). The cause is
power-on when both sources act together (R179). -/
def Obligations.ResetGivesEveryBlockItsValues : Prop :=
  ∀ (sources : ResetSources) (s : State), ∃ t, exec (.reset sources) s = .next t ∧
    (Memory.wf s.mem → ∀ off, readMem t off ≠ readMem s off →
      ∃ u ∈ servableUnits s, (off, readMem t off) ∈ u) ∧
    (Memory.wf s.mem →
      (∀ x, s.area = some x → x.unit = .granted → ∀ off, off ≠ 32 * x.row.val + x.word.val →
        readMem t off = readMem s off) ∧
      (∀ rest, s.port.third = .noticeUpdate :: rest → (∀ c, s.wmu.state ≠ .merging c) →
        ∀ k < 32, readMem t (16384 + k) = readMem s (16384 + k)) ∧
      (∀ rest, s.port = { burst := false, third := .commandWrite :: rest } →
        readMem t 16416 = readMem s 16416) ∧
      ((∀ x, s.area = some x → x.unit ≠ .granted) →
        (s.reached.area = false → s.port.burst = true ∨ s.port.third ≠ [] →
          (∀ c, s.wmu.state ≠ .merging c) → ∀ off < 16384, readMem t off = readMem s off) ∧
        (s.reached = { burst := false, third := false, area := false } → s.port.burst = true →
          (∀ c, s.wmu.state ≠ .merging c) → ∀ off < 16416, readMem t off = readMem s off) ∧
        (s.reached = { burst := false, third := false, area := false } → ∀ c, s.wmu.state = .merging c →
          ∀ off, readMem t off ≠ readMem s off → ∃ u ∈ processorUnit s, (off, readMem t off) ∈ u))) ∧
    (servableUnits s = [] → t.mem = s.mem) ∧ t.panel = s.panel ∧ t.latches = s.latches ∧
    t.wmu = { state := .idle, holdCounter := 0 } ∧ t.bus.ready = true ∧ t.bus.clearHeld = false ∧
    t.table = { ageQueue := [], taken := none } ∧
    t.sets = { full := 0, fill := RowSet.all, cursor := 0 } ∧
    t.sched = { op := none, runCount := 0, clearWaiting := false } ∧ t.lit = { counts := [], total := 0 } ∧
    t.link.state = .ok ∧ t.link.activity = .idle ∧ t.link.failed = 0 ∧ t.link.message = none ∧
    t.link.waiting = none ∧ t.link.round = none ∧ t.link.timer = 0 ∧
    t.link.expired = false ∧
    t.period = { length := t.store.settings.pMin, timing := timingOf t.store.settings, index := 0,
                 current := none, window := [], frameCount := 0, clearPulse := .idle } ∧
    t.seq.state = .dark ∧ t.seq.blanked = false ∧ t.seq.settle = 0 ∧ t.seq.gap = 0 ∧ t.seq.gapLength = 0 ∧
    t.seq.filtered = false ∧ t.seq.runCount = 0 ∧
    t.sense.conversion = none ∧ t.sense.m = 0 ∧ t.sense.e = 0 ∧ t.sense.runCount = 0 ∧
    t.sense.holdOff = false ∧ t.area = none ∧
    t.cmd = { running := none, copy := [], openStep := 0, closeStep := 0, setupOpen := false } ∧
    t.notice.protectedDiscards = 0 ∧ t.notice.degradedRows = 0 ∧ t.notice.annulled = 0 ∧
    t.notice.droppedCells = 0 ∧ t.notice.retries = 0 ∧ t.notice.contentions = 0 ∧
    t.notice.commandDiscards = 0 ∧ t.notice.burstTimer = 0 ∧
    t.notice.burstExpired = false ∧
    t.notice.cause = (if sources = .resetInput then .resetInput else .powerOn) ∧
    t.reached = { burst := false, third := false, area := false } ∧
    t.store.settings = loadSettings t.store.words ∧ t.store.staged = none ∧ t.store.op = .none ∧
    (s.store.op = .none → t.store.words = s.store.words) ∧
    (CellsWf 0xFFFF s.store.words →
      (∀ page n, s.store.op = .erase page n → ∀ i, storeWord t.store.words i = storeWord s.store.words i ∨
        i / 32 = page ∧ storeWord t.store.words i = 0xFFFF) ∧
      (∀ i v n, s.store.op = .write i v n → ∀ j, storeWord t.store.words j = storeWord s.store.words j ∨
        j = i ∧ storeWord t.store.words j = v)) ∧
    (if storeWord t.store.words 0 = 0x0F51 then
      t.notice.notices = 0 ∧ t.notice.attention = false ∧ t.port = { burst := false, third := [] }
    else
      t.notice.notices = 0x80 ∧ t.notice.attention = true ∧
        t.port = { burst := false, third := [.noticeUpdate] })

/-! ## Bus cycles and the Write Merge Unit -/

/-- PASS_THROUGH_CYCLE (R1) drives the memory side bus and returns the memory's word; VOID_ACCESS (R4, R8)
reads 0xFFFF, and a write to the void changes no state; PROCESSOR_READ (R4) of an image, command or status word,
through any view, returns the word that image memory holds at its offset. Nothing else changes, but that the port
has then served a unit of the processor. After such a unit the port grants the work that waits, by its rank, before
the processor's next unit, and a unit being served ends first (R17): a read, a write accepted and a write to the
command row have the outcome they have in the state g that one unit leads to. That this unit is part of the cycle's
step is the model's choice (log 37). Right behind a posting it can be the RUNNING write, before a read that R165 lets go
first: the model's choice too (log 37). A unit runs to its end before another is served, and the next is then granted by
the ranks of those that wait (R16, R17): after every unit, the model's record says that none of them has been granted
before (log 21). -/
def Obligations.ReadsAndPassThroughCyclesComplete : Prop :=
  (∀ (s : State) (a : BusAddr), s.bus.ready = true →
    (addrQuarter a ≠ s.store.settings.aperture →
      (∀ v, exec (.passThroughCycle a (.read v)) s =
        .next (s.setBus { s.bus with side := some { addr := a, cycle := .read v }, readData := v })) ∧
      (∀ v, exec (.passThroughCycle a (.write v)) s =
        .next (s.setBus { s.bus with side := some { addr := a, cycle := .write v } }))) ∧
    (addrQuarter a = s.store.settings.aperture → 16448 ≤ addrOffset a →
      exec (.voidAccess a .read) s = .next (s.setBus { s.bus with readData := 0xFFFF }) ∧
      ∀ d, exec (.voidAccess a (.write d)) s = .next s) ∧
    (NoGap s → addrQuarter a = s.store.settings.aperture → addrOffset a < 16448 →
      exec (.processorRead a) s =
        .next (unitEnds true (s.setBus { s.bus with readData := readMem s (addrOffset a) })))) ∧
  (∀ (c : Instr) (s t : State), exec c s = .next t →
    (c ∈ [.commandRowWordWrite, .noticeWordUpdate, .statusBurst, .areaWord, .snapshotWordRead] →
      UnitEnded false t) ∧
    (c = .readCombineWrite ∨ (∃ a, c = .processorRead a) → UnitEnded true t) ∧
    (∀ a d w n, WritesCommand s a d w n → c = commandRowWrite w (highByte n) a d → UnitEnded true t)) ∧
  ∀ s : State, s.bus.ready = true → s.wmu.state = .idle →
    let g := portGap s
    NoGap g ∧ g.bus.ready = true ∧ (NoGap s → g = s) ∧
    (∀ a, exec (.processorRead a) s = exec (.processorRead a) g) ∧
    (∀ a d v r w, decodeIn s a = .aperture v (.image r w) → 4 ≤ v ∨ inBand s.store.settings r = false →
      exec (.imageWordWrite a d) s = exec (.imageWordWrite a d) g) ∧
    (∀ a d v w, decodeIn s a = .aperture v (.command w) → 4 ≤ v →
      ∀ c ∈ [Instr.imageWordWrite a d, .apertureWrite a d, .setupSequenceWrite a d, .repaint a d,
        .clearAndRepaint a d, .area a d, .blank a d, .unblank a d, .probe a d, .abort a d, .storeRead a d,
        .storeErase a d, .storeWrite a d, .settingsApply a d, .badCode a d], exec c s = exec c g) ∧
    (areaGranted s = true → exec .areaWord s = .next g) ∧
    (s.gapDue = true → areaGranted s = false →
      (s.port.burst = true → exec .statusBurst s = .next g) ∧
      (∀ rest, s.port = { burst := false, third := .noticeUpdate :: rest } →
        exec .noticeWordUpdate s = .next g) ∧
      (∀ rest r, s.port = { burst := false, third := .commandWrite :: rest } → s.cmd.running = some r →
        r.writes ≠ [] → exec .commandRowWordWrite s = .next g) ∧
      (s.port = { burst := false, third := [] } →
        (∀ op k, s.sched.op = some op → op.stage = .snapshot → op.cursor = some k → k < 32 →
          (op.asked = true ∨ (∀ x, s.area = some x → x.unit ≠ .requested) →
            exec .snapshotWordRead s = .next g) ∧
          (∀ x, op.asked = false → s.area = some x → x.unit = .requested → exec .areaWord s = .next g)) ∧
        ((∀ op, s.sched.op = some op → op.stage ≠ .snapshot) →
          (∀ x, s.area = some x → x.unit = .requested → exec .areaWord s = .next g) ∧
          ((∀ x, s.area = some x → x.unit ≠ .requested) → g = s.setGapDue false))))

/-- A write through an ordinary view to a protected row, to the command row or to the status row, and a
privileged write to status words 1 to 31, is discarded and counted, and changes nothing else (R5 to R8). -/
def Obligations.ProtectedWritesAreDiscardedAndCounted : Prop :=
  ∀ (s : State) (a : BusAddr) (d : Word), s.bus.ready = true → addrQuarter a = s.store.settings.aperture →
    let counted := s.setNotice
      { s.notice with protectedDiscards := min 65535 (s.notice.protectedDiscards + 1) }
    (addrView a < 4 → addrOffset a < 16384 → s.store.settings.firstRow ≤ addrOffset a / 32 →
      addrOffset a / 32 < s.store.settings.firstRow + s.store.settings.rowCount →
      exec (.imageWordWrite a d) s = .next counted) ∧
    (addrView a < 4 → 16384 ≤ addrOffset a → addrOffset a < 16448 →
      exec (.imageWordWrite a d) s = .next counted ∧ exec (.apertureWrite a d) s = .next counted) ∧
    (addrView a < 4 → addrOffset a = 16415 → exec (.setupSequenceWrite a d) s = .next counted) ∧
    (16416 < addrOffset a → addrOffset a < 16448 → exec (.apertureWrite a d) s = .next counted)

/-- IMAGE_WORD_WRITE (R9): a write that passes protection is accepted: the unit enters MERGING and READY goes low, and
nothing else changes but the model's record of which units the port may have granted before it (log 21). For a write
that the port makes wait, the statement on its grants says the rest. A privileged write to a command word, accepted so
and then served by its read-combine-write unit, has the same outcome as the row of the table that does both in one
step. -/
def Obligations.WritesThatPassAreAccepted : Prop :=
  ∀ (s : State) (a : BusAddr) (d : Word), NoGap s → s.bus.ready = true →
    (∀ v r w, decodeIn s a = .aperture v (.image r w) →
      ¬ (v < 4 ∧ s.store.settings.firstRow ≤ r.val ∧
        r.val < s.store.settings.firstRow + s.store.settings.rowCount) →
      exec (.imageWordWrite a d) s =
        .next (((s.setWmu { s.wmu with
          state := .merging { target := .image r w, view := v, data := d } }).setBus
            { s.bus with ready := false }).setReached (reachedNow s))) ∧
    (∀ v w, decodeIn s a = .aperture v (.command w) → 4 ≤ v →
      ∃ t, exec (.imageWordWrite a d) s = .next t ∧
        t = ((s.setWmu { s.wmu with
          state := .merging { target := .command w, view := v, data := d } }).setBus
            { s.bus with ready := false }).setReached (reachedNow s) ∧
        ∀ n, WritesCommand s a d w n → s.wmu.state = .idle →
          exec .readCombineWrite t = exec (commandRowWrite w (highByte n) a d) s)

/-- READ_COMBINE_WRITE of an image word (R3, R9, R10): the word becomes N by the table of R3, every other word of
image memory keeps its value, and no block but the Write Merge Unit, the Change Table, the Resync Sets and the
notices can change. A difference that is not empty and that the merge has a place for is merged (R25 to R28), and
the cycle completes. -/
def Obligations.ReadCombineWriteStoresTheNewWord : Prop :=
  ∀ (s : State) (c : WriteCycle) (r : Row) (w : WordIx), Memory.wf s.mem → s.wmu.state = .merging c →
    c.target = .image r w →
    ∃ t, exec .readCombineWrite s = .next t ∧
      WordByTable c.view (readMem s (32 * r.val + w.val)) c.data (readMem t (32 * r.val + w.val)) ∧
      (∀ x, x ≠ 32 * r.val + w.val → readMem t x = readMem s x) ∧
      (let o := readMem s (32 * r.val + w.val)
        let n := readMem t (32 * r.val + w.val)
        n ≠ o → ∀ m,
          mergeDifference r w (n &&& ~~~o) (o &&& ~~~n) (writeMem (32 * r.val + w.val) n s) = some m →
          t = unitEnds true (cycleDone m)) ∧
      t.sched = s.sched ∧ t.lit = s.lit ∧ SameDrive s t ∧ t.area = s.area ∧ t.cmd = s.cmd ∧ t.store = s.store

/-- READ_COMBINE_WRITE when nothing needs a place (R10, R25): the word is unchanged by the combine, or its row
is in a resync set, or a snapshot of its row has yet to read it. The cycle completes, and nothing but the word,
READY and the Write Merge Unit's state changes; the port has served the processor. -/
def Obligations.WriteWithNothingToPlaceCompletes : Prop :=
  ∀ (s : State) (c : WriteCycle) (r : Row) (w : WordIx), s.wmu.state = .merging c → c.target = .image r w →
    let o := readMem s (imageOffset r w)
    let n := combine (viewCombine c.view) o c.data
    (n = o ∨ hasRow s.sets.full r = true ∨ hasRow s.sets.fill r = true ∨
      ∃ op k, s.sched.op = some op ∧ op.row = r ∧ op.stage = .snapshot ∧ op.cursor = some k ∧ k ≤ w.val) →
    exec .readCombineWrite s =
      .next (unitEnds true (((writeMem (imageOffset r w) n s).setWmu { s.wmu with state := .idle }).setBus
        { s.bus with ready := true }))

/-- The merge of a difference into the row's OPEN entry, cell by cell (R26), and its annulment when both masks
end empty (R28). Column c of the difference is bit 15 - c mod 16 of its word, for the columns of the word. -/
def Obligations.MergeIntoAnOpenEntry : Prop :=
  ∀ (s : State) (r : Row) (w : WordIx) (rise fall : Word) (e : Entry),
    dropped s r w = false → openEntry s.table r = some e → e.setMask &&& e.clearMask = 0 →
    rise &&& fall = 0 →
    ∃ e', e'.row = e.row ∧
      (∀ c < 512,
        let inWord := decide (c / 16 = w.val)
        let up := inWord && rise.getLsbD (15 - c % 16)
        let down := inWord && fall.getLsbD (15 - c % 16)
        let was := (e.setMask.getLsbD (511 - c), e.clearMask.getLsbD (511 - c))
        let is := (e'.setMask.getLsbD (511 - c), e'.clearMask.getLsbD (511 - c))
        (up = true → was = (false, true) → is = (false, false)) ∧
        (up = true → was = (false, false) → is = (true, false)) ∧
        (down = true → was = (true, false) → is = (false, false)) ∧
        (down = true → was = (false, false) → is = (false, true)) ∧
        (up = true → was = (true, false) → is = (true, false)) ∧
        (down = true → was = (false, true) → is = (false, true)) ∧
        (up = false → down = false → is = was)) ∧
      mergeDifference r w rise fall s =
        some (if e'.setMask = 0 ∧ e'.clearMask = 0 then
          (s.setTable { s.table with ageQueue := s.table.ageQueue.filter (fun x => x.row != r) }).setNotice
            { s.notice with annulled := min 65535 (s.notice.annulled + 1) }
        else
          s.setTable { s.table with
            ageQueue := s.table.ageQueue.map (fun x => if x.row == r then e' else x) })

/-- The merge of a difference for a row without an OPEN entry: a new entry at the tail of the age queue while a
slot is free (R27), and no room when all 32 slots are in use (R29). -/
def Obligations.MergeWithoutAnOpenEntry : Prop :=
  ∀ (s : State) (r : Row) (w : WordIx) (rise fall : Word),
    dropped s r w = false → openEntry s.table r = none →
    (slotsInUse s.table < 32 →
      mergeDifference r w rise fall s =
        some (s.setTable { s.table with
          ageQueue := s.table.ageQueue ++
            [{ row := r, setMask := wordCells w rise, clearMask := wordCells w fall }] })) ∧
    (32 ≤ slotsInUse s.table → mergeDifference r w rise fall s = none)

/-- A merge-back (R37 to R41): dropped when the row is in a resync set; otherwise the returned actions are
applied to the row's OPEN entry, or to none, and the result stands at the head of the age queue, or is freed as
annulled when it is empty. The TAKEN entry is freed. What that does to a hold (R12, R13, R30): with its row in a
resync set the record is dropped; otherwise it is offered to the merge again, and stays held if there is still no
room; and when an area word seeks the freed slot too (R158), either comes first (log 7), the area word by the grant of
its unit (log 13). -/
def Obligations.MergeBackStandsAtTheHead : Prop :=
  (∀ b : State, (∀ h, b.wmu.state ≠ .holding h) → settleHold b = b) ∧
  (∀ (b : State) (h : HeldChange), b.wmu.state = .holding h →
    (inResync b h.row = true → settleHold b = cycleDone b) ∧
    (inResync b h.row = false → areaContends h b = false → settleHold b = heldOffered h b) ∧
    (inResync b h.row = false → areaContends h b = true →
      settleHold b = heldOffered h (drawFree b) ∨
        ∃ x, b.area = some x ∧ settleHold b = (drawFree b).setArea (some { x with unit := .granted }))) ∧
  ∀ (s : State) (r : Row) (writes erases : Mask), writes &&& erases = 0 →
    (∀ e ∈ s.table.ageQueue, EntryLaw e) →
    (inResync s r = true →
      mergeBack r writes erases s = settleHold (s.setTable { s.table with taken := none })) ∧
    (inResync s r = false →
      let was := (openEntry s.table r).getD { row := r, setMask := 0, clearMask := 0 }
      ∃ e', e'.row = r ∧
        (∀ i < 512,
          (erases.getLsbD i = true → was.setMask.getLsbD i = true →
            e'.setMask.getLsbD i = false ∧ e'.clearMask.getLsbD i = false) ∧
          (erases.getLsbD i = true → was.setMask.getLsbD i = false →
            e'.setMask.getLsbD i = false ∧ e'.clearMask.getLsbD i = true) ∧
          (writes.getLsbD i = true → was.clearMask.getLsbD i = true →
            e'.setMask.getLsbD i = false ∧ e'.clearMask.getLsbD i = false) ∧
          (writes.getLsbD i = true → was.clearMask.getLsbD i = false →
            e'.setMask.getLsbD i = true ∧ e'.clearMask.getLsbD i = false) ∧
          (erases.getLsbD i = false → writes.getLsbD i = false →
            e'.setMask.getLsbD i = was.setMask.getLsbD i ∧
              e'.clearMask.getLsbD i = was.clearMask.getLsbD i)) ∧
        mergeBack r writes erases s = settleHold
          (if e'.setMask = 0 ∧ e'.clearMask = 0 then
            (s.setTable { ageQueue := s.table.ageQueue.filter (fun x => x.row != r), taken := none }).setNotice
              { s.notice with annulled := min 65535 (s.notice.annulled + 1) }
          else
            s.setTable
              { ageQueue := e' :: s.table.ageQueue.filter (fun x => x.row != r), taken := none }))

/-- The hold (R11, R29): a difference without room is kept with the hold counter at 0 and READY low; with a
hold limit of 0 the row is degraded at once and the cycle completes (R11, R14). -/
def Obligations.WriteWithoutRoomIsHeld : Prop :=
  ∀ (s : State) (c : WriteCycle) (r : Row) (w : WordIx), s.wmu.state = .merging c → c.target = .image r w →
    dropped s r w = false → openEntry s.table r = none → 32 ≤ slotsInUse s.table →
    let o := readMem s (imageOffset r w)
    let n := combine (viewCombine c.view) o c.data
    n ≠ o →
    (0 < s.store.settings.holdLimit →
      exec .readCombineWrite s =
        .next (unitEnds true ((writeMem (imageOffset r w) n s).setWmu
          { state := .holding { row := r, word := w, rise := n &&& ~~~o, fall := o &&& ~~~n }
            holdCounter := 0 }))) ∧
    (s.store.settings.holdLimit = 0 →
      ∃ t, exec .readCombineWrite s = .next t ∧ t.mem = (writeMem (imageOffset r w) n s).mem ∧
        t.wmu.state = .idle ∧ t.bus.ready = true ∧ UnitEnded true t ∧
        t.notice.degradedRows = min 65535 (s.notice.degradedRows + 1) ∧
        t.notice.notices = s.notice.notices ||| 0x40 ∧
        (recordless s.seq.state = false → hasRow t.sets.full r = true))

/-- HOLD_EXPIRY (R14): with the hold counter at the hold limit, the held row goes to the FULL set (R45), the
degraded counter increases, DEGRADED is in the notice set, and the cycle completes. -/
def Obligations.HoldExpiryDegradesTheRow : Prop :=
  ∀ (s : State) (h : HeldChange), s.wmu.state = .holding h →
    s.store.settings.holdLimit ≤ s.wmu.holdCounter →
    ∃ t, exec .holdExpiry s = .next t ∧ t.wmu.state = .idle ∧ t.bus.ready = true ∧ t.mem = s.mem ∧
      t.notice.degradedRows = min 65535 (s.notice.degradedRows + 1) ∧
      t.notice.notices = s.notice.notices ||| 0x40 ∧
      (recordless s.seq.state = true → t.sets = s.sets ∧ t.table = s.table) ∧
      (recordless s.seq.state = false →
        (∀ q : Row, hasRow t.sets.full q = (hasRow s.sets.full q || q == h.row)) ∧
        (∀ q : Row, hasRow t.sets.fill q = (hasRow s.sets.fill q && q != h.row)) ∧
        (inResync s h.row = false →
          t.table.ageQueue = s.table.ageQueue.filter (fun e => e.row != h.row))) ∧
      t.table.taken = s.table.taken ∧ t.sched = s.sched ∧ t.lit = s.lit ∧ SameDrive s t ∧ t.area = s.area ∧
      t.cmd = s.cmd ∧ t.store = s.store

/-! ## The command row -/

/-- A privileged write to a command word while the handler is IDLE, that posts nothing and is not to word 31, is
stored in image memory and in the command copy, and changes nothing else (R6, R164, R165); the port has served the
processor, and by its record no unit that waits has been granted (R17, log 21). -/
def Obligations.CommandWordsAreStoredWhileIdle : Prop :=
  ∀ (s : State) (a : BusAddr) (d : Word) (w : WordIx) (n : Word), WritesCommand s a d w n →
    s.cmd.running = none → w ≠ 31 → (w = 0 → highByte n = 0) →
    exec (.apertureWrite a d) s =
      .next (unitEnds true ((s.setMem (cellsWrite 0 s.mem (16384 + w.val) n)).setCmd
        { s.cmd with copy := cellsWrite 0 s.cmd.copy w.val n }))

/-- While a command is RUNNING, a privileged write to the command row that is not an ABORT to be taken is refused: it
is counted, and changes nothing else (R6, R166); the port has served the processor's unit, and by its record no unit
that waits has been granted (R17, log 21). -/
def Obligations.CommandRowWritesAreRefusedWhileRunning : Prop :=
  ∀ (s : State) (a : BusAddr) (d : Word) (w : WordIx) (n : Word) (r : Running), WritesCommand s a d w n →
    s.cmd.running = some r →
    ¬ (w = 0 ∧ highByte n = 0x07 ∧ r.result = none ∧ r.abortTaken = false ∧
      ((r.code = 0x03 ∧ s.area ≠ none) ∨ (r.code = 0x02 ∧ s.sched.clearWaiting = true) ∨
        (r.code = 0x12 ∧ s.store.staged ≠ none))) →
    exec (commandRowWrite w (highByte n) a d) s =
      .next (unitEnds true (s.setNotice
        { s.notice with commandDiscards := min 65535 (s.notice.commandDiscards + 1) }))

/-- The law of the Command Row Handler (R163): while a command is RUNNING the command row changes only by the
handler's own writes, and no command takes its place before it has completed. A reset may cut such a write (R174):
what it can leave is in the statement on RESET. A bus cycle before which the port grants waiting work (R17) first does
that work, which can be the handler's own write: such a cycle has the outcome it has after it (log 37). -/
def Obligations.CommandRowIsLockedWhileRunning : Prop :=
  ∀ (c : Instr) (s t : State) (r : Running), (usesPort c = true → NoGap s) → s.cmd.running = some r →
    exec c s = .next t →
    (c ≠ .commandRowWordWrite → (∀ cause, c ≠ .reset cause) →
      ∀ w : WordIx, readMem t (16384 + w.val) = readMem s (16384 + w.val)) ∧
    (t.cmd.running = none ∨ ∃ r', t.cmd.running = some r' ∧ r'.code = r.code ∧ r'.args = r.args) ∧
    ((∀ cause, c ≠ .reset cause) → c ≠ .commandRowWordWrite → t.cmd.copy = s.cmd.copy)

/-- SETUP_SEQUENCE_WRITE (R185): a value stored into command word 31 while the handler is IDLE is seen by the
matcher that acts, which advances, restarts, or opens or closes the setup state at its fifth value. -/
def Obligations.SetupMatchersFollowTheSequences : Prop :=
  ∀ (s : State) (a : BusAddr) (d n : Word), WritesCommand s a d 31 n → s.cmd.running = none →
    let opening : List Word := [0x2E71, 0xD18E, 0x47B2, 0xB84D, 0x0C3F]
    let closing : List Word := [0x0C3F, 0xB84D, 0x47B2, 0xD18E, 0x2E71]
    let next := fun (seq : List Word) (k : Nat) =>
      if seq[k]? = some n then k + 1 else if seq[0]? = some n then 1 else 0
    ∃ t, exec (.setupSequenceWrite a d) s = .next t ∧
      t.mem = cellsWrite 0 s.mem 16415 n ∧ t.cmd.copy = cellsWrite 0 s.cmd.copy 31 n ∧
      t.cmd.running = none ∧
      (s.cmd.setupOpen = false →
        if next opening s.cmd.openStep = 5 then
          t.cmd.setupOpen = true ∧ t.cmd.openStep = 0 ∧ t.cmd.closeStep = 0
        else
          t.cmd.setupOpen = false ∧ t.cmd.openStep = next opening s.cmd.openStep ∧
            t.cmd.closeStep = s.cmd.closeStep) ∧
      (s.cmd.setupOpen = true →
        if next closing s.cmd.closeStep = 5 then
          t.cmd.setupOpen = false ∧ t.cmd.openStep = 0 ∧ t.cmd.closeStep = 0
        else
          t.cmd.setupOpen = true ∧ t.cmd.closeStep = next closing s.cmd.closeStep ∧
            t.cmd.openStep = s.cmd.openStep) ∧
      t.bus = s.bus ∧ t.wmu = s.wmu ∧ t.port = s.port ∧ SameRecords s t ∧ SameDrive s t ∧ t.area = s.area ∧
      t.notice = s.notice ∧ t.store = s.store

/-- Every posting write of a nonzero code while the handler is IDLE is accepted (R165): word 0 is stored in
memory and in the copy, the handler is RUNNING with the code and the arguments of its copy, and the RUNNING
write comes first among the words to be written. A posting is one step: the model's choice (log 12). So is it that a
BLANK which cuts an ADDRESS period before its strobe leaves the latches as they are (log 5), of which the manual says
only that the modules may still hold them (R62). -/
def Obligations.PostingsAreAccepted : Prop :=
  ∀ (s : State) (a : BusAddr) (d n : Word), WritesCommand s a d 0 n → s.cmd.running = none →
    highByte n ≠ 0 →
    ∃ t r rest, exec (commandRowWrite 0 (highByte n) a d) s = .next t ∧
      t.mem = cellsWrite 0 s.mem 16384 n ∧ t.cmd.copy = cellsWrite 0 s.cmd.copy 0 n ∧
      t.cmd.running = some r ∧ r.code = highByte n ∧
      r.args = (argumentWords (highByte n)).map (copyWord t.cmd) ∧ r.abortTaken = false ∧
      r.writes = (0, highByte n ++ (0x01 : Byte)) :: rest ∧ ThirdRank.commandWrite ∈ t.port.third ∧
      t.latches = s.latches ∧ t.cmd.setupOpen = s.cmd.setupOpen ∧ t.cmd.openStep = s.cmd.openStep ∧
      t.cmd.closeStep = s.cmd.closeStep ∧ UnitEnded true t

/-- REPAINT (R172): BAD_ARGUMENT with nothing requested, or the clamped range of rows requested to the FULL set
in one event, taken by the sequencer's state (R45, R47). -/
def Obligations.RepaintRequestsItsRows : Prop :=
  ∀ (s : State) (a : BusAddr) (d : Word), Posts s a d 0x01 → ReadyFollows s → ThirdLaw s →
    let first := argument s 1
    let count := argument s 2
    let inRange := fun q : Row => decide (first ≤ q.val) && decide (q.val < first + count)
    ∃ t, exec (.repaint a d) s = .next t ∧
      t.sched = s.sched ∧ t.lit = s.lit ∧ SameDrive s t ∧ t.area = s.area ∧ t.store = s.store ∧
      t.notice = s.notice ∧ t.wmu = s.wmu ∧ t.table.taken = s.table.taken ∧ t.sets.cursor = s.sets.cursor ∧
      if 511 < first ∨ count = 0 then
        EndsWith t 0x01 0xC1 [] ∧ t.sets = s.sets ∧ t.table = s.table
      else
        EndsWith t 0x01 (if 512 < first + count then 0x81 else 0x80) [] ∧
          (recordless s.seq.state = true → t.sets = s.sets ∧ t.table = s.table) ∧
          (recordless s.seq.state = false →
            ∀ q : Row, hasRow t.sets.full q = (hasRow s.sets.full q || inRange q) ∧
              hasRow t.sets.fill q = (hasRow s.sets.fill q && !inRange q) ∧
              ∀ e, e ∈ t.table.ageQueue ↔ e ∈ s.table.ageQueue ∧ inRange e.row = false)

/-- CLEAR_AND_REPAINT at its acceptance (R173, R64): WRONG_STATE unless the sequencer is LIT, and otherwise
clear waiting, with the command going on. GLOBAL_ERASE_STROBE (R65): every cell is dark, and in one event the
Change Table is emptied, the FILL set holds every row, the lit table, L and the run count are 0, a hold ends,
clear waiting is no, and the command ends with OK, or with ABORTED after an ABORT (R66). -/
def Obligations.ClearAndRepaintErasesThePanel : Prop :=
  (∀ (s : State) (a : BusAddr) (d : Word), Posts s a d 0x02 →
    ∃ t, exec (.clearAndRepaint a d) s = .next t ∧
      (s.seq.state ≠ .lit → EndsWith t 0x02 0xC4 [] ∧ t.sched = s.sched) ∧
      (s.seq.state = .lit → GoesOn t 0x02 ∧ t.sched = { s.sched with clearWaiting := true }) ∧
      t.bus = s.bus ∧ t.wmu = s.wmu ∧ t.table = s.table ∧ t.sets = s.sets ∧ t.lit = s.lit ∧ SameDrive s t ∧
      t.area = s.area ∧ t.notice = s.notice ∧ t.store = s.store) ∧
  ∀ (s : State) (p : Period), s.seq.state = .lit → s.period.current = some p → p.kind = .globalErase →
    p.strobed = false → s.period.timing.dc + s.period.timing.wc + 1 ≤ p.tick →
    ∃ t, exec .globalEraseStrobe s = .next t ∧ AllRowsDark s t ∧ t.sched.clearWaiting = false ∧
      t.period = { s.period with current := some { p with strobed := true } } ∧
      (∀ r, s.cmd.running = some r → Finishes s t (if r.abortTaken = true then 0x82 else 0x80)) ∧
      t.mem = s.mem ∧ t.link = s.link ∧ t.latches = s.latches ∧ t.seq = s.seq ∧ t.sense = s.sense ∧
      t.area = s.area ∧ t.notice = s.notice ∧ t.store = s.store

/-- AREA at its acceptance: refused with BAD_ARGUMENT and 0 words written (R150), or clamped to the image
(R151), with the first word requested of its first row that is not passed over (R154); when every row is passed
over, it completes at once with 0 words written, and OK or TRUNCATED (R161). Which op number names which combine is
the model's reading: the order in which R149 lists them (log 38). -/
def Obligations.AreaIsCheckedAndClamped : Prop :=
  ∀ (s : State) (a : BusAddr) (d : Word), Posts s a d 0x03 →
    let op := argument s 1 % 256
    let priv := (copyWord s.cmd 1).getLsbD 15
    let row := argument s 3
    let rows := argument s 4
    let word := argument s 5
    let words := argument s 6
    ∃ t, exec (.area a d) s = .next t ∧
      t.bus = s.bus ∧ t.wmu = s.wmu ∧ SameRecords s t ∧ SameDrive s t ∧ t.notice = s.notice ∧
      t.store = s.store ∧
      if 3 < op ∨ rows = 0 ∨ words = 0 ∨ 511 < row ∨ 31 < word then
        EndsWith t 0x03 0xC1 [(2, 0)] ∧ t.area = s.area
      else
        let last := if 512 < row + rows then 511 else row + rows - 1
        let passed := fun q : Row => inBand s.store.settings q = true ∧ priv = false
        ((∀ q : Row, row ≤ q.val → q.val ≤ last → passed q) →
          EndsWith t 0x03 (if 512 < row + rows ∨ 32 < word + words then 0x81 else 0x80) [(2, 0)] ∧
            t.area = none) ∧
        (∀ q : Row, row ≤ q.val → q.val ≤ last → ¬ passed q → (∀ p : Row, row ≤ p.val → p < q → passed p) →
          GoesOn t 0x03 ∧
            ∃ x, t.area = some x ∧
              x.op = (if op = 0 then .replace else if op = 1 then .set else if op = 2 then .clear
                else .complement) ∧
              x.privileged = priv ∧ x.firstRow.val = row ∧
              x.lastRow.val = last ∧ x.firstWord.val = word ∧
              x.lastWord.val = (if 32 < word + words then 31 else word + words - 1) ∧
              x.leftMask = copyWord s.cmd 7 ∧ x.rightMask = copyWord s.cmd 8 ∧
              x.pattern = [copyWord s.cmd 9, copyWord s.cmd 10, copyWord s.cmd 11, copyWord s.cmd 12] ∧
              x.truncated = (decide (512 < row + rows) || decide (32 < word + words)) ∧
              x.row = q ∧ x.word = x.firstWord ∧ x.unit = .requested ∧ x.rowSkipped = false ∧
              x.abortPending = false ∧ x.wordsWritten = 0 ∧ UnitEnded true t)

/-- BLANK (R128): from every state the sequencer is DARK and blanked with both counters 0, the loss effects of
R125 have replaced every record, no period runs, a driver clear pulse is due or being given, PANEL_LOST is not
raised, and the command completes with OK. A period of LIT is cut, recorded in the window history as the kind it
started as (R97, R108), and the index, P, the timing copy and the frame count stay as they are (R109); in every other
state the history stays too (R103). The burst timer and the recovery timer then count from 0 (R177, R87). A LOAD
message on the link runs on, marked as handed over before the loss effects (R93). That every cell of the panel shows
dark at this event is the model's choice (log 24), and that a cut ADDRESS period leaves the latches as they are is
too (log 5): the manual says only that the modules may still hold them (R62). -/
def Obligations.BlankDarkensThePanel : Prop :=
  ∀ (s : State) (a : BusAddr) (d : Word), Posts s a d 0x04 → CommandLaw s →
    ∃ t, exec (.blank a d) s = .next t ∧ EndsWith t 0x04 0x80 [] ∧
      t.seq = { s.seq with state := .dark, blanked := true, settle := 0, gap := 0 } ∧
      t.table = { ageQueue := [], taken := none } ∧ t.sched.op = none ∧ t.sched.runCount = 0 ∧
      t.sets = { full := 0, fill := RowSet.all, cursor := s.sets.cursor } ∧
      t.lit = { counts := [], total := 0 } ∧ t.period.clearPulse ≠ .idle ∧
      t.period = { s.period with
        current := none
        window := if s.seq.state = .lit then cutWindow s.period else s.period.window
        clearPulse := t.period.clearPulse } ∧
      (s.seq.state = .lit → t.sense.conversion = none ∧ t.link.timer = 0 ∧ t.notice.burstTimer = 0) ∧
      t.notice.notices = s.notice.notices ∧
      t.link.state = s.link.state ∧ t.link.failed = s.link.failed ∧ t.link.round = s.link.round ∧
      t.link.waiting = none ∧ t.link.message = s.link.message.map afterLoss ∧ t.latches = s.latches ∧
      t.area = s.area ∧ t.store = s.store ∧ t.panel = []

/-- UNBLANK (R129): the blanked flag becomes no, a DARK sequencer with the filtered level high enters SETTLING
with the settle counter at 0, and the command completes with OK; with the flag already no, nothing changes. -/
def Obligations.UnblankJudgesTheSupply : Prop :=
  ∀ (s : State) (a : BusAddr) (d : Word), Posts s a d 0x05 →
    ∃ t, exec (.unblank a d) s = .next t ∧ EndsWith t 0x05 0x80 [] ∧
      t.seq = (if s.seq.blanked = true ∧ s.seq.state = .dark ∧ s.seq.filtered = true then
          { s.seq with blanked := false, state := .settling, settle := 0 }
        else { s.seq with blanked := false }) ∧
      t.bus = s.bus ∧ t.wmu = s.wmu ∧ SameRecords s t ∧ t.link = s.link ∧ t.latches = s.latches ∧
      t.panel = s.panel ∧ t.period = s.period ∧ t.sense = s.sense ∧ t.area = s.area ∧ t.notice = s.notice ∧
      t.store = s.store

/-- PROBE at its acceptance (R90): WRONG_STATE while the link is FAULTED, OK with no module FAILED, and otherwise
a round of the FAILED modules in ascending order, with none restored yet, whose first module is probed at once where
the link is free and no phase is LOADING (R78). -/
def Obligations.ProbeStartsARoundOfFailedModules : Prop :=
  ∀ (s : State) (a : BusAddr) (d : Word), Posts s a d 0x06 →
    ∃ t, exec (.probe a d) s = .next t ∧
      (s.link.state = .faulted → EndsWith t 0x06 0xC4 [] ∧ t.link = s.link) ∧
      (s.link.state = .ok → s.link.failed = 0 → EndsWith t 0x06 0x80 [] ∧ t.link = s.link) ∧
      (s.link.state = .ok → s.link.failed ≠ 0 → GoesOn t 0x06 ∧
        t.link = linkServed t
          { s.link with
            round := some
              { left := [0, 1, 2, 3, 4, 5, 6, 7].filter (fun m => hasModule s.link.failed m)
                restored := false } }) ∧
      t.bus = s.bus ∧ t.wmu = s.wmu ∧ SameRecords s t ∧ t.latches = s.latches ∧ t.panel = s.panel ∧
      t.period = s.period ∧ t.seq = s.seq ∧ t.sense = s.sense ∧ t.area = s.area ∧ t.notice = s.notice ∧
      t.store = s.store

/-- Commands without an effect of their own: ABORT posted while IDLE completes with OK (R171), and a code that
names no command with BAD_CODE (R170). -/
def Obligations.AbortWhileIdleAndBadCodesDoNothing : Prop :=
  ∀ (s : State) (a : BusAddr) (d : Word) (code : Byte), Posts s a d code →
    (code = 0x07 → ∃ t, exec (.abort a d) s = .next t ∧ EndsWith t 0x07 0x80 [] ∧
      t.bus = s.bus ∧ t.wmu = s.wmu ∧ SameRecords s t ∧ SameDrive s t ∧ t.area = s.area ∧
      t.notice = s.notice ∧ t.store = s.store) ∧
    (code ∉ [0x00, 0x01, 0x02, 0x03, 0x04, 0x05, 0x06, 0x07, 0x08, 0x10, 0x11, 0x12] →
      ∃ t, exec (.badCode a d) s = .next t ∧ EndsWith t code 0xC0 [] ∧
        t.bus = s.bus ∧ t.wmu = s.wmu ∧ SameRecords s t ∧ SameDrive s t ∧ t.area = s.area ∧
        t.notice = s.notice ∧ t.store = s.store)

/-- ABORT taken while RUNNING (R160, R66, R191): an AREA ends with ABORTED and its words written, its requested word
not combined; but where the port, as the ABORT's own unit ends, would grant that word's unit at this instant, either
is taken first, by a free value (log 7), and with the grant first the word's unit runs on with the abort pending, as
the statement on AREA_WORD says; a CLEAR_AND_REPAINT ends with ABORTED, or runs on to its strobe when its period is
under way; staged settings are dropped. Image memory, the working settings and the counters do not change. An area
word being served when the ABORT's write comes is finished before the ABORT's own unit, as the statement on the port's
grants says. -/
def Obligations.AbortStopsTheRunningCommand : Prop :=
  ∀ (s : State) (a : BusAddr) (d n : Word) (r : Running), WritesCommand s a d 0 n → highByte n = 0x07 →
    s.cmd.running = some r → r.result = none → r.abortTaken = false →
    let ended := fun (t : State) (words : List (WordIx × Word)) => t.cmd.running = some
      { r with
        abortTaken := true
        result := some 0x82
        writes := r.writes ++ words ++ [(0, r.code ++ (0x82 : Byte))] }
    (∀ x, r.code = 0x03 → s.area = some x →
      let granted := x.unit = .requested ∧ (∀ c, s.wmu.state ≠ .merging c) ∧
        s.port = { burst := false, third := [] } ∧
        (∀ op, s.sched.op = some op → op.stage = .snapshot → op.asked = false) ∧
        Config.firstWins s.freeCount = true
      ∃ t, exec (.abort a d) s = .next t ∧
        (granted → t.area = some { x with unit := .granted, abortPending := true } ∧
          t.cmd.running = some { r with abortTaken := true } ∧ t.port = s.port) ∧
        (¬ granted → t.area = none ∧ ended t [(2, BitVec.ofNat 16 x.wordsWritten)]) ∧
        t.mem = s.mem ∧ t.bus = s.bus ∧ t.wmu = s.wmu ∧ SameRecords s t ∧ SameDrive s t ∧
        t.notice = s.notice ∧ t.store = s.store) ∧
    (r.code = 0x02 → s.sched.clearWaiting = true →
      ∃ t, exec (.abort a d) s = .next t ∧ t.mem = s.mem ∧ t.table = s.table ∧ t.sets = s.sets ∧
        t.lit = s.lit ∧ SameDrive s t ∧ t.notice = s.notice ∧ t.store = s.store ∧
        if ∃ p, s.period.current = some p ∧ p.kind = .globalErase ∧ p.strobed = false then
          t.sched = s.sched ∧ t.cmd.running = some { r with abortTaken := true }
        else t.sched = { s.sched with clearWaiting := false } ∧ ended t []) ∧
    (∀ x, r.code = 0x12 → s.store.staged = some x →
      ∃ t, exec (.abort a d) s = .next t ∧ ended t [] ∧ t.store = { s.store with staged := none } ∧
        t.mem = s.mem ∧ SameRecords s t ∧ SameDrive s t ∧ t.notice = s.notice)

/-- The store commands at their acceptance: STORE_READ reports the word (R186), STORE_ERASE and STORE_WRITE start
their operation (R187, R188), each with its checks, the setup state first. By the command law no store operation
is in progress then. -/
def Obligations.StoreCommandsAreChecked : Prop :=
  ∀ (s : State) (a : BusAddr) (d : Word),
    let same := fun t : State => t.bus = s.bus ∧ t.wmu = s.wmu ∧ SameRecords s t ∧ SameDrive s t ∧
      t.area = s.area ∧ t.notice = s.notice
    let i := argument s 1
    (CommandLaw s → s.cmd.running = none → s.store.op = .none) ∧
    (Posts s a d 0x08 → ∃ t, exec (.storeRead a d) s = .next t ∧ same t ∧ t.store = s.store ∧
      if 63 < i then EndsWith t 0x08 0xC1 []
      else EndsWith t 0x08 0x80 [(2, storeWord s.store.words i)]) ∧
    (Posts s a d 0x10 → ∃ t, exec (.storeErase a d) s = .next t ∧ same t ∧
      if s.cmd.setupOpen = false then EndsWith t 0x10 0xC2 [] ∧ t.store = s.store
      else if 1 < i then EndsWith t 0x10 0xC1 [] ∧ t.store = s.store
      else GoesOn t 0x10 ∧ t.store = { s.store with op := .erase i 0 }) ∧
    (Posts s a d 0x11 → ∃ t, exec (.storeWrite a d) s = .next t ∧ same t ∧
      if s.cmd.setupOpen = false then EndsWith t 0x11 0xC2 [] ∧ t.store = s.store
      else if 63 < i then EndsWith t 0x11 0xC1 [] ∧ t.store = s.store
      else if storeWord s.store.words i ≠ 0xFFFF then EndsWith t 0x11 0xC3 [] ∧ t.store = s.store
      else GoesOn t 0x11 ∧ t.store = { s.store with op := .write i (copyWord s.cmd 2) 0 })

/-- STORE_ERASE_END and STORE_WRITE_END (R187, R188): after 96,000 ticks every word of the page reads 0xFFFF, after
256 ticks the word reads the value, no other word changes, the store operation becomes none, and the command
has its result OK. -/
def Obligations.StoreOperationsEnd : Prop :=
  ∀ (s : State) (r : Running), CellsWf 0xFFFF s.store.words → s.cmd.running = some r → r.result = none →
    let ends := fun t : State => t.store.op = .none ∧ t.store.settings = s.store.settings ∧
      t.store.staged = s.store.staged ∧ SameWritePath s t ∧ SameRecords s t ∧ SameDrive s t ∧
      t.area = s.area ∧ t.notice = s.notice ∧
      t.cmd.running = some
        { r with result := some 0x80, writes := r.writes ++ [(0, r.code ++ (0x80 : Byte))] }
    (∀ page k, s.store.op = .erase page k → 96000 ≤ k →
      ∃ t, exec .storeEraseEnd s = .next t ∧ ends t ∧
        ∀ i, storeWord t.store.words i = if i / 32 = page then 0xFFFF else storeWord s.store.words i) ∧
    (∀ i v k, s.store.op = .write i v k → 256 ≤ k →
      ∃ t, exec .storeWriteEnd s = .next t ∧ ends t ∧
        ∀ j, storeWord t.store.words j = if j = i then v else storeWord s.store.words j)

/-- SETTINGS_APPLY at its acceptance (R190): NOT_IN_SETUP while the setup state is closed; otherwise the load of the
store is staged while LIT and installed at once in the other states, and SETTINGS_DEFAULT is raised when the format
word is wrong (R183). A settle or loss limit that the installation brings to or below its counter is reached there
(R115, R120, R124): SETTLING enters PRIMING, RESUMING enters LIT or, by the loss limit, SETTLING with the panel lost,
and GAP enters DARK; where both are reached in RESUMING either comes first (R123). A hold cannot meet this
installation: a posting needs READY high (R13). That the panel shows dark at a loss is the model's choice (log 24). -/
def Obligations.SettingsApplyStagesOrInstalls : Prop :=
  ∀ (s : State) (a : BusAddr) (d : Word), Posts s a d 0x12 → CommandLaw s →
    (s.cmd.setupOpen = false → ∃ t, exec (.settingsApply a d) s = .next t ∧ EndsWith t 0x12 0xC2 [] ∧
      SameRecords s t ∧ SameDrive s t ∧ t.notice = s.notice ∧ t.store = s.store) ∧
    (s.cmd.setupOpen = true → s.seq.state = .lit → ∃ t, exec (.settingsApply a d) s = .next t ∧
      GoesOn t 0x12 ∧ t.store = { s.store with staged := some (loadSettings s.store.words) } ∧
      SameRecords s t ∧ SameDrive s t ∧
      t.notice.notices = (if storeWord s.store.words 0 = 0x0F51 then s.notice.notices
        else s.notice.notices ||| 0x80)) ∧
    (s.cmd.setupOpen = true → s.seq.state ≠ .lit → ∃ t, exec (.settingsApply a d) s = .next t ∧
      EndsWith t 0x12 0x80 [] ∧
      t.store = { s.store with settings := loadSettings s.store.words, staged := none } ∧
      (storeWord s.store.words 0 ≠ 0x0F51 → t.notice.notices.getLsbD 7 = true) ∧
      (ReadyFollows s →
        let new := loadSettings s.store.words
        let settled := decide (new.settleLimit ≤ s.seq.settle)
        let gone := decide (new.lossLimit ≤ s.seq.gap)
        let lost := AllRowsDark s t ∧ t.seq.gapLength = new.lossLimit ∧ t.seq.gap = 0 ∧
          t.notice.notices.getLsbD 1 = true
        let lit := t.seq = { s.seq with state := .lit, gapLength := s.seq.gap } ∧
          t.period.timing = timingOf new ∧ t.period.length = (limitPeriod (timingOf new) s.lit.total).1 ∧
          t.panel = s.panel ∧ t.lit = s.lit ∧ t.sets = s.sets
        (s.seq.state = .dark ∨ s.seq.state = .priming → t.seq = s.seq ∧ SameRecords s t ∧ t.panel = s.panel) ∧
        (s.seq.state = .settling →
          t.seq = { s.seq with state := if settled = true then .priming else .settling } ∧ SameRecords s t ∧
            t.panel = s.panel ∧
            (settled = true → t.period.timing = timingOf new ∧ t.period.window = [] ∧
              t.period.clearPulse ≠ .idle)) ∧
        (s.seq.state = .gap → gone = true → lost ∧ t.seq.settle = 0 ∧
          t.seq.state = (if s.seq.filtered = true ∧ s.seq.blanked = false then .settling else .dark)) ∧
        (s.seq.state = .gap → gone = false → t.seq = s.seq ∧ SameRecords s t ∧ t.panel = s.panel) ∧
        (s.seq.state = .resuming → settled = false → gone = false →
          t.seq = s.seq ∧ SameRecords s t ∧ t.panel = s.panel) ∧
        (s.seq.state = .resuming → settled = true → gone = false → lit) ∧
        (s.seq.state = .resuming → settled = false → gone = true →
          lost ∧ t.seq.state = .settling ∧ t.seq.settle = s.seq.settle) ∧
        (s.seq.state = .resuming → settled = true → gone = true → lit ∨ lost ∧ t.seq.state = .priming)))

/-- A load of settings (R183, R184): the defaults when the format word is wrong, and otherwise each word within
its range and fitted together; in both cases the bounds of R184 hold. -/
def Obligations.LoadedSettingsFit : Prop :=
  ∀ words : Cells Word, SettingsFit (loadSettings words) ∧
    (storeWord words 0 ≠ 0x0F51 → loadSettings words = defaultSettings) ∧
    (storeWord words 0 = 0x0F51 →
      let v := fun i => (storeWord words i).toNat
      let t := loadSettings words
      t.aperture = min 3 (v 1) ∧ t.firstRow = min 511 (v 2) ∧
      t.rowCount = min (min 64 (v 3)) (512 - t.firstRow) ∧ t.pMin = max 40 (min 255 (v 4)) ∧
      t.pMax = max t.pMin (min 255 (v 5)) ∧ t.k = max 256 (min 16383 (v 6)) ∧
      t.allowance = max 1 (min 8 (v 7)) ∧ t.ws = min (min 255 (v 8)) (t.pMin / 2 - 3) ∧
      t.dc = (if t.pMin - 3 < min 255 (v 11) then 0 else min 255 (v 11)) ∧
      t.wc = min (min 255 (v 12)) (t.pMin - 3 - t.dc) ∧ t.dr = min (min 255 (v 9)) t.dc ∧
      t.wr = max (min 255 (v 10)) (t.dc + t.wc - t.dr) ∧ t.settleLimit = max 64 (v 13) ∧
      t.lossLimit = max 256 (v 14) ∧ t.holdLimit = min 4095 (v 15) ∧ t.weight = max 1 (min 15 (v 16)) ∧
      t.halfBit = max 1 (min 15 (v 17)) ∧ t.stretchLimit = max 8 (min 1023 (v 18)) ∧
      t.sampleIndex = min 255 (v 19) ∧ t.baseCode = min 1023 (v 20) ∧ t.gain = min 255 (v 21) ∧
      t.tolerance = max 1 (min 255 (v 22)))

/-- COMMAND_ROW_WORD_WRITE (R164, R168): the granted unit writes its word into memory and the copy; the next word
is requested, or, after word 0 with the result, the handler is IDLE, COMMAND_DONE is in the notice set and a
status burst is requested. -/
def Obligations.CommandRowWritesAndCompletion : Prop :=
  ∀ (s : State) (r : Running) (w : WordIx) (v : Word) (rest : List (WordIx × Word)) (u : List ThirdRank),
    s.cmd.running = some r → r.writes = (w, v) :: rest → (∀ c, s.wmu.state ≠ .merging c) →
    areaGranted s = false → s.port = { burst := false, third := .commandWrite :: u } →
    ∃ t, exec .commandRowWordWrite s = .next t ∧ t.mem = cellsWrite 0 s.mem (16384 + w.val) v ∧
      t.cmd.copy = cellsWrite 0 s.cmd.copy w.val v ∧
      (rest ≠ [] ∨ r.result = none → t.cmd.running = some { r with writes := rest } ∧
        t.notice = s.notice ∧ t.port.burst = false ∧
        (rest ≠ [] → ThirdRank.commandWrite ∈ t.port.third) ∧ (rest = [] → t.port.third = u)) ∧
      (rest = [] → r.result ≠ none → t.cmd.running = none ∧
        t.notice.notices = s.notice.notices ||| 0x01 ∧ t.port.burst = true) ∧
      UnitEnded false t ∧ t.bus = s.bus ∧ t.wmu = s.wmu ∧ SameRecords s t ∧ SameDrive s t ∧ t.area = s.area ∧
      t.store = s.store

/-! ## Notices and status -/

/-- NOTICE_CLEAR (R7, R175): the notices named in the low byte of the data leave the set. If that changes the set,
the attention line follows it, an update is requested and READY is held; if not, nothing changes.
NOTICE_WORD_UPDATE (R176): the granted unit writes the notice set as it then stands into status word 0, and a
clear that waits for it completes (R7). -/
def Obligations.NoticesAreClearedAndWritten : Prop :=
  (∀ (s : State) (a : BusAddr) (d : Word) (v : BitVec 3), s.bus.ready = true →
    decodeIn s a = .aperture v (.status 0) → 4 ≤ v →
    let left := s.notice.notices &&& ~~~(d.setWidth 8)
    (left = s.notice.notices → exec (.noticeClear a d) s = .next s) ∧
    (left ≠ s.notice.notices →
      ∃ t, exec (.noticeClear a d) s = .next t ∧
        t.notice = { s.notice with notices := left, attention := left != 0 } ∧
        t.bus = { s.bus with ready := false, clearHeld := true } ∧
        t.port = { s.port with
          third := if ThirdRank.noticeUpdate ∈ s.port.third then s.port.third
            else s.port.third ++ [.noticeUpdate] } ∧
        t.mem = s.mem ∧ t.wmu = s.wmu ∧ SameRecords s t ∧ SameDrive s t ∧ t.area = s.area ∧ t.cmd = s.cmd ∧
        t.store = s.store)) ∧
  ∀ (s : State) (u : List ThirdRank), (∀ c, s.wmu.state ≠ .merging c) → areaGranted s = false →
    s.port = { burst := false, third := .noticeUpdate :: u } →
    exec .noticeWordUpdate s =
      .next (unitEnds false (((s.setMem (cellsWrite 0 s.mem 16416 (s.notice.notices.setWidth 16))).setPort
        { burst := false, third := u }).setBus
          { s.bus with ready := s.bus.ready || s.bus.clearHeld, clearHeld := false }))

/-- STATUS_BURST (R178, R194): one unit writes all 32 words of the status row with the record's values in the
layout of the Formats chapter, and leaves every other word of memory. BURST_TIMER_EXPIRY (R177), due outside LIT when
a tick has brought the timer from 16,383 back to 0: a status burst is requested. -/
def Obligations.StatusBurstWritesTheRecord : Prop :=
  (∀ s : State, s.seq.state ≠ .lit → s.notice.burstExpired = true →
    exec .burstTimerExpiry s =
      .next (((s.setNotice { s.notice with burstTimer := 0, burstExpired := false }).setPort
        { s.port with burst := true }).setReached
          (if s.port.burst = true then s.reached else { reachedNow s with burst := false }))) ∧
  ∀ s : State, Memory.wf s.mem → s.port.burst = true → (∀ c, s.wmu.state ≠ .merging c) →
    areaGranted s = false → s.sense.m < 1024 → s.sense.e < 1024 → s.sense.runCount < 4 →
    ∃ t, exec .statusBurst s = .next t ∧ t.port = { s.port with burst := false } ∧ UnitEnded false t ∧
      (∀ x, x < 16416 ∨ 16447 < x → readMem t x = readMem s x) ∧
      (readMem t 16416).toNat = s.notice.notices.toNat ∧
      (readMem t 16417).toNat =
        (match s.seq.state with
          | .dark => 0 | .settling => 1 | .priming => 2 | .lit => 3 | .gap => 4 | .resuming => 5) +
        8 * s.seq.blanked.toNat + 16 * s.seq.filtered.toNat +
        32 * (s.link.state == .faulted).toNat + 64 * s.cmd.setupOpen.toNat + 128 * s.sense.holdOff.toNat +
        256 * s.sense.runCount + 1024 * (s.notice.cause == .resetInput).toNat ∧
      (readMem t 16418).toNat = s.link.failed.toNat ∧
      readMem t 16419 = BitVec.ofNat 16 s.period.frameCount ∧
      readMem t 16420 = BitVec.ofNat 16 s.seq.gapLength ∧ (readMem t 16421).toNat = s.sense.m ∧
      (readMem t 16422).toNat = s.sense.e ∧ readMem t 16423 = BitVec.ofNat 16 s.notice.protectedDiscards ∧
      readMem t 16424 = BitVec.ofNat 16 s.notice.degradedRows ∧
      readMem t 16425 = BitVec.ofNat 16 s.notice.annulled ∧
      readMem t 16426 = BitVec.ofNat 16 s.notice.droppedCells ∧
      readMem t 16427 = BitVec.ofNat 16 s.notice.retries ∧
      readMem t 16428 = BitVec.ofNat 16 s.notice.contentions ∧
      readMem t 16429 = BitVec.ofNat 16 s.notice.commandDiscards ∧
      (∀ k, 14 ≤ k → k < 32 → readMem t (16416 + k) = 0) ∧
      t.bus = s.bus ∧ t.wmu = s.wmu ∧ SameRecords s t ∧ SameDrive s t ∧ t.area = s.area ∧ t.cmd = s.cmd ∧
      t.notice = s.notice ∧ t.store = s.store

/-! ## The Area Engine -/

/-- AREA_WORD (R152, R153, R155, R157): the word becomes N by op, within the cells of its mask; no other word changes;
it is counted; and the engine goes on to the next word, to the first word of the next row that is not passed over, or
completes (R154, R161); with an abort pending the area completes after this word, counted with the others, with
ABORTED, the last word of the rectangle included (R160). The word is granted when every higher rank is empty (R17), or
is being served already. A word left as it was gives no difference (R156); a difference that is dropped, or that the
merge has a place for, leaves the table, the sets and a hold as the merge does, and what it does to a hold follows
(R12, R25 to R28, R30); and a difference without room degrades its row (R157). A word amid a snapshot leaves the
snapshot's next word requested (log 33). The next word is requested anew, behind every rank above it that then waits
(R17, log 21). -/
def Obligations.AreaWordCombinesAndGoesOn : Prop :=
  ∀ (s : State) (x : AreaOp), Memory.wf s.mem → s.area = some x →
    x.unit = .granted ∨ x.unit = .requested ∧ (∀ c, s.wmu.state ≠ .merging c) ∧
      s.port = { burst := false, third := [] } ∧
      (∀ op, s.sched.op = some op → op.stage = .snapshot → op.asked = false) →
    let off := 32 * x.row.val + x.word.val
    let o := readMem s off
    let d := x.pattern.getD (x.row.val % 4) 0
    let cell := fun i =>
      if x.firstWord = x.lastWord then x.leftMask.getLsbD i && x.rightMask.getLsbD i
      else if x.word = x.firstWord then x.leftMask.getLsbD i
      else if x.word = x.lastWord then x.rightMask.getLsbD i
      else true
    let skipped := fun q : Row => x.privileged = false ∧ s.store.settings.firstRow ≤ q.val ∧
      q.val < s.store.settings.firstRow + s.store.settings.rowCount
    ∃ t, exec .areaWord s = .next t ∧
      (∀ i < 16, (readMem t off).getLsbD i =
        if cell i = true then
          match x.op with
          | .replace => d.getLsbD i
          | .set => o.getLsbD i || d.getLsbD i
          | .clear => o.getLsbD i && !d.getLsbD i
          | .complement => o.getLsbD i ^^ d.getLsbD i
        else o.getLsbD i) ∧
      (∀ y, y ≠ off → readMem t y = readMem s y) ∧
      (x.abortPending = true → t.area = none ∧
        ∀ r, s.cmd.running = some r → r.result = none →
          t.cmd.running = some
            { r with
              result := some 0x82
              writes := r.writes ++
                [(2, BitVec.ofNat 16 (x.wordsWritten + 1)), (0, r.code ++ (0x82 : Byte))] }) ∧
      (x.abortPending = false → x.word.val < x.lastWord.val → t.cmd = s.cmd ∧
        ∃ w : WordIx, w.val = x.word.val + 1 ∧
          t.area = some { x with word := w, unit := .requested, wordsWritten := x.wordsWritten + 1 }) ∧
      (x.abortPending = false → x.lastWord.val ≤ x.word.val →
        (∀ q : Row, x.row < q → q ≤ x.lastRow → ¬ skipped q → (∀ p : Row, x.row < p → p < q → skipped p) →
          t.cmd = s.cmd ∧
          t.area = some
            { x with
              row := q, word := x.firstWord, rowSkipped := false, unit := .requested
              wordsWritten := x.wordsWritten + 1 }) ∧
        ((∀ q : Row, x.row < q → q ≤ x.lastRow → skipped q) → t.area = none ∧
          ∀ r, s.cmd.running = some r → r.result = none →
            let res : Byte := if x.truncated = true then 0x81 else 0x80
            t.cmd.running = some
              { r with
                result := some res
                writes := r.writes ++ [(2, BitVec.ofNat 16 (x.wordsWritten + 1)), (0, r.code ++ res)] })) ∧
      (let n := readMem t off
        let b := (writeMem off n s).setArea (some { x with unit := .none })
        (n = o → x.unit = .requested →
          t.table = s.table ∧ t.sets = s.sets ∧ t.wmu = s.wmu ∧ t.notice = s.notice) ∧
        (n = o → x.unit = .granted →
          t.table = (settleHold b).table ∧ t.sets = s.sets ∧ t.wmu = (settleHold b).wmu) ∧
        (n ≠ o → ∀ m, mergeDifference x.row x.word (n &&& ~~~o) (o &&& ~~~n) b = some m →
          t.table = (settleHold m).table ∧ t.sets = s.sets ∧ t.wmu = (settleHold m).wmu ∧
            t.bus = (settleHold m).bus ∧ t.notice = (settleHold m).notice)) ∧
      (readMem t off ≠ o → dropped s x.row x.word = false → openEntry s.table x.row = none →
        32 ≤ slotsInUse s.table →
        t.notice.degradedRows = min 65535 (s.notice.degradedRows + 1) ∧
          t.notice.notices = s.notice.notices ||| 0x40 ∧
          (recordless s.seq.state = false → hasRow t.sets.full x.row = true)) ∧
      ((∀ op, s.sched.op = some op → op.stage ≠ .snapshot) → t.sched = s.sched) ∧
      (∀ op, s.sched.op = some op → op.stage = .snapshot →
        t.sched = { s.sched with op := some { op with asked := true } }) ∧
      UnitEnded false t ∧ t.lit = s.lit ∧ SameDrive s t ∧ t.store = s.store

/-! ## The Row Scheduler -/

/-- SCHEDULER_TAKE (R49 to R53): with both kinds of work the head of the age queue while the table run count is below
the resync weight, and otherwise the resync row nearest at or after the cursor; the run count, the cursor, the sets,
the TAKEN entry and the record formed are as the rules give, and the take starts its first stage: for a DELTA the
start of a phase, which hands the first slice to the link (R78). The record's fields of the model's own are not the
rules': the modules still to be handed and the return due (log 31), and, for a snapshot, that its first word has been
requested (log 33). Where a probe is due at a free link, either the slice or the probe is sent (log 7). A DELTA of
which no PRESENT module has a cell completes at once, its slot is free, and a hold is settled (R30, R60). The cells of
FAILED modules are dropped and counted at the start of each phase (R55). -/
def Obligations.TakeFollowsWeightAndCursor : Prop :=
  ∀ s : State, recordless s.seq.state = false → s.link.state = .ok → s.sched.op = none →
    s.sched.clearWaiting = false →
    let inSet := fun r : Row => hasRow s.sets.full r = true ∨ hasRow s.sets.fill r = true
    let ahead := fun r : Row => (r.val + 512 - s.sets.cursor.val) % 512
    (∀ e rest, s.table.ageQueue = e :: rest →
      (∀ r, ¬ inSet r) ∨ s.sched.runCount < s.store.settings.weight →
      ∃ t, exec .schedulerTake s = .next t ∧ t.sched.runCount = min 15 (s.sched.runCount + 1) ∧
        t.sets = s.sets ∧
        EraseStarts s.link t
          { kind := .delta, row := e.row, eraseMask := e.clearMask, writeMask := e.setMask, cursor := none
            asked := false, phase := .erase, stage := .loading, loaded := 0, eraseDone := false
            writeDone := false, toHand := [], returnDue := false } ∧
        Drops s t (failedCells s.link.failed e.clearMask +
          if presentCells s.link.failed e.clearMask = 0 then failedCells s.link.failed e.setMask else 0) ∧
        (presentCells s.link.failed (e.clearMask ||| e.setMask) ≠ 0 →
          t.table = { ageQueue := rest, taken := some e } ∧ t.wmu = s.wmu ∧ t.bus = s.bus) ∧
        (presentCells s.link.failed (e.clearMask ||| e.setMask) = 0 →
          HoldSettled (s.setTable { ageQueue := rest, taken := none }) t) ∧
        t.mem = s.mem ∧ t.lit = s.lit ∧ t.link.state = .ok ∧ t.link.failed = s.link.failed ∧
        t.latches = s.latches ∧ t.panel = s.panel ∧ t.period = s.period ∧ t.seq = s.seq ∧ t.sense = s.sense ∧
        AreaKept s t ∧ t.cmd = s.cmd ∧ t.store = s.store) ∧
    (∀ r, inSet r → (∀ q, inSet q → ahead r ≤ ahead q) →
      s.table.ageQueue = [] ∨ s.store.settings.weight ≤ s.sched.runCount →
      ∃ t : State, exec .schedulerTake s =
          .next (((s.setSets t.sets).setSched { s.sched with runCount := 0, op := t.sched.op }).setReached
            (reachedNow s)) ∧
        (∀ q, hasRow t.sets.full q = (hasRow s.sets.full q && q != r)) ∧
        (∀ q, hasRow t.sets.fill q = (hasRow s.sets.fill q && q != r)) ∧
        t.sets.cursor.val = (r.val + 1) % 512 ∧
        t.sched.op = some
          { kind := if hasRow s.sets.full r = true then .full else .fill
            row := r
            eraseMask := if hasRow s.sets.full r = true then moduleColumns (~~~s.link.failed) else 0
            writeMask := 0, cursor := some 0, asked := true, phase := .erase, stage := .snapshot, loaded := 0
            eraseDone := false, writeDone := false, toHand := [], returnDue := false })

/-- SNAPSHOT_WORD_READ (R54): the word at the cursor joins the write mask at its place and the cursor advances;
after the 32nd word the erase phase starts, its first slice is handed to the link (R78, logs 7, 31), and the cells of
FAILED modules are dropped and counted (R55). Whether the next word is requested before the port's next grant is free
(log 33). -/
def Obligations.SnapshotReadsOneWord : Prop :=
  ∀ (s : State) (op : RowOp) (w : WordIx), s.sched.op = some op → op.stage = .snapshot →
    op.cursor = some w.val → (∀ c, s.wmu.state ≠ .merging c) → s.port = { burst := false, third := [] } →
    areaGranted s = false →
    let op' := { op with
      writeMask := op.writeMask ||| wordCells w (readMem s (32 * op.row.val + w.val))
      cursor := some (w.val + 1) }
    (w.val < 31 → ∃ now : Bool, exec .snapshotWordRead s =
      .next (unitEnds false ((s.setSched { s.sched with op := some { op' with asked := now } }).setFreeCount
        (s.freeCount + 1)))) ∧
    (w.val = 31 → ∃ t, exec .snapshotWordRead s = .next t ∧ UnitEnded false t ∧ EraseStarts s.link t op' ∧
      Drops s t (failedCellsFromErase s.link.failed op') ∧ t.mem = s.mem ∧ t.sets = s.sets ∧
      t.lit = s.lit ∧ t.sched.runCount = s.sched.runCount ∧ t.sched.clearWaiting = s.sched.clearWaiting ∧
      t.link.state = s.link.state ∧ t.link.failed = s.link.failed ∧ t.latches = s.latches ∧
      t.panel = s.panel ∧ t.period = s.period ∧
      t.seq = s.seq ∧ t.sense = s.sense ∧ AreaKept s t ∧ t.cmd = s.cmd ∧ t.store = s.store)

/-- STROBE (R57, R58, R74): the modules pulse the columns latched for the phase's kind and clear their latches; the
lit-table counts of the row follow for the loaded modules; the next phase starts, or the operation completes, its slot
is free, and a hold is settled (R30, R60). At the start of a write phase its first slice is handed to the link (R78,
logs 7, 31), and the cells of FAILED modules are dropped and counted (R55). After a link fault an operation with a
write still to be done is returned, and any other completes (R61, R101): which of the two a strobe makes of it, and
that a write phase with no cell in a PRESENT module is passed over, its cells counted, is the model's reading (log
15). That a latch cleared at the strobe has the phase erase is the model's choice (log 34). -/
def Obligations.StrobeAppliesThePhase : Prop :=
  ∀ (s : State) (p : Period) (op : RowOp) (k : Phase), StoresCanonical s → s.seq.state = .lit →
    s.period.current = some p → p.kind = .address → p.strobed = false →
    s.period.timing.dc + s.period.timing.wc + 1 ≤ p.tick → s.sched.op = some op → op.stage = .firing →
    (op.phase = .erase ∧ k = .erase ∨ op.phase = .write ∧ k = .write) →
    let pulsed := pulsedColumns k s.latches
    let cells := fun m => cellCount (maskSlice (if k = .erase then op.eraseMask else op.writeMask) m)
    ∃ t, exec .strobe s = .next t ∧
      (∀ q : Row, panelRow t q =
        if q = op.row then (if k = .erase then panelRow s q &&& ~~~pulsed else panelRow s q ||| pulsed)
        else panelRow s q) ∧
      t.latches = { cols := 0, writePhase := 0 } ∧
      (∀ (q : Row) (m : ModuleNo), litCount t.lit q m =
        if q = op.row ∧ hasModule op.loaded m = true then
          (if k = .write then min 64 (litCount s.lit q m + cells m)
          else if op.kind = .full then 0
          else litCount s.lit q m - cells m)
        else litCount s.lit q m) ∧
      t.period = { s.period with current := some { p with strobed := true } } ∧
      (op.returnDue = false → k = .erase → WriteStarts s.link s.link t op) ∧
      (k = .erase → op.returnDue = true → presentCells s.link.failed op.writeMask ≠ 0 → t.sched.op = none ∧
        GivesBack s t { op with eraseDone := true }) ∧
      (k = .write ∨ presentCells s.link.failed op.writeMask = 0 → t.sched.op = none ∧
        (op.kind = .delta → HoldSettled (slotFreed s) t)) ∧
      (k = .write ∨ op.returnDue = true → t.link = s.link) ∧
      (op.returnDue = false ∨ k = .write → t.sets = s.sets) ∧
      (k = .erase → op.returnDue = false ∨ presentCells s.link.failed op.writeMask = 0 →
        Drops s t (failedCells s.link.failed op.writeMask)) ∧
      (k = .write ∨ op.returnDue = true ∧ presentCells s.link.failed op.writeMask ≠ 0 →
        t.notice.droppedCells = s.notice.droppedCells) ∧
      t.mem = s.mem ∧ t.link.state = s.link.state ∧ t.link.failed = s.link.failed ∧ t.seq = s.seq ∧
      t.sense = s.sense ∧ AreaKept s t ∧ t.cmd = s.cmd ∧ t.store = s.store

/-! ## The driver link -/

/-- Messages on the wires (R73, R76, R195): a message of n data bytes is 2 + n bytes and (18 (2 + n) + 4) half-bits
long; data byte k is a byte of a mask word; and the module it names rebuilds the slice and its phase from the
bytes, while every other module takes nothing. -/
def Obligations.ModulesRebuildTheSlicesSent : Prop :=
  ∀ v : Slice,
    let bytes := messageBytes (loadMessageOf v)
    bytes.length = 2 + (presentBytes v.cells).length ∧ (messageHalves bytes).length = 18 * bytes.length + 4 ∧
    (∀ k : ModuleNo, moduleReceives k bytes =
      if k = v.modNo then some (v.cells, v.phase == .write) else none) ∧
    (∀ k < 8, (presenceByte v.cells).getLsbD k = (dataByte v.cells k != 0)) ∧
    ∀ (mask : Mask) (k : Nat) (w : WordIx), maskSlice mask v.modNo = v.cells → k < 8 →
      w.val = 4 * v.modNo.val + k / 2 →
      dataByte v.cells k = if k % 2 = 0 then highByte (maskWord mask w) else lowByte (maskWord mask w)

/-- LOAD_MESSAGE with every byte acknowledged (R80, R56, R93): the module has latched the message; for a message of
the operation in flight the module joins the loaded modules and loading goes on; one begun before loss effects is
reported to no block, and its latch is to be cleared. A link then free sends its next work (R78), the first slice of a
phase or a probe by log 7. A whole message is one step, and cannot end sooner than its half-bits take: the model's
choices (logs 9, 17). -/
def Obligations.LoadedSlicesAreLatched : Prop :=
  ∀ (s : State) (m : Message) (idle : IdleCheck), s.link.message = some m → m.purpose = .phaseLoad →
    idlePossible idle = true → idlePasses idle = true →
    idleHalves idle * s.link.halfBit + messageTicks s.link.halfBit (2 + m.data.length) ≤ s.link.elapsed →
    ∃ t, exec (.loadMessage idle ((messageBytes m).map ackedSample)) s = .next t ∧
      t.latches = latchMessage (messageBytes m) s.latches ∧
      (m.beforeLoss = true ∨ s.sched.op = none → t.sched = s.sched ∧
        t.link = linkServed t (messageEnded s.link)) ∧
      (m.beforeLoss = true → t.period.clearPulse ≠ .idle) ∧
      (m.beforeLoss = false → t.period = s.period ∧
        ∀ op, s.sched.op = some op → LoadingGoesOn (messageEnded s.link) t
          { op with loaded := op.loaded ||| oneModule m.modNo }) ∧
      SameWritePath s t ∧ t.table = s.table ∧ t.sets = s.sets ∧ t.lit = s.lit ∧ t.panel = s.panel ∧
      t.link.state = s.link.state ∧ t.link.failed = s.link.failed ∧ t.link.round = s.link.round ∧
      t.seq = s.seq ∧ t.sense = s.sense ∧ t.area = s.area ∧ t.cmd = s.cmd ∧ t.notice = s.notice ∧
      t.store = s.store

/-- LOAD_MESSAGE with a NACK or contention in byte k (R81, R83, R84, R85): the first attempt is sent once more as the
retry; after the retry the module is FAILED, MODULE_FAILED is in the notice set, and loading goes on without
the module; a DELTA that so completes frees its slot, and a hold is settled (R30, R60). One begun before loss effects
(R93) is not retried, marks no module and raises no notice; a contention in it is counted, and its latch is to be
cleared. A byte in contention has no acknowledge clocked (R83), which the half-bits the message lasts follow. A whole
message is one step, and cannot end sooner than its half-bits take: the model's choices (logs 9, 17); so is it that
where a failed retry completes the operation with a probe due, the probe is sent in that step, where R78 lets either
it or the next phase's first slice come first (log 35). -/
def Obligations.FailedLoadsAreRetriedOnce : Prop :=
  ∀ (s : State) (m : Message) (idle : IdleCheck) (k : Nat) (b : Byte) (v : BitVec 9),
    s.link.message = some m → m.purpose = .phaseLoad → idlePossible idle = true → idlePasses idle = true →
    (messageBytes m)[k]? = some b → v = refusedSample b ∨ Contended b v →
    (idleHalves idle + failedHalves k b v) * s.link.halfBit ≤ s.link.elapsed →
    let samples := ((messageBytes m).take k).map ackedSample ++ [v]
    let seen := if Contended b v then min 65535 (s.notice.contentions + 1) else s.notice.contentions
    (m.beforeLoss = true → ∃ t, exec (.loadMessage idle samples) s = .next t ∧ LateLoadFails s t seen) ∧
    (m.beforeLoss = false → m.attempt = .first →
      exec (.loadMessage idle samples) s = .next (retried s m seen)) ∧
    (m.beforeLoss = false → m.attempt = .retry →
      ∃ t, exec (.loadMessage idle samples) s = .next t ∧ RetryFails s t m seen)

/-- PROBE_MESSAGE (R91, R92): acknowledged, the module is PRESENT and a restoration recorded; refused at byte k, or
with contention in it, which is counted (R83), it stays FAILED, with no retry and no notice. The module leaves the
round; after the last one the round is over, every row is requested to the FULL set if a module was restored, and
PROBE completes with OK. A slice that waits is then sent, or else, with no phase LOADING, the round's next probe
(R78). A probe refused or contended at byte k ends after that byte (R81, R83). A whole message is one step, and cannot
end sooner than its half-bits take: the model's choices (logs 9, 17). -/
def Obligations.ProbesRestoreModules : Prop :=
  ∀ (s : State) (m : Message) (idle : IdleCheck) (round : ProbeRound) (acked : Bool) (k : Nat) (b : Byte)
    (v : BitVec 9),
    ThirdLaw s → s.link.message = some m → m.purpose = .probe → idlePossible idle = true →
    idlePasses idle = true → s.link.round = some round →
    (messageBytes m)[k]? = some b → acked = true ∨ v = refusedSample b ∨ Contended b v →
    (idleHalves idle + if acked = true then 18 * (2 + m.data.length) + 4 else failedHalves k b v) * s.link.halfBit ≤
      s.link.elapsed →
    let samples := if acked = true then (messageBytes m).map ackedSample
      else ((messageBytes m).take k).map ackedSample ++ [v]
    let seen := if acked = false ∧ Contended b v then min 65535 (s.notice.contentions + 1)
      else s.notice.contentions
    ∃ t, exec (.probeMessage idle samples) s = .next t ∧ ProbeEnds s t m round acked seen

/-- The link fault (R79, R82, R86): a failed idle check (LDA not freed, or a line low after the CLOSE that follows), a
stretch that expires in an idle check, or one inside a message that leaves LCK low, makes the link FAULTED with
LINK_FAULT raised and nothing on it; the operation in flight is returned, the actions of a DELTA that are not done by
the merge-back (R61), at its strobe if its phase is FIRING (R101), and a probe round ends with WRONG_STATE. With LCK
freed the message has failed: a first attempt is sent once more (R84), the module of a retry is FAILED (R85), and a
probe leaves its module FAILED (R91). The stretch may come before byte k, in the CLOSE after a byte k refused or
contended, which is counted (R83), or in the CLOSE after the last acknowledge, where the module may have latched the
message: a free value (log 8). In a recovery attempt the link stays FAULTED (R88). The ticks that must have passed,
and the order of the fault's effects, are the model's choices (logs 14, 15, 17); so is it that a probe due is sent in
the step in which a failed retry completes the operation, where R78 lets either come first (log 35). -/
def Obligations.ExpiredStretchesFaultTheLink : Prop :=
  ∀ s : State,
    let faults := fun (c : Instr) (seen : Nat) => ∃ t, exec c s = .next t ∧ t.link.state = .faulted ∧
      t.link.activity = .idle ∧ t.link.message = none ∧ t.link.waiting = none ∧ t.link.round = none ∧
      t.link.timer = 0 ∧ t.link.expired = false ∧ t.link.failed = s.link.failed ∧ t.notice.notices.getLsbD 2 = true ∧
      t.notice.contentions = seen ∧
      (∀ op, s.sched.op = some op → op.stage = .firing →
        t.sched.op = some { op with returnDue := true }) ∧
      (∀ op, s.sched.op = some op → op.stage ≠ .firing → t.sched.op = none ∧
        (op.kind = .delta → t.table.taken = none) ∧
        ((∀ r, s.link.round = some r → r.restored = false) ∨ op.kind ≠ .delta → GivesBack s t op) ∧
        (op.stage = .ready ∨ op.stage = .loading ∧ op.loaded ≠ 0 → t.period.clearPulse ≠ .idle)) ∧
      (s.link.round ≠ none → Finishes s t 0xC4) ∧ t.mem = s.mem ∧ t.lit = s.lit ∧ t.latches = s.latches ∧
      t.panel = s.panel ∧ t.seq = s.seq ∧ t.sense = s.sense ∧ AreaKept s t ∧ t.store = s.store
    let same := s.notice.contentions
    let counted := min 65535 (s.notice.contentions + 1)
    (∀ m, s.link.message = some m →
      (s.link.stretchLimit ≤ s.link.elapsed → faults (.stretchExpiry .idleCheck) same) ∧
      (∀ idle, idlePossible idle = true → idlePasses idle = false →
        idleHalves idle * s.link.halfBit ≤ s.link.elapsed →
        (m.purpose = .phaseLoad → faults (.loadMessage idle []) same) ∧
        (m.purpose = .probe → faults (.probeMessage idle []) same)) ∧
      let bytes := messageBytes m
      let before := fun k => (bytes.take k).map ackedSample
      let expires := fun (samples : List (BitVec 9)) (whole seen : Nat) (closed : State → Prop) =>
        (18 * whole + 2) * s.link.halfBit + s.link.stretchLimit ≤ s.link.elapsed →
        faults (.stretchExpiry (.message samples false)) seen ∧
        ∃ b, closed b ∧
          (m.purpose = .phaseLoad → m.beforeLoss = false → m.attempt = .first →
            exec (.stretchExpiry (.message samples true)) s = .next (retried b m seen)) ∧
          (m.purpose = .phaseLoad → m.beforeLoss = false → m.attempt = .retry →
            ∃ t, exec (.stretchExpiry (.message samples true)) s = .next t ∧ RetryFails b t m seen) ∧
          (m.purpose = .phaseLoad → m.beforeLoss = true →
            ∃ t, exec (.stretchExpiry (.message samples true)) s = .next t ∧ LateLoadFails b t seen) ∧
          (m.purpose = .probe → ThirdLaw s → ∀ round, s.link.round = some round →
            ∃ t, exec (.stretchExpiry (.message samples true)) s = .next t ∧ ProbeEnds b t m round false seen)
      let voided := fun b => b = s
      let mayHaveLatched := fun b =>
        b = drawFree s ∨ b = (drawFree s).setLatches (latchMessage bytes s.latches)
      (∀ k < bytes.length, expires (before k) k same voided) ∧
      (∀ (k : Nat) (b : Byte) (v : BitVec 9), bytes[k]? = some b →
        (v = refusedSample b → expires (before k ++ [v]) (k + 1) same voided) ∧
        (Contended b v → expires (before k ++ [v]) k counted voided)) ∧
      expires (bytes.map ackedSample) bytes.length same mayHaveLatched) ∧
    (s.link.message = none → s.link.activity = .recovering → s.link.stretchLimit ≤ s.link.elapsed →
      exec (.stretchExpiry .recovery) s = .next (s.setLink { s.link with activity := .idle }))

/-- RECOVERY_TIMER_EXPIRY (R87), due outside LIT with the link FAULTED when a tick has brought the timer from 16,383
back to 0: an attempt begins, unless one is in progress, with the half-bit and the stretch limit in force (R69).
RECOVERY_ATTEMPT (R88, R89): with its idle check passed and both lines high at its end the link is OK again with the
module states as they were; otherwise it stays as it is, and an attempt whose idle check fails ends with the check. A
link OK again sends what waits for it, if anything does (R78). The ticks that must have passed are the model's choice
(log 17). -/
def Obligations.RecoveryFreesTheLink : Prop :=
  ∀ s : State,
    (s.seq.state ≠ .lit → s.link.expired = true → s.link.state = .faulted →
      exec .recoveryTimerExpiry s =
        .next (s.setLink (if s.link.activity = .recovering then { s.link with timer := 0, expired := false }
          else
            { s.link with
              timer := 0
              expired := false
              activity := .recovering
              halfBit := s.store.settings.halfBit
              stretchLimit := s.store.settings.stretchLimit
              elapsed := 0
              course := LinkCourse.start .check }))) ∧
    ∀ (idle : IdleCheck) (high : Bool), s.link.activity = .recovering → idlePossible idle = true →
      (idleHalves idle + if idlePasses idle = true then 22 else 0) * s.link.halfBit ≤ s.link.elapsed →
      (idlePasses idle = true → high = true →
        exec (.recoveryAttempt idle high) s = .next (s.setLink (linkServed s
          { s.link with state := .ok, activity := .idle, timer := 0, expired := false }))) ∧
      (idlePasses idle = false ∨ high = false →
        exec (.recoveryAttempt idle high) s = .next (s.setLink { s.link with activity := .idle }))

/-! ## Periods and frames -/

/-- The Load Limiter (R134): q is the least whole number not less than L divided by K, and P is P_min, q or P_max by
the table, overloaded only above P_max, and always within P_min..P_max. A strobe does not change P. -/
def Obligations.LoadLimiterFollowsItsTable : Prop :=
  (∀ s t : State, exec .strobe s = .next t → t.period.length = s.period.length) ∧
  ∀ (t : Timing) (l : Nat), TimingFits t → l ≤ 262144 → t.k ≤ 16383 →
    ∃ q, l ≤ q * t.k ∧ (∀ n, l ≤ n * t.k → q ≤ n) ∧ q ≤ 1024 ∧
      limitPeriod t l =
        (if q ≤ t.pMin then (t.pMin, false) else if q ≤ t.pMax then (q, false) else (t.pMax, true)) ∧
      t.pMin ≤ (limitPeriod t l).1 ∧ (limitPeriod t l).1 ≤ t.pMax

/-- PERIOD_END (R95 to R98, R106): the kind that ended joins the window history, of at most 15; within a frame the
next period starts with the index one higher; at the frame end the timing copy and P are taken anew, the index
is 0, the frame count advances, a status burst is requested, and staged settings have been installed (R190), at which
a hold whose counter has reached the new hold limit expires (R14); then period 0 starts. -/
def Obligations.PeriodsFollowOneAnother : Prop :=
  ∀ (s : State) (p : Period), s.seq.state = .lit → s.period.current = some p →
    (if p.kind = .globalErase then s.period.timing.pMin else s.period.length) ≤ p.tick →
    (p.kind ≠ .sustain → p.strobed = true) →
    (p.kind = .sustain → s.period.index = s.period.timing.sampleIndex → p.sampled = true) →
    let history := s.period.window ++ [if p.kind = .sustain then .sustain else .address]
    let window := history.drop (history.length - 15)
    (s.period.index ≠ 255 →
      let next := started { s.period with window := window, index := s.period.index + 1 } s.sched
      exec .periodEnd s = .next ((s.setPeriod next.1).setSched next.2)) ∧
    (s.period.index = 255 →
      let settings := s.store.staged.getD s.store.settings
      let limited := limitPeriod (timingOf settings) s.lit.total
      ∃ t, exec .periodEnd s = .next t ∧
        (t.period, t.sched) = started
          { s.period with
            window := window
            index := 0
            timing := timingOf settings
            length := limited.1
            frameCount := (s.period.frameCount + 1) % 65536 } s.sched ∧
        t.port.burst = true ∧ t.store = { s.store with settings := settings, staged := none } ∧
        (s.store.staged ≠ none → Finishes s t 0x80) ∧ (s.store.staged = none → t.cmd = s.cmd) ∧
        (s.store.staged ≠ none → ∀ h, s.wmu.state = .holding h → settings.holdLimit ≤ s.wmu.holdCounter →
          t.wmu.state = .idle ∧ t.bus.ready = true ∧ hasRow t.sets.full h.row = true ∧
            t.notice.degradedRows = min 65535 (s.notice.degradedRows + 1) ∧
            t.notice.notices.getLsbD 6 = true) ∧
        (∀ h, s.wmu.state = .holding h → s.wmu.holdCounter < settings.holdLimit →
          t.wmu = s.wmu ∧ t.table = s.table ∧ t.sets = s.sets) ∧
        (limited.2 = true → t.notice.notices.getLsbD 5 = true) ∧
        (s.link.state = .faulted → t.link.activity = .recovering) ∧
        (s.link.state = .ok → t.link = s.link) ∧
        t.mem = s.mem ∧ t.lit = s.lit ∧ t.latches = s.latches ∧ t.panel = s.panel ∧ t.seq = s.seq ∧
        t.sense = s.sense ∧ t.area = s.area)

/-- DRIVER_CLEAR_PULSE, CLEAR_PULSE_END, GLOBAL_ERASE_STROBE in PRIMING and PRIMING_ERASE_END (R110, R103, R107,
R117): the pulse is given unless an ADDRESS period stands before its strobe; at its end every latch is empty, and in
PRIMING the global erase then begins; at its strobe every cell is dark (R102; the step is that of the row of
CLEAR_AND_REPAINT's strobe, log 36), and at its end the panel is dark and LIT is entered with a new frame, P_min for
an L of 0. The latched phase of an empty latch is the model's choice (log 34). -/
def Obligations.PrimingClearsAndErases : Prop :=
  ∀ s : State,
    (s.period.clearPulse = .pending →
      (∀ p, s.period.current = some p → p.kind = .address → p.strobed = true) →
      exec .driverClearPulse s = .next (s.setPeriod { s.period with clearPulse := .given 0 false })) ∧
    (∀ n again, s.period.clearPulse = .given n again → 4 ≤ n →
      exec .clearPulseEnd s =
        .next ((s.setLatches { cols := 0, writePhase := 0 }).setPeriod
          { s.period with
            clearPulse := if again = true then .pending else .idle
            current :=
              if s.seq.state = .priming ∧ again = false ∧ s.period.current = none then
                some { kind := .globalErase, fires := none, tick := 0, strobed := false, sampled := false }
              else s.period.current })) ∧
    (∀ p, s.period.current = some p → s.seq.state = .priming → p.kind = .globalErase → p.strobed = false →
      s.period.timing.dc + s.period.timing.wc + 1 ≤ p.tick →
      exec .globalEraseStrobe s =
        .next ((s.setPeriod { s.period with current := some { p with strobed := true } }).setPanel [])) ∧
    (∀ p, s.period.current = some p → s.seq.state = .priming → p.kind = .globalErase →
      s.period.timing.pMin ≤ p.tick →
      let timing := timingOf s.store.settings
      let limited := limitPeriod timing s.lit.total
      ∃ t, exec .primingEraseEnd s = .next t ∧ t.panel = [] ∧ t.seq = { s.seq with state := .lit } ∧
        (t.period, t.sched) =
          started { s.period with index := 0, timing := timing, length := limited.1 } s.sched ∧
        t.notice.burstTimer = 0 ∧ t.link = { s.link with timer := 0, expired := false } ∧
        (limited.2 = true → t.notice.notices.getLsbD 5 = true) ∧
        (limited.2 = false → t.notice = { s.notice with burstTimer := 0, burstExpired := false }) ∧
        SameWritePath s t ∧
        t.table = s.table ∧ t.sets = s.sets ∧ t.lit = s.lit ∧ t.latches = s.latches ∧ t.sense = s.sense ∧
        t.area = s.area ∧ t.cmd = s.cmd ∧ t.store = s.store)

/-! ## The Sense Converter -/

/-- SAMPLE_INSTANT and CONVERSION_COMPLETION (R137 to R143): an IDLE converter captures L and the level, with the
expected code they call for; 40 ticks later M and E are stored, and the deviation run, the hold-off and, at the
third deviation, the drift follow. The level stays as the input's, the model's choice (logs 1, 20). -/
def Obligations.DriftIsConfirmedAtTheThirdDeviation : Prop :=
  (∀ (s : State) (p : Period) (level : Int), s.seq.state = .lit → s.period.current = some p →
    p.kind = .sustain → s.period.index = s.period.timing.sampleIndex → p.sampled = false →
    s.period.length / 2 ≤ p.tick →
    exec (.sampleInstant level) s =
      .next ((s.setPeriod { s.period with current := some { p with sampled := true } }).setSense
        { s.sense with
          input := level
          conversion :=
            if s.sense.conversion = none then
              some
                { capturedL := s.lit.total
                  expected :=
                    min 1023 (s.store.settings.baseCode + s.lit.total * s.store.settings.gain / 65536)
                  tick := 0
                  level := level }
            else s.sense.conversion })) ∧
  ∀ (s : State) (c : Conversion), ThirdLaw s → s.sense.conversion = some c → 40 ≤ c.tick →
    let m := min 1023 c.level.toNat
    let deviates := s.store.settings.tolerance < max m c.expected - min m c.expected
    let stored := { s.sense with conversion := none, m := m, e := c.expected }
    (s.sense.holdOff = true →
      exec .conversionCompletion s =
        .next (s.setSense { stored with holdOff := !(s.sets.full == 0 && s.sets.fill == 0) })) ∧
    (s.sense.holdOff = false → ¬ deviates →
      exec .conversionCompletion s = .next (s.setSense { stored with runCount := 0 })) ∧
    (s.sense.holdOff = false → deviates → s.sense.runCount < 2 →
      exec .conversionCompletion s = .next (s.setSense { stored with runCount := s.sense.runCount + 1 })) ∧
    (s.sense.holdOff = false → deviates → 2 ≤ s.sense.runCount →
      ∃ t, exec .conversionCompletion s = .next t ∧
        t.sense = { stored with runCount := 0, holdOff := true } ∧
        t.notice.notices = s.notice.notices ||| 0x10 ∧
        (recordless s.seq.state = false → AllRowsInDoubt t) ∧
        t.mem = s.mem ∧ t.sched = s.sched ∧ t.lit = s.lit ∧ t.link = s.link ∧ t.latches = s.latches ∧
        t.panel = s.panel ∧ t.period = s.period ∧ t.seq = s.seq ∧ t.area = s.area ∧ t.cmd = s.cmd ∧
        t.store = s.store)

/-! ## The Panel Sequencer -/

/-- SUPPLY_GOOD_SAMPLE and GOOD_HIGH (R112, R114, R119): the filter's run count follows each sample, and a third
agreeing sample makes the level high: DARK enters SETTLING unless blanked, and GAP enters RESUMING. That the
level stays as the input's, and one sample a tick, are the model's choices (logs 1, 19). -/
def Obligations.SupplyFilterAndGoodHigh : Prop :=
  ∀ s : State, s.seq.sampled = false →
    (∀ level, level = s.seq.filtered → exec (.supplyGoodSample level) s =
      .next (s.setSeq { s.seq with input := level, sampled := true, runCount := 0 })) ∧
    (∀ level, level ≠ s.seq.filtered → s.seq.runCount < 2 → exec (.supplyGoodSample level) s =
      .next (s.setSeq { s.seq with input := level, sampled := true, runCount := s.seq.runCount + 1 })) ∧
    (s.seq.filtered = false → 2 ≤ s.seq.runCount →
      exec .goodHigh s =
        .next (s.setSeq
          (let high := { s.seq with input := true, sampled := true, filtered := true, runCount := 0 }
          match s.seq.state with
          | .dark => if s.seq.blanked = false then { high with state := .settling, settle := 0 } else high
          | .gap => { high with state := .resuming, settle := 0 }
          | .settling => high
          | .priming => high
          | .lit => high
          | .resuming => high)))

/-- GOOD_LOW (R112, R115, R116, R118, R120): RESUMING returns to GAP with the gap counter going on; SETTLING and
PRIMING return to DARK with a clear pulse due, an erase past its strobe standing (R103); LIT enters GAP with its
period cut and recorded in the window history as the kind it started as, a global erase as ADDRESS (R97, R108), with
the index, P, the timing copy and the frame count as they were (R109), a conversion aborted (R144), a FIRING phase not
yet strobed discarded and its row in doubt (R62), its slot free and a hold settled (R12, R13, R30), a global erase not
yet strobed leaving every row in doubt and ending the command with ABORTED if an ABORT was taken (R66), staged
settings installed with their command's OK (R190), at which a hold whose counter has reached the new hold limit
expires (R14), and the records of the panel kept. That the level stays as the input's, and one sample a tick, are the
model's choices (logs 1, 19); that the cut comes before the installation is too (log 32), and that a cut leaves the
latches and every other row of the panel as they are (log 5). -/
def Obligations.GoodLowStopsTheSustain : Prop :=
  ∀ s : State, s.seq.sampled = false → s.seq.filtered = true → 2 ≤ s.seq.runCount →
    let low := { s.seq with input := false, sampled := true, filtered := false, runCount := 0 }
    (s.seq.state = .dark ∨ s.seq.state = .gap → exec .goodLow s = .next (s.setSeq low)) ∧
    (s.seq.state = .resuming →
      exec .goodLow s = .next (s.setSeq { low with state := .gap, settle := 0 })) ∧
    (s.seq.state = .settling ∨ s.seq.state = .priming →
      ∃ t, exec .goodLow s = .next t ∧ t.seq = { low with state := .dark, settle := 0, gap := 0 } ∧
        t.period = { s.period with
          current := if s.seq.state = .priming then none else s.period.current
          clearPulse := t.period.clearPulse } ∧ t.period.clearPulse ≠ .idle ∧
        (s.seq.state = .settling → t.panel = s.panel) ∧
        (∀ p, s.period.current = some p → p.strobed = true → t.panel = s.panel) ∧
        (CellsWf 0 s.panel → ∀ q, panelRow t q &&& ~~~panelRow s q = 0) ∧
        SameWritePath s t ∧ SameRecords s t ∧ t.link = s.link ∧ t.latches = s.latches ∧
        t.sense = s.sense ∧ t.area = s.area ∧ t.cmd = s.cmd ∧ t.notice = s.notice ∧ t.store = s.store) ∧
    (s.seq.state = .lit →
      ∃ t, exec .goodLow s = .next t ∧
        t.period = { s.period with
          current := none, window := cutWindow s.period, clearPulse := t.period.clearPulse } ∧
        t.sense = { s.sense with conversion := none } ∧
        t.mem = s.mem ∧ AreaKept s t ∧
        (s.store.staged = none → t.seq = { low with state := .gap, gap := 0 } ∧ t.store = s.store ∧
          t.notice.burstTimer = 0 ∧ t.notice.burstExpired = false ∧
          t.link = { s.link with timer := 0, expired := false } ∧ t.lit = s.lit ∧
          t.latches = s.latches ∧
          ((∀ p, s.period.current = some p → p.kind = .sustain ∨ p.strobed = true) →
            t.wmu = s.wmu ∧ SameRecords s t ∧ t.panel = s.panel ∧ t.cmd = s.cmd ∧ t.area = s.area) ∧
          (∀ p op, s.period.current = some p → p.kind = .address → p.strobed = false →
            s.sched.op = some op →
            t.sched = { s.sched with op := none } ∧ hasRow t.sets.full op.row = true ∧
              (op.kind = .delta → t.table.taken = none ∧
                HoldSettled (addFull (oneRow op.row) (((slotFreed s).setSeq
                  { low with state := .gap, gap := 0 }).setFreeCount (s.freeCount + 1))) t) ∧
              t.period.clearPulse ≠ .idle ∧ ∀ q : Row, q ≠ op.row → panelRow t q = panelRow s q) ∧
          (∀ p, ThirdLaw s → s.period.current = some p → p.kind = .globalErase → p.strobed = false →
            AllRowsInDoubt t ∧ t.table.taken = s.table.taken ∧
            (abortTaken s = false → t.sched = s.sched ∧ t.cmd = s.cmd) ∧
            (∀ r, s.cmd.running = some r → r.abortTaken = true →
              t.sched = { s.sched with clearWaiting := false } ∧ Finishes s t 0x82))) ∧
        (∀ x, s.store.staged = some x → t.store = { s.store with settings := x, staged := none } ∧
          (CommandLaw s → Finishes s t 0x80) ∧
          ((∀ p, s.period.current = some p → p.kind = .sustain ∨ p.strobed = true) → 0 < x.lossLimit →
            t.seq = { low with state := .gap, gap := 0 } ∧
            (∀ h, s.wmu.state = .holding h → x.holdLimit ≤ s.wmu.holdCounter →
              t.wmu.state = .idle ∧ t.bus.ready = true ∧ hasRow t.sets.full h.row = true ∧
                t.notice.degradedRows = min 65535 (s.notice.degradedRows + 1) ∧
                t.notice.notices.getLsbD 6 = true) ∧
            (∀ h, s.wmu.state = .holding h → s.wmu.holdCounter < x.holdLimit →
              t.wmu = s.wmu ∧ SameRecords s t))))

/-- SETTLE_LIMIT_REACHED and LOSS_LIMIT_REACHED (R115, R116, R120 to R122, R125, R131): SETTLING enters PRIMING with
a clear pulse due; RESUMING enters LIT with the gap length recorded and the panel kept; at the loss limit the
panel is judged lost, with PANEL_LOST, every row dark and owed a write, P, the index, the window history, the timing
copy and the frame count held (R109), and GAP enters DARK while RESUMING
enters SETTLING with its settle counter going on. A LOAD message on the link runs on, marked as handed over before the
loss effects (R93). That every cell of the panel shows dark at the loss is the model's choice (log 24). -/
def Obligations.LimitsPrimeResumeOrLose : Prop :=
  ∀ s : State,
    let timing := timingOf s.store.settings
    let lost := fun t : State => AllRowsDark s t ∧ t.notice.notices = s.notice.notices ||| 0x02 ∧
      t.seq.gapLength = s.store.settings.lossLimit ∧ t.seq.gap = 0 ∧ t.link.waiting = none ∧
      t.link.message = s.link.message.map afterLoss ∧
      t.link.state = s.link.state ∧ t.link.failed = s.link.failed ∧ t.period.clearPulse ≠ .idle ∧
      t.period = { s.period with clearPulse := t.period.clearPulse } ∧
      (s.sched.clearWaiting = true → t.sched.clearWaiting = false ∧ Finishes s t 0x82) ∧
      (s.sched.clearWaiting = false → t.cmd = s.cmd) ∧
      t.mem = s.mem ∧ t.latches = s.latches ∧ t.sense = s.sense ∧ t.area = s.area ∧ t.store = s.store
    (s.store.settings.settleLimit ≤ s.seq.settle →
      (s.seq.state = .settling → ∃ t, exec .settleLimitReached s = .next t ∧
        t = (s.setSeq { s.seq with state := .priming }).setPeriod t.period ∧
        t.period = { s.period with
          timing := timing, window := [], current := none, clearPulse := t.period.clearPulse } ∧
        t.period.clearPulse ≠ .idle) ∧
      (s.seq.state = .resuming →
        let limited := limitPeriod timing s.lit.total
        ∃ t, exec .settleLimitReached s = .next t ∧
          t.seq = { s.seq with state := .lit, gapLength := s.seq.gap } ∧
          (t.period, t.sched) =
            started { s.period with index := 0, timing := timing, length := limited.1 } s.sched ∧
          (limited.2 = true → t.notice.notices.getLsbD 5 = true) ∧
          t.link = { s.link with timer := 0, expired := false } ∧ t.notice.burstTimer = 0 ∧
          t.notice.burstExpired = false ∧ SameWritePath s t ∧ t.table = s.table ∧ t.sets = s.sets ∧
          t.lit = s.lit ∧ t.latches = s.latches ∧ t.panel = s.panel ∧ t.sense = s.sense ∧
          t.area = s.area ∧ t.cmd = s.cmd ∧ t.store = s.store)) ∧
    (s.store.settings.lossLimit ≤ s.seq.gap →
      (s.seq.state = .gap → ∃ t, exec .lossLimitReached s = .next t ∧ lost t ∧ t.seq.settle = 0 ∧
        t.seq.state = (if s.seq.filtered = true ∧ s.seq.blanked = false then .settling else .dark)) ∧
      (s.seq.state = .resuming → ∃ t, exec .lossLimitReached s = .next t ∧ lost t ∧
        t.seq.settle = s.seq.settle ∧ t.seq.state = .settling))

/-! ## The laws of the device -/

/-- The laws and forms below hold in the state after reset. -/
def Obligations.LawsHoldAtReset : Prop :=
  let s := State.reset
  StoresCanonical s ∧ FirstLaw s ∧ SecondLaw s ∧ ThirdLaw s ∧ FifthLaw s ∧ SixthLaw s ∧ BudgetLaw s ∧
    TenthLaw s ∧ ReadyFollows s ∧ AttentionFollows s ∧ CommandLaw s

/-- Every step keeps the canonical form of the stores: image memory, the command copy, the store words, the panel
and the lit table. -/
def Obligations.StoresStayCanonical : Prop :=
  ∀ s t : State, StoresCanonical s → step s = .next t → StoresCanonical t

/-- The first and the second law of the Change Table (R19, R20), each kept by every step. -/
def Obligations.TableLawsAreKept : Prop :=
  ∀ s t : State, step s = .next t → (FirstLaw s → FirstLaw t) ∧ (SecondLaw s → SecondLaw t)

/-- The third law of the device (R45), kept by every step. -/
def Obligations.ThirdLawIsKept : Prop :=
  ∀ s t : State, ThirdLaw s → step s = .next t → ThirdLaw t

/-- The fifth law of the device (R59), kept by every step. -/
def Obligations.FifthLawIsKept : Prop :=
  ∀ s t : State, FifthLaw s → step s = .next t → FifthLaw t

/-- The sixth law of the device (R106), with the bounds of R184 it rests on, and the seventh and eighth (R97, R98)
as the budget states them: each kept by every step. And P changes only at a frame end in LIT, where the index returns
to 0 and the frame count advances, or on entry to LIT, or at a reset (R106, R107). -/
def Obligations.PeriodLawsAreKept : Prop :=
  ∀ s t : State, step s = .next t → (SixthLaw s → SixthLaw t) ∧ (BudgetLaw s → BudgetLaw t) ∧
    (t.period.length ≠ s.period.length →
      (s.seq.state = .lit ∧ t.seq.state = .lit ∧ s.period.index = 255 ∧ t.period.index = 0 ∧
        t.period.frameCount = (s.period.frameCount + 1) % 65536) ∨
      (s.seq.state ≠ .lit ∧ t.seq.state = .lit ∧ t.period.index = 0) ∨
      ∃ sources rest, s.pending = .reset sources :: rest)

/-- The tenth law of the device (R126), kept by every step. -/
def Obligations.TenthLawIsKept : Prop :=
  ∀ s t : State, TenthLaw s → step s = .next t → TenthLaw t

/-- READY follows the write in progress (R9, R15, R7) and the attention line follows the notice set (R175): each kept
by every step. And in every state the panel's drive lines follow the current period, its tick and the timing copy: the
X and Y pulses of a SUSTAIN period, with no row selected and no strobe (R99); the row select and the column strobe of
an ADDRESS period, with no sustain (R100); every row selected and the erase pulse on X in a global erase, with no Y
and no strobe (R102); all released with no period (R95, R108); and the driver clear line follows the clear pulse
(R110). The link's lines follow the course of its message or attempt, part by part and half-bit by half-bit (R69, R70,
R79, R82, R83, R88). That all these lines are functions of the state is the model's choice (log 30), and so is the
course between the ends of messages (log 9). -/
def Obligations.LinesFollowTheirBlocks : Prop :=
  (∀ s t : State, step s = .next t →
    (ReadyFollows s → ReadyFollows t) ∧ (AttentionFollows s → AttentionFollows t)) ∧
  ∀ s : State, PanelLinesFollow s ∧ LinkLinesFollow s

/-- What blocks hold for a command belongs to the running command, and the ninth law of the device (R100): kept by
every step. -/
def Obligations.CommandLawIsKept : Prop :=
  ∀ s t : State, CommandLaw s → step s = .next t → CommandLaw t

end
end

