-- ==== Sys2Proof/Laws/State.lean ====
section
/-! SUPPORT. One lemma for each field and each named update of State: what the update leaves in the field. -/

namespace Sys2Proof.Machine

@[simp] theorem State.setPending_pending (s : State) (v : List Instr) : (s.setPending v).pending = v := rfl
@[simp] theorem State.setPending_mem (s : State) (v : List Instr) : (s.setPending v).mem = s.mem := rfl
@[simp] theorem State.setPending_bus (s : State) (v : List Instr) : (s.setPending v).bus = s.bus := rfl
@[simp] theorem State.setPending_wmu (s : State) (v : List Instr) : (s.setPending v).wmu = s.wmu := rfl
@[simp] theorem State.setPending_port (s : State) (v : List Instr) : (s.setPending v).port = s.port := rfl
@[simp] theorem State.setPending_table (s : State) (v : List Instr) : (s.setPending v).table = s.table := rfl
@[simp] theorem State.setPending_sets (s : State) (v : List Instr) : (s.setPending v).sets = s.sets := rfl
@[simp] theorem State.setPending_sched (s : State) (v : List Instr) : (s.setPending v).sched = s.sched := rfl
@[simp] theorem State.setPending_lit (s : State) (v : List Instr) : (s.setPending v).lit = s.lit := rfl
@[simp] theorem State.setPending_link (s : State) (v : List Instr) : (s.setPending v).link = s.link := rfl
@[simp] theorem State.setPending_latches (s : State) (v : List Instr) : (s.setPending v).latches = s.latches := rfl
@[simp] theorem State.setPending_panel (s : State) (v : List Instr) : (s.setPending v).panel = s.panel := rfl
@[simp] theorem State.setPending_period (s : State) (v : List Instr) : (s.setPending v).period = s.period := rfl
@[simp] theorem State.setPending_seq (s : State) (v : List Instr) : (s.setPending v).seq = s.seq := rfl
@[simp] theorem State.setPending_sense (s : State) (v : List Instr) : (s.setPending v).sense = s.sense := rfl
@[simp] theorem State.setPending_area (s : State) (v : List Instr) : (s.setPending v).area = s.area := rfl
@[simp] theorem State.setPending_cmd (s : State) (v : List Instr) : (s.setPending v).cmd = s.cmd := rfl
@[simp] theorem State.setPending_notice (s : State) (v : List Instr) : (s.setPending v).notice = s.notice := rfl
@[simp] theorem State.setPending_store (s : State) (v : List Instr) : (s.setPending v).store = s.store := rfl
@[simp] theorem State.setPending_gapDue (s : State) (v : List Instr) : (s.setPending v).gapDue = s.gapDue := rfl
@[simp] theorem State.setPending_reached (s : State) (v : List Instr) : (s.setPending v).reached = s.reached := rfl
@[simp] theorem State.setPending_freeCount (s : State) (v : List Instr) :
    (s.setPending v).freeCount = s.freeCount := rfl

@[simp] theorem State.setMem_pending (s : State) (v : Memory) : (s.setMem v).pending = s.pending := rfl
@[simp] theorem State.setMem_mem (s : State) (v : Memory) : (s.setMem v).mem = v := rfl
@[simp] theorem State.setMem_bus (s : State) (v : Memory) : (s.setMem v).bus = s.bus := rfl
@[simp] theorem State.setMem_wmu (s : State) (v : Memory) : (s.setMem v).wmu = s.wmu := rfl
@[simp] theorem State.setMem_port (s : State) (v : Memory) : (s.setMem v).port = s.port := rfl
@[simp] theorem State.setMem_table (s : State) (v : Memory) : (s.setMem v).table = s.table := rfl
@[simp] theorem State.setMem_sets (s : State) (v : Memory) : (s.setMem v).sets = s.sets := rfl
@[simp] theorem State.setMem_sched (s : State) (v : Memory) : (s.setMem v).sched = s.sched := rfl
@[simp] theorem State.setMem_lit (s : State) (v : Memory) : (s.setMem v).lit = s.lit := rfl
@[simp] theorem State.setMem_link (s : State) (v : Memory) : (s.setMem v).link = s.link := rfl
@[simp] theorem State.setMem_latches (s : State) (v : Memory) : (s.setMem v).latches = s.latches := rfl
@[simp] theorem State.setMem_panel (s : State) (v : Memory) : (s.setMem v).panel = s.panel := rfl
@[simp] theorem State.setMem_period (s : State) (v : Memory) : (s.setMem v).period = s.period := rfl
@[simp] theorem State.setMem_seq (s : State) (v : Memory) : (s.setMem v).seq = s.seq := rfl
@[simp] theorem State.setMem_sense (s : State) (v : Memory) : (s.setMem v).sense = s.sense := rfl
@[simp] theorem State.setMem_area (s : State) (v : Memory) : (s.setMem v).area = s.area := rfl
@[simp] theorem State.setMem_cmd (s : State) (v : Memory) : (s.setMem v).cmd = s.cmd := rfl
@[simp] theorem State.setMem_notice (s : State) (v : Memory) : (s.setMem v).notice = s.notice := rfl
@[simp] theorem State.setMem_store (s : State) (v : Memory) : (s.setMem v).store = s.store := rfl
@[simp] theorem State.setMem_gapDue (s : State) (v : Memory) : (s.setMem v).gapDue = s.gapDue := rfl
@[simp] theorem State.setMem_reached (s : State) (v : Memory) : (s.setMem v).reached = s.reached := rfl
@[simp] theorem State.setMem_freeCount (s : State) (v : Memory) : (s.setMem v).freeCount = s.freeCount := rfl

@[simp] theorem State.setBus_pending (s : State) (v : BusPins) : (s.setBus v).pending = s.pending := rfl
@[simp] theorem State.setBus_mem (s : State) (v : BusPins) : (s.setBus v).mem = s.mem := rfl
@[simp] theorem State.setBus_bus (s : State) (v : BusPins) : (s.setBus v).bus = v := rfl
@[simp] theorem State.setBus_wmu (s : State) (v : BusPins) : (s.setBus v).wmu = s.wmu := rfl
@[simp] theorem State.setBus_port (s : State) (v : BusPins) : (s.setBus v).port = s.port := rfl
@[simp] theorem State.setBus_table (s : State) (v : BusPins) : (s.setBus v).table = s.table := rfl
@[simp] theorem State.setBus_sets (s : State) (v : BusPins) : (s.setBus v).sets = s.sets := rfl
@[simp] theorem State.setBus_sched (s : State) (v : BusPins) : (s.setBus v).sched = s.sched := rfl
@[simp] theorem State.setBus_lit (s : State) (v : BusPins) : (s.setBus v).lit = s.lit := rfl
@[simp] theorem State.setBus_link (s : State) (v : BusPins) : (s.setBus v).link = s.link := rfl
@[simp] theorem State.setBus_latches (s : State) (v : BusPins) : (s.setBus v).latches = s.latches := rfl
@[simp] theorem State.setBus_panel (s : State) (v : BusPins) : (s.setBus v).panel = s.panel := rfl
@[simp] theorem State.setBus_period (s : State) (v : BusPins) : (s.setBus v).period = s.period := rfl
@[simp] theorem State.setBus_seq (s : State) (v : BusPins) : (s.setBus v).seq = s.seq := rfl
@[simp] theorem State.setBus_sense (s : State) (v : BusPins) : (s.setBus v).sense = s.sense := rfl
@[simp] theorem State.setBus_area (s : State) (v : BusPins) : (s.setBus v).area = s.area := rfl
@[simp] theorem State.setBus_cmd (s : State) (v : BusPins) : (s.setBus v).cmd = s.cmd := rfl
@[simp] theorem State.setBus_notice (s : State) (v : BusPins) : (s.setBus v).notice = s.notice := rfl
@[simp] theorem State.setBus_store (s : State) (v : BusPins) : (s.setBus v).store = s.store := rfl
@[simp] theorem State.setBus_gapDue (s : State) (v : BusPins) : (s.setBus v).gapDue = s.gapDue := rfl
@[simp] theorem State.setBus_reached (s : State) (v : BusPins) : (s.setBus v).reached = s.reached := rfl
@[simp] theorem State.setBus_freeCount (s : State) (v : BusPins) : (s.setBus v).freeCount = s.freeCount := rfl

@[simp] theorem State.setWmu_pending (s : State) (v : WriteMerge) : (s.setWmu v).pending = s.pending := rfl
@[simp] theorem State.setWmu_mem (s : State) (v : WriteMerge) : (s.setWmu v).mem = s.mem := rfl
@[simp] theorem State.setWmu_bus (s : State) (v : WriteMerge) : (s.setWmu v).bus = s.bus := rfl
@[simp] theorem State.setWmu_wmu (s : State) (v : WriteMerge) : (s.setWmu v).wmu = v := rfl
@[simp] theorem State.setWmu_port (s : State) (v : WriteMerge) : (s.setWmu v).port = s.port := rfl
@[simp] theorem State.setWmu_table (s : State) (v : WriteMerge) : (s.setWmu v).table = s.table := rfl
@[simp] theorem State.setWmu_sets (s : State) (v : WriteMerge) : (s.setWmu v).sets = s.sets := rfl
@[simp] theorem State.setWmu_sched (s : State) (v : WriteMerge) : (s.setWmu v).sched = s.sched := rfl
@[simp] theorem State.setWmu_lit (s : State) (v : WriteMerge) : (s.setWmu v).lit = s.lit := rfl
@[simp] theorem State.setWmu_link (s : State) (v : WriteMerge) : (s.setWmu v).link = s.link := rfl
@[simp] theorem State.setWmu_latches (s : State) (v : WriteMerge) : (s.setWmu v).latches = s.latches := rfl
@[simp] theorem State.setWmu_panel (s : State) (v : WriteMerge) : (s.setWmu v).panel = s.panel := rfl
@[simp] theorem State.setWmu_period (s : State) (v : WriteMerge) : (s.setWmu v).period = s.period := rfl
@[simp] theorem State.setWmu_seq (s : State) (v : WriteMerge) : (s.setWmu v).seq = s.seq := rfl
@[simp] theorem State.setWmu_sense (s : State) (v : WriteMerge) : (s.setWmu v).sense = s.sense := rfl
@[simp] theorem State.setWmu_area (s : State) (v : WriteMerge) : (s.setWmu v).area = s.area := rfl
@[simp] theorem State.setWmu_cmd (s : State) (v : WriteMerge) : (s.setWmu v).cmd = s.cmd := rfl
@[simp] theorem State.setWmu_notice (s : State) (v : WriteMerge) : (s.setWmu v).notice = s.notice := rfl
@[simp] theorem State.setWmu_store (s : State) (v : WriteMerge) : (s.setWmu v).store = s.store := rfl
@[simp] theorem State.setWmu_gapDue (s : State) (v : WriteMerge) : (s.setWmu v).gapDue = s.gapDue := rfl
@[simp] theorem State.setWmu_reached (s : State) (v : WriteMerge) : (s.setWmu v).reached = s.reached := rfl
@[simp] theorem State.setWmu_freeCount (s : State) (v : WriteMerge) : (s.setWmu v).freeCount = s.freeCount := rfl

@[simp] theorem State.setPort_pending (s : State) (v : PortRequests) : (s.setPort v).pending = s.pending := rfl
@[simp] theorem State.setPort_mem (s : State) (v : PortRequests) : (s.setPort v).mem = s.mem := rfl
@[simp] theorem State.setPort_bus (s : State) (v : PortRequests) : (s.setPort v).bus = s.bus := rfl
@[simp] theorem State.setPort_wmu (s : State) (v : PortRequests) : (s.setPort v).wmu = s.wmu := rfl
@[simp] theorem State.setPort_port (s : State) (v : PortRequests) : (s.setPort v).port = v := rfl
@[simp] theorem State.setPort_table (s : State) (v : PortRequests) : (s.setPort v).table = s.table := rfl
@[simp] theorem State.setPort_sets (s : State) (v : PortRequests) : (s.setPort v).sets = s.sets := rfl
@[simp] theorem State.setPort_sched (s : State) (v : PortRequests) : (s.setPort v).sched = s.sched := rfl
@[simp] theorem State.setPort_lit (s : State) (v : PortRequests) : (s.setPort v).lit = s.lit := rfl
@[simp] theorem State.setPort_link (s : State) (v : PortRequests) : (s.setPort v).link = s.link := rfl
@[simp] theorem State.setPort_latches (s : State) (v : PortRequests) : (s.setPort v).latches = s.latches := rfl
@[simp] theorem State.setPort_panel (s : State) (v : PortRequests) : (s.setPort v).panel = s.panel := rfl
@[simp] theorem State.setPort_period (s : State) (v : PortRequests) : (s.setPort v).period = s.period := rfl
@[simp] theorem State.setPort_seq (s : State) (v : PortRequests) : (s.setPort v).seq = s.seq := rfl
@[simp] theorem State.setPort_sense (s : State) (v : PortRequests) : (s.setPort v).sense = s.sense := rfl
@[simp] theorem State.setPort_area (s : State) (v : PortRequests) : (s.setPort v).area = s.area := rfl
@[simp] theorem State.setPort_cmd (s : State) (v : PortRequests) : (s.setPort v).cmd = s.cmd := rfl
@[simp] theorem State.setPort_notice (s : State) (v : PortRequests) : (s.setPort v).notice = s.notice := rfl
@[simp] theorem State.setPort_store (s : State) (v : PortRequests) : (s.setPort v).store = s.store := rfl
@[simp] theorem State.setPort_gapDue (s : State) (v : PortRequests) : (s.setPort v).gapDue = s.gapDue := rfl
@[simp] theorem State.setPort_reached (s : State) (v : PortRequests) : (s.setPort v).reached = s.reached := rfl
@[simp] theorem State.setPort_freeCount (s : State) (v : PortRequests) : (s.setPort v).freeCount = s.freeCount := rfl

@[simp] theorem State.setTable_pending (s : State) (v : ChangeTable) : (s.setTable v).pending = s.pending := rfl
@[simp] theorem State.setTable_mem (s : State) (v : ChangeTable) : (s.setTable v).mem = s.mem := rfl
@[simp] theorem State.setTable_bus (s : State) (v : ChangeTable) : (s.setTable v).bus = s.bus := rfl
@[simp] theorem State.setTable_wmu (s : State) (v : ChangeTable) : (s.setTable v).wmu = s.wmu := rfl
@[simp] theorem State.setTable_port (s : State) (v : ChangeTable) : (s.setTable v).port = s.port := rfl
@[simp] theorem State.setTable_table (s : State) (v : ChangeTable) : (s.setTable v).table = v := rfl
@[simp] theorem State.setTable_sets (s : State) (v : ChangeTable) : (s.setTable v).sets = s.sets := rfl
@[simp] theorem State.setTable_sched (s : State) (v : ChangeTable) : (s.setTable v).sched = s.sched := rfl
@[simp] theorem State.setTable_lit (s : State) (v : ChangeTable) : (s.setTable v).lit = s.lit := rfl
@[simp] theorem State.setTable_link (s : State) (v : ChangeTable) : (s.setTable v).link = s.link := rfl
@[simp] theorem State.setTable_latches (s : State) (v : ChangeTable) : (s.setTable v).latches = s.latches := rfl
@[simp] theorem State.setTable_panel (s : State) (v : ChangeTable) : (s.setTable v).panel = s.panel := rfl
@[simp] theorem State.setTable_period (s : State) (v : ChangeTable) : (s.setTable v).period = s.period := rfl
@[simp] theorem State.setTable_seq (s : State) (v : ChangeTable) : (s.setTable v).seq = s.seq := rfl
@[simp] theorem State.setTable_sense (s : State) (v : ChangeTable) : (s.setTable v).sense = s.sense := rfl
@[simp] theorem State.setTable_area (s : State) (v : ChangeTable) : (s.setTable v).area = s.area := rfl
@[simp] theorem State.setTable_cmd (s : State) (v : ChangeTable) : (s.setTable v).cmd = s.cmd := rfl
@[simp] theorem State.setTable_notice (s : State) (v : ChangeTable) : (s.setTable v).notice = s.notice := rfl
@[simp] theorem State.setTable_store (s : State) (v : ChangeTable) : (s.setTable v).store = s.store := rfl
@[simp] theorem State.setTable_gapDue (s : State) (v : ChangeTable) : (s.setTable v).gapDue = s.gapDue := rfl
@[simp] theorem State.setTable_reached (s : State) (v : ChangeTable) : (s.setTable v).reached = s.reached := rfl
@[simp] theorem State.setTable_freeCount (s : State) (v : ChangeTable) : (s.setTable v).freeCount = s.freeCount := rfl

@[simp] theorem State.setSets_pending (s : State) (v : ResyncSets) : (s.setSets v).pending = s.pending := rfl
@[simp] theorem State.setSets_mem (s : State) (v : ResyncSets) : (s.setSets v).mem = s.mem := rfl
@[simp] theorem State.setSets_bus (s : State) (v : ResyncSets) : (s.setSets v).bus = s.bus := rfl
@[simp] theorem State.setSets_wmu (s : State) (v : ResyncSets) : (s.setSets v).wmu = s.wmu := rfl
@[simp] theorem State.setSets_port (s : State) (v : ResyncSets) : (s.setSets v).port = s.port := rfl
@[simp] theorem State.setSets_table (s : State) (v : ResyncSets) : (s.setSets v).table = s.table := rfl
@[simp] theorem State.setSets_sets (s : State) (v : ResyncSets) : (s.setSets v).sets = v := rfl
@[simp] theorem State.setSets_sched (s : State) (v : ResyncSets) : (s.setSets v).sched = s.sched := rfl
@[simp] theorem State.setSets_lit (s : State) (v : ResyncSets) : (s.setSets v).lit = s.lit := rfl
@[simp] theorem State.setSets_link (s : State) (v : ResyncSets) : (s.setSets v).link = s.link := rfl
@[simp] theorem State.setSets_latches (s : State) (v : ResyncSets) : (s.setSets v).latches = s.latches := rfl
@[simp] theorem State.setSets_panel (s : State) (v : ResyncSets) : (s.setSets v).panel = s.panel := rfl
@[simp] theorem State.setSets_period (s : State) (v : ResyncSets) : (s.setSets v).period = s.period := rfl
@[simp] theorem State.setSets_seq (s : State) (v : ResyncSets) : (s.setSets v).seq = s.seq := rfl
@[simp] theorem State.setSets_sense (s : State) (v : ResyncSets) : (s.setSets v).sense = s.sense := rfl
@[simp] theorem State.setSets_area (s : State) (v : ResyncSets) : (s.setSets v).area = s.area := rfl
@[simp] theorem State.setSets_cmd (s : State) (v : ResyncSets) : (s.setSets v).cmd = s.cmd := rfl
@[simp] theorem State.setSets_notice (s : State) (v : ResyncSets) : (s.setSets v).notice = s.notice := rfl
@[simp] theorem State.setSets_store (s : State) (v : ResyncSets) : (s.setSets v).store = s.store := rfl
@[simp] theorem State.setSets_gapDue (s : State) (v : ResyncSets) : (s.setSets v).gapDue = s.gapDue := rfl
@[simp] theorem State.setSets_reached (s : State) (v : ResyncSets) : (s.setSets v).reached = s.reached := rfl
@[simp] theorem State.setSets_freeCount (s : State) (v : ResyncSets) : (s.setSets v).freeCount = s.freeCount := rfl

@[simp] theorem State.setSched_pending (s : State) (v : Scheduler) : (s.setSched v).pending = s.pending := rfl
@[simp] theorem State.setSched_mem (s : State) (v : Scheduler) : (s.setSched v).mem = s.mem := rfl
@[simp] theorem State.setSched_bus (s : State) (v : Scheduler) : (s.setSched v).bus = s.bus := rfl
@[simp] theorem State.setSched_wmu (s : State) (v : Scheduler) : (s.setSched v).wmu = s.wmu := rfl
@[simp] theorem State.setSched_port (s : State) (v : Scheduler) : (s.setSched v).port = s.port := rfl
@[simp] theorem State.setSched_table (s : State) (v : Scheduler) : (s.setSched v).table = s.table := rfl
@[simp] theorem State.setSched_sets (s : State) (v : Scheduler) : (s.setSched v).sets = s.sets := rfl
@[simp] theorem State.setSched_sched (s : State) (v : Scheduler) : (s.setSched v).sched = v := rfl
@[simp] theorem State.setSched_lit (s : State) (v : Scheduler) : (s.setSched v).lit = s.lit := rfl
@[simp] theorem State.setSched_link (s : State) (v : Scheduler) : (s.setSched v).link = s.link := rfl
@[simp] theorem State.setSched_latches (s : State) (v : Scheduler) : (s.setSched v).latches = s.latches := rfl
@[simp] theorem State.setSched_panel (s : State) (v : Scheduler) : (s.setSched v).panel = s.panel := rfl
@[simp] theorem State.setSched_period (s : State) (v : Scheduler) : (s.setSched v).period = s.period := rfl
@[simp] theorem State.setSched_seq (s : State) (v : Scheduler) : (s.setSched v).seq = s.seq := rfl
@[simp] theorem State.setSched_sense (s : State) (v : Scheduler) : (s.setSched v).sense = s.sense := rfl
@[simp] theorem State.setSched_area (s : State) (v : Scheduler) : (s.setSched v).area = s.area := rfl
@[simp] theorem State.setSched_cmd (s : State) (v : Scheduler) : (s.setSched v).cmd = s.cmd := rfl
@[simp] theorem State.setSched_notice (s : State) (v : Scheduler) : (s.setSched v).notice = s.notice := rfl
@[simp] theorem State.setSched_store (s : State) (v : Scheduler) : (s.setSched v).store = s.store := rfl
@[simp] theorem State.setSched_gapDue (s : State) (v : Scheduler) : (s.setSched v).gapDue = s.gapDue := rfl
@[simp] theorem State.setSched_reached (s : State) (v : Scheduler) : (s.setSched v).reached = s.reached := rfl
@[simp] theorem State.setSched_freeCount (s : State) (v : Scheduler) : (s.setSched v).freeCount = s.freeCount := rfl

@[simp] theorem State.setLit_pending (s : State) (v : LitTable) : (s.setLit v).pending = s.pending := rfl
@[simp] theorem State.setLit_mem (s : State) (v : LitTable) : (s.setLit v).mem = s.mem := rfl
@[simp] theorem State.setLit_bus (s : State) (v : LitTable) : (s.setLit v).bus = s.bus := rfl
@[simp] theorem State.setLit_wmu (s : State) (v : LitTable) : (s.setLit v).wmu = s.wmu := rfl
@[simp] theorem State.setLit_port (s : State) (v : LitTable) : (s.setLit v).port = s.port := rfl
@[simp] theorem State.setLit_table (s : State) (v : LitTable) : (s.setLit v).table = s.table := rfl
@[simp] theorem State.setLit_sets (s : State) (v : LitTable) : (s.setLit v).sets = s.sets := rfl
@[simp] theorem State.setLit_sched (s : State) (v : LitTable) : (s.setLit v).sched = s.sched := rfl
@[simp] theorem State.setLit_lit (s : State) (v : LitTable) : (s.setLit v).lit = v := rfl
@[simp] theorem State.setLit_link (s : State) (v : LitTable) : (s.setLit v).link = s.link := rfl
@[simp] theorem State.setLit_latches (s : State) (v : LitTable) : (s.setLit v).latches = s.latches := rfl
@[simp] theorem State.setLit_panel (s : State) (v : LitTable) : (s.setLit v).panel = s.panel := rfl
@[simp] theorem State.setLit_period (s : State) (v : LitTable) : (s.setLit v).period = s.period := rfl
@[simp] theorem State.setLit_seq (s : State) (v : LitTable) : (s.setLit v).seq = s.seq := rfl
@[simp] theorem State.setLit_sense (s : State) (v : LitTable) : (s.setLit v).sense = s.sense := rfl
@[simp] theorem State.setLit_area (s : State) (v : LitTable) : (s.setLit v).area = s.area := rfl
@[simp] theorem State.setLit_cmd (s : State) (v : LitTable) : (s.setLit v).cmd = s.cmd := rfl
@[simp] theorem State.setLit_notice (s : State) (v : LitTable) : (s.setLit v).notice = s.notice := rfl
@[simp] theorem State.setLit_store (s : State) (v : LitTable) : (s.setLit v).store = s.store := rfl
@[simp] theorem State.setLit_gapDue (s : State) (v : LitTable) : (s.setLit v).gapDue = s.gapDue := rfl
@[simp] theorem State.setLit_reached (s : State) (v : LitTable) : (s.setLit v).reached = s.reached := rfl
@[simp] theorem State.setLit_freeCount (s : State) (v : LitTable) : (s.setLit v).freeCount = s.freeCount := rfl

@[simp] theorem State.setLink_pending (s : State) (v : DriverLink) : (s.setLink v).pending = s.pending := rfl
@[simp] theorem State.setLink_mem (s : State) (v : DriverLink) : (s.setLink v).mem = s.mem := rfl
@[simp] theorem State.setLink_bus (s : State) (v : DriverLink) : (s.setLink v).bus = s.bus := rfl
@[simp] theorem State.setLink_wmu (s : State) (v : DriverLink) : (s.setLink v).wmu = s.wmu := rfl
@[simp] theorem State.setLink_port (s : State) (v : DriverLink) : (s.setLink v).port = s.port := rfl
@[simp] theorem State.setLink_table (s : State) (v : DriverLink) : (s.setLink v).table = s.table := rfl
@[simp] theorem State.setLink_sets (s : State) (v : DriverLink) : (s.setLink v).sets = s.sets := rfl
@[simp] theorem State.setLink_sched (s : State) (v : DriverLink) : (s.setLink v).sched = s.sched := rfl
@[simp] theorem State.setLink_lit (s : State) (v : DriverLink) : (s.setLink v).lit = s.lit := rfl
@[simp] theorem State.setLink_link (s : State) (v : DriverLink) : (s.setLink v).link = v := rfl
@[simp] theorem State.setLink_latches (s : State) (v : DriverLink) : (s.setLink v).latches = s.latches := rfl
@[simp] theorem State.setLink_panel (s : State) (v : DriverLink) : (s.setLink v).panel = s.panel := rfl
@[simp] theorem State.setLink_period (s : State) (v : DriverLink) : (s.setLink v).period = s.period := rfl
@[simp] theorem State.setLink_seq (s : State) (v : DriverLink) : (s.setLink v).seq = s.seq := rfl
@[simp] theorem State.setLink_sense (s : State) (v : DriverLink) : (s.setLink v).sense = s.sense := rfl
@[simp] theorem State.setLink_area (s : State) (v : DriverLink) : (s.setLink v).area = s.area := rfl
@[simp] theorem State.setLink_cmd (s : State) (v : DriverLink) : (s.setLink v).cmd = s.cmd := rfl
@[simp] theorem State.setLink_notice (s : State) (v : DriverLink) : (s.setLink v).notice = s.notice := rfl
@[simp] theorem State.setLink_store (s : State) (v : DriverLink) : (s.setLink v).store = s.store := rfl
@[simp] theorem State.setLink_gapDue (s : State) (v : DriverLink) : (s.setLink v).gapDue = s.gapDue := rfl
@[simp] theorem State.setLink_reached (s : State) (v : DriverLink) : (s.setLink v).reached = s.reached := rfl
@[simp] theorem State.setLink_freeCount (s : State) (v : DriverLink) : (s.setLink v).freeCount = s.freeCount := rfl

@[simp] theorem State.setLatches_pending (s : State) (v : ModuleLatches) : (s.setLatches v).pending = s.pending := rfl
@[simp] theorem State.setLatches_mem (s : State) (v : ModuleLatches) : (s.setLatches v).mem = s.mem := rfl
@[simp] theorem State.setLatches_bus (s : State) (v : ModuleLatches) : (s.setLatches v).bus = s.bus := rfl
@[simp] theorem State.setLatches_wmu (s : State) (v : ModuleLatches) : (s.setLatches v).wmu = s.wmu := rfl
@[simp] theorem State.setLatches_port (s : State) (v : ModuleLatches) : (s.setLatches v).port = s.port := rfl
@[simp] theorem State.setLatches_table (s : State) (v : ModuleLatches) : (s.setLatches v).table = s.table := rfl
@[simp] theorem State.setLatches_sets (s : State) (v : ModuleLatches) : (s.setLatches v).sets = s.sets := rfl
@[simp] theorem State.setLatches_sched (s : State) (v : ModuleLatches) : (s.setLatches v).sched = s.sched := rfl
@[simp] theorem State.setLatches_lit (s : State) (v : ModuleLatches) : (s.setLatches v).lit = s.lit := rfl
@[simp] theorem State.setLatches_link (s : State) (v : ModuleLatches) : (s.setLatches v).link = s.link := rfl
@[simp] theorem State.setLatches_latches (s : State) (v : ModuleLatches) : (s.setLatches v).latches = v := rfl
@[simp] theorem State.setLatches_panel (s : State) (v : ModuleLatches) : (s.setLatches v).panel = s.panel := rfl
@[simp] theorem State.setLatches_period (s : State) (v : ModuleLatches) : (s.setLatches v).period = s.period := rfl
@[simp] theorem State.setLatches_seq (s : State) (v : ModuleLatches) : (s.setLatches v).seq = s.seq := rfl
@[simp] theorem State.setLatches_sense (s : State) (v : ModuleLatches) : (s.setLatches v).sense = s.sense := rfl
@[simp] theorem State.setLatches_area (s : State) (v : ModuleLatches) : (s.setLatches v).area = s.area := rfl
@[simp] theorem State.setLatches_cmd (s : State) (v : ModuleLatches) : (s.setLatches v).cmd = s.cmd := rfl
@[simp] theorem State.setLatches_notice (s : State) (v : ModuleLatches) : (s.setLatches v).notice = s.notice := rfl
@[simp] theorem State.setLatches_store (s : State) (v : ModuleLatches) : (s.setLatches v).store = s.store := rfl
@[simp] theorem State.setLatches_gapDue (s : State) (v : ModuleLatches) : (s.setLatches v).gapDue = s.gapDue := rfl
@[simp] theorem State.setLatches_reached (s : State) (v : ModuleLatches) : (s.setLatches v).reached = s.reached := rfl
@[simp] theorem State.setLatches_freeCount (s : State) (v : ModuleLatches) :
    (s.setLatches v).freeCount = s.freeCount := rfl

@[simp] theorem State.setPanel_pending (s : State) (v : Cells Mask) : (s.setPanel v).pending = s.pending := rfl
@[simp] theorem State.setPanel_mem (s : State) (v : Cells Mask) : (s.setPanel v).mem = s.mem := rfl
@[simp] theorem State.setPanel_bus (s : State) (v : Cells Mask) : (s.setPanel v).bus = s.bus := rfl
@[simp] theorem State.setPanel_wmu (s : State) (v : Cells Mask) : (s.setPanel v).wmu = s.wmu := rfl
@[simp] theorem State.setPanel_port (s : State) (v : Cells Mask) : (s.setPanel v).port = s.port := rfl
@[simp] theorem State.setPanel_table (s : State) (v : Cells Mask) : (s.setPanel v).table = s.table := rfl
@[simp] theorem State.setPanel_sets (s : State) (v : Cells Mask) : (s.setPanel v).sets = s.sets := rfl
@[simp] theorem State.setPanel_sched (s : State) (v : Cells Mask) : (s.setPanel v).sched = s.sched := rfl
@[simp] theorem State.setPanel_lit (s : State) (v : Cells Mask) : (s.setPanel v).lit = s.lit := rfl
@[simp] theorem State.setPanel_link (s : State) (v : Cells Mask) : (s.setPanel v).link = s.link := rfl
@[simp] theorem State.setPanel_latches (s : State) (v : Cells Mask) : (s.setPanel v).latches = s.latches := rfl
@[simp] theorem State.setPanel_panel (s : State) (v : Cells Mask) : (s.setPanel v).panel = v := rfl
@[simp] theorem State.setPanel_period (s : State) (v : Cells Mask) : (s.setPanel v).period = s.period := rfl
@[simp] theorem State.setPanel_seq (s : State) (v : Cells Mask) : (s.setPanel v).seq = s.seq := rfl
@[simp] theorem State.setPanel_sense (s : State) (v : Cells Mask) : (s.setPanel v).sense = s.sense := rfl
@[simp] theorem State.setPanel_area (s : State) (v : Cells Mask) : (s.setPanel v).area = s.area := rfl
@[simp] theorem State.setPanel_cmd (s : State) (v : Cells Mask) : (s.setPanel v).cmd = s.cmd := rfl
@[simp] theorem State.setPanel_notice (s : State) (v : Cells Mask) : (s.setPanel v).notice = s.notice := rfl
@[simp] theorem State.setPanel_store (s : State) (v : Cells Mask) : (s.setPanel v).store = s.store := rfl
@[simp] theorem State.setPanel_gapDue (s : State) (v : Cells Mask) : (s.setPanel v).gapDue = s.gapDue := rfl
@[simp] theorem State.setPanel_reached (s : State) (v : Cells Mask) : (s.setPanel v).reached = s.reached := rfl
@[simp] theorem State.setPanel_freeCount (s : State) (v : Cells Mask) : (s.setPanel v).freeCount = s.freeCount := rfl

@[simp] theorem State.setPeriod_pending (s : State) (v : PeriodGen) : (s.setPeriod v).pending = s.pending := rfl
@[simp] theorem State.setPeriod_mem (s : State) (v : PeriodGen) : (s.setPeriod v).mem = s.mem := rfl
@[simp] theorem State.setPeriod_bus (s : State) (v : PeriodGen) : (s.setPeriod v).bus = s.bus := rfl
@[simp] theorem State.setPeriod_wmu (s : State) (v : PeriodGen) : (s.setPeriod v).wmu = s.wmu := rfl
@[simp] theorem State.setPeriod_port (s : State) (v : PeriodGen) : (s.setPeriod v).port = s.port := rfl
@[simp] theorem State.setPeriod_table (s : State) (v : PeriodGen) : (s.setPeriod v).table = s.table := rfl
@[simp] theorem State.setPeriod_sets (s : State) (v : PeriodGen) : (s.setPeriod v).sets = s.sets := rfl
@[simp] theorem State.setPeriod_sched (s : State) (v : PeriodGen) : (s.setPeriod v).sched = s.sched := rfl
@[simp] theorem State.setPeriod_lit (s : State) (v : PeriodGen) : (s.setPeriod v).lit = s.lit := rfl
@[simp] theorem State.setPeriod_link (s : State) (v : PeriodGen) : (s.setPeriod v).link = s.link := rfl
@[simp] theorem State.setPeriod_latches (s : State) (v : PeriodGen) : (s.setPeriod v).latches = s.latches := rfl
@[simp] theorem State.setPeriod_panel (s : State) (v : PeriodGen) : (s.setPeriod v).panel = s.panel := rfl
@[simp] theorem State.setPeriod_period (s : State) (v : PeriodGen) : (s.setPeriod v).period = v := rfl
@[simp] theorem State.setPeriod_seq (s : State) (v : PeriodGen) : (s.setPeriod v).seq = s.seq := rfl
@[simp] theorem State.setPeriod_sense (s : State) (v : PeriodGen) : (s.setPeriod v).sense = s.sense := rfl
@[simp] theorem State.setPeriod_area (s : State) (v : PeriodGen) : (s.setPeriod v).area = s.area := rfl
@[simp] theorem State.setPeriod_cmd (s : State) (v : PeriodGen) : (s.setPeriod v).cmd = s.cmd := rfl
@[simp] theorem State.setPeriod_notice (s : State) (v : PeriodGen) : (s.setPeriod v).notice = s.notice := rfl
@[simp] theorem State.setPeriod_store (s : State) (v : PeriodGen) : (s.setPeriod v).store = s.store := rfl
@[simp] theorem State.setPeriod_gapDue (s : State) (v : PeriodGen) : (s.setPeriod v).gapDue = s.gapDue := rfl
@[simp] theorem State.setPeriod_reached (s : State) (v : PeriodGen) : (s.setPeriod v).reached = s.reached := rfl
@[simp] theorem State.setPeriod_freeCount (s : State) (v : PeriodGen) : (s.setPeriod v).freeCount = s.freeCount := rfl

@[simp] theorem State.setSeq_pending (s : State) (v : Sequencer) : (s.setSeq v).pending = s.pending := rfl
@[simp] theorem State.setSeq_mem (s : State) (v : Sequencer) : (s.setSeq v).mem = s.mem := rfl
@[simp] theorem State.setSeq_bus (s : State) (v : Sequencer) : (s.setSeq v).bus = s.bus := rfl
@[simp] theorem State.setSeq_wmu (s : State) (v : Sequencer) : (s.setSeq v).wmu = s.wmu := rfl
@[simp] theorem State.setSeq_port (s : State) (v : Sequencer) : (s.setSeq v).port = s.port := rfl
@[simp] theorem State.setSeq_table (s : State) (v : Sequencer) : (s.setSeq v).table = s.table := rfl
@[simp] theorem State.setSeq_sets (s : State) (v : Sequencer) : (s.setSeq v).sets = s.sets := rfl
@[simp] theorem State.setSeq_sched (s : State) (v : Sequencer) : (s.setSeq v).sched = s.sched := rfl
@[simp] theorem State.setSeq_lit (s : State) (v : Sequencer) : (s.setSeq v).lit = s.lit := rfl
@[simp] theorem State.setSeq_link (s : State) (v : Sequencer) : (s.setSeq v).link = s.link := rfl
@[simp] theorem State.setSeq_latches (s : State) (v : Sequencer) : (s.setSeq v).latches = s.latches := rfl
@[simp] theorem State.setSeq_panel (s : State) (v : Sequencer) : (s.setSeq v).panel = s.panel := rfl
@[simp] theorem State.setSeq_period (s : State) (v : Sequencer) : (s.setSeq v).period = s.period := rfl
@[simp] theorem State.setSeq_seq (s : State) (v : Sequencer) : (s.setSeq v).seq = v := rfl
@[simp] theorem State.setSeq_sense (s : State) (v : Sequencer) : (s.setSeq v).sense = s.sense := rfl
@[simp] theorem State.setSeq_area (s : State) (v : Sequencer) : (s.setSeq v).area = s.area := rfl
@[simp] theorem State.setSeq_cmd (s : State) (v : Sequencer) : (s.setSeq v).cmd = s.cmd := rfl
@[simp] theorem State.setSeq_notice (s : State) (v : Sequencer) : (s.setSeq v).notice = s.notice := rfl
@[simp] theorem State.setSeq_store (s : State) (v : Sequencer) : (s.setSeq v).store = s.store := rfl
@[simp] theorem State.setSeq_gapDue (s : State) (v : Sequencer) : (s.setSeq v).gapDue = s.gapDue := rfl
@[simp] theorem State.setSeq_reached (s : State) (v : Sequencer) : (s.setSeq v).reached = s.reached := rfl
@[simp] theorem State.setSeq_freeCount (s : State) (v : Sequencer) : (s.setSeq v).freeCount = s.freeCount := rfl

@[simp] theorem State.setSense_pending (s : State) (v : SenseConverter) : (s.setSense v).pending = s.pending := rfl
@[simp] theorem State.setSense_mem (s : State) (v : SenseConverter) : (s.setSense v).mem = s.mem := rfl
@[simp] theorem State.setSense_bus (s : State) (v : SenseConverter) : (s.setSense v).bus = s.bus := rfl
@[simp] theorem State.setSense_wmu (s : State) (v : SenseConverter) : (s.setSense v).wmu = s.wmu := rfl
@[simp] theorem State.setSense_port (s : State) (v : SenseConverter) : (s.setSense v).port = s.port := rfl
@[simp] theorem State.setSense_table (s : State) (v : SenseConverter) : (s.setSense v).table = s.table := rfl
@[simp] theorem State.setSense_sets (s : State) (v : SenseConverter) : (s.setSense v).sets = s.sets := rfl
@[simp] theorem State.setSense_sched (s : State) (v : SenseConverter) : (s.setSense v).sched = s.sched := rfl
@[simp] theorem State.setSense_lit (s : State) (v : SenseConverter) : (s.setSense v).lit = s.lit := rfl
@[simp] theorem State.setSense_link (s : State) (v : SenseConverter) : (s.setSense v).link = s.link := rfl
@[simp] theorem State.setSense_latches (s : State) (v : SenseConverter) : (s.setSense v).latches = s.latches := rfl
@[simp] theorem State.setSense_panel (s : State) (v : SenseConverter) : (s.setSense v).panel = s.panel := rfl
@[simp] theorem State.setSense_period (s : State) (v : SenseConverter) : (s.setSense v).period = s.period := rfl
@[simp] theorem State.setSense_seq (s : State) (v : SenseConverter) : (s.setSense v).seq = s.seq := rfl
@[simp] theorem State.setSense_sense (s : State) (v : SenseConverter) : (s.setSense v).sense = v := rfl
@[simp] theorem State.setSense_area (s : State) (v : SenseConverter) : (s.setSense v).area = s.area := rfl
@[simp] theorem State.setSense_cmd (s : State) (v : SenseConverter) : (s.setSense v).cmd = s.cmd := rfl
@[simp] theorem State.setSense_notice (s : State) (v : SenseConverter) : (s.setSense v).notice = s.notice := rfl
@[simp] theorem State.setSense_store (s : State) (v : SenseConverter) : (s.setSense v).store = s.store := rfl
@[simp] theorem State.setSense_gapDue (s : State) (v : SenseConverter) : (s.setSense v).gapDue = s.gapDue := rfl
@[simp] theorem State.setSense_reached (s : State) (v : SenseConverter) : (s.setSense v).reached = s.reached := rfl
@[simp] theorem State.setSense_freeCount (s : State) (v : SenseConverter) :
    (s.setSense v).freeCount = s.freeCount := rfl

@[simp] theorem State.setArea_pending (s : State) (v : Option AreaOp) : (s.setArea v).pending = s.pending := rfl
@[simp] theorem State.setArea_mem (s : State) (v : Option AreaOp) : (s.setArea v).mem = s.mem := rfl
@[simp] theorem State.setArea_bus (s : State) (v : Option AreaOp) : (s.setArea v).bus = s.bus := rfl
@[simp] theorem State.setArea_wmu (s : State) (v : Option AreaOp) : (s.setArea v).wmu = s.wmu := rfl
@[simp] theorem State.setArea_port (s : State) (v : Option AreaOp) : (s.setArea v).port = s.port := rfl
@[simp] theorem State.setArea_table (s : State) (v : Option AreaOp) : (s.setArea v).table = s.table := rfl
@[simp] theorem State.setArea_sets (s : State) (v : Option AreaOp) : (s.setArea v).sets = s.sets := rfl
@[simp] theorem State.setArea_sched (s : State) (v : Option AreaOp) : (s.setArea v).sched = s.sched := rfl
@[simp] theorem State.setArea_lit (s : State) (v : Option AreaOp) : (s.setArea v).lit = s.lit := rfl
@[simp] theorem State.setArea_link (s : State) (v : Option AreaOp) : (s.setArea v).link = s.link := rfl
@[simp] theorem State.setArea_latches (s : State) (v : Option AreaOp) : (s.setArea v).latches = s.latches := rfl
@[simp] theorem State.setArea_panel (s : State) (v : Option AreaOp) : (s.setArea v).panel = s.panel := rfl
@[simp] theorem State.setArea_period (s : State) (v : Option AreaOp) : (s.setArea v).period = s.period := rfl
@[simp] theorem State.setArea_seq (s : State) (v : Option AreaOp) : (s.setArea v).seq = s.seq := rfl
@[simp] theorem State.setArea_sense (s : State) (v : Option AreaOp) : (s.setArea v).sense = s.sense := rfl
@[simp] theorem State.setArea_area (s : State) (v : Option AreaOp) : (s.setArea v).area = v := rfl
@[simp] theorem State.setArea_cmd (s : State) (v : Option AreaOp) : (s.setArea v).cmd = s.cmd := rfl
@[simp] theorem State.setArea_notice (s : State) (v : Option AreaOp) : (s.setArea v).notice = s.notice := rfl
@[simp] theorem State.setArea_store (s : State) (v : Option AreaOp) : (s.setArea v).store = s.store := rfl
@[simp] theorem State.setArea_gapDue (s : State) (v : Option AreaOp) : (s.setArea v).gapDue = s.gapDue := rfl
@[simp] theorem State.setArea_reached (s : State) (v : Option AreaOp) : (s.setArea v).reached = s.reached := rfl
@[simp] theorem State.setArea_freeCount (s : State) (v : Option AreaOp) : (s.setArea v).freeCount = s.freeCount := rfl

@[simp] theorem State.setCmd_pending (s : State) (v : CommandHandler) : (s.setCmd v).pending = s.pending := rfl
@[simp] theorem State.setCmd_mem (s : State) (v : CommandHandler) : (s.setCmd v).mem = s.mem := rfl
@[simp] theorem State.setCmd_bus (s : State) (v : CommandHandler) : (s.setCmd v).bus = s.bus := rfl
@[simp] theorem State.setCmd_wmu (s : State) (v : CommandHandler) : (s.setCmd v).wmu = s.wmu := rfl
@[simp] theorem State.setCmd_port (s : State) (v : CommandHandler) : (s.setCmd v).port = s.port := rfl
@[simp] theorem State.setCmd_table (s : State) (v : CommandHandler) : (s.setCmd v).table = s.table := rfl
@[simp] theorem State.setCmd_sets (s : State) (v : CommandHandler) : (s.setCmd v).sets = s.sets := rfl
@[simp] theorem State.setCmd_sched (s : State) (v : CommandHandler) : (s.setCmd v).sched = s.sched := rfl
@[simp] theorem State.setCmd_lit (s : State) (v : CommandHandler) : (s.setCmd v).lit = s.lit := rfl
@[simp] theorem State.setCmd_link (s : State) (v : CommandHandler) : (s.setCmd v).link = s.link := rfl
@[simp] theorem State.setCmd_latches (s : State) (v : CommandHandler) : (s.setCmd v).latches = s.latches := rfl
@[simp] theorem State.setCmd_panel (s : State) (v : CommandHandler) : (s.setCmd v).panel = s.panel := rfl
@[simp] theorem State.setCmd_period (s : State) (v : CommandHandler) : (s.setCmd v).period = s.period := rfl
@[simp] theorem State.setCmd_seq (s : State) (v : CommandHandler) : (s.setCmd v).seq = s.seq := rfl
@[simp] theorem State.setCmd_sense (s : State) (v : CommandHandler) : (s.setCmd v).sense = s.sense := rfl
@[simp] theorem State.setCmd_area (s : State) (v : CommandHandler) : (s.setCmd v).area = s.area := rfl
@[simp] theorem State.setCmd_cmd (s : State) (v : CommandHandler) : (s.setCmd v).cmd = v := rfl
@[simp] theorem State.setCmd_notice (s : State) (v : CommandHandler) : (s.setCmd v).notice = s.notice := rfl
@[simp] theorem State.setCmd_store (s : State) (v : CommandHandler) : (s.setCmd v).store = s.store := rfl
@[simp] theorem State.setCmd_gapDue (s : State) (v : CommandHandler) : (s.setCmd v).gapDue = s.gapDue := rfl
@[simp] theorem State.setCmd_reached (s : State) (v : CommandHandler) : (s.setCmd v).reached = s.reached := rfl
@[simp] theorem State.setCmd_freeCount (s : State) (v : CommandHandler) : (s.setCmd v).freeCount = s.freeCount := rfl

@[simp] theorem State.setNotice_pending (s : State) (v : NoticeUnit) : (s.setNotice v).pending = s.pending := rfl
@[simp] theorem State.setNotice_mem (s : State) (v : NoticeUnit) : (s.setNotice v).mem = s.mem := rfl
@[simp] theorem State.setNotice_bus (s : State) (v : NoticeUnit) : (s.setNotice v).bus = s.bus := rfl
@[simp] theorem State.setNotice_wmu (s : State) (v : NoticeUnit) : (s.setNotice v).wmu = s.wmu := rfl
@[simp] theorem State.setNotice_port (s : State) (v : NoticeUnit) : (s.setNotice v).port = s.port := rfl
@[simp] theorem State.setNotice_table (s : State) (v : NoticeUnit) : (s.setNotice v).table = s.table := rfl
@[simp] theorem State.setNotice_sets (s : State) (v : NoticeUnit) : (s.setNotice v).sets = s.sets := rfl
@[simp] theorem State.setNotice_sched (s : State) (v : NoticeUnit) : (s.setNotice v).sched = s.sched := rfl
@[simp] theorem State.setNotice_lit (s : State) (v : NoticeUnit) : (s.setNotice v).lit = s.lit := rfl
@[simp] theorem State.setNotice_link (s : State) (v : NoticeUnit) : (s.setNotice v).link = s.link := rfl
@[simp] theorem State.setNotice_latches (s : State) (v : NoticeUnit) : (s.setNotice v).latches = s.latches := rfl
@[simp] theorem State.setNotice_panel (s : State) (v : NoticeUnit) : (s.setNotice v).panel = s.panel := rfl
@[simp] theorem State.setNotice_period (s : State) (v : NoticeUnit) : (s.setNotice v).period = s.period := rfl
@[simp] theorem State.setNotice_seq (s : State) (v : NoticeUnit) : (s.setNotice v).seq = s.seq := rfl
@[simp] theorem State.setNotice_sense (s : State) (v : NoticeUnit) : (s.setNotice v).sense = s.sense := rfl
@[simp] theorem State.setNotice_area (s : State) (v : NoticeUnit) : (s.setNotice v).area = s.area := rfl
@[simp] theorem State.setNotice_cmd (s : State) (v : NoticeUnit) : (s.setNotice v).cmd = s.cmd := rfl
@[simp] theorem State.setNotice_notice (s : State) (v : NoticeUnit) : (s.setNotice v).notice = v := rfl
@[simp] theorem State.setNotice_store (s : State) (v : NoticeUnit) : (s.setNotice v).store = s.store := rfl
@[simp] theorem State.setNotice_gapDue (s : State) (v : NoticeUnit) : (s.setNotice v).gapDue = s.gapDue := rfl
@[simp] theorem State.setNotice_reached (s : State) (v : NoticeUnit) : (s.setNotice v).reached = s.reached := rfl
@[simp] theorem State.setNotice_freeCount (s : State) (v : NoticeUnit) : (s.setNotice v).freeCount = s.freeCount := rfl

@[simp] theorem State.setStore_pending (s : State) (v : SettingsStore) : (s.setStore v).pending = s.pending := rfl
@[simp] theorem State.setStore_mem (s : State) (v : SettingsStore) : (s.setStore v).mem = s.mem := rfl
@[simp] theorem State.setStore_bus (s : State) (v : SettingsStore) : (s.setStore v).bus = s.bus := rfl
@[simp] theorem State.setStore_wmu (s : State) (v : SettingsStore) : (s.setStore v).wmu = s.wmu := rfl
@[simp] theorem State.setStore_port (s : State) (v : SettingsStore) : (s.setStore v).port = s.port := rfl
@[simp] theorem State.setStore_table (s : State) (v : SettingsStore) : (s.setStore v).table = s.table := rfl
@[simp] theorem State.setStore_sets (s : State) (v : SettingsStore) : (s.setStore v).sets = s.sets := rfl
@[simp] theorem State.setStore_sched (s : State) (v : SettingsStore) : (s.setStore v).sched = s.sched := rfl
@[simp] theorem State.setStore_lit (s : State) (v : SettingsStore) : (s.setStore v).lit = s.lit := rfl
@[simp] theorem State.setStore_link (s : State) (v : SettingsStore) : (s.setStore v).link = s.link := rfl
@[simp] theorem State.setStore_latches (s : State) (v : SettingsStore) : (s.setStore v).latches = s.latches := rfl
@[simp] theorem State.setStore_panel (s : State) (v : SettingsStore) : (s.setStore v).panel = s.panel := rfl
@[simp] theorem State.setStore_period (s : State) (v : SettingsStore) : (s.setStore v).period = s.period := rfl
@[simp] theorem State.setStore_seq (s : State) (v : SettingsStore) : (s.setStore v).seq = s.seq := rfl
@[simp] theorem State.setStore_sense (s : State) (v : SettingsStore) : (s.setStore v).sense = s.sense := rfl
@[simp] theorem State.setStore_area (s : State) (v : SettingsStore) : (s.setStore v).area = s.area := rfl
@[simp] theorem State.setStore_cmd (s : State) (v : SettingsStore) : (s.setStore v).cmd = s.cmd := rfl
@[simp] theorem State.setStore_notice (s : State) (v : SettingsStore) : (s.setStore v).notice = s.notice := rfl
@[simp] theorem State.setStore_store (s : State) (v : SettingsStore) : (s.setStore v).store = v := rfl
@[simp] theorem State.setStore_gapDue (s : State) (v : SettingsStore) : (s.setStore v).gapDue = s.gapDue := rfl
@[simp] theorem State.setStore_reached (s : State) (v : SettingsStore) : (s.setStore v).reached = s.reached := rfl
@[simp] theorem State.setStore_freeCount (s : State) (v : SettingsStore) : (s.setStore v).freeCount = s.freeCount := rfl

@[simp] theorem State.setGapDue_pending (s : State) (v : Bool) : (s.setGapDue v).pending = s.pending := rfl
@[simp] theorem State.setGapDue_mem (s : State) (v : Bool) : (s.setGapDue v).mem = s.mem := rfl
@[simp] theorem State.setGapDue_bus (s : State) (v : Bool) : (s.setGapDue v).bus = s.bus := rfl
@[simp] theorem State.setGapDue_wmu (s : State) (v : Bool) : (s.setGapDue v).wmu = s.wmu := rfl
@[simp] theorem State.setGapDue_port (s : State) (v : Bool) : (s.setGapDue v).port = s.port := rfl
@[simp] theorem State.setGapDue_table (s : State) (v : Bool) : (s.setGapDue v).table = s.table := rfl
@[simp] theorem State.setGapDue_sets (s : State) (v : Bool) : (s.setGapDue v).sets = s.sets := rfl
@[simp] theorem State.setGapDue_sched (s : State) (v : Bool) : (s.setGapDue v).sched = s.sched := rfl
@[simp] theorem State.setGapDue_lit (s : State) (v : Bool) : (s.setGapDue v).lit = s.lit := rfl
@[simp] theorem State.setGapDue_link (s : State) (v : Bool) : (s.setGapDue v).link = s.link := rfl
@[simp] theorem State.setGapDue_latches (s : State) (v : Bool) : (s.setGapDue v).latches = s.latches := rfl
@[simp] theorem State.setGapDue_panel (s : State) (v : Bool) : (s.setGapDue v).panel = s.panel := rfl
@[simp] theorem State.setGapDue_period (s : State) (v : Bool) : (s.setGapDue v).period = s.period := rfl
@[simp] theorem State.setGapDue_seq (s : State) (v : Bool) : (s.setGapDue v).seq = s.seq := rfl
@[simp] theorem State.setGapDue_sense (s : State) (v : Bool) : (s.setGapDue v).sense = s.sense := rfl
@[simp] theorem State.setGapDue_area (s : State) (v : Bool) : (s.setGapDue v).area = s.area := rfl
@[simp] theorem State.setGapDue_cmd (s : State) (v : Bool) : (s.setGapDue v).cmd = s.cmd := rfl
@[simp] theorem State.setGapDue_notice (s : State) (v : Bool) : (s.setGapDue v).notice = s.notice := rfl
@[simp] theorem State.setGapDue_store (s : State) (v : Bool) : (s.setGapDue v).store = s.store := rfl
@[simp] theorem State.setGapDue_gapDue (s : State) (v : Bool) : (s.setGapDue v).gapDue = v := rfl
@[simp] theorem State.setGapDue_reached (s : State) (v : Bool) : (s.setGapDue v).reached = s.reached := rfl
@[simp] theorem State.setGapDue_freeCount (s : State) (v : Bool) : (s.setGapDue v).freeCount = s.freeCount := rfl

@[simp] theorem State.setFreeCount_pending (s : State) (v : Nat) : (s.setFreeCount v).pending = s.pending := rfl
@[simp] theorem State.setFreeCount_mem (s : State) (v : Nat) : (s.setFreeCount v).mem = s.mem := rfl
@[simp] theorem State.setFreeCount_bus (s : State) (v : Nat) : (s.setFreeCount v).bus = s.bus := rfl
@[simp] theorem State.setFreeCount_wmu (s : State) (v : Nat) : (s.setFreeCount v).wmu = s.wmu := rfl
@[simp] theorem State.setFreeCount_port (s : State) (v : Nat) : (s.setFreeCount v).port = s.port := rfl
@[simp] theorem State.setFreeCount_table (s : State) (v : Nat) : (s.setFreeCount v).table = s.table := rfl
@[simp] theorem State.setFreeCount_sets (s : State) (v : Nat) : (s.setFreeCount v).sets = s.sets := rfl
@[simp] theorem State.setFreeCount_sched (s : State) (v : Nat) : (s.setFreeCount v).sched = s.sched := rfl
@[simp] theorem State.setFreeCount_lit (s : State) (v : Nat) : (s.setFreeCount v).lit = s.lit := rfl
@[simp] theorem State.setFreeCount_link (s : State) (v : Nat) : (s.setFreeCount v).link = s.link := rfl
@[simp] theorem State.setFreeCount_latches (s : State) (v : Nat) : (s.setFreeCount v).latches = s.latches := rfl
@[simp] theorem State.setFreeCount_panel (s : State) (v : Nat) : (s.setFreeCount v).panel = s.panel := rfl
@[simp] theorem State.setFreeCount_period (s : State) (v : Nat) : (s.setFreeCount v).period = s.period := rfl
@[simp] theorem State.setFreeCount_seq (s : State) (v : Nat) : (s.setFreeCount v).seq = s.seq := rfl
@[simp] theorem State.setFreeCount_sense (s : State) (v : Nat) : (s.setFreeCount v).sense = s.sense := rfl
@[simp] theorem State.setFreeCount_area (s : State) (v : Nat) : (s.setFreeCount v).area = s.area := rfl
@[simp] theorem State.setFreeCount_cmd (s : State) (v : Nat) : (s.setFreeCount v).cmd = s.cmd := rfl
@[simp] theorem State.setFreeCount_notice (s : State) (v : Nat) : (s.setFreeCount v).notice = s.notice := rfl
@[simp] theorem State.setFreeCount_store (s : State) (v : Nat) : (s.setFreeCount v).store = s.store := rfl
@[simp] theorem State.setFreeCount_gapDue (s : State) (v : Nat) : (s.setFreeCount v).gapDue = s.gapDue := rfl
@[simp] theorem State.setFreeCount_reached (s : State) (v : Nat) : (s.setFreeCount v).reached = s.reached := rfl
@[simp] theorem State.setFreeCount_freeCount (s : State) (v : Nat) : (s.setFreeCount v).freeCount = v := rfl

@[simp] theorem State.setReached_pending (s : State) (v : PortReached) : (s.setReached v).pending = s.pending := rfl
@[simp] theorem State.setReached_mem (s : State) (v : PortReached) : (s.setReached v).mem = s.mem := rfl
@[simp] theorem State.setReached_bus (s : State) (v : PortReached) : (s.setReached v).bus = s.bus := rfl
@[simp] theorem State.setReached_wmu (s : State) (v : PortReached) : (s.setReached v).wmu = s.wmu := rfl
@[simp] theorem State.setReached_port (s : State) (v : PortReached) : (s.setReached v).port = s.port := rfl
@[simp] theorem State.setReached_table (s : State) (v : PortReached) : (s.setReached v).table = s.table := rfl
@[simp] theorem State.setReached_sets (s : State) (v : PortReached) : (s.setReached v).sets = s.sets := rfl
@[simp] theorem State.setReached_sched (s : State) (v : PortReached) : (s.setReached v).sched = s.sched := rfl
@[simp] theorem State.setReached_lit (s : State) (v : PortReached) : (s.setReached v).lit = s.lit := rfl
@[simp] theorem State.setReached_link (s : State) (v : PortReached) : (s.setReached v).link = s.link := rfl
@[simp] theorem State.setReached_latches (s : State) (v : PortReached) : (s.setReached v).latches = s.latches := rfl
@[simp] theorem State.setReached_panel (s : State) (v : PortReached) : (s.setReached v).panel = s.panel := rfl
@[simp] theorem State.setReached_period (s : State) (v : PortReached) : (s.setReached v).period = s.period := rfl
@[simp] theorem State.setReached_seq (s : State) (v : PortReached) : (s.setReached v).seq = s.seq := rfl
@[simp] theorem State.setReached_sense (s : State) (v : PortReached) : (s.setReached v).sense = s.sense := rfl
@[simp] theorem State.setReached_area (s : State) (v : PortReached) : (s.setReached v).area = s.area := rfl
@[simp] theorem State.setReached_cmd (s : State) (v : PortReached) : (s.setReached v).cmd = s.cmd := rfl
@[simp] theorem State.setReached_notice (s : State) (v : PortReached) : (s.setReached v).notice = s.notice := rfl
@[simp] theorem State.setReached_store (s : State) (v : PortReached) : (s.setReached v).store = s.store := rfl
@[simp] theorem State.setReached_gapDue (s : State) (v : PortReached) : (s.setReached v).gapDue = s.gapDue := rfl
@[simp] theorem State.setReached_freeCount (s : State) (v : PortReached) :
    (s.setReached v).freeCount = s.freeCount := rfl
@[simp] theorem State.setReached_reached (s : State) (v : PortReached) : (s.setReached v).reached = v := rfl

end Sys2Proof.Machine
end

