-- ==== Sys2Proof/Laws/Frames.lean ====
section
/-! SUPPORT. The frame of every operation: the fields of the state that it leaves as they were, once for each
operation, as simp lemmas. -/

namespace Sys2Proof.Machine

@[simp] theorem writeMem_frame (off : Nat) (v : Word) (s : State) :
    (writeMem off v s).pending = s.pending ∧ (writeMem off v s).bus = s.bus ∧ (writeMem off v s).wmu = s.wmu ∧
    (writeMem off v s).port = s.port ∧ (writeMem off v s).table = s.table ∧ (writeMem off v s).sets = s.sets ∧
    (writeMem off v s).sched = s.sched ∧ (writeMem off v s).lit = s.lit ∧ (writeMem off v s).link = s.link ∧
    (writeMem off v s).latches = s.latches ∧ (writeMem off v s).panel = s.panel ∧
    (writeMem off v s).period = s.period ∧ (writeMem off v s).seq = s.seq ∧
    (writeMem off v s).sense = s.sense ∧ (writeMem off v s).area = s.area ∧ (writeMem off v s).cmd = s.cmd ∧
    (writeMem off v s).notice = s.notice ∧ (writeMem off v s).store = s.store ∧
    (writeMem off v s).gapDue = s.gapDue ∧ (writeMem off v s).freeCount = s.freeCount ∧
    (writeMem off v s).reached = s.reached := by
  simp [writeMem]

@[simp] theorem drawFree_frame (s : State) :
    (drawFree s).pending = s.pending ∧ (drawFree s).mem = s.mem ∧ (drawFree s).bus = s.bus ∧
    (drawFree s).wmu = s.wmu ∧ (drawFree s).port = s.port ∧ (drawFree s).table = s.table ∧
    (drawFree s).sets = s.sets ∧ (drawFree s).sched = s.sched ∧ (drawFree s).lit = s.lit ∧
    (drawFree s).link = s.link ∧ (drawFree s).latches = s.latches ∧ (drawFree s).panel = s.panel ∧
    (drawFree s).period = s.period ∧ (drawFree s).seq = s.seq ∧ (drawFree s).sense = s.sense ∧
    (drawFree s).area = s.area ∧ (drawFree s).cmd = s.cmd ∧ (drawFree s).notice = s.notice ∧
    (drawFree s).store = s.store ∧ (drawFree s).gapDue = s.gapDue ∧
    (drawFree s).reached = s.reached := by
  simp [drawFree]

@[simp] theorem noteFirst_frame (s : State) :
    (noteFirst s).pending = s.pending ∧ (noteFirst s).mem = s.mem ∧ (noteFirst s).bus = s.bus ∧
    (noteFirst s).wmu = s.wmu ∧ (noteFirst s).port = s.port ∧ (noteFirst s).table = s.table ∧
    (noteFirst s).sets = s.sets ∧ (noteFirst s).sched = s.sched ∧ (noteFirst s).lit = s.lit ∧
    (noteFirst s).link = s.link ∧ (noteFirst s).latches = s.latches ∧ (noteFirst s).panel = s.panel ∧
    (noteFirst s).period = s.period ∧ (noteFirst s).seq = s.seq ∧ (noteFirst s).sense = s.sense ∧
    (noteFirst s).area = s.area ∧ (noteFirst s).cmd = s.cmd ∧ (noteFirst s).notice = s.notice ∧
    (noteFirst s).store = s.store ∧ (noteFirst s).gapDue = s.gapDue ∧
    (noteFirst s).freeCount = s.freeCount := by
  simp [noteFirst]

@[simp] theorem thirdAfresh_frame (s : State) :
    (thirdAfresh s).pending = s.pending ∧ (thirdAfresh s).mem = s.mem ∧ (thirdAfresh s).bus = s.bus ∧
    (thirdAfresh s).wmu = s.wmu ∧ (thirdAfresh s).port = s.port ∧ (thirdAfresh s).table = s.table ∧
    (thirdAfresh s).sets = s.sets ∧ (thirdAfresh s).sched = s.sched ∧ (thirdAfresh s).lit = s.lit ∧
    (thirdAfresh s).link = s.link ∧ (thirdAfresh s).latches = s.latches ∧ (thirdAfresh s).panel = s.panel ∧
    (thirdAfresh s).period = s.period ∧ (thirdAfresh s).seq = s.seq ∧ (thirdAfresh s).sense = s.sense ∧
    (thirdAfresh s).area = s.area ∧ (thirdAfresh s).cmd = s.cmd ∧ (thirdAfresh s).notice = s.notice ∧
    (thirdAfresh s).store = s.store ∧ (thirdAfresh s).gapDue = s.gapDue ∧
    (thirdAfresh s).freeCount = s.freeCount := by
  simp [thirdAfresh]

@[simp] theorem unitEnds_frame (p : Bool) (s : State) :
    (unitEnds p s).pending = s.pending ∧ (unitEnds p s).mem = s.mem ∧ (unitEnds p s).bus = s.bus ∧
    (unitEnds p s).wmu = s.wmu ∧ (unitEnds p s).port = s.port ∧ (unitEnds p s).table = s.table ∧
    (unitEnds p s).sets = s.sets ∧ (unitEnds p s).sched = s.sched ∧ (unitEnds p s).lit = s.lit ∧
    (unitEnds p s).link = s.link ∧ (unitEnds p s).latches = s.latches ∧ (unitEnds p s).panel = s.panel ∧
    (unitEnds p s).period = s.period ∧ (unitEnds p s).seq = s.seq ∧ (unitEnds p s).sense = s.sense ∧
    (unitEnds p s).area = s.area ∧ (unitEnds p s).cmd = s.cmd ∧ (unitEnds p s).notice = s.notice ∧
    (unitEnds p s).store = s.store ∧ (unitEnds p s).freeCount = s.freeCount := by
  simp [unitEnds]

/-- What the end of a unit leaves of the port's record (R17): no unit that waits has been granted, and whether the unit
was the processor's. -/
@[simp] theorem unitEnds_record (p : Bool) (s : State) : UnitEnded p (unitEnds p s) := ⟨rfl, rfl⟩

@[simp] theorem noteFirst_reached (s : State) : (noteFirst s).reached = reachedNow s := rfl

@[simp] theorem thirdAfresh_reached (s : State) :
    (thirdAfresh s).reached = { s.reached with third := false } := rfl

@[simp] theorem requestThird_frame (u : ThirdRank) (s : State) :
    (requestThird u s).pending = s.pending ∧ (requestThird u s).mem = s.mem ∧
    (requestThird u s).bus = s.bus ∧ (requestThird u s).wmu = s.wmu ∧ (requestThird u s).table = s.table ∧
    (requestThird u s).sets = s.sets ∧ (requestThird u s).sched = s.sched ∧ (requestThird u s).lit = s.lit ∧
    (requestThird u s).link = s.link ∧ (requestThird u s).latches = s.latches ∧
    (requestThird u s).panel = s.panel ∧ (requestThird u s).period = s.period ∧
    (requestThird u s).seq = s.seq ∧ (requestThird u s).sense = s.sense ∧ (requestThird u s).area = s.area ∧
    (requestThird u s).cmd = s.cmd ∧ (requestThird u s).notice = s.notice ∧
    (requestThird u s).store = s.store ∧ (requestThird u s).gapDue = s.gapDue ∧
    (requestThird u s).freeCount = s.freeCount := by
  unfold requestThird
  split
  · simp
  · dsimp only
    split <;> simp

@[simp] theorem requestNoticeUpdate_frame (s : State) :
    (requestNoticeUpdate s).pending = s.pending ∧ (requestNoticeUpdate s).mem = s.mem ∧
    (requestNoticeUpdate s).bus = s.bus ∧ (requestNoticeUpdate s).wmu = s.wmu ∧
    (requestNoticeUpdate s).table = s.table ∧ (requestNoticeUpdate s).sets = s.sets ∧
    (requestNoticeUpdate s).sched = s.sched ∧ (requestNoticeUpdate s).lit = s.lit ∧
    (requestNoticeUpdate s).link = s.link ∧ (requestNoticeUpdate s).latches = s.latches ∧
    (requestNoticeUpdate s).panel = s.panel ∧ (requestNoticeUpdate s).period = s.period ∧
    (requestNoticeUpdate s).seq = s.seq ∧ (requestNoticeUpdate s).sense = s.sense ∧
    (requestNoticeUpdate s).area = s.area ∧ (requestNoticeUpdate s).cmd = s.cmd ∧
    (requestNoticeUpdate s).notice = s.notice ∧ (requestNoticeUpdate s).store = s.store ∧
    (requestNoticeUpdate s).gapDue = s.gapDue ∧ (requestNoticeUpdate s).freeCount = s.freeCount := by
  simp [requestNoticeUpdate]

@[simp] theorem setNotices_frame (v : BitVec 8) (s : State) :
    (setNotices v s).pending = s.pending ∧ (setNotices v s).mem = s.mem ∧ (setNotices v s).bus = s.bus ∧
    (setNotices v s).wmu = s.wmu ∧ (setNotices v s).port = s.port ∧ (setNotices v s).table = s.table ∧
    (setNotices v s).sets = s.sets ∧ (setNotices v s).sched = s.sched ∧ (setNotices v s).lit = s.lit ∧
    (setNotices v s).link = s.link ∧ (setNotices v s).latches = s.latches ∧ (setNotices v s).panel = s.panel ∧
    (setNotices v s).period = s.period ∧ (setNotices v s).seq = s.seq ∧ (setNotices v s).sense = s.sense ∧
    (setNotices v s).area = s.area ∧ (setNotices v s).cmd = s.cmd ∧ (setNotices v s).store = s.store ∧
    (setNotices v s).gapDue = s.gapDue ∧ (setNotices v s).freeCount = s.freeCount ∧
    (setNotices v s).reached = s.reached := by
  simp [setNotices]

@[simp] theorem raiseNotice_frame (n : Notice) (s : State) :
    (raiseNotice n s).pending = s.pending ∧ (raiseNotice n s).mem = s.mem ∧ (raiseNotice n s).bus = s.bus ∧
    (raiseNotice n s).wmu = s.wmu ∧ (raiseNotice n s).table = s.table ∧ (raiseNotice n s).sets = s.sets ∧
    (raiseNotice n s).sched = s.sched ∧ (raiseNotice n s).lit = s.lit ∧ (raiseNotice n s).link = s.link ∧
    (raiseNotice n s).latches = s.latches ∧ (raiseNotice n s).panel = s.panel ∧
    (raiseNotice n s).period = s.period ∧ (raiseNotice n s).seq = s.seq ∧ (raiseNotice n s).sense = s.sense ∧
    (raiseNotice n s).area = s.area ∧ (raiseNotice n s).cmd = s.cmd ∧ (raiseNotice n s).store = s.store ∧
    (raiseNotice n s).gapDue = s.gapDue ∧ (raiseNotice n s).freeCount = s.freeCount := by
  unfold raiseNotice
  split <;> simp

@[simp] theorem countProtected_frame (s : State) :
    (countProtected s).pending = s.pending ∧ (countProtected s).mem = s.mem ∧ (countProtected s).bus = s.bus ∧
    (countProtected s).wmu = s.wmu ∧ (countProtected s).port = s.port ∧ (countProtected s).table = s.table ∧
    (countProtected s).sets = s.sets ∧ (countProtected s).sched = s.sched ∧ (countProtected s).lit = s.lit ∧
    (countProtected s).link = s.link ∧ (countProtected s).latches = s.latches ∧
    (countProtected s).panel = s.panel ∧ (countProtected s).period = s.period ∧
    (countProtected s).seq = s.seq ∧ (countProtected s).sense = s.sense ∧ (countProtected s).area = s.area ∧
    (countProtected s).cmd = s.cmd ∧ (countProtected s).store = s.store ∧
    (countProtected s).gapDue = s.gapDue ∧ (countProtected s).freeCount = s.freeCount ∧
    (countProtected s).reached = s.reached := by
  simp [countProtected]

@[simp] theorem countDegraded_frame (s : State) :
    (countDegraded s).pending = s.pending ∧ (countDegraded s).mem = s.mem ∧ (countDegraded s).bus = s.bus ∧
    (countDegraded s).wmu = s.wmu ∧ (countDegraded s).table = s.table ∧ (countDegraded s).sets = s.sets ∧
    (countDegraded s).sched = s.sched ∧ (countDegraded s).lit = s.lit ∧ (countDegraded s).link = s.link ∧
    (countDegraded s).latches = s.latches ∧ (countDegraded s).panel = s.panel ∧
    (countDegraded s).period = s.period ∧ (countDegraded s).seq = s.seq ∧ (countDegraded s).sense = s.sense ∧
    (countDegraded s).area = s.area ∧ (countDegraded s).cmd = s.cmd ∧ (countDegraded s).store = s.store ∧
    (countDegraded s).gapDue = s.gapDue ∧ (countDegraded s).freeCount = s.freeCount := by
  simp [countDegraded]

@[simp] theorem countAnnulled_frame (s : State) :
    (countAnnulled s).pending = s.pending ∧ (countAnnulled s).mem = s.mem ∧ (countAnnulled s).bus = s.bus ∧
    (countAnnulled s).wmu = s.wmu ∧ (countAnnulled s).port = s.port ∧ (countAnnulled s).table = s.table ∧
    (countAnnulled s).sets = s.sets ∧ (countAnnulled s).sched = s.sched ∧ (countAnnulled s).lit = s.lit ∧
    (countAnnulled s).link = s.link ∧ (countAnnulled s).latches = s.latches ∧
    (countAnnulled s).panel = s.panel ∧ (countAnnulled s).period = s.period ∧ (countAnnulled s).seq = s.seq ∧
    (countAnnulled s).sense = s.sense ∧ (countAnnulled s).area = s.area ∧ (countAnnulled s).cmd = s.cmd ∧
    (countAnnulled s).store = s.store ∧ (countAnnulled s).gapDue = s.gapDue ∧
    (countAnnulled s).freeCount = s.freeCount ∧
    (countAnnulled s).reached = s.reached := by
  simp [countAnnulled]

@[simp] theorem countDropped_frame (n : Nat) (s : State) :
    (countDropped n s).pending = s.pending ∧ (countDropped n s).mem = s.mem ∧ (countDropped n s).bus = s.bus ∧
    (countDropped n s).wmu = s.wmu ∧ (countDropped n s).port = s.port ∧ (countDropped n s).table = s.table ∧
    (countDropped n s).sets = s.sets ∧ (countDropped n s).sched = s.sched ∧ (countDropped n s).lit = s.lit ∧
    (countDropped n s).link = s.link ∧ (countDropped n s).latches = s.latches ∧
    (countDropped n s).panel = s.panel ∧ (countDropped n s).period = s.period ∧
    (countDropped n s).seq = s.seq ∧ (countDropped n s).sense = s.sense ∧ (countDropped n s).area = s.area ∧
    (countDropped n s).cmd = s.cmd ∧ (countDropped n s).store = s.store ∧
    (countDropped n s).gapDue = s.gapDue ∧ (countDropped n s).freeCount = s.freeCount ∧
    (countDropped n s).reached = s.reached := by
  simp [countDropped]

@[simp] theorem countRetry_frame (s : State) :
    (countRetry s).pending = s.pending ∧ (countRetry s).mem = s.mem ∧ (countRetry s).bus = s.bus ∧
    (countRetry s).wmu = s.wmu ∧ (countRetry s).port = s.port ∧ (countRetry s).table = s.table ∧
    (countRetry s).sets = s.sets ∧ (countRetry s).sched = s.sched ∧ (countRetry s).lit = s.lit ∧
    (countRetry s).link = s.link ∧ (countRetry s).latches = s.latches ∧ (countRetry s).panel = s.panel ∧
    (countRetry s).period = s.period ∧ (countRetry s).seq = s.seq ∧ (countRetry s).sense = s.sense ∧
    (countRetry s).area = s.area ∧ (countRetry s).cmd = s.cmd ∧ (countRetry s).store = s.store ∧
    (countRetry s).gapDue = s.gapDue ∧ (countRetry s).freeCount = s.freeCount ∧
    (countRetry s).reached = s.reached := by
  simp [countRetry]

@[simp] theorem countContention_frame (s : State) :
    (countContention s).pending = s.pending ∧ (countContention s).mem = s.mem ∧
    (countContention s).bus = s.bus ∧ (countContention s).wmu = s.wmu ∧ (countContention s).port = s.port ∧
    (countContention s).table = s.table ∧ (countContention s).sets = s.sets ∧
    (countContention s).sched = s.sched ∧ (countContention s).lit = s.lit ∧ (countContention s).link = s.link ∧
    (countContention s).latches = s.latches ∧ (countContention s).panel = s.panel ∧
    (countContention s).period = s.period ∧ (countContention s).seq = s.seq ∧
    (countContention s).sense = s.sense ∧ (countContention s).area = s.area ∧ (countContention s).cmd = s.cmd ∧
    (countContention s).store = s.store ∧ (countContention s).gapDue = s.gapDue ∧
    (countContention s).freeCount = s.freeCount ∧
    (countContention s).reached = s.reached := by
  simp [countContention]

@[simp] theorem countCommandDiscard_frame (s : State) :
    (countCommandDiscard s).pending = s.pending ∧ (countCommandDiscard s).mem = s.mem ∧
    (countCommandDiscard s).bus = s.bus ∧ (countCommandDiscard s).wmu = s.wmu ∧
    (countCommandDiscard s).port = s.port ∧ (countCommandDiscard s).table = s.table ∧
    (countCommandDiscard s).sets = s.sets ∧ (countCommandDiscard s).sched = s.sched ∧
    (countCommandDiscard s).lit = s.lit ∧ (countCommandDiscard s).link = s.link ∧
    (countCommandDiscard s).latches = s.latches ∧ (countCommandDiscard s).panel = s.panel ∧
    (countCommandDiscard s).period = s.period ∧ (countCommandDiscard s).seq = s.seq ∧
    (countCommandDiscard s).sense = s.sense ∧ (countCommandDiscard s).area = s.area ∧
    (countCommandDiscard s).cmd = s.cmd ∧ (countCommandDiscard s).store = s.store ∧
    (countCommandDiscard s).gapDue = s.gapDue ∧ (countCommandDiscard s).freeCount = s.freeCount ∧
    (countCommandDiscard s).reached = s.reached := by
  simp [countCommandDiscard]

@[simp] theorem requestBurst_frame (s : State) :
    (requestBurst s).pending = s.pending ∧ (requestBurst s).mem = s.mem ∧ (requestBurst s).bus = s.bus ∧
    (requestBurst s).wmu = s.wmu ∧ (requestBurst s).table = s.table ∧ (requestBurst s).sets = s.sets ∧
    (requestBurst s).sched = s.sched ∧ (requestBurst s).lit = s.lit ∧ (requestBurst s).link = s.link ∧
    (requestBurst s).latches = s.latches ∧ (requestBurst s).panel = s.panel ∧
    (requestBurst s).period = s.period ∧ (requestBurst s).seq = s.seq ∧ (requestBurst s).sense = s.sense ∧
    (requestBurst s).area = s.area ∧ (requestBurst s).cmd = s.cmd ∧ (requestBurst s).notice = s.notice ∧
    (requestBurst s).store = s.store ∧ (requestBurst s).gapDue = s.gapDue ∧
    (requestBurst s).freeCount = s.freeCount := by
  unfold requestBurst
  split <;> simp

@[simp] theorem requestCommandWrite_frame (s : State) :
    (requestCommandWrite s).pending = s.pending ∧ (requestCommandWrite s).mem = s.mem ∧
    (requestCommandWrite s).bus = s.bus ∧ (requestCommandWrite s).wmu = s.wmu ∧
    (requestCommandWrite s).table = s.table ∧ (requestCommandWrite s).sets = s.sets ∧
    (requestCommandWrite s).sched = s.sched ∧ (requestCommandWrite s).lit = s.lit ∧
    (requestCommandWrite s).link = s.link ∧ (requestCommandWrite s).latches = s.latches ∧
    (requestCommandWrite s).panel = s.panel ∧ (requestCommandWrite s).period = s.period ∧
    (requestCommandWrite s).seq = s.seq ∧ (requestCommandWrite s).sense = s.sense ∧
    (requestCommandWrite s).area = s.area ∧ (requestCommandWrite s).cmd = s.cmd ∧
    (requestCommandWrite s).notice = s.notice ∧ (requestCommandWrite s).store = s.store ∧
    (requestCommandWrite s).gapDue = s.gapDue ∧ (requestCommandWrite s).freeCount = s.freeCount := by
  simp [requestCommandWrite]

@[simp] theorem finishCommand_frame (res : Result) (words : List (WordIx × Word)) (s : State) :
    (finishCommand res words s).pending = s.pending ∧ (finishCommand res words s).mem = s.mem ∧
    (finishCommand res words s).bus = s.bus ∧ (finishCommand res words s).wmu = s.wmu ∧
    (finishCommand res words s).table = s.table ∧ (finishCommand res words s).sets = s.sets ∧
    (finishCommand res words s).sched = s.sched ∧ (finishCommand res words s).lit = s.lit ∧
    (finishCommand res words s).link = s.link ∧ (finishCommand res words s).latches = s.latches ∧
    (finishCommand res words s).panel = s.panel ∧ (finishCommand res words s).period = s.period ∧
    (finishCommand res words s).seq = s.seq ∧ (finishCommand res words s).sense = s.sense ∧
    (finishCommand res words s).area = s.area ∧ (finishCommand res words s).notice = s.notice ∧
    (finishCommand res words s).store = s.store ∧ (finishCommand res words s).gapDue = s.gapDue ∧
    (finishCommand res words s).freeCount = s.freeCount := by
  unfold finishCommand
  repeat' split
  all_goals simp

@[simp] theorem endCycle_frame (s : State) :
    (endCycle s).pending = s.pending ∧ (endCycle s).mem = s.mem ∧ (endCycle s).port = s.port ∧
    (endCycle s).table = s.table ∧ (endCycle s).sets = s.sets ∧ (endCycle s).sched = s.sched ∧
    (endCycle s).lit = s.lit ∧ (endCycle s).link = s.link ∧ (endCycle s).latches = s.latches ∧
    (endCycle s).panel = s.panel ∧ (endCycle s).period = s.period ∧ (endCycle s).seq = s.seq ∧
    (endCycle s).sense = s.sense ∧ (endCycle s).area = s.area ∧ (endCycle s).cmd = s.cmd ∧
    (endCycle s).notice = s.notice ∧ (endCycle s).store = s.store ∧ (endCycle s).gapDue = s.gapDue ∧
    (endCycle s).freeCount = s.freeCount ∧
    (endCycle s).reached = s.reached := by
  simp [endCycle]

theorem mergeDifference_frame {r : Row} {w : WordIx} {rise fall : Word} {s s' : State}
    (h : mergeDifference r w rise fall s = some s') :
    s'.pending = s.pending ∧ s'.mem = s.mem ∧ s'.bus = s.bus ∧ s'.wmu = s.wmu ∧ s'.port = s.port ∧
    s'.sets = s.sets ∧ s'.sched = s.sched ∧ s'.lit = s.lit ∧ s'.link = s.link ∧ s'.latches = s.latches ∧
    s'.panel = s.panel ∧ s'.period = s.period ∧ s'.seq = s.seq ∧ s'.sense = s.sense ∧ s'.area = s.area ∧
    s'.cmd = s.cmd ∧ s'.store = s.store ∧ s'.gapDue = s.gapDue ∧ s'.freeCount = s.freeCount ∧
    s'.reached = s.reached := by
  unfold mergeDifference at h
  split at h
  · cases h; simp
  · split at h
    · dsimp only at h
      split at h <;> (cases h; simp)
    · split at h <;> cases h
      simp

@[simp] theorem offerHeld_frame (h : HeldChange) (s : State) :
    (offerHeld h s).pending = s.pending ∧ (offerHeld h s).mem = s.mem ∧ (offerHeld h s).port = s.port ∧
    (offerHeld h s).sets = s.sets ∧ (offerHeld h s).sched = s.sched ∧ (offerHeld h s).lit = s.lit ∧
    (offerHeld h s).link = s.link ∧ (offerHeld h s).latches = s.latches ∧ (offerHeld h s).panel = s.panel ∧
    (offerHeld h s).period = s.period ∧ (offerHeld h s).seq = s.seq ∧ (offerHeld h s).sense = s.sense ∧
    (offerHeld h s).area = s.area ∧ (offerHeld h s).cmd = s.cmd ∧ (offerHeld h s).store = s.store ∧
    (offerHeld h s).gapDue = s.gapDue ∧ (offerHeld h s).freeCount = s.freeCount ∧
    (offerHeld h s).reached = s.reached := by
  unfold offerHeld
  split
  · rename_i hm
    have := mergeDifference_frame hm
    simp_all
  · simp

@[simp] theorem grantArea_frame (s : State) :
    (grantArea s).pending = s.pending ∧ (grantArea s).mem = s.mem ∧ (grantArea s).bus = s.bus ∧
    (grantArea s).wmu = s.wmu ∧ (grantArea s).port = s.port ∧ (grantArea s).table = s.table ∧
    (grantArea s).sets = s.sets ∧ (grantArea s).sched = s.sched ∧ (grantArea s).lit = s.lit ∧
    (grantArea s).link = s.link ∧ (grantArea s).latches = s.latches ∧ (grantArea s).panel = s.panel ∧
    (grantArea s).period = s.period ∧ (grantArea s).seq = s.seq ∧ (grantArea s).sense = s.sense ∧
    (grantArea s).cmd = s.cmd ∧ (grantArea s).notice = s.notice ∧ (grantArea s).store = s.store ∧
    (grantArea s).gapDue = s.gapDue ∧ (grantArea s).freeCount = s.freeCount ∧
    (grantArea s).reached = s.reached := by
  simp [grantArea]

@[simp] theorem settleHold_frame (s : State) :
    (settleHold s).pending = s.pending ∧ (settleHold s).mem = s.mem ∧ (settleHold s).port = s.port ∧
    (settleHold s).sets = s.sets ∧ (settleHold s).sched = s.sched ∧ (settleHold s).lit = s.lit ∧
    (settleHold s).link = s.link ∧ (settleHold s).latches = s.latches ∧ (settleHold s).panel = s.panel ∧
    (settleHold s).period = s.period ∧ (settleHold s).seq = s.seq ∧ (settleHold s).sense = s.sense ∧
    (settleHold s).cmd = s.cmd ∧ (settleHold s).store = s.store ∧ (settleHold s).gapDue = s.gapDue ∧
    (settleHold s).reached = s.reached := by
  unfold settleHold
  repeat' split
  all_goals simp

@[simp] theorem addFull_frame (rows : RowSet) (s : State) :
    (addFull rows s).pending = s.pending ∧ (addFull rows s).mem = s.mem ∧ (addFull rows s).bus = s.bus ∧
    (addFull rows s).wmu = s.wmu ∧ (addFull rows s).port = s.port ∧ (addFull rows s).sched = s.sched ∧
    (addFull rows s).lit = s.lit ∧ (addFull rows s).link = s.link ∧ (addFull rows s).latches = s.latches ∧
    (addFull rows s).panel = s.panel ∧ (addFull rows s).period = s.period ∧ (addFull rows s).seq = s.seq ∧
    (addFull rows s).sense = s.sense ∧ (addFull rows s).area = s.area ∧ (addFull rows s).cmd = s.cmd ∧
    (addFull rows s).notice = s.notice ∧ (addFull rows s).store = s.store ∧
    (addFull rows s).gapDue = s.gapDue ∧ (addFull rows s).freeCount = s.freeCount ∧
    (addFull rows s).reached = s.reached := by
  unfold addFull
  split <;> simp

@[simp] theorem requestFull_frame (rows : RowSet) (s : State) :
    (requestFull rows s).pending = s.pending ∧ (requestFull rows s).mem = s.mem ∧
    (requestFull rows s).port = s.port ∧ (requestFull rows s).sched = s.sched ∧
    (requestFull rows s).lit = s.lit ∧ (requestFull rows s).link = s.link ∧
    (requestFull rows s).latches = s.latches ∧ (requestFull rows s).panel = s.panel ∧
    (requestFull rows s).period = s.period ∧ (requestFull rows s).seq = s.seq ∧
    (requestFull rows s).sense = s.sense ∧ (requestFull rows s).cmd = s.cmd ∧
    (requestFull rows s).store = s.store ∧ (requestFull rows s).gapDue = s.gapDue ∧
    (requestFull rows s).reached = s.reached := by
  unfold requestFull
  split <;> simp

@[simp] theorem requestFill_frame (r : Row) (s : State) :
    (requestFill r s).pending = s.pending ∧ (requestFill r s).mem = s.mem ∧ (requestFill r s).port = s.port ∧
    (requestFill r s).sched = s.sched ∧ (requestFill r s).lit = s.lit ∧ (requestFill r s).link = s.link ∧
    (requestFill r s).latches = s.latches ∧ (requestFill r s).panel = s.panel ∧
    (requestFill r s).period = s.period ∧ (requestFill r s).seq = s.seq ∧ (requestFill r s).sense = s.sense ∧
    (requestFill r s).cmd = s.cmd ∧ (requestFill r s).store = s.store ∧
    (requestFill r s).gapDue = s.gapDue ∧
    (requestFill r s).reached = s.reached := by
  unfold requestFill
  split <;> simp

@[simp] theorem dropHold_frame (s : State) :
    (dropHold s).pending = s.pending ∧ (dropHold s).mem = s.mem ∧ (dropHold s).port = s.port ∧
    (dropHold s).table = s.table ∧ (dropHold s).sets = s.sets ∧ (dropHold s).sched = s.sched ∧
    (dropHold s).lit = s.lit ∧ (dropHold s).link = s.link ∧ (dropHold s).latches = s.latches ∧
    (dropHold s).panel = s.panel ∧ (dropHold s).period = s.period ∧ (dropHold s).seq = s.seq ∧
    (dropHold s).sense = s.sense ∧ (dropHold s).area = s.area ∧ (dropHold s).cmd = s.cmd ∧
    (dropHold s).notice = s.notice ∧ (dropHold s).store = s.store ∧ (dropHold s).gapDue = s.gapDue ∧
    (dropHold s).freeCount = s.freeCount ∧
    (dropHold s).reached = s.reached := by
  unfold dropHold
  split <;> simp

@[simp] theorem allRowsDark_frame (s : State) :
    (allRowsDark s).pending = s.pending ∧ (allRowsDark s).mem = s.mem ∧ (allRowsDark s).port = s.port ∧
    (allRowsDark s).link = s.link ∧ (allRowsDark s).latches = s.latches ∧ (allRowsDark s).panel = s.panel ∧
    (allRowsDark s).period = s.period ∧ (allRowsDark s).seq = s.seq ∧ (allRowsDark s).sense = s.sense ∧
    (allRowsDark s).area = s.area ∧ (allRowsDark s).cmd = s.cmd ∧ (allRowsDark s).notice = s.notice ∧
    (allRowsDark s).store = s.store ∧ (allRowsDark s).gapDue = s.gapDue ∧
    (allRowsDark s).freeCount = s.freeCount ∧
    (allRowsDark s).reached = s.reached := by
  simp [allRowsDark]

@[simp] theorem degradeHeld_frame (r : Row) (s : State) :
    (degradeHeld r s).pending = s.pending ∧ (degradeHeld r s).mem = s.mem ∧ (degradeHeld r s).sched = s.sched ∧
    (degradeHeld r s).lit = s.lit ∧ (degradeHeld r s).link = s.link ∧ (degradeHeld r s).latches = s.latches ∧
    (degradeHeld r s).panel = s.panel ∧ (degradeHeld r s).period = s.period ∧ (degradeHeld r s).seq = s.seq ∧
    (degradeHeld r s).sense = s.sense ∧ (degradeHeld r s).cmd = s.cmd ∧ (degradeHeld r s).store = s.store ∧
    (degradeHeld r s).gapDue = s.gapDue := by
  simp [degradeHeld]

@[simp] theorem placeOrHold_frame (h : HeldChange) (s : State) :
    (placeOrHold h s).pending = s.pending ∧ (placeOrHold h s).mem = s.mem ∧ (placeOrHold h s).sched = s.sched ∧
    (placeOrHold h s).lit = s.lit ∧ (placeOrHold h s).link = s.link ∧ (placeOrHold h s).latches = s.latches ∧
    (placeOrHold h s).panel = s.panel ∧ (placeOrHold h s).period = s.period ∧ (placeOrHold h s).seq = s.seq ∧
    (placeOrHold h s).sense = s.sense ∧ (placeOrHold h s).cmd = s.cmd ∧ (placeOrHold h s).store = s.store ∧
    (placeOrHold h s).gapDue = s.gapDue := by
  unfold placeOrHold
  repeat' split
  all_goals first
    | (simp_all; done)
    | (rename_i hm; have := mergeDifference_frame hm; simp_all)

@[simp] theorem mergeBack_frame (r : Row) (writes erases : Mask) (s : State) :
    (mergeBack r writes erases s).pending = s.pending ∧ (mergeBack r writes erases s).mem = s.mem ∧
    (mergeBack r writes erases s).port = s.port ∧ (mergeBack r writes erases s).sets = s.sets ∧
    (mergeBack r writes erases s).sched = s.sched ∧ (mergeBack r writes erases s).lit = s.lit ∧
    (mergeBack r writes erases s).link = s.link ∧ (mergeBack r writes erases s).latches = s.latches ∧
    (mergeBack r writes erases s).panel = s.panel ∧ (mergeBack r writes erases s).period = s.period ∧
    (mergeBack r writes erases s).seq = s.seq ∧ (mergeBack r writes erases s).sense = s.sense ∧
    (mergeBack r writes erases s).cmd = s.cmd ∧ (mergeBack r writes erases s).store = s.store ∧
    (mergeBack r writes erases s).gapDue = s.gapDue ∧
    (mergeBack r writes erases s).reached = s.reached := by
  unfold mergeBack
  dsimp only
  repeat' split
  all_goals simp

@[simp] theorem requestClear_frame (s : State) :
    (requestClear s).pending = s.pending ∧ (requestClear s).mem = s.mem ∧ (requestClear s).bus = s.bus ∧
    (requestClear s).wmu = s.wmu ∧ (requestClear s).port = s.port ∧ (requestClear s).table = s.table ∧
    (requestClear s).sets = s.sets ∧ (requestClear s).sched = s.sched ∧ (requestClear s).lit = s.lit ∧
    (requestClear s).link = s.link ∧ (requestClear s).latches = s.latches ∧ (requestClear s).panel = s.panel ∧
    (requestClear s).seq = s.seq ∧ (requestClear s).sense = s.sense ∧ (requestClear s).area = s.area ∧
    (requestClear s).cmd = s.cmd ∧ (requestClear s).notice = s.notice ∧ (requestClear s).store = s.store ∧
    (requestClear s).gapDue = s.gapDue ∧ (requestClear s).freeCount = s.freeCount ∧
    (requestClear s).reached = s.reached := by
  simp [requestClear]

@[simp] theorem beginMessage_frame (m : Message) (s : State) :
    (beginMessage m s).pending = s.pending ∧ (beginMessage m s).mem = s.mem ∧ (beginMessage m s).bus = s.bus ∧
    (beginMessage m s).wmu = s.wmu ∧ (beginMessage m s).port = s.port ∧ (beginMessage m s).table = s.table ∧
    (beginMessage m s).sets = s.sets ∧ (beginMessage m s).sched = s.sched ∧ (beginMessage m s).lit = s.lit ∧
    (beginMessage m s).latches = s.latches ∧ (beginMessage m s).panel = s.panel ∧
    (beginMessage m s).period = s.period ∧ (beginMessage m s).seq = s.seq ∧
    (beginMessage m s).sense = s.sense ∧ (beginMessage m s).area = s.area ∧ (beginMessage m s).cmd = s.cmd ∧
    (beginMessage m s).notice = s.notice ∧ (beginMessage m s).store = s.store ∧
    (beginMessage m s).gapDue = s.gapDue ∧ (beginMessage m s).freeCount = s.freeCount ∧
    (beginMessage m s).reached = s.reached := by
  simp [beginMessage]

@[simp] theorem linkNext_frame (s : State) :
    (linkNext s).pending = s.pending ∧ (linkNext s).mem = s.mem ∧ (linkNext s).bus = s.bus ∧
    (linkNext s).wmu = s.wmu ∧ (linkNext s).port = s.port ∧ (linkNext s).table = s.table ∧
    (linkNext s).sets = s.sets ∧ (linkNext s).sched = s.sched ∧ (linkNext s).lit = s.lit ∧
    (linkNext s).latches = s.latches ∧ (linkNext s).panel = s.panel ∧ (linkNext s).period = s.period ∧
    (linkNext s).seq = s.seq ∧ (linkNext s).sense = s.sense ∧ (linkNext s).area = s.area ∧
    (linkNext s).cmd = s.cmd ∧ (linkNext s).notice = s.notice ∧ (linkNext s).store = s.store ∧
    (linkNext s).gapDue = s.gapDue ∧ (linkNext s).freeCount = s.freeCount ∧
    (linkNext s).reached = s.reached := by
  unfold linkNext
  repeat' split
  all_goals simp

@[simp] theorem handSlice_frame (v : Slice) (s : State) :
    (handSlice v s).pending = s.pending ∧ (handSlice v s).mem = s.mem ∧ (handSlice v s).bus = s.bus ∧
    (handSlice v s).wmu = s.wmu ∧ (handSlice v s).port = s.port ∧ (handSlice v s).table = s.table ∧
    (handSlice v s).sets = s.sets ∧ (handSlice v s).sched = s.sched ∧ (handSlice v s).lit = s.lit ∧
    (handSlice v s).latches = s.latches ∧ (handSlice v s).panel = s.panel ∧ (handSlice v s).period = s.period ∧
    (handSlice v s).seq = s.seq ∧ (handSlice v s).sense = s.sense ∧ (handSlice v s).area = s.area ∧
    (handSlice v s).cmd = s.cmd ∧ (handSlice v s).notice = s.notice ∧ (handSlice v s).store = s.store ∧
    (handSlice v s).gapDue = s.gapDue ∧ (handSlice v s).freeCount = s.freeCount ∧
    (handSlice v s).reached = s.reached := by
  unfold handSlice
  split <;> simp

@[simp] theorem handFirst_frame (v : Slice) (s : State) :
    (handFirst v s).pending = s.pending ∧ (handFirst v s).mem = s.mem ∧ (handFirst v s).bus = s.bus ∧
    (handFirst v s).wmu = s.wmu ∧ (handFirst v s).port = s.port ∧ (handFirst v s).table = s.table ∧
    (handFirst v s).sets = s.sets ∧ (handFirst v s).sched = s.sched ∧ (handFirst v s).lit = s.lit ∧
    (handFirst v s).latches = s.latches ∧ (handFirst v s).panel = s.panel ∧ (handFirst v s).period = s.period ∧
    (handFirst v s).seq = s.seq ∧ (handFirst v s).sense = s.sense ∧ (handFirst v s).area = s.area ∧
    (handFirst v s).cmd = s.cmd ∧ (handFirst v s).notice = s.notice ∧ (handFirst v s).store = s.store ∧
    (handFirst v s).gapDue = s.gapDue ∧
    (handFirst v s).reached = s.reached := by
  unfold handFirst
  repeat' split
  all_goals simp

@[simp] theorem setOp_frame (op : Option RowOp) (s : State) :
    (setOp op s).pending = s.pending ∧ (setOp op s).mem = s.mem ∧ (setOp op s).bus = s.bus ∧
    (setOp op s).wmu = s.wmu ∧ (setOp op s).port = s.port ∧ (setOp op s).table = s.table ∧
    (setOp op s).sets = s.sets ∧ (setOp op s).lit = s.lit ∧ (setOp op s).link = s.link ∧
    (setOp op s).latches = s.latches ∧ (setOp op s).panel = s.panel ∧ (setOp op s).period = s.period ∧
    (setOp op s).seq = s.seq ∧ (setOp op s).sense = s.sense ∧ (setOp op s).area = s.area ∧
    (setOp op s).cmd = s.cmd ∧ (setOp op s).notice = s.notice ∧ (setOp op s).store = s.store ∧
    (setOp op s).gapDue = s.gapDue ∧ (setOp op s).freeCount = s.freeCount ∧
    (setOp op s).reached = s.reached := by
  simp [setOp]

@[simp] theorem freeTaken_frame (kind : OpKind) (s : State) :
    (freeTaken kind s).pending = s.pending ∧ (freeTaken kind s).mem = s.mem ∧
    (freeTaken kind s).port = s.port ∧ (freeTaken kind s).sets = s.sets ∧ (freeTaken kind s).sched = s.sched ∧
    (freeTaken kind s).lit = s.lit ∧ (freeTaken kind s).link = s.link ∧
    (freeTaken kind s).latches = s.latches ∧ (freeTaken kind s).panel = s.panel ∧
    (freeTaken kind s).period = s.period ∧ (freeTaken kind s).seq = s.seq ∧
    (freeTaken kind s).sense = s.sense ∧ (freeTaken kind s).cmd = s.cmd ∧ (freeTaken kind s).store = s.store ∧
    (freeTaken kind s).gapDue = s.gapDue ∧
    (freeTaken kind s).reached = s.reached := by
  unfold freeTaken
  split <;> simp

@[simp] theorem completeOp_frame (op : RowOp) (s : State) :
    (completeOp op s).pending = s.pending ∧ (completeOp op s).mem = s.mem ∧ (completeOp op s).port = s.port ∧
    (completeOp op s).sets = s.sets ∧ (completeOp op s).lit = s.lit ∧ (completeOp op s).link = s.link ∧
    (completeOp op s).latches = s.latches ∧ (completeOp op s).panel = s.panel ∧
    (completeOp op s).period = s.period ∧ (completeOp op s).seq = s.seq ∧ (completeOp op s).sense = s.sense ∧
    (completeOp op s).cmd = s.cmd ∧ (completeOp op s).store = s.store ∧
    (completeOp op s).gapDue = s.gapDue ∧
    (completeOp op s).reached = s.reached := by
  simp [completeOp]

@[simp] theorem enterLoading_frame (op : RowOp) (m : ModuleNo) (rest : List ModuleNo) (s : State) :
    (enterLoading op m rest s).pending = s.pending ∧ (enterLoading op m rest s).mem = s.mem ∧
    (enterLoading op m rest s).bus = s.bus ∧ (enterLoading op m rest s).wmu = s.wmu ∧
    (enterLoading op m rest s).port = s.port ∧ (enterLoading op m rest s).table = s.table ∧
    (enterLoading op m rest s).sets = s.sets ∧ (enterLoading op m rest s).lit = s.lit ∧
    (enterLoading op m rest s).latches = s.latches ∧ (enterLoading op m rest s).panel = s.panel ∧
    (enterLoading op m rest s).period = s.period ∧ (enterLoading op m rest s).seq = s.seq ∧
    (enterLoading op m rest s).sense = s.sense ∧ (enterLoading op m rest s).area = s.area ∧
    (enterLoading op m rest s).cmd = s.cmd ∧ (enterLoading op m rest s).notice = s.notice ∧
    (enterLoading op m rest s).store = s.store ∧ (enterLoading op m rest s).gapDue = s.gapDue ∧
    (enterLoading op m rest s).reached = s.reached := by
  simp [enterLoading]

@[simp] theorem startWrite_frame (op : RowOp) (s : State) :
    (startWrite op s).pending = s.pending ∧ (startWrite op s).mem = s.mem ∧ (startWrite op s).port = s.port ∧
    (startWrite op s).sets = s.sets ∧ (startWrite op s).lit = s.lit ∧ (startWrite op s).latches = s.latches ∧
    (startWrite op s).panel = s.panel ∧ (startWrite op s).period = s.period ∧ (startWrite op s).seq = s.seq ∧
    (startWrite op s).sense = s.sense ∧ (startWrite op s).cmd = s.cmd ∧ (startWrite op s).store = s.store ∧
    (startWrite op s).gapDue = s.gapDue ∧
    (startWrite op s).reached = s.reached := by
  unfold startWrite
  dsimp only
  split <;> simp

@[simp] theorem startErase_frame (op : RowOp) (s : State) :
    (startErase op s).pending = s.pending ∧ (startErase op s).mem = s.mem ∧ (startErase op s).port = s.port ∧
    (startErase op s).sets = s.sets ∧ (startErase op s).lit = s.lit ∧ (startErase op s).latches = s.latches ∧
    (startErase op s).panel = s.panel ∧ (startErase op s).period = s.period ∧ (startErase op s).seq = s.seq ∧
    (startErase op s).sense = s.sense ∧ (startErase op s).cmd = s.cmd ∧ (startErase op s).store = s.store ∧
    (startErase op s).gapDue = s.gapDue ∧
    (startErase op s).reached = s.reached := by
  unfold startErase
  dsimp only
  split <;> simp

@[simp] theorem phaseDone_frame (op : RowOp) (s : State) :
    (phaseDone op s).pending = s.pending ∧ (phaseDone op s).mem = s.mem ∧ (phaseDone op s).port = s.port ∧
    (phaseDone op s).sets = s.sets ∧ (phaseDone op s).lit = s.lit ∧ (phaseDone op s).latches = s.latches ∧
    (phaseDone op s).panel = s.panel ∧ (phaseDone op s).period = s.period ∧ (phaseDone op s).seq = s.seq ∧
    (phaseDone op s).sense = s.sense ∧ (phaseDone op s).cmd = s.cmd ∧ (phaseDone op s).store = s.store ∧
    (phaseDone op s).gapDue = s.gapDue ∧
    (phaseDone op s).reached = s.reached := by
  unfold phaseDone
  split <;> simp

@[simp] theorem loadNext_frame (op : RowOp) (s : State) :
    (loadNext op s).pending = s.pending ∧ (loadNext op s).mem = s.mem ∧ (loadNext op s).port = s.port ∧
    (loadNext op s).sets = s.sets ∧ (loadNext op s).lit = s.lit ∧ (loadNext op s).latches = s.latches ∧
    (loadNext op s).panel = s.panel ∧ (loadNext op s).period = s.period ∧ (loadNext op s).seq = s.seq ∧
    (loadNext op s).sense = s.sense ∧ (loadNext op s).cmd = s.cmd ∧ (loadNext op s).store = s.store ∧
    (loadNext op s).gapDue = s.gapDue ∧
    (loadNext op s).reached = s.reached := by
  unfold loadNext
  repeat' split
  all_goals simp

@[simp] theorem giveBack_frame (op : RowOp) (s : State) :
    (giveBack op s).pending = s.pending ∧ (giveBack op s).mem = s.mem ∧ (giveBack op s).port = s.port ∧
    (giveBack op s).sched = s.sched ∧ (giveBack op s).lit = s.lit ∧ (giveBack op s).link = s.link ∧
    (giveBack op s).latches = s.latches ∧ (giveBack op s).panel = s.panel ∧ (giveBack op s).period = s.period ∧
    (giveBack op s).seq = s.seq ∧ (giveBack op s).sense = s.sense ∧ (giveBack op s).cmd = s.cmd ∧
    (giveBack op s).store = s.store ∧ (giveBack op s).gapDue = s.gapDue ∧
    (giveBack op s).reached = s.reached := by
  unfold giveBack
  repeat' split
  all_goals simp

@[simp] theorem returnOp_frame (op : RowOp) (s : State) :
    (returnOp op s).pending = s.pending ∧ (returnOp op s).mem = s.mem ∧ (returnOp op s).port = s.port ∧
    (returnOp op s).lit = s.lit ∧ (returnOp op s).link = s.link ∧ (returnOp op s).latches = s.latches ∧
    (returnOp op s).panel = s.panel ∧ (returnOp op s).seq = s.seq ∧ (returnOp op s).sense = s.sense ∧
    (returnOp op s).cmd = s.cmd ∧ (returnOp op s).store = s.store ∧ (returnOp op s).gapDue = s.gapDue ∧
    (returnOp op s).reached = s.reached := by
  unfold returnOp
  split <;> simp

@[simp] theorem schedulerFault_frame (s : State) :
    (schedulerFault s).pending = s.pending ∧ (schedulerFault s).mem = s.mem ∧
    (schedulerFault s).port = s.port ∧ (schedulerFault s).lit = s.lit ∧ (schedulerFault s).link = s.link ∧
    (schedulerFault s).latches = s.latches ∧ (schedulerFault s).panel = s.panel ∧
    (schedulerFault s).seq = s.seq ∧ (schedulerFault s).sense = s.sense ∧ (schedulerFault s).cmd = s.cmd ∧
    (schedulerFault s).store = s.store ∧ (schedulerFault s).gapDue = s.gapDue ∧
    (schedulerFault s).reached = s.reached := by
  unfold schedulerFault
  repeat' split
  all_goals simp

@[simp] theorem endRound_frame (res : Result) (s : State) :
    (endRound res s).pending = s.pending ∧ (endRound res s).mem = s.mem ∧ (endRound res s).sched = s.sched ∧
    (endRound res s).lit = s.lit ∧ (endRound res s).latches = s.latches ∧ (endRound res s).panel = s.panel ∧
    (endRound res s).period = s.period ∧ (endRound res s).seq = s.seq ∧ (endRound res s).sense = s.sense ∧
    (endRound res s).store = s.store ∧ (endRound res s).gapDue = s.gapDue := by
  unfold endRound
  repeat' split
  all_goals simp

@[simp] theorem endMessage_frame (s : State) :
    (endMessage s).pending = s.pending ∧ (endMessage s).mem = s.mem ∧ (endMessage s).bus = s.bus ∧
    (endMessage s).wmu = s.wmu ∧ (endMessage s).port = s.port ∧ (endMessage s).table = s.table ∧
    (endMessage s).sets = s.sets ∧ (endMessage s).sched = s.sched ∧ (endMessage s).lit = s.lit ∧
    (endMessage s).latches = s.latches ∧ (endMessage s).panel = s.panel ∧ (endMessage s).period = s.period ∧
    (endMessage s).seq = s.seq ∧ (endMessage s).sense = s.sense ∧ (endMessage s).area = s.area ∧
    (endMessage s).cmd = s.cmd ∧ (endMessage s).notice = s.notice ∧ (endMessage s).store = s.store ∧
    (endMessage s).gapDue = s.gapDue ∧ (endMessage s).freeCount = s.freeCount ∧
    (endMessage s).reached = s.reached := by
  simp [endMessage]

@[simp] theorem linkFault_frame (s : State) :
    (linkFault s).pending = s.pending ∧ (linkFault s).mem = s.mem ∧ (linkFault s).lit = s.lit ∧
    (linkFault s).latches = s.latches ∧ (linkFault s).panel = s.panel ∧ (linkFault s).seq = s.seq ∧
    (linkFault s).sense = s.sense ∧ (linkFault s).store = s.store ∧ (linkFault s).gapDue = s.gapDue := by
  unfold linkFault
  dsimp only
  repeat' split
  all_goals simp

@[simp] theorem reportSlice_frame (loaded : Bool) (m : ModuleNo) (s : State) :
    (reportSlice loaded m s).pending = s.pending ∧ (reportSlice loaded m s).mem = s.mem ∧
    (reportSlice loaded m s).port = s.port ∧ (reportSlice loaded m s).sets = s.sets ∧
    (reportSlice loaded m s).lit = s.lit ∧ (reportSlice loaded m s).latches = s.latches ∧
    (reportSlice loaded m s).panel = s.panel ∧ (reportSlice loaded m s).period = s.period ∧
    (reportSlice loaded m s).seq = s.seq ∧ (reportSlice loaded m s).sense = s.sense ∧
    (reportSlice loaded m s).cmd = s.cmd ∧ (reportSlice loaded m s).store = s.store ∧
    (reportSlice loaded m s).gapDue = s.gapDue ∧
    (reportSlice loaded m s).reached = s.reached := by
  unfold reportSlice
  repeat' split
  all_goals simp

@[simp] theorem roundNext_frame (restored : Bool) (s : State) :
    (roundNext restored s).pending = s.pending ∧ (roundNext restored s).mem = s.mem ∧
    (roundNext restored s).sched = s.sched ∧ (roundNext restored s).lit = s.lit ∧
    (roundNext restored s).latches = s.latches ∧ (roundNext restored s).panel = s.panel ∧
    (roundNext restored s).period = s.period ∧ (roundNext restored s).seq = s.seq ∧
    (roundNext restored s).sense = s.sense ∧ (roundNext restored s).store = s.store ∧
    (roundNext restored s).gapDue = s.gapDue := by
  unfold roundNext
  dsimp only
  repeat' split
  all_goals simp

@[simp] theorem messageSucceeded_frame (m : Message) (s : State) :
    (messageSucceeded m s).pending = s.pending ∧ (messageSucceeded m s).mem = s.mem ∧
    (messageSucceeded m s).lit = s.lit ∧ (messageSucceeded m s).panel = s.panel ∧
    (messageSucceeded m s).seq = s.seq ∧ (messageSucceeded m s).sense = s.sense ∧
    (messageSucceeded m s).store = s.store ∧ (messageSucceeded m s).gapDue = s.gapDue := by
  unfold messageSucceeded
  repeat' split
  all_goals simp

@[simp] theorem messageFailed_frame (m : Message) (s : State) :
    (messageFailed m s).pending = s.pending ∧ (messageFailed m s).mem = s.mem ∧
    (messageFailed m s).lit = s.lit ∧ (messageFailed m s).latches = s.latches ∧
    (messageFailed m s).panel = s.panel ∧ (messageFailed m s).seq = s.seq ∧
    (messageFailed m s).sense = s.sense ∧ (messageFailed m s).store = s.store ∧
    (messageFailed m s).gapDue = s.gapDue := by
  unfold messageFailed
  repeat' split
  all_goals simp

@[simp] theorem mayLatch_frame (m : Message) (s : State) :
    (mayLatch m s).pending = s.pending ∧ (mayLatch m s).mem = s.mem ∧ (mayLatch m s).bus = s.bus ∧
    (mayLatch m s).wmu = s.wmu ∧ (mayLatch m s).port = s.port ∧ (mayLatch m s).table = s.table ∧
    (mayLatch m s).sets = s.sets ∧ (mayLatch m s).sched = s.sched ∧ (mayLatch m s).lit = s.lit ∧
    (mayLatch m s).link = s.link ∧ (mayLatch m s).panel = s.panel ∧ (mayLatch m s).period = s.period ∧
    (mayLatch m s).seq = s.seq ∧ (mayLatch m s).sense = s.sense ∧ (mayLatch m s).area = s.area ∧
    (mayLatch m s).cmd = s.cmd ∧ (mayLatch m s).notice = s.notice ∧ (mayLatch m s).store = s.store ∧
    (mayLatch m s).gapDue = s.gapDue ∧
    (mayLatch m s).reached = s.reached := by
  unfold mayLatch
  split <;> simp

@[simp] theorem stretchOutcome_frame (m : Message) (scan : ByteScan) (freed : Bool) (s : State) :
    (stretchOutcome m scan freed s).pending = s.pending ∧ (stretchOutcome m scan freed s).mem = s.mem ∧
    (stretchOutcome m scan freed s).lit = s.lit ∧ (stretchOutcome m scan freed s).panel = s.panel ∧
    (stretchOutcome m scan freed s).seq = s.seq ∧ (stretchOutcome m scan freed s).sense = s.sense ∧
    (stretchOutcome m scan freed s).store = s.store ∧ (stretchOutcome m scan freed s).gapDue = s.gapDue := by
  unfold stretchOutcome
  repeat' split
  all_goals simp

@[simp] theorem beginRecovery_frame (s : State) :
    (beginRecovery s).pending = s.pending ∧ (beginRecovery s).mem = s.mem ∧ (beginRecovery s).bus = s.bus ∧
    (beginRecovery s).wmu = s.wmu ∧ (beginRecovery s).port = s.port ∧ (beginRecovery s).table = s.table ∧
    (beginRecovery s).sets = s.sets ∧ (beginRecovery s).sched = s.sched ∧ (beginRecovery s).lit = s.lit ∧
    (beginRecovery s).latches = s.latches ∧ (beginRecovery s).panel = s.panel ∧
    (beginRecovery s).period = s.period ∧ (beginRecovery s).seq = s.seq ∧ (beginRecovery s).sense = s.sense ∧
    (beginRecovery s).area = s.area ∧ (beginRecovery s).cmd = s.cmd ∧ (beginRecovery s).notice = s.notice ∧
    (beginRecovery s).store = s.store ∧ (beginRecovery s).gapDue = s.gapDue ∧
    (beginRecovery s).freeCount = s.freeCount ∧
    (beginRecovery s).reached = s.reached := by
  simp [beginRecovery]

@[simp] theorem drivePanel_frame (r : Row) (v : Mask) (s : State) :
    (drivePanel r v s).pending = s.pending ∧ (drivePanel r v s).mem = s.mem ∧ (drivePanel r v s).bus = s.bus ∧
    (drivePanel r v s).wmu = s.wmu ∧ (drivePanel r v s).port = s.port ∧ (drivePanel r v s).table = s.table ∧
    (drivePanel r v s).sets = s.sets ∧ (drivePanel r v s).sched = s.sched ∧ (drivePanel r v s).lit = s.lit ∧
    (drivePanel r v s).link = s.link ∧ (drivePanel r v s).latches = s.latches ∧
    (drivePanel r v s).period = s.period ∧ (drivePanel r v s).seq = s.seq ∧
    (drivePanel r v s).sense = s.sense ∧ (drivePanel r v s).area = s.area ∧ (drivePanel r v s).cmd = s.cmd ∧
    (drivePanel r v s).notice = s.notice ∧ (drivePanel r v s).store = s.store ∧
    (drivePanel r v s).gapDue = s.gapDue ∧ (drivePanel r v s).freeCount = s.freeCount ∧
    (drivePanel r v s).reached = s.reached := by
  simp [drivePanel]

@[simp] theorem panelDark_frame (s : State) :
    (panelDark s).pending = s.pending ∧ (panelDark s).mem = s.mem ∧ (panelDark s).bus = s.bus ∧
    (panelDark s).wmu = s.wmu ∧ (panelDark s).port = s.port ∧ (panelDark s).table = s.table ∧
    (panelDark s).sets = s.sets ∧ (panelDark s).sched = s.sched ∧ (panelDark s).lit = s.lit ∧
    (panelDark s).link = s.link ∧ (panelDark s).latches = s.latches ∧ (panelDark s).period = s.period ∧
    (panelDark s).seq = s.seq ∧ (panelDark s).sense = s.sense ∧ (panelDark s).area = s.area ∧
    (panelDark s).cmd = s.cmd ∧ (panelDark s).notice = s.notice ∧ (panelDark s).store = s.store ∧
    (panelDark s).gapDue = s.gapDue ∧ (panelDark s).freeCount = s.freeCount ∧
    (panelDark s).reached = s.reached := by
  simp [panelDark]

@[simp] theorem strobeColumns_frame (r : Row) (p : Phase) (s : State) :
    (strobeColumns r p s).pending = s.pending ∧ (strobeColumns r p s).mem = s.mem ∧
    (strobeColumns r p s).bus = s.bus ∧ (strobeColumns r p s).wmu = s.wmu ∧
    (strobeColumns r p s).port = s.port ∧ (strobeColumns r p s).table = s.table ∧
    (strobeColumns r p s).sets = s.sets ∧ (strobeColumns r p s).sched = s.sched ∧
    (strobeColumns r p s).lit = s.lit ∧ (strobeColumns r p s).link = s.link ∧
    (strobeColumns r p s).period = s.period ∧ (strobeColumns r p s).seq = s.seq ∧
    (strobeColumns r p s).sense = s.sense ∧ (strobeColumns r p s).area = s.area ∧
    (strobeColumns r p s).cmd = s.cmd ∧ (strobeColumns r p s).notice = s.notice ∧
    (strobeColumns r p s).store = s.store ∧ (strobeColumns r p s).gapDue = s.gapDue ∧
    (strobeColumns r p s).freeCount = s.freeCount ∧
    (strobeColumns r p s).reached = s.reached := by
  simp [strobeColumns]

@[simp] theorem beginPeriod_frame (k : PeriodKind) (fires : Option (Row × Phase)) (s : State) :
    (beginPeriod k fires s).pending = s.pending ∧ (beginPeriod k fires s).mem = s.mem ∧
    (beginPeriod k fires s).bus = s.bus ∧ (beginPeriod k fires s).wmu = s.wmu ∧
    (beginPeriod k fires s).port = s.port ∧ (beginPeriod k fires s).table = s.table ∧
    (beginPeriod k fires s).sets = s.sets ∧ (beginPeriod k fires s).sched = s.sched ∧
    (beginPeriod k fires s).lit = s.lit ∧ (beginPeriod k fires s).link = s.link ∧
    (beginPeriod k fires s).latches = s.latches ∧ (beginPeriod k fires s).panel = s.panel ∧
    (beginPeriod k fires s).seq = s.seq ∧ (beginPeriod k fires s).sense = s.sense ∧
    (beginPeriod k fires s).area = s.area ∧ (beginPeriod k fires s).cmd = s.cmd ∧
    (beginPeriod k fires s).notice = s.notice ∧ (beginPeriod k fires s).store = s.store ∧
    (beginPeriod k fires s).gapDue = s.gapDue ∧ (beginPeriod k fires s).freeCount = s.freeCount ∧
    (beginPeriod k fires s).reached = s.reached := by
  simp [beginPeriod]

@[simp] theorem startPeriod_frame (s : State) :
    (startPeriod s).pending = s.pending ∧ (startPeriod s).mem = s.mem ∧ (startPeriod s).bus = s.bus ∧
    (startPeriod s).wmu = s.wmu ∧ (startPeriod s).port = s.port ∧ (startPeriod s).table = s.table ∧
    (startPeriod s).sets = s.sets ∧ (startPeriod s).lit = s.lit ∧ (startPeriod s).link = s.link ∧
    (startPeriod s).latches = s.latches ∧ (startPeriod s).panel = s.panel ∧ (startPeriod s).seq = s.seq ∧
    (startPeriod s).sense = s.sense ∧ (startPeriod s).area = s.area ∧ (startPeriod s).cmd = s.cmd ∧
    (startPeriod s).notice = s.notice ∧ (startPeriod s).store = s.store ∧ (startPeriod s).gapDue = s.gapDue ∧
    (startPeriod s).freeCount = s.freeCount ∧
    (startPeriod s).reached = s.reached := by
  unfold startPeriod
  repeat' split
  all_goals simp

@[simp] theorem takeTiming_frame (s : State) :
    (takeTiming s).pending = s.pending ∧ (takeTiming s).mem = s.mem ∧ (takeTiming s).bus = s.bus ∧
    (takeTiming s).wmu = s.wmu ∧ (takeTiming s).port = s.port ∧ (takeTiming s).table = s.table ∧
    (takeTiming s).sets = s.sets ∧ (takeTiming s).sched = s.sched ∧ (takeTiming s).lit = s.lit ∧
    (takeTiming s).link = s.link ∧ (takeTiming s).latches = s.latches ∧ (takeTiming s).panel = s.panel ∧
    (takeTiming s).seq = s.seq ∧ (takeTiming s).sense = s.sense ∧ (takeTiming s).area = s.area ∧
    (takeTiming s).cmd = s.cmd ∧ (takeTiming s).notice = s.notice ∧ (takeTiming s).store = s.store ∧
    (takeTiming s).gapDue = s.gapDue ∧ (takeTiming s).freeCount = s.freeCount ∧
    (takeTiming s).reached = s.reached := by
  simp [takeTiming]

@[simp] theorem limitLoad_frame (s : State) :
    (limitLoad s).pending = s.pending ∧ (limitLoad s).mem = s.mem ∧ (limitLoad s).bus = s.bus ∧
    (limitLoad s).wmu = s.wmu ∧ (limitLoad s).table = s.table ∧ (limitLoad s).sets = s.sets ∧
    (limitLoad s).sched = s.sched ∧ (limitLoad s).lit = s.lit ∧ (limitLoad s).link = s.link ∧
    (limitLoad s).latches = s.latches ∧ (limitLoad s).panel = s.panel ∧ (limitLoad s).seq = s.seq ∧
    (limitLoad s).sense = s.sense ∧ (limitLoad s).area = s.area ∧ (limitLoad s).cmd = s.cmd ∧
    (limitLoad s).store = s.store ∧ (limitLoad s).gapDue = s.gapDue ∧
    (limitLoad s).freeCount = s.freeCount := by
  unfold limitLoad
  dsimp only
  split <;> simp

/-- A timer that counts stays within 0..16,383 (R75, R177). -/
theorem timerTick_lt {counts : Bool} {n : Nat} (h : n < 16384) : (timerTick counts n).1 < 16384 := by
  unfold timerTick
  split
  · split
    · exact (by decide : 0 < 16384)
    · next hn => simp [Config.timerTicks] at hn ⊢; omega
  · exact h

/-- A timer expires exactly as it returns to 0 from its last tick (R87, R177). -/
theorem timerTick_expires (counts : Bool) (n : Nat) :
    (timerTick counts n).2 = true ↔ counts = true ∧ 16383 ≤ n := by
  unfold timerTick
  cases counts
  · simp
  · by_cases h : Config.timerTicks ≤ n + 1 <;> simp [h] <;> simp [Config.timerTicks] at h <;> omega

@[simp] theorem linkCourse_frame (lck lda : Bool) (l : DriverLink) :
    (linkCourse lck lda l).state = l.state ∧ (linkCourse lck lda l).failed = l.failed ∧
    (linkCourse lck lda l).waiting = l.waiting ∧ (linkCourse lck lda l).round = l.round ∧
    (linkCourse lck lda l).timer = l.timer ∧ (linkCourse lck lda l).expired = l.expired ∧
    (linkCourse lck lda l).halfBit = l.halfBit ∧ (linkCourse lck lda l).stretchLimit = l.stretchLimit ∧
    (linkCourse lck lda l).elapsed = l.elapsed := by
  unfold linkCourse
  split
  · simp
  · split <;> simp

/-- A link that is not in use stays as it is. -/
@[simp] theorem linkCourse_of_idle {lck lda : Bool} {l : DriverLink} (h : l.message = none)
    (ha : l.activity ≠ .recovering) : linkCourse lck lda l = l := by
  simp [linkCourse, h, ha]

/-- A recovery attempt goes on in its course alone (R88). -/
theorem linkCourse_of_recovering {lck lda : Bool} {l : DriverLink} (h : l.message = none)
    (ha : l.activity = .recovering) : linkCourse lck lda l =
      { l with course := courseTick true l.stretchLimit l.halfBit [] lck lda l.course } := by
  simp [linkCourse, h, ha]

/-- A message goes on in its course, with its activity and the bytes sent of it, and keeps all else (R75, R80). -/
theorem linkCourse_of_message {lck lda : Bool} {l : DriverLink} {m : Message} (h : l.message = some m) :
    (linkCourse lck lda l).course =
        courseTick false l.stretchLimit l.halfBit ((messageBytes m).drop m.bytesSent) lck lda l.course ∧
      (linkCourse lck lda l).activity = partActivity l.activity (linkCourse lck lda l).course.part ∧
      (linkCourse lck lda l).message =
        some { m with
          bytesSent := m.bytesSent + if byteOver l.course (linkCourse lck lda l).course then 1 else 0 } := by
  simp [linkCourse, h]

/-- A stretch delays the course, and changes nothing else while it lasts (R71). -/
theorem courseTick_of_stretch {recovering lda : Bool} {limit halfBit : Nat} {bytes : List Byte} {c : LinkCourse}
    (ht : c.tick = 0) (hh : c.half % 2 = 1) (hp : clockedPart c.part = true) (hl : c.stretch + 1 < limit) :
    courseTick recovering limit halfBit bytes true lda c = { c with stretch := c.stretch + 1 } := by
  obtain ⟨part, half, tick, stretch, low⟩ := c
  cases part <;> simp_all [courseTick, readLines, stretchCourse, clockedPart]

/-- An idle check waits for LCK, and counts the wait as a stretch (R79). -/
theorem courseTick_of_wait {recovering lda : Bool} {limit halfBit : Nat} {bytes : List Byte} {c : LinkCourse}
    (hp : c.part = .check) (hl : c.stretch + 1 < limit) :
    courseTick recovering limit halfBit bytes true lda c = { c with stretch := c.stretch + 1 } := by
  simp [courseTick, readLines, stretchCourse, hp, hl]

/-- What a tick makes of each field: the counters of seven blocks go on, a link in use draws a free value, and the
rest stays. -/
@[simp] theorem tick_fields (s : State) :
    (tick s).pending = s.pending ∧ (tick s).mem = s.mem ∧ (tick s).bus = s.bus ∧
    (tick s).wmu = tickWmu s.wmu ∧ (tick s).port = s.port ∧ (tick s).table = s.table ∧ (tick s).sets = s.sets ∧
    (tick s).sched = s.sched ∧ (tick s).lit = s.lit ∧
    (tick s).link = tickLink (s.seq.state == .lit) s.freeCount s.link ∧ (tick s).latches = s.latches ∧
    (tick s).panel = s.panel ∧ (tick s).period = tickPeriod s.period ∧ (tick s).seq = tickSeq s.seq ∧
    (tick s).sense = tickSense s.sense ∧ (tick s).area = s.area ∧ (tick s).cmd = s.cmd ∧
    (tick s).notice = tickNotice (s.seq.state == .lit) s.notice ∧ (tick s).store = tickStore s.store ∧
    (tick s).gapDue = s.gapDue ∧
    (tick s).freeCount = (if linkUsed s.link then s.freeCount + 1 else s.freeCount) := by
  unfold tick drawFree
  split <;> simp_all

@[simp] theorem setSeqState_frame (q : SeqState) (s : State) :
    (setSeqState q s).pending = s.pending ∧ (setSeqState q s).mem = s.mem ∧ (setSeqState q s).bus = s.bus ∧
    (setSeqState q s).wmu = s.wmu ∧ (setSeqState q s).port = s.port ∧ (setSeqState q s).table = s.table ∧
    (setSeqState q s).sets = s.sets ∧ (setSeqState q s).sched = s.sched ∧ (setSeqState q s).lit = s.lit ∧
    (setSeqState q s).link = s.link ∧ (setSeqState q s).latches = s.latches ∧
    (setSeqState q s).panel = s.panel ∧ (setSeqState q s).period = s.period ∧
    (setSeqState q s).sense = s.sense ∧ (setSeqState q s).area = s.area ∧ (setSeqState q s).cmd = s.cmd ∧
    (setSeqState q s).notice = s.notice ∧ (setSeqState q s).store = s.store ∧
    (setSeqState q s).gapDue = s.gapDue ∧ (setSeqState q s).freeCount = s.freeCount ∧
    (setSeqState q s).reached = s.reached := by
  simp [setSeqState]

@[simp] theorem restartTimers_frame (s : State) :
    (restartTimers s).pending = s.pending ∧ (restartTimers s).mem = s.mem ∧ (restartTimers s).bus = s.bus ∧
    (restartTimers s).wmu = s.wmu ∧ (restartTimers s).port = s.port ∧ (restartTimers s).table = s.table ∧
    (restartTimers s).sets = s.sets ∧ (restartTimers s).sched = s.sched ∧ (restartTimers s).lit = s.lit ∧
    (restartTimers s).latches = s.latches ∧ (restartTimers s).panel = s.panel ∧
    (restartTimers s).period = s.period ∧ (restartTimers s).seq = s.seq ∧ (restartTimers s).sense = s.sense ∧
    (restartTimers s).area = s.area ∧ (restartTimers s).cmd = s.cmd ∧ (restartTimers s).store = s.store ∧
    (restartTimers s).gapDue = s.gapDue ∧ (restartTimers s).freeCount = s.freeCount ∧
    (restartTimers s).reached = s.reached := by
  simp [restartTimers]

@[simp] theorem enterLit_frame (s : State) :
    (enterLit s).pending = s.pending ∧ (enterLit s).mem = s.mem ∧ (enterLit s).bus = s.bus ∧
    (enterLit s).wmu = s.wmu ∧ (enterLit s).table = s.table ∧ (enterLit s).sets = s.sets ∧
    (enterLit s).lit = s.lit ∧ (enterLit s).latches = s.latches ∧ (enterLit s).panel = s.panel ∧
    (enterLit s).sense = s.sense ∧ (enterLit s).area = s.area ∧ (enterLit s).cmd = s.cmd ∧
    (enterLit s).store = s.store ∧ (enterLit s).gapDue = s.gapDue ∧ (enterLit s).freeCount = s.freeCount := by
  simp [enterLit]

@[simp] theorem endGap_frame (s : State) :
    (endGap s).pending = s.pending ∧ (endGap s).mem = s.mem ∧ (endGap s).bus = s.bus ∧ (endGap s).wmu = s.wmu ∧
    (endGap s).table = s.table ∧ (endGap s).sets = s.sets ∧ (endGap s).lit = s.lit ∧
    (endGap s).latches = s.latches ∧ (endGap s).panel = s.panel ∧ (endGap s).sense = s.sense ∧
    (endGap s).area = s.area ∧ (endGap s).cmd = s.cmd ∧ (endGap s).store = s.store ∧
    (endGap s).gapDue = s.gapDue ∧ (endGap s).freeCount = s.freeCount := by
  simp [endGap]

@[simp] theorem enterPriming_frame (s : State) :
    (enterPriming s).pending = s.pending ∧ (enterPriming s).mem = s.mem ∧ (enterPriming s).bus = s.bus ∧
    (enterPriming s).wmu = s.wmu ∧ (enterPriming s).port = s.port ∧ (enterPriming s).table = s.table ∧
    (enterPriming s).sets = s.sets ∧ (enterPriming s).sched = s.sched ∧ (enterPriming s).lit = s.lit ∧
    (enterPriming s).link = s.link ∧ (enterPriming s).latches = s.latches ∧ (enterPriming s).panel = s.panel ∧
    (enterPriming s).sense = s.sense ∧ (enterPriming s).area = s.area ∧ (enterPriming s).cmd = s.cmd ∧
    (enterPriming s).notice = s.notice ∧ (enterPriming s).store = s.store ∧
    (enterPriming s).gapDue = s.gapDue ∧ (enterPriming s).freeCount = s.freeCount ∧
    (enterPriming s).reached = s.reached := by
  simp [enterPriming]

@[simp] theorem judgeDark_frame (s : State) :
    (judgeDark s).pending = s.pending ∧ (judgeDark s).mem = s.mem ∧ (judgeDark s).bus = s.bus ∧
    (judgeDark s).wmu = s.wmu ∧ (judgeDark s).port = s.port ∧ (judgeDark s).table = s.table ∧
    (judgeDark s).sets = s.sets ∧ (judgeDark s).sched = s.sched ∧ (judgeDark s).lit = s.lit ∧
    (judgeDark s).link = s.link ∧ (judgeDark s).latches = s.latches ∧ (judgeDark s).panel = s.panel ∧
    (judgeDark s).period = s.period ∧ (judgeDark s).sense = s.sense ∧ (judgeDark s).area = s.area ∧
    (judgeDark s).cmd = s.cmd ∧ (judgeDark s).notice = s.notice ∧ (judgeDark s).store = s.store ∧
    (judgeDark s).gapDue = s.gapDue ∧ (judgeDark s).freeCount = s.freeCount ∧
    (judgeDark s).reached = s.reached := by
  unfold judgeDark
  split <;> simp

@[simp] theorem enterDark_frame (s : State) :
    (enterDark s).pending = s.pending ∧ (enterDark s).mem = s.mem ∧ (enterDark s).bus = s.bus ∧
    (enterDark s).wmu = s.wmu ∧ (enterDark s).port = s.port ∧ (enterDark s).table = s.table ∧
    (enterDark s).sets = s.sets ∧ (enterDark s).sched = s.sched ∧ (enterDark s).lit = s.lit ∧
    (enterDark s).link = s.link ∧ (enterDark s).latches = s.latches ∧ (enterDark s).panel = s.panel ∧
    (enterDark s).sense = s.sense ∧ (enterDark s).area = s.area ∧ (enterDark s).cmd = s.cmd ∧
    (enterDark s).notice = s.notice ∧ (enterDark s).store = s.store ∧ (enterDark s).gapDue = s.gapDue ∧
    (enterDark s).freeCount = s.freeCount ∧
    (enterDark s).reached = s.reached := by
  simp [enterDark]

@[simp] theorem cutErasePanel_frame (s : State) :
    (cutErasePanel s).pending = s.pending ∧ (cutErasePanel s).mem = s.mem ∧ (cutErasePanel s).bus = s.bus ∧
    (cutErasePanel s).wmu = s.wmu ∧ (cutErasePanel s).port = s.port ∧ (cutErasePanel s).table = s.table ∧
    (cutErasePanel s).sets = s.sets ∧ (cutErasePanel s).sched = s.sched ∧ (cutErasePanel s).lit = s.lit ∧
    (cutErasePanel s).link = s.link ∧ (cutErasePanel s).latches = s.latches ∧
    (cutErasePanel s).period = s.period ∧ (cutErasePanel s).seq = s.seq ∧ (cutErasePanel s).sense = s.sense ∧
    (cutErasePanel s).area = s.area ∧ (cutErasePanel s).cmd = s.cmd ∧ (cutErasePanel s).notice = s.notice ∧
    (cutErasePanel s).store = s.store ∧ (cutErasePanel s).gapDue = s.gapDue ∧
    (cutErasePanel s).reached = s.reached := by
  simp [cutErasePanel]

@[simp] theorem endPriming_frame (s : State) :
    (endPriming s).pending = s.pending ∧ (endPriming s).mem = s.mem ∧ (endPriming s).bus = s.bus ∧
    (endPriming s).wmu = s.wmu ∧ (endPriming s).port = s.port ∧ (endPriming s).table = s.table ∧
    (endPriming s).sets = s.sets ∧ (endPriming s).sched = s.sched ∧ (endPriming s).lit = s.lit ∧
    (endPriming s).link = s.link ∧ (endPriming s).latches = s.latches ∧ (endPriming s).seq = s.seq ∧
    (endPriming s).sense = s.sense ∧ (endPriming s).area = s.area ∧ (endPriming s).cmd = s.cmd ∧
    (endPriming s).notice = s.notice ∧ (endPriming s).store = s.store ∧ (endPriming s).gapDue = s.gapDue ∧
    (endPriming s).reached = s.reached := by
  unfold endPriming
  repeat' split
  all_goals simp

@[simp] theorem abandonErase_frame (s : State) :
    (abandonErase s).pending = s.pending ∧ (abandonErase s).mem = s.mem ∧ (abandonErase s).bus = s.bus ∧
    (abandonErase s).wmu = s.wmu ∧ (abandonErase s).table = s.table ∧ (abandonErase s).sets = s.sets ∧
    (abandonErase s).lit = s.lit ∧ (abandonErase s).link = s.link ∧ (abandonErase s).latches = s.latches ∧
    (abandonErase s).panel = s.panel ∧ (abandonErase s).period = s.period ∧ (abandonErase s).seq = s.seq ∧
    (abandonErase s).sense = s.sense ∧ (abandonErase s).area = s.area ∧ (abandonErase s).notice = s.notice ∧
    (abandonErase s).store = s.store ∧ (abandonErase s).gapDue = s.gapDue ∧
    (abandonErase s).freeCount = s.freeCount := by
  simp [abandonErase]

@[simp] theorem lossEffects_frame (s : State) :
    (lossEffects s).pending = s.pending ∧ (lossEffects s).mem = s.mem ∧ (lossEffects s).latches = s.latches ∧
    (lossEffects s).seq = s.seq ∧ (lossEffects s).sense = s.sense ∧ (lossEffects s).area = s.area ∧
    (lossEffects s).notice = s.notice ∧ (lossEffects s).store = s.store ∧ (lossEffects s).gapDue = s.gapDue ∧
    (lossEffects s).freeCount = s.freeCount := by
  unfold lossEffects
  dsimp only
  repeat' split
  all_goals simp

@[simp] theorem lossInGap_frame (s : State) :
    (lossInGap s).pending = s.pending ∧ (lossInGap s).mem = s.mem ∧ (lossInGap s).latches = s.latches ∧
    (lossInGap s).sense = s.sense ∧ (lossInGap s).area = s.area ∧ (lossInGap s).store = s.store ∧
    (lossInGap s).gapDue = s.gapDue ∧ (lossInGap s).freeCount = s.freeCount := by
  simp [lossInGap]

@[simp] theorem lossInResuming_frame (s : State) :
    (lossInResuming s).pending = s.pending ∧ (lossInResuming s).mem = s.mem ∧
    (lossInResuming s).latches = s.latches ∧ (lossInResuming s).sense = s.sense ∧
    (lossInResuming s).area = s.area ∧ (lossInResuming s).store = s.store ∧
    (lossInResuming s).gapDue = s.gapDue ∧ (lossInResuming s).freeCount = s.freeCount := by
  simp [lossInResuming]

@[simp] theorem expireHold_frame (s : State) :
    (expireHold s).pending = s.pending ∧ (expireHold s).mem = s.mem ∧ (expireHold s).sched = s.sched ∧
    (expireHold s).lit = s.lit ∧ (expireHold s).link = s.link ∧ (expireHold s).latches = s.latches ∧
    (expireHold s).panel = s.panel ∧ (expireHold s).period = s.period ∧ (expireHold s).seq = s.seq ∧
    (expireHold s).sense = s.sense ∧ (expireHold s).cmd = s.cmd ∧ (expireHold s).store = s.store ∧
    (expireHold s).gapDue = s.gapDue := by
  unfold expireHold
  repeat' split
  all_goals simp

@[simp] theorem reachLimits_reachAfterLoss_frame (s : State) :
    (reachLimits.reachAfterLoss s).pending = s.pending ∧ (reachLimits.reachAfterLoss s).mem = s.mem ∧
    (reachLimits.reachAfterLoss s).latches = s.latches ∧ (reachLimits.reachAfterLoss s).sense = s.sense ∧
    (reachLimits.reachAfterLoss s).area = s.area ∧ (reachLimits.reachAfterLoss s).store = s.store ∧
    (reachLimits.reachAfterLoss s).gapDue = s.gapDue ∧
    (reachLimits.reachAfterLoss s).freeCount = s.freeCount := by
  simp [reachLimits.reachAfterLoss]

@[simp] theorem reachLimits_frame (s : State) :
    (reachLimits s).pending = s.pending ∧ (reachLimits s).mem = s.mem ∧ (reachLimits s).latches = s.latches ∧
    (reachLimits s).sense = s.sense ∧ (reachLimits s).area = s.area ∧ (reachLimits s).store = s.store ∧
    (reachLimits s).gapDue = s.gapDue := by
  unfold reachLimits
  repeat' split
  all_goals simp

@[simp] theorem installSettings_frame (t : Settings) (s : State) :
    (installSettings t s).pending = s.pending ∧ (installSettings t s).mem = s.mem ∧
    (installSettings t s).latches = s.latches ∧ (installSettings t s).sense = s.sense ∧
    (installSettings t s).gapDue = s.gapDue := by
  simp [installSettings]

@[simp] theorem frameEnd_frame (s : State) :
    (frameEnd s).pending = s.pending ∧ (frameEnd s).mem = s.mem ∧ (frameEnd s).latches = s.latches ∧
    (frameEnd s).sense = s.sense ∧ (frameEnd s).gapDue = s.gapDue := by
  unfold frameEnd installStaged
  dsimp only
  repeat' split
  all_goals simp

@[simp] theorem endPeriod_frame (p : Period) (s : State) :
    (endPeriod p s).pending = s.pending ∧ (endPeriod p s).mem = s.mem ∧ (endPeriod p s).latches = s.latches ∧
    (endPeriod p s).sense = s.sense ∧ (endPeriod p s).gapDue = s.gapDue := by
  unfold endPeriod
  dsimp only
  split <;> simp

@[simp] theorem cutOperation_frame (op : RowOp) (s : State) :
    (cutOperation op s).pending = s.pending ∧ (cutOperation op s).mem = s.mem ∧
    (cutOperation op s).port = s.port ∧ (cutOperation op s).lit = s.lit ∧ (cutOperation op s).link = s.link ∧
    (cutOperation op s).latches = s.latches ∧ (cutOperation op s).seq = s.seq ∧
    (cutOperation op s).sense = s.sense ∧ (cutOperation op s).cmd = s.cmd ∧
    (cutOperation op s).store = s.store ∧ (cutOperation op s).gapDue = s.gapDue ∧
    (cutOperation op s).reached = s.reached := by
  unfold cutOperation
  split <;> simp

@[simp] theorem cutErase_frame (s : State) :
    (cutErase s).pending = s.pending ∧ (cutErase s).mem = s.mem ∧ (cutErase s).lit = s.lit ∧
    (cutErase s).link = s.link ∧ (cutErase s).latches = s.latches ∧ (cutErase s).period = s.period ∧
    (cutErase s).seq = s.seq ∧ (cutErase s).sense = s.sense ∧ (cutErase s).store = s.store ∧
    (cutErase s).gapDue = s.gapDue := by
  unfold cutErase
  dsimp only
  split <;> simp

@[simp] theorem cutWork_frame (p : Period) (s : State) :
    (cutWork p s).pending = s.pending ∧ (cutWork p s).mem = s.mem ∧ (cutWork p s).lit = s.lit ∧
    (cutWork p s).link = s.link ∧ (cutWork p s).latches = s.latches ∧ (cutWork p s).seq = s.seq ∧
    (cutWork p s).sense = s.sense ∧ (cutWork p s).store = s.store ∧ (cutWork p s).gapDue = s.gapDue := by
  unfold cutWork
  repeat' split
  all_goals simp

@[simp] theorem cutPeriod_frame (s : State) :
    (cutPeriod s).pending = s.pending ∧ (cutPeriod s).mem = s.mem ∧ (cutPeriod s).lit = s.lit ∧
    (cutPeriod s).link = s.link ∧ (cutPeriod s).latches = s.latches ∧ (cutPeriod s).seq = s.seq ∧
    (cutPeriod s).sense = s.sense ∧ (cutPeriod s).store = s.store ∧ (cutPeriod s).gapDue = s.gapDue := by
  unfold cutPeriod
  split <;> simp

@[simp] theorem leaveLit_frame (s : State) :
    (leaveLit s).pending = s.pending ∧ (leaveLit s).mem = s.mem ∧ (leaveLit s).latches = s.latches ∧
    (leaveLit s).gapDue = s.gapDue := by
  unfold leaveLit installStaged
  dsimp only
  split <;> simp

@[simp] theorem completeArea_frame (a : AreaOp) (s : State) :
    (completeArea a s).pending = s.pending ∧ (completeArea a s).mem = s.mem ∧ (completeArea a s).bus = s.bus ∧
    (completeArea a s).wmu = s.wmu ∧ (completeArea a s).table = s.table ∧ (completeArea a s).sets = s.sets ∧
    (completeArea a s).sched = s.sched ∧ (completeArea a s).lit = s.lit ∧ (completeArea a s).link = s.link ∧
    (completeArea a s).latches = s.latches ∧ (completeArea a s).panel = s.panel ∧
    (completeArea a s).period = s.period ∧ (completeArea a s).seq = s.seq ∧
    (completeArea a s).sense = s.sense ∧ (completeArea a s).notice = s.notice ∧
    (completeArea a s).store = s.store ∧ (completeArea a s).gapDue = s.gapDue ∧
    (completeArea a s).freeCount = s.freeCount := by
  simp [completeArea]

@[simp] theorem areaFrom_frame (a : AreaOp) (r : Nat) (s : State) :
    (areaFrom a r s).pending = s.pending ∧ (areaFrom a r s).mem = s.mem ∧ (areaFrom a r s).bus = s.bus ∧
    (areaFrom a r s).wmu = s.wmu ∧ (areaFrom a r s).table = s.table ∧ (areaFrom a r s).sets = s.sets ∧
    (areaFrom a r s).sched = s.sched ∧ (areaFrom a r s).lit = s.lit ∧ (areaFrom a r s).link = s.link ∧
    (areaFrom a r s).latches = s.latches ∧ (areaFrom a r s).panel = s.panel ∧
    (areaFrom a r s).period = s.period ∧ (areaFrom a r s).seq = s.seq ∧ (areaFrom a r s).sense = s.sense ∧
    (areaFrom a r s).notice = s.notice ∧ (areaFrom a r s).store = s.store ∧
    (areaFrom a r s).gapDue = s.gapDue ∧ (areaFrom a r s).freeCount = s.freeCount := by
  unfold areaFrom
  split <;> simp

/-- With an abort pending the area completes after the word in hand, the last one included (R160). -/
theorem areaNext_of_abort {a : AreaOp} (h : a.abortPending = true) (s : State) :
    areaNext a s = completeArea a s := by
  simp [areaNext, h]

@[simp] theorem areaNext_frame (a : AreaOp) (s : State) :
    (areaNext a s).pending = s.pending ∧ (areaNext a s).mem = s.mem ∧ (areaNext a s).bus = s.bus ∧
    (areaNext a s).wmu = s.wmu ∧ (areaNext a s).table = s.table ∧ (areaNext a s).sets = s.sets ∧
    (areaNext a s).sched = s.sched ∧ (areaNext a s).lit = s.lit ∧ (areaNext a s).link = s.link ∧
    (areaNext a s).latches = s.latches ∧ (areaNext a s).panel = s.panel ∧ (areaNext a s).period = s.period ∧
    (areaNext a s).seq = s.seq ∧ (areaNext a s).sense = s.sense ∧ (areaNext a s).notice = s.notice ∧
    (areaNext a s).store = s.store ∧ (areaNext a s).gapDue = s.gapDue ∧
    (areaNext a s).freeCount = s.freeCount := by
  unfold areaNext
  repeat' split
  all_goals simp

@[simp] theorem placeArea_frame (offer : Bool) (r : Row) (w : WordIx) (rise fall : Word) (s : State) :
    (placeArea offer r w rise fall s).pending = s.pending ∧ (placeArea offer r w rise fall s).mem = s.mem ∧
    (placeArea offer r w rise fall s).sched = s.sched ∧ (placeArea offer r w rise fall s).lit = s.lit ∧
    (placeArea offer r w rise fall s).link = s.link ∧ (placeArea offer r w rise fall s).latches = s.latches ∧
    (placeArea offer r w rise fall s).panel = s.panel ∧ (placeArea offer r w rise fall s).period = s.period ∧
    (placeArea offer r w rise fall s).seq = s.seq ∧ (placeArea offer r w rise fall s).sense = s.sense ∧
    (placeArea offer r w rise fall s).cmd = s.cmd ∧ (placeArea offer r w rise fall s).store = s.store ∧
    (placeArea offer r w rise fall s).gapDue = s.gapDue := by
  unfold placeArea
  repeat' split
  all_goals first
    | (simp_all; done)
    | (rename_i hm; have := mergeDifference_frame hm; simp_all)

@[simp] theorem acceptRepaint_frame (s : State) :
    (acceptRepaint s).pending = s.pending ∧ (acceptRepaint s).mem = s.mem ∧ (acceptRepaint s).sched = s.sched ∧
    (acceptRepaint s).lit = s.lit ∧ (acceptRepaint s).link = s.link ∧ (acceptRepaint s).latches = s.latches ∧
    (acceptRepaint s).panel = s.panel ∧ (acceptRepaint s).period = s.period ∧ (acceptRepaint s).seq = s.seq ∧
    (acceptRepaint s).sense = s.sense ∧ (acceptRepaint s).store = s.store ∧
    (acceptRepaint s).gapDue = s.gapDue := by
  unfold acceptRepaint
  dsimp only
  split <;> simp

@[simp] theorem acceptClear_frame (s : State) :
    (acceptClear s).pending = s.pending ∧ (acceptClear s).mem = s.mem ∧ (acceptClear s).bus = s.bus ∧
    (acceptClear s).wmu = s.wmu ∧ (acceptClear s).table = s.table ∧ (acceptClear s).sets = s.sets ∧
    (acceptClear s).lit = s.lit ∧ (acceptClear s).link = s.link ∧ (acceptClear s).latches = s.latches ∧
    (acceptClear s).panel = s.panel ∧ (acceptClear s).period = s.period ∧ (acceptClear s).seq = s.seq ∧
    (acceptClear s).sense = s.sense ∧ (acceptClear s).area = s.area ∧ (acceptClear s).notice = s.notice ∧
    (acceptClear s).store = s.store ∧ (acceptClear s).gapDue = s.gapDue ∧
    (acceptClear s).freeCount = s.freeCount := by
  unfold acceptClear
  split <;> simp

@[simp] theorem acceptArea_frame (s : State) :
    (acceptArea s).pending = s.pending ∧ (acceptArea s).mem = s.mem ∧ (acceptArea s).bus = s.bus ∧
    (acceptArea s).wmu = s.wmu ∧ (acceptArea s).table = s.table ∧ (acceptArea s).sets = s.sets ∧
    (acceptArea s).sched = s.sched ∧ (acceptArea s).lit = s.lit ∧ (acceptArea s).link = s.link ∧
    (acceptArea s).latches = s.latches ∧ (acceptArea s).panel = s.panel ∧ (acceptArea s).period = s.period ∧
    (acceptArea s).seq = s.seq ∧ (acceptArea s).sense = s.sense ∧ (acceptArea s).notice = s.notice ∧
    (acceptArea s).store = s.store ∧ (acceptArea s).gapDue = s.gapDue ∧
    (acceptArea s).freeCount = s.freeCount := by
  unfold acceptArea
  dsimp only
  split <;> simp

@[simp] theorem acceptBlank_frame (s : State) :
    (acceptBlank s).pending = s.pending ∧ (acceptBlank s).mem = s.mem ∧ (acceptBlank s).latches = s.latches ∧
    (acceptBlank s).gapDue = s.gapDue := by
  unfold acceptBlank
  dsimp only
  split <;> simp

@[simp] theorem acceptUnblank_frame (s : State) :
    (acceptUnblank s).pending = s.pending ∧ (acceptUnblank s).mem = s.mem ∧ (acceptUnblank s).bus = s.bus ∧
    (acceptUnblank s).wmu = s.wmu ∧ (acceptUnblank s).table = s.table ∧ (acceptUnblank s).sets = s.sets ∧
    (acceptUnblank s).sched = s.sched ∧ (acceptUnblank s).lit = s.lit ∧ (acceptUnblank s).link = s.link ∧
    (acceptUnblank s).latches = s.latches ∧ (acceptUnblank s).panel = s.panel ∧
    (acceptUnblank s).period = s.period ∧ (acceptUnblank s).sense = s.sense ∧ (acceptUnblank s).area = s.area ∧
    (acceptUnblank s).notice = s.notice ∧ (acceptUnblank s).store = s.store ∧
    (acceptUnblank s).gapDue = s.gapDue ∧ (acceptUnblank s).freeCount = s.freeCount := by
  unfold acceptUnblank
  split <;> simp

@[simp] theorem acceptProbe_frame (s : State) :
    (acceptProbe s).pending = s.pending ∧ (acceptProbe s).mem = s.mem ∧ (acceptProbe s).bus = s.bus ∧
    (acceptProbe s).wmu = s.wmu ∧ (acceptProbe s).table = s.table ∧ (acceptProbe s).sets = s.sets ∧
    (acceptProbe s).sched = s.sched ∧ (acceptProbe s).lit = s.lit ∧ (acceptProbe s).latches = s.latches ∧
    (acceptProbe s).panel = s.panel ∧ (acceptProbe s).period = s.period ∧ (acceptProbe s).seq = s.seq ∧
    (acceptProbe s).sense = s.sense ∧ (acceptProbe s).area = s.area ∧ (acceptProbe s).notice = s.notice ∧
    (acceptProbe s).store = s.store ∧ (acceptProbe s).gapDue = s.gapDue ∧
    (acceptProbe s).freeCount = s.freeCount := by
  unfold acceptProbe
  repeat' split
  all_goals simp

@[simp] theorem acceptAbort_frame (s : State) :
    (acceptAbort s).pending = s.pending ∧ (acceptAbort s).mem = s.mem ∧ (acceptAbort s).bus = s.bus ∧
    (acceptAbort s).wmu = s.wmu ∧ (acceptAbort s).table = s.table ∧ (acceptAbort s).sets = s.sets ∧
    (acceptAbort s).sched = s.sched ∧ (acceptAbort s).lit = s.lit ∧ (acceptAbort s).link = s.link ∧
    (acceptAbort s).latches = s.latches ∧ (acceptAbort s).panel = s.panel ∧ (acceptAbort s).period = s.period ∧
    (acceptAbort s).seq = s.seq ∧ (acceptAbort s).sense = s.sense ∧ (acceptAbort s).area = s.area ∧
    (acceptAbort s).notice = s.notice ∧ (acceptAbort s).store = s.store ∧ (acceptAbort s).gapDue = s.gapDue ∧
    (acceptAbort s).freeCount = s.freeCount := by
  simp [acceptAbort]

@[simp] theorem acceptStoreRead_frame (s : State) :
    (acceptStoreRead s).pending = s.pending ∧ (acceptStoreRead s).mem = s.mem ∧
    (acceptStoreRead s).bus = s.bus ∧ (acceptStoreRead s).wmu = s.wmu ∧ (acceptStoreRead s).table = s.table ∧
    (acceptStoreRead s).sets = s.sets ∧ (acceptStoreRead s).sched = s.sched ∧ (acceptStoreRead s).lit = s.lit ∧
    (acceptStoreRead s).link = s.link ∧ (acceptStoreRead s).latches = s.latches ∧
    (acceptStoreRead s).panel = s.panel ∧ (acceptStoreRead s).period = s.period ∧
    (acceptStoreRead s).seq = s.seq ∧ (acceptStoreRead s).sense = s.sense ∧ (acceptStoreRead s).area = s.area ∧
    (acceptStoreRead s).notice = s.notice ∧ (acceptStoreRead s).store = s.store ∧
    (acceptStoreRead s).gapDue = s.gapDue ∧ (acceptStoreRead s).freeCount = s.freeCount := by
  unfold acceptStoreRead
  dsimp only
  split <;> simp

@[simp] theorem acceptStoreErase_frame (s : State) :
    (acceptStoreErase s).pending = s.pending ∧ (acceptStoreErase s).mem = s.mem ∧
    (acceptStoreErase s).bus = s.bus ∧ (acceptStoreErase s).wmu = s.wmu ∧
    (acceptStoreErase s).table = s.table ∧ (acceptStoreErase s).sets = s.sets ∧
    (acceptStoreErase s).sched = s.sched ∧ (acceptStoreErase s).lit = s.lit ∧
    (acceptStoreErase s).link = s.link ∧ (acceptStoreErase s).latches = s.latches ∧
    (acceptStoreErase s).panel = s.panel ∧ (acceptStoreErase s).period = s.period ∧
    (acceptStoreErase s).seq = s.seq ∧ (acceptStoreErase s).sense = s.sense ∧
    (acceptStoreErase s).area = s.area ∧ (acceptStoreErase s).notice = s.notice ∧
    (acceptStoreErase s).gapDue = s.gapDue ∧ (acceptStoreErase s).freeCount = s.freeCount := by
  unfold acceptStoreErase
  dsimp only
  repeat' split
  all_goals simp

@[simp] theorem acceptStoreWrite_frame (s : State) :
    (acceptStoreWrite s).pending = s.pending ∧ (acceptStoreWrite s).mem = s.mem ∧
    (acceptStoreWrite s).bus = s.bus ∧ (acceptStoreWrite s).wmu = s.wmu ∧
    (acceptStoreWrite s).table = s.table ∧ (acceptStoreWrite s).sets = s.sets ∧
    (acceptStoreWrite s).sched = s.sched ∧ (acceptStoreWrite s).lit = s.lit ∧
    (acceptStoreWrite s).link = s.link ∧ (acceptStoreWrite s).latches = s.latches ∧
    (acceptStoreWrite s).panel = s.panel ∧ (acceptStoreWrite s).period = s.period ∧
    (acceptStoreWrite s).seq = s.seq ∧ (acceptStoreWrite s).sense = s.sense ∧
    (acceptStoreWrite s).area = s.area ∧ (acceptStoreWrite s).notice = s.notice ∧
    (acceptStoreWrite s).gapDue = s.gapDue ∧ (acceptStoreWrite s).freeCount = s.freeCount := by
  unfold acceptStoreWrite
  dsimp only
  repeat' split
  all_goals simp

@[simp] theorem acceptApply_frame (s : State) :
    (acceptApply s).pending = s.pending ∧ (acceptApply s).mem = s.mem ∧ (acceptApply s).latches = s.latches ∧
    (acceptApply s).sense = s.sense ∧ (acceptApply s).gapDue = s.gapDue := by
  unfold acceptApply installStaged
  dsimp only
  repeat' split
  all_goals simp

@[simp] theorem acceptBad_frame (s : State) :
    (acceptBad s).pending = s.pending ∧ (acceptBad s).mem = s.mem ∧ (acceptBad s).bus = s.bus ∧
    (acceptBad s).wmu = s.wmu ∧ (acceptBad s).table = s.table ∧ (acceptBad s).sets = s.sets ∧
    (acceptBad s).sched = s.sched ∧ (acceptBad s).lit = s.lit ∧ (acceptBad s).link = s.link ∧
    (acceptBad s).latches = s.latches ∧ (acceptBad s).panel = s.panel ∧ (acceptBad s).period = s.period ∧
    (acceptBad s).seq = s.seq ∧ (acceptBad s).sense = s.sense ∧ (acceptBad s).area = s.area ∧
    (acceptBad s).notice = s.notice ∧ (acceptBad s).store = s.store ∧ (acceptBad s).gapDue = s.gapDue ∧
    (acceptBad s).freeCount = s.freeCount := by
  simp [acceptBad]

@[simp] theorem acceptCode_frame (code : Byte) (s : State) :
    (acceptCode code s).pending = s.pending ∧ (acceptCode code s).mem = s.mem ∧
    (acceptCode code s).latches = s.latches ∧ (acceptCode code s).gapDue = s.gapDue := by
  unfold acceptCode
  repeat' split
  all_goals simp

@[simp] theorem acceptCommand_frame (code : Byte) (s : State) :
    (acceptCommand code s).pending = s.pending ∧ (acceptCommand code s).mem = s.mem ∧
    (acceptCommand code s).latches = s.latches ∧ (acceptCommand code s).gapDue = s.gapDue := by
  simp [acceptCommand]

@[simp] theorem withdrawWord_frame (a : AreaOp) (s : State) :
    (withdrawWord a s).pending = s.pending ∧ (withdrawWord a s).mem = s.mem ∧ (withdrawWord a s).bus = s.bus ∧
    (withdrawWord a s).wmu = s.wmu ∧ (withdrawWord a s).table = s.table ∧ (withdrawWord a s).sets = s.sets ∧
    (withdrawWord a s).sched = s.sched ∧ (withdrawWord a s).lit = s.lit ∧ (withdrawWord a s).link = s.link ∧
    (withdrawWord a s).latches = s.latches ∧ (withdrawWord a s).panel = s.panel ∧
    (withdrawWord a s).period = s.period ∧ (withdrawWord a s).seq = s.seq ∧ (withdrawWord a s).sense = s.sense ∧
    (withdrawWord a s).notice = s.notice ∧ (withdrawWord a s).store = s.store ∧
    (withdrawWord a s).gapDue = s.gapDue := by
  simp [withdrawWord]

@[simp] theorem abortArea_frame (a : AreaOp) (s : State) :
    (abortArea a s).pending = s.pending ∧ (abortArea a s).mem = s.mem ∧ (abortArea a s).bus = s.bus ∧
    (abortArea a s).wmu = s.wmu ∧ (abortArea a s).table = s.table ∧ (abortArea a s).sets = s.sets ∧
    (abortArea a s).sched = s.sched ∧ (abortArea a s).lit = s.lit ∧ (abortArea a s).link = s.link ∧
    (abortArea a s).latches = s.latches ∧ (abortArea a s).panel = s.panel ∧ (abortArea a s).period = s.period ∧
    (abortArea a s).seq = s.seq ∧ (abortArea a s).sense = s.sense ∧ (abortArea a s).notice = s.notice ∧
    (abortArea a s).store = s.store ∧ (abortArea a s).gapDue = s.gapDue := by
  unfold abortArea
  repeat' split
  all_goals simp

/-- What an ABORT does to the area (R160): it goes on with its granted word and the abort pending, or it completes
with that word withdrawn; the first, with the word not granted before, only where the port may grant it now. -/
theorem abortArea_cases (a : AreaOp) (s : State) :
    (abortArea a s).area = some { a with abortPending := true, unit := .granted } ∧
        (abortArea a s).cmd = s.cmd ∧ (abortArea a s).port = s.port ∧
        (a.unit = .granted ∨ a.unit = .requested ∧ areaGrantable s = true) ∨
      (abortArea a s = withdrawWord a s ∨ abortArea a s = withdrawWord a (drawFree s)) ∧ a.unit ≠ .granted := by
  unfold abortArea
  split
  · next h =>
    have hu : a.unit = .granted := by simpa using h
    exact .inl ⟨by rw [← hu]; rfl, rfl, rfl, .inl hu⟩
  · next h =>
    have hu : a.unit ≠ .granted := by simpa using h
    split
    · next hg =>
      have hg : a.unit = .requested ∧ areaGrantable s = true := by simpa using hg
      split
      · exact .inl ⟨by simp, by simp, by simp, .inr hg⟩
      · exact .inr ⟨.inr rfl, hu⟩
    · exact .inr ⟨.inl rfl, hu⟩

@[simp] theorem takeAbort_frame (r : Running) (s : State) :
    (takeAbort r s).pending = s.pending ∧ (takeAbort r s).mem = s.mem ∧ (takeAbort r s).bus = s.bus ∧
    (takeAbort r s).wmu = s.wmu ∧ (takeAbort r s).table = s.table ∧ (takeAbort r s).sets = s.sets ∧
    (takeAbort r s).lit = s.lit ∧ (takeAbort r s).link = s.link ∧ (takeAbort r s).latches = s.latches ∧
    (takeAbort r s).panel = s.panel ∧ (takeAbort r s).period = s.period ∧ (takeAbort r s).seq = s.seq ∧
    (takeAbort r s).sense = s.sense ∧ (takeAbort r s).notice = s.notice ∧ (takeAbort r s).gapDue = s.gapDue := by
  unfold takeAbort
  dsimp only
  repeat' split
  all_goals simp

@[simp] theorem storeCommandWord_frame (w : WordIx) (n : Word) (s : State) :
    (storeCommandWord w n s).pending = s.pending ∧ (storeCommandWord w n s).bus = s.bus ∧
    (storeCommandWord w n s).wmu = s.wmu ∧ (storeCommandWord w n s).port = s.port ∧
    (storeCommandWord w n s).table = s.table ∧ (storeCommandWord w n s).sets = s.sets ∧
    (storeCommandWord w n s).sched = s.sched ∧ (storeCommandWord w n s).lit = s.lit ∧
    (storeCommandWord w n s).link = s.link ∧ (storeCommandWord w n s).latches = s.latches ∧
    (storeCommandWord w n s).panel = s.panel ∧ (storeCommandWord w n s).period = s.period ∧
    (storeCommandWord w n s).seq = s.seq ∧ (storeCommandWord w n s).sense = s.sense ∧
    (storeCommandWord w n s).area = s.area ∧ (storeCommandWord w n s).notice = s.notice ∧
    (storeCommandWord w n s).store = s.store ∧ (storeCommandWord w n s).gapDue = s.gapDue ∧
    (storeCommandWord w n s).freeCount = s.freeCount ∧
    (storeCommandWord w n s).reached = s.reached := by
  simp [storeCommandWord]

@[simp] theorem seeStored_frame (w : WordIx) (n : Word) (s : State) :
    (seeStored w n s).pending = s.pending ∧ (seeStored w n s).mem = s.mem ∧
    (seeStored w n s).latches = s.latches ∧ (seeStored w n s).gapDue = s.gapDue := by
  unfold seeStored
  repeat' split
  all_goals simp

@[simp] theorem seeOffered_frame (r : Running) (w : WordIx) (n : Word) (s : State) :
    (seeOffered r w n s).pending = s.pending ∧ (seeOffered r w n s).mem = s.mem ∧
    (seeOffered r w n s).bus = s.bus ∧ (seeOffered r w n s).wmu = s.wmu ∧
    (seeOffered r w n s).table = s.table ∧ (seeOffered r w n s).sets = s.sets ∧
    (seeOffered r w n s).lit = s.lit ∧ (seeOffered r w n s).link = s.link ∧
    (seeOffered r w n s).latches = s.latches ∧ (seeOffered r w n s).panel = s.panel ∧
    (seeOffered r w n s).period = s.period ∧ (seeOffered r w n s).seq = s.seq ∧
    (seeOffered r w n s).sense = s.sense ∧ (seeOffered r w n s).gapDue = s.gapDue := by
  unfold seeOffered
  split <;> simp

@[simp] theorem serveCommand_frame (view : BitVec 3) (w : WordIx) (d : Word) (s : State) :
    (serveCommand view w d s).pending = s.pending ∧ (serveCommand view w d s).latches = s.latches ∧
    (serveCommand view w d s).gapDue = s.gapDue := by
  unfold serveCommand
  split <;> simp

@[simp] theorem serveImage_frame (view : BitVec 3) (r : Row) (w : WordIx) (d : Word) (s : State) :
    (serveImage view r w d s).pending = s.pending ∧ (serveImage view r w d s).sched = s.sched ∧
    (serveImage view r w d s).lit = s.lit ∧ (serveImage view r w d s).link = s.link ∧
    (serveImage view r w d s).latches = s.latches ∧ (serveImage view r w d s).panel = s.panel ∧
    (serveImage view r w d s).period = s.period ∧ (serveImage view r w d s).seq = s.seq ∧
    (serveImage view r w d s).sense = s.sense ∧ (serveImage view r w d s).cmd = s.cmd ∧
    (serveImage view r w d s).store = s.store ∧ (serveImage view r w d s).gapDue = s.gapDue := by
  unfold serveImage
  dsimp only
  split <;> simp

@[simp] theorem clearNotices_frame (data : Word) (s : State) :
    (clearNotices data s).pending = s.pending ∧ (clearNotices data s).mem = s.mem ∧
    (clearNotices data s).wmu = s.wmu ∧ (clearNotices data s).table = s.table ∧
    (clearNotices data s).sets = s.sets ∧ (clearNotices data s).sched = s.sched ∧
    (clearNotices data s).lit = s.lit ∧ (clearNotices data s).link = s.link ∧
    (clearNotices data s).latches = s.latches ∧ (clearNotices data s).panel = s.panel ∧
    (clearNotices data s).period = s.period ∧ (clearNotices data s).seq = s.seq ∧
    (clearNotices data s).sense = s.sense ∧ (clearNotices data s).area = s.area ∧
    (clearNotices data s).cmd = s.cmd ∧ (clearNotices data s).store = s.store ∧
    (clearNotices data s).gapDue = s.gapDue ∧ (clearNotices data s).freeCount = s.freeCount := by
  unfold clearNotices
  dsimp only
  split <;> simp

@[simp] theorem popThird_frame (s : State) :
    (popThird s).pending = s.pending ∧ (popThird s).mem = s.mem ∧ (popThird s).bus = s.bus ∧
    (popThird s).wmu = s.wmu ∧ (popThird s).table = s.table ∧ (popThird s).sets = s.sets ∧
    (popThird s).sched = s.sched ∧ (popThird s).lit = s.lit ∧ (popThird s).link = s.link ∧
    (popThird s).latches = s.latches ∧ (popThird s).panel = s.panel ∧ (popThird s).period = s.period ∧
    (popThird s).seq = s.seq ∧ (popThird s).sense = s.sense ∧ (popThird s).area = s.area ∧
    (popThird s).cmd = s.cmd ∧ (popThird s).notice = s.notice ∧ (popThird s).store = s.store ∧
    (popThird s).gapDue = s.gapDue ∧ (popThird s).freeCount = s.freeCount ∧
    (popThird s).reached = s.reached := by
  simp [popThird]

@[simp] theorem completeCommand_frame (s : State) :
    (completeCommand s).pending = s.pending ∧ (completeCommand s).mem = s.mem ∧
    (completeCommand s).bus = s.bus ∧ (completeCommand s).wmu = s.wmu ∧ (completeCommand s).table = s.table ∧
    (completeCommand s).sets = s.sets ∧ (completeCommand s).sched = s.sched ∧ (completeCommand s).lit = s.lit ∧
    (completeCommand s).link = s.link ∧ (completeCommand s).latches = s.latches ∧
    (completeCommand s).panel = s.panel ∧ (completeCommand s).period = s.period ∧
    (completeCommand s).seq = s.seq ∧ (completeCommand s).sense = s.sense ∧ (completeCommand s).area = s.area ∧
    (completeCommand s).store = s.store ∧ (completeCommand s).gapDue = s.gapDue ∧
    (completeCommand s).freeCount = s.freeCount := by
  simp [completeCommand]

@[simp] theorem commandWriteUnit_frame (r : Running) (w : WordIx) (v : Word) (rest : List (WordIx × Word)) (s : State) :
    (commandWriteUnit r w v rest s).pending = s.pending ∧ (commandWriteUnit r w v rest s).bus = s.bus ∧
    (commandWriteUnit r w v rest s).wmu = s.wmu ∧ (commandWriteUnit r w v rest s).table = s.table ∧
    (commandWriteUnit r w v rest s).sets = s.sets ∧ (commandWriteUnit r w v rest s).sched = s.sched ∧
    (commandWriteUnit r w v rest s).lit = s.lit ∧ (commandWriteUnit r w v rest s).link = s.link ∧
    (commandWriteUnit r w v rest s).latches = s.latches ∧ (commandWriteUnit r w v rest s).panel = s.panel ∧
    (commandWriteUnit r w v rest s).period = s.period ∧ (commandWriteUnit r w v rest s).seq = s.seq ∧
    (commandWriteUnit r w v rest s).sense = s.sense ∧ (commandWriteUnit r w v rest s).area = s.area ∧
    (commandWriteUnit r w v rest s).store = s.store ∧
    (commandWriteUnit r w v rest s).freeCount = s.freeCount := by
  unfold commandWriteUnit
  repeat' split
  all_goals simp

@[simp] theorem noticeUpdateUnit_frame (s : State) :
    (noticeUpdateUnit s).pending = s.pending ∧ (noticeUpdateUnit s).wmu = s.wmu ∧
    (noticeUpdateUnit s).table = s.table ∧ (noticeUpdateUnit s).sets = s.sets ∧
    (noticeUpdateUnit s).sched = s.sched ∧ (noticeUpdateUnit s).lit = s.lit ∧
    (noticeUpdateUnit s).link = s.link ∧ (noticeUpdateUnit s).latches = s.latches ∧
    (noticeUpdateUnit s).panel = s.panel ∧ (noticeUpdateUnit s).period = s.period ∧
    (noticeUpdateUnit s).seq = s.seq ∧ (noticeUpdateUnit s).sense = s.sense ∧
    (noticeUpdateUnit s).area = s.area ∧ (noticeUpdateUnit s).cmd = s.cmd ∧
    (noticeUpdateUnit s).notice = s.notice ∧ (noticeUpdateUnit s).store = s.store ∧
    (noticeUpdateUnit s).freeCount = s.freeCount := by
  unfold noticeUpdateUnit
  dsimp only
  split <;> simp

@[simp] theorem burstUnit_frame (s : State) :
    (burstUnit s).pending = s.pending ∧ (burstUnit s).bus = s.bus ∧ (burstUnit s).wmu = s.wmu ∧
    (burstUnit s).table = s.table ∧ (burstUnit s).sets = s.sets ∧ (burstUnit s).sched = s.sched ∧
    (burstUnit s).lit = s.lit ∧ (burstUnit s).link = s.link ∧ (burstUnit s).latches = s.latches ∧
    (burstUnit s).panel = s.panel ∧ (burstUnit s).period = s.period ∧ (burstUnit s).seq = s.seq ∧
    (burstUnit s).sense = s.sense ∧ (burstUnit s).area = s.area ∧ (burstUnit s).cmd = s.cmd ∧
    (burstUnit s).notice = s.notice ∧ (burstUnit s).store = s.store ∧
    (burstUnit s).freeCount = s.freeCount := by
  simp [burstUnit]

@[simp] theorem serveThird_frame (u : ThirdRank) (s : State) :
    (serveThird u s).pending = s.pending ∧ (serveThird u s).wmu = s.wmu ∧ (serveThird u s).table = s.table ∧
    (serveThird u s).sets = s.sets ∧ (serveThird u s).sched = s.sched ∧ (serveThird u s).lit = s.lit ∧
    (serveThird u s).link = s.link ∧ (serveThird u s).latches = s.latches ∧ (serveThird u s).panel = s.panel ∧
    (serveThird u s).period = s.period ∧ (serveThird u s).seq = s.seq ∧ (serveThird u s).sense = s.sense ∧
    (serveThird u s).area = s.area ∧ (serveThird u s).store = s.store ∧
    (serveThird u s).freeCount = s.freeCount := by
  unfold serveThird
  repeat' split
  all_goals simp

@[simp] theorem snapshotUnit_frame (op : RowOp) (c : Nat) (s : State) :
    (snapshotUnit op c s).pending = s.pending ∧ (snapshotUnit op c s).mem = s.mem ∧
    (snapshotUnit op c s).port = s.port ∧ (snapshotUnit op c s).sets = s.sets ∧
    (snapshotUnit op c s).lit = s.lit ∧ (snapshotUnit op c s).latches = s.latches ∧
    (snapshotUnit op c s).panel = s.panel ∧ (snapshotUnit op c s).period = s.period ∧
    (snapshotUnit op c s).seq = s.seq ∧ (snapshotUnit op c s).sense = s.sense ∧
    (snapshotUnit op c s).cmd = s.cmd ∧ (snapshotUnit op c s).store = s.store := by
  unfold snapshotUnit
  split <;> simp

@[simp] theorem askSnapshot_frame (s : State) :
    (askSnapshot s).pending = s.pending ∧ (askSnapshot s).mem = s.mem ∧ (askSnapshot s).bus = s.bus ∧
    (askSnapshot s).wmu = s.wmu ∧ (askSnapshot s).port = s.port ∧ (askSnapshot s).table = s.table ∧
    (askSnapshot s).sets = s.sets ∧ (askSnapshot s).lit = s.lit ∧ (askSnapshot s).link = s.link ∧
    (askSnapshot s).latches = s.latches ∧ (askSnapshot s).panel = s.panel ∧ (askSnapshot s).period = s.period ∧
    (askSnapshot s).seq = s.seq ∧ (askSnapshot s).sense = s.sense ∧ (askSnapshot s).area = s.area ∧
    (askSnapshot s).cmd = s.cmd ∧ (askSnapshot s).notice = s.notice ∧ (askSnapshot s).store = s.store ∧
    (askSnapshot s).gapDue = s.gapDue ∧ (askSnapshot s).freeCount = s.freeCount ∧
    (askSnapshot s).reached = s.reached := by
  unfold askSnapshot
  repeat' split
  all_goals simp

@[simp] theorem areaWordUnit_frame (a : AreaOp) (s : State) :
    (areaWordUnit a s).pending = s.pending ∧ (areaWordUnit a s).lit = s.lit ∧
    (areaWordUnit a s).link = s.link ∧ (areaWordUnit a s).latches = s.latches ∧
    (areaWordUnit a s).panel = s.panel ∧ (areaWordUnit a s).period = s.period ∧
    (areaWordUnit a s).seq = s.seq ∧ (areaWordUnit a s).sense = s.sense ∧
    (areaWordUnit a s).store = s.store := by
  simp [areaWordUnit]

/-! After any unit of the port the record of what may have been granted is empty, and `gapDue` says whether the unit was
the processor's (R17). -/

@[simp] theorem burstUnit_record (s : State) : UnitEnded false (burstUnit s) := unitEnds_record _ _

@[simp] theorem noticeUpdateUnit_record (s : State) : UnitEnded false (noticeUpdateUnit s) := unitEnds_record _ _

@[simp] theorem commandWriteUnit_record (r : Running) (w : WordIx) (v : Word) (rest : List (WordIx × Word))
    (s : State) : UnitEnded false (commandWriteUnit r w v rest s) := unitEnds_record _ _

@[simp] theorem serveThird_record (u : ThirdRank) (s : State) : UnitEnded false (serveThird u s) := by
  unfold serveThird
  repeat' split
  all_goals exact unitEnds_record _ _

@[simp] theorem snapshotUnit_record (op : RowOp) (c : Nat) (s : State) : UnitEnded false (snapshotUnit op c s) :=
  unitEnds_record _ _

@[simp] theorem areaWordUnit_record (a : AreaOp) (s : State) : UnitEnded false (areaWordUnit a s) :=
  unitEnds_record _ _

/-- After the processor's unit it is known that no unit that waits has been granted (R17). -/
@[simp] theorem cycleServed_record (s : State) : UnitEnded true (cycleServed s) := unitEnds_record _ _

@[simp] theorem serveLow_frame (s : State) :
    (serveLow s).pending = s.pending ∧ (serveLow s).lit = s.lit ∧ (serveLow s).latches = s.latches ∧
    (serveLow s).panel = s.panel ∧ (serveLow s).period = s.period ∧ (serveLow s).seq = s.seq ∧
    (serveLow s).sense = s.sense ∧ (serveLow s).store = s.store := by
  unfold serveLow
  repeat' split
  all_goals simp

@[simp] theorem portGap_frame (s : State) :
    (portGap s).pending = s.pending ∧ (portGap s).lit = s.lit ∧ (portGap s).latches = s.latches ∧
    (portGap s).panel = s.panel ∧ (portGap s).period = s.period ∧ (portGap s).seq = s.seq ∧
    (portGap s).sense = s.sense ∧ (portGap s).store = s.store := by
  unfold portGap
  repeat' split
  all_goals simp

@[simp] theorem cycleServed_frame (s : State) :
    (cycleServed s).pending = s.pending ∧ (cycleServed s).mem = s.mem ∧ (cycleServed s).bus = s.bus ∧
    (cycleServed s).wmu = s.wmu ∧ (cycleServed s).port = s.port ∧ (cycleServed s).table = s.table ∧
    (cycleServed s).sets = s.sets ∧ (cycleServed s).sched = s.sched ∧ (cycleServed s).lit = s.lit ∧
    (cycleServed s).link = s.link ∧ (cycleServed s).latches = s.latches ∧ (cycleServed s).panel = s.panel ∧
    (cycleServed s).period = s.period ∧ (cycleServed s).seq = s.seq ∧ (cycleServed s).sense = s.sense ∧
    (cycleServed s).area = s.area ∧ (cycleServed s).cmd = s.cmd ∧ (cycleServed s).notice = s.notice ∧
    (cycleServed s).store = s.store ∧ (cycleServed s).freeCount = s.freeCount := by
  simp [cycleServed]

@[simp] theorem acceptWrite_frame (c : WriteCycle) (s : State) :
    (acceptWrite c s).pending = s.pending ∧ (acceptWrite c s).mem = s.mem ∧ (acceptWrite c s).port = s.port ∧
    (acceptWrite c s).table = s.table ∧ (acceptWrite c s).sets = s.sets ∧ (acceptWrite c s).sched = s.sched ∧
    (acceptWrite c s).lit = s.lit ∧ (acceptWrite c s).link = s.link ∧ (acceptWrite c s).latches = s.latches ∧
    (acceptWrite c s).panel = s.panel ∧ (acceptWrite c s).period = s.period ∧ (acceptWrite c s).seq = s.seq ∧
    (acceptWrite c s).sense = s.sense ∧ (acceptWrite c s).area = s.area ∧ (acceptWrite c s).cmd = s.cmd ∧
    (acceptWrite c s).notice = s.notice ∧ (acceptWrite c s).store = s.store ∧
    (acceptWrite c s).gapDue = s.gapDue ∧ (acceptWrite c s).freeCount = s.freeCount := by
  simp [acceptWrite]

@[simp] theorem takeEntry_frame (e : Entry) (rest : List Entry) (s : State) :
    (takeEntry e rest s).pending = s.pending ∧ (takeEntry e rest s).mem = s.mem ∧
    (takeEntry e rest s).port = s.port ∧ (takeEntry e rest s).sets = s.sets ∧
    (takeEntry e rest s).lit = s.lit ∧ (takeEntry e rest s).latches = s.latches ∧
    (takeEntry e rest s).panel = s.panel ∧ (takeEntry e rest s).period = s.period ∧
    (takeEntry e rest s).seq = s.seq ∧ (takeEntry e rest s).sense = s.sense ∧
    (takeEntry e rest s).cmd = s.cmd ∧ (takeEntry e rest s).store = s.store ∧
    (takeEntry e rest s).gapDue = s.gapDue ∧
    (takeEntry e rest s).reached = s.reached := by
  simp [takeEntry]

@[simp] theorem takeRow_frame (r : Row) (s : State) :
    (takeRow r s).pending = s.pending ∧ (takeRow r s).mem = s.mem ∧ (takeRow r s).bus = s.bus ∧
    (takeRow r s).wmu = s.wmu ∧ (takeRow r s).port = s.port ∧ (takeRow r s).table = s.table ∧
    (takeRow r s).lit = s.lit ∧ (takeRow r s).link = s.link ∧ (takeRow r s).latches = s.latches ∧
    (takeRow r s).panel = s.panel ∧ (takeRow r s).period = s.period ∧ (takeRow r s).seq = s.seq ∧
    (takeRow r s).sense = s.sense ∧ (takeRow r s).area = s.area ∧ (takeRow r s).cmd = s.cmd ∧
    (takeRow r s).notice = s.notice ∧ (takeRow r s).store = s.store ∧ (takeRow r s).gapDue = s.gapDue ∧
    (takeRow r s).freeCount = s.freeCount := by
  unfold takeRow
  split <;> simp

@[simp] theorem takeWork_takeResync_frame (s : State) :
    (takeWork.takeResync s).pending = s.pending ∧ (takeWork.takeResync s).mem = s.mem ∧
    (takeWork.takeResync s).bus = s.bus ∧ (takeWork.takeResync s).wmu = s.wmu ∧
    (takeWork.takeResync s).port = s.port ∧ (takeWork.takeResync s).table = s.table ∧
    (takeWork.takeResync s).lit = s.lit ∧ (takeWork.takeResync s).link = s.link ∧
    (takeWork.takeResync s).latches = s.latches ∧ (takeWork.takeResync s).panel = s.panel ∧
    (takeWork.takeResync s).period = s.period ∧ (takeWork.takeResync s).seq = s.seq ∧
    (takeWork.takeResync s).sense = s.sense ∧ (takeWork.takeResync s).area = s.area ∧
    (takeWork.takeResync s).cmd = s.cmd ∧ (takeWork.takeResync s).notice = s.notice ∧
    (takeWork.takeResync s).store = s.store ∧ (takeWork.takeResync s).gapDue = s.gapDue ∧
    (takeWork.takeResync s).freeCount = s.freeCount := by
  unfold takeWork.takeResync
  split <;> simp

@[simp] theorem takeWork_frame (s : State) :
    (takeWork s).pending = s.pending ∧ (takeWork s).mem = s.mem ∧ (takeWork s).port = s.port ∧
    (takeWork s).lit = s.lit ∧ (takeWork s).latches = s.latches ∧ (takeWork s).panel = s.panel ∧
    (takeWork s).period = s.period ∧ (takeWork s).seq = s.seq ∧ (takeWork s).sense = s.sense ∧
    (takeWork s).cmd = s.cmd ∧ (takeWork s).store = s.store ∧ (takeWork s).gapDue = s.gapDue := by
  unfold takeWork
  repeat' split
  all_goals simp

@[simp] theorem markStrobe_frame (p : Period) (s : State) :
    (markStrobe p s).pending = s.pending ∧ (markStrobe p s).mem = s.mem ∧ (markStrobe p s).bus = s.bus ∧
    (markStrobe p s).wmu = s.wmu ∧ (markStrobe p s).port = s.port ∧ (markStrobe p s).table = s.table ∧
    (markStrobe p s).sets = s.sets ∧ (markStrobe p s).sched = s.sched ∧ (markStrobe p s).lit = s.lit ∧
    (markStrobe p s).link = s.link ∧ (markStrobe p s).latches = s.latches ∧ (markStrobe p s).panel = s.panel ∧
    (markStrobe p s).seq = s.seq ∧ (markStrobe p s).sense = s.sense ∧ (markStrobe p s).area = s.area ∧
    (markStrobe p s).cmd = s.cmd ∧ (markStrobe p s).notice = s.notice ∧ (markStrobe p s).store = s.store ∧
    (markStrobe p s).gapDue = s.gapDue ∧ (markStrobe p s).freeCount = s.freeCount ∧
    (markStrobe p s).reached = s.reached := by
  simp [markStrobe]

@[simp] theorem afterStrobe_frame (op : RowOp) (s : State) :
    (afterStrobe op s).pending = s.pending ∧ (afterStrobe op s).mem = s.mem ∧
    (afterStrobe op s).port = s.port ∧ (afterStrobe op s).lit = s.lit ∧
    (afterStrobe op s).latches = s.latches ∧ (afterStrobe op s).panel = s.panel ∧
    (afterStrobe op s).seq = s.seq ∧ (afterStrobe op s).sense = s.sense ∧ (afterStrobe op s).cmd = s.cmd ∧
    (afterStrobe op s).store = s.store ∧ (afterStrobe op s).gapDue = s.gapDue ∧
    (afterStrobe op s).reached = s.reached := by
  unfold afterStrobe
  split <;> simp

@[simp] theorem strobePhase_frame (op : RowOp) (p : Period) (s : State) :
    (strobePhase op p s).pending = s.pending ∧ (strobePhase op p s).mem = s.mem ∧
    (strobePhase op p s).port = s.port ∧ (strobePhase op p s).seq = s.seq ∧
    (strobePhase op p s).sense = s.sense ∧ (strobePhase op p s).cmd = s.cmd ∧
    (strobePhase op p s).store = s.store ∧ (strobePhase op p s).gapDue = s.gapDue ∧
    (strobePhase op p s).reached = s.reached := by
  simp [strobePhase]

@[simp] theorem eraseStrobe_frame (p : Period) (s : State) :
    (eraseStrobe p s).pending = s.pending ∧ (eraseStrobe p s).mem = s.mem ∧ (eraseStrobe p s).link = s.link ∧
    (eraseStrobe p s).latches = s.latches ∧ (eraseStrobe p s).seq = s.seq ∧ (eraseStrobe p s).sense = s.sense ∧
    (eraseStrobe p s).area = s.area ∧ (eraseStrobe p s).notice = s.notice ∧ (eraseStrobe p s).store = s.store ∧
    (eraseStrobe p s).gapDue = s.gapDue ∧ (eraseStrobe p s).freeCount = s.freeCount := by
  simp [eraseStrobe]

@[simp] theorem primingStrobe_frame (p : Period) (s : State) :
    (primingStrobe p s).pending = s.pending ∧ (primingStrobe p s).mem = s.mem ∧
    (primingStrobe p s).bus = s.bus ∧ (primingStrobe p s).wmu = s.wmu ∧ (primingStrobe p s).port = s.port ∧
    (primingStrobe p s).table = s.table ∧ (primingStrobe p s).sets = s.sets ∧
    (primingStrobe p s).sched = s.sched ∧ (primingStrobe p s).lit = s.lit ∧ (primingStrobe p s).link = s.link ∧
    (primingStrobe p s).latches = s.latches ∧ (primingStrobe p s).seq = s.seq ∧
    (primingStrobe p s).sense = s.sense ∧ (primingStrobe p s).area = s.area ∧ (primingStrobe p s).cmd = s.cmd ∧
    (primingStrobe p s).notice = s.notice ∧ (primingStrobe p s).store = s.store ∧
    (primingStrobe p s).gapDue = s.gapDue ∧ (primingStrobe p s).freeCount = s.freeCount ∧
    (primingStrobe p s).reached = s.reached := by
  simp [primingStrobe]

@[simp] theorem recoveryFails_frame (s : State) :
    (recoveryFails s).pending = s.pending ∧ (recoveryFails s).mem = s.mem ∧ (recoveryFails s).bus = s.bus ∧
    (recoveryFails s).wmu = s.wmu ∧ (recoveryFails s).port = s.port ∧ (recoveryFails s).table = s.table ∧
    (recoveryFails s).sets = s.sets ∧ (recoveryFails s).sched = s.sched ∧ (recoveryFails s).lit = s.lit ∧
    (recoveryFails s).latches = s.latches ∧ (recoveryFails s).panel = s.panel ∧
    (recoveryFails s).period = s.period ∧ (recoveryFails s).seq = s.seq ∧ (recoveryFails s).sense = s.sense ∧
    (recoveryFails s).area = s.area ∧ (recoveryFails s).cmd = s.cmd ∧ (recoveryFails s).notice = s.notice ∧
    (recoveryFails s).store = s.store ∧ (recoveryFails s).gapDue = s.gapDue ∧
    (recoveryFails s).freeCount = s.freeCount ∧
    (recoveryFails s).reached = s.reached := by
  simp [recoveryFails]

@[simp] theorem recoveryPasses_frame (s : State) :
    (recoveryPasses s).pending = s.pending ∧ (recoveryPasses s).mem = s.mem ∧ (recoveryPasses s).bus = s.bus ∧
    (recoveryPasses s).wmu = s.wmu ∧ (recoveryPasses s).port = s.port ∧ (recoveryPasses s).table = s.table ∧
    (recoveryPasses s).sets = s.sets ∧ (recoveryPasses s).sched = s.sched ∧ (recoveryPasses s).lit = s.lit ∧
    (recoveryPasses s).latches = s.latches ∧ (recoveryPasses s).panel = s.panel ∧
    (recoveryPasses s).period = s.period ∧ (recoveryPasses s).seq = s.seq ∧
    (recoveryPasses s).sense = s.sense ∧ (recoveryPasses s).area = s.area ∧ (recoveryPasses s).cmd = s.cmd ∧
    (recoveryPasses s).notice = s.notice ∧ (recoveryPasses s).store = s.store ∧
    (recoveryPasses s).gapDue = s.gapDue ∧ (recoveryPasses s).freeCount = s.freeCount ∧
    (recoveryPasses s).reached = s.reached := by
  simp [recoveryPasses]

@[simp] theorem endClear_frame (again : Bool) (s : State) :
    (endClear again s).pending = s.pending ∧ (endClear again s).mem = s.mem ∧ (endClear again s).bus = s.bus ∧
    (endClear again s).wmu = s.wmu ∧ (endClear again s).port = s.port ∧ (endClear again s).table = s.table ∧
    (endClear again s).sets = s.sets ∧ (endClear again s).sched = s.sched ∧ (endClear again s).lit = s.lit ∧
    (endClear again s).link = s.link ∧ (endClear again s).panel = s.panel ∧ (endClear again s).seq = s.seq ∧
    (endClear again s).sense = s.sense ∧ (endClear again s).area = s.area ∧ (endClear again s).cmd = s.cmd ∧
    (endClear again s).notice = s.notice ∧ (endClear again s).store = s.store ∧
    (endClear again s).gapDue = s.gapDue ∧ (endClear again s).freeCount = s.freeCount ∧
    (endClear again s).reached = s.reached := by
  unfold endClear
  dsimp only
  repeat' split
  all_goals simp

@[simp] theorem takeSample_frame (level : Int) (p : Period) (s : State) :
    (takeSample level p s).pending = s.pending ∧ (takeSample level p s).mem = s.mem ∧
    (takeSample level p s).bus = s.bus ∧ (takeSample level p s).wmu = s.wmu ∧
    (takeSample level p s).port = s.port ∧ (takeSample level p s).table = s.table ∧
    (takeSample level p s).sets = s.sets ∧ (takeSample level p s).sched = s.sched ∧
    (takeSample level p s).lit = s.lit ∧ (takeSample level p s).link = s.link ∧
    (takeSample level p s).latches = s.latches ∧ (takeSample level p s).panel = s.panel ∧
    (takeSample level p s).seq = s.seq ∧ (takeSample level p s).area = s.area ∧
    (takeSample level p s).cmd = s.cmd ∧ (takeSample level p s).notice = s.notice ∧
    (takeSample level p s).store = s.store ∧ (takeSample level p s).gapDue = s.gapDue ∧
    (takeSample level p s).freeCount = s.freeCount ∧
    (takeSample level p s).reached = s.reached := by
  unfold takeSample
  dsimp only
  split <;> simp

@[simp] theorem confirmDrift_frame (s : State) :
    (confirmDrift s).pending = s.pending ∧ (confirmDrift s).mem = s.mem ∧ (confirmDrift s).sched = s.sched ∧
    (confirmDrift s).lit = s.lit ∧ (confirmDrift s).link = s.link ∧ (confirmDrift s).latches = s.latches ∧
    (confirmDrift s).panel = s.panel ∧ (confirmDrift s).period = s.period ∧ (confirmDrift s).seq = s.seq ∧
    (confirmDrift s).cmd = s.cmd ∧ (confirmDrift s).store = s.store ∧ (confirmDrift s).gapDue = s.gapDue := by
  simp [confirmDrift]

@[simp] theorem compareReading_frame (s : State) :
    (compareReading s).pending = s.pending ∧ (compareReading s).mem = s.mem ∧
    (compareReading s).sched = s.sched ∧ (compareReading s).lit = s.lit ∧ (compareReading s).link = s.link ∧
    (compareReading s).latches = s.latches ∧ (compareReading s).panel = s.panel ∧
    (compareReading s).period = s.period ∧ (compareReading s).seq = s.seq ∧ (compareReading s).cmd = s.cmd ∧
    (compareReading s).store = s.store ∧ (compareReading s).gapDue = s.gapDue := by
  unfold compareReading
  repeat' split
  all_goals simp

@[simp] theorem testHoldOff_frame (s : State) :
    (testHoldOff s).pending = s.pending ∧ (testHoldOff s).mem = s.mem ∧ (testHoldOff s).bus = s.bus ∧
    (testHoldOff s).wmu = s.wmu ∧ (testHoldOff s).port = s.port ∧ (testHoldOff s).table = s.table ∧
    (testHoldOff s).sets = s.sets ∧ (testHoldOff s).sched = s.sched ∧ (testHoldOff s).lit = s.lit ∧
    (testHoldOff s).link = s.link ∧ (testHoldOff s).latches = s.latches ∧ (testHoldOff s).panel = s.panel ∧
    (testHoldOff s).period = s.period ∧ (testHoldOff s).seq = s.seq ∧ (testHoldOff s).area = s.area ∧
    (testHoldOff s).cmd = s.cmd ∧ (testHoldOff s).notice = s.notice ∧ (testHoldOff s).store = s.store ∧
    (testHoldOff s).gapDue = s.gapDue ∧ (testHoldOff s).freeCount = s.freeCount ∧
    (testHoldOff s).reached = s.reached := by
  unfold testHoldOff
  split <;> simp

@[simp] theorem completeConversion_frame (c : Conversion) (s : State) :
    (completeConversion c s).pending = s.pending ∧ (completeConversion c s).mem = s.mem ∧
    (completeConversion c s).sched = s.sched ∧ (completeConversion c s).lit = s.lit ∧
    (completeConversion c s).link = s.link ∧ (completeConversion c s).latches = s.latches ∧
    (completeConversion c s).panel = s.panel ∧ (completeConversion c s).period = s.period ∧
    (completeConversion c s).seq = s.seq ∧ (completeConversion c s).cmd = s.cmd ∧
    (completeConversion c s).store = s.store ∧ (completeConversion c s).gapDue = s.gapDue := by
  unfold completeConversion
  dsimp only
  split <;> simp

@[simp] theorem sampleSupply_frame (level filtered : Bool) (run : Nat) (s : State) :
    (sampleSupply level filtered run s).pending = s.pending ∧ (sampleSupply level filtered run s).mem = s.mem ∧
    (sampleSupply level filtered run s).bus = s.bus ∧ (sampleSupply level filtered run s).wmu = s.wmu ∧
    (sampleSupply level filtered run s).port = s.port ∧ (sampleSupply level filtered run s).table = s.table ∧
    (sampleSupply level filtered run s).sets = s.sets ∧ (sampleSupply level filtered run s).sched = s.sched ∧
    (sampleSupply level filtered run s).lit = s.lit ∧ (sampleSupply level filtered run s).link = s.link ∧
    (sampleSupply level filtered run s).latches = s.latches ∧
    (sampleSupply level filtered run s).panel = s.panel ∧
    (sampleSupply level filtered run s).period = s.period ∧
    (sampleSupply level filtered run s).sense = s.sense ∧ (sampleSupply level filtered run s).area = s.area ∧
    (sampleSupply level filtered run s).cmd = s.cmd ∧ (sampleSupply level filtered run s).notice = s.notice ∧
    (sampleSupply level filtered run s).store = s.store ∧
    (sampleSupply level filtered run s).gapDue = s.gapDue ∧
    (sampleSupply level filtered run s).freeCount = s.freeCount ∧
    (sampleSupply level filtered run s).reached = s.reached := by
  simp [sampleSupply]

@[simp] theorem goodHighEffect_frame (s : State) :
    (goodHighEffect s).pending = s.pending ∧ (goodHighEffect s).mem = s.mem ∧ (goodHighEffect s).bus = s.bus ∧
    (goodHighEffect s).wmu = s.wmu ∧ (goodHighEffect s).port = s.port ∧ (goodHighEffect s).table = s.table ∧
    (goodHighEffect s).sets = s.sets ∧ (goodHighEffect s).sched = s.sched ∧ (goodHighEffect s).lit = s.lit ∧
    (goodHighEffect s).link = s.link ∧ (goodHighEffect s).latches = s.latches ∧
    (goodHighEffect s).panel = s.panel ∧ (goodHighEffect s).period = s.period ∧
    (goodHighEffect s).sense = s.sense ∧ (goodHighEffect s).area = s.area ∧ (goodHighEffect s).cmd = s.cmd ∧
    (goodHighEffect s).notice = s.notice ∧ (goodHighEffect s).store = s.store ∧
    (goodHighEffect s).gapDue = s.gapDue ∧ (goodHighEffect s).freeCount = s.freeCount ∧
    (goodHighEffect s).reached = s.reached := by
  unfold goodHighEffect
  dsimp only
  split <;> simp

@[simp] theorem goodLowEffect_frame (s : State) :
    (goodLowEffect s).pending = s.pending ∧ (goodLowEffect s).mem = s.mem ∧
    (goodLowEffect s).latches = s.latches ∧ (goodLowEffect s).gapDue = s.gapDue := by
  unfold goodLowEffect
  dsimp only
  split <;> simp

@[simp] theorem returnWord_frame (v : Word) (s : State) :
    (returnWord v s).pending = s.pending ∧ (returnWord v s).mem = s.mem ∧ (returnWord v s).wmu = s.wmu ∧
    (returnWord v s).port = s.port ∧ (returnWord v s).table = s.table ∧ (returnWord v s).sets = s.sets ∧
    (returnWord v s).sched = s.sched ∧ (returnWord v s).lit = s.lit ∧ (returnWord v s).link = s.link ∧
    (returnWord v s).latches = s.latches ∧ (returnWord v s).panel = s.panel ∧
    (returnWord v s).period = s.period ∧ (returnWord v s).seq = s.seq ∧ (returnWord v s).sense = s.sense ∧
    (returnWord v s).area = s.area ∧ (returnWord v s).cmd = s.cmd ∧ (returnWord v s).notice = s.notice ∧
    (returnWord v s).store = s.store ∧ (returnWord v s).gapDue = s.gapDue ∧
    (returnWord v s).freeCount = s.freeCount ∧
    (returnWord v s).reached = s.reached := by
  simp [returnWord]

@[simp] theorem serveRead_frame (off : Nat) (s : State) :
    (serveRead off s).pending = s.pending ∧ (serveRead off s).mem = s.mem ∧ (serveRead off s).wmu = s.wmu ∧
    (serveRead off s).port = s.port ∧ (serveRead off s).table = s.table ∧ (serveRead off s).sets = s.sets ∧
    (serveRead off s).sched = s.sched ∧ (serveRead off s).lit = s.lit ∧ (serveRead off s).link = s.link ∧
    (serveRead off s).latches = s.latches ∧ (serveRead off s).panel = s.panel ∧
    (serveRead off s).period = s.period ∧ (serveRead off s).seq = s.seq ∧ (serveRead off s).sense = s.sense ∧
    (serveRead off s).area = s.area ∧ (serveRead off s).cmd = s.cmd ∧ (serveRead off s).notice = s.notice ∧
    (serveRead off s).store = s.store ∧ (serveRead off s).freeCount = s.freeCount := by
  simp [serveRead]

end Sys2Proof.Machine
end

