-- ==== Sys2Proof/Laws/Memory.lean ====
section
/-! SUPPORT. The laws of sparse stores: what a read gives after a write, that other keys keep their values, and
that every operation on a store keeps its canonical form; and the same of image memory. -/

namespace Sys2Proof.Machine

variable {α : Type} [DecidableEq α] {d : α}

/-! ## The canonical form -/

omit [DecidableEq α] in
theorem cellsWf_nil : CellsWf d ([] : Cells α) := by simp [CellsWf]

omit [DecidableEq α] in
theorem cellsWf_cons {k : Nat} {v : α} {m : Cells α} :
    CellsWf d ((k, v) :: m) ↔ (∀ p ∈ m, k < p.1) ∧ v ≠ d ∧ CellsWf d m := by
  simp only [CellsWf, List.pairwise_cons, List.mem_cons, forall_eq_or_imp]
  tauto

omit [DecidableEq α] in
theorem cellsWf_filter {m : Cells α} (f : Nat × α → Bool) (h : CellsWf d m) : CellsWf d (m.filter f) :=
  ⟨h.1.filter f, fun p hp => h.2 p (List.mem_filter.1 hp).1⟩

/-- What a write can leave at a key of the store: the value written, or an entry that was there. -/
theorem mem_cellsWrite {m : Cells α} {a : Nat} {v : α} {p : Nat × α} (hp : p ∈ cellsWrite d m a v) :
    p = (a, v) ∧ v ≠ d ∨ p ∈ m := by
  induction m with
  | nil =>
    unfold cellsWrite at hp
    split at hp <;> simp_all
  | cons q m ih =>
    obtain ⟨k, w⟩ := q
    unfold cellsWrite at hp
    split at hp
    · split at hp <;> simp_all
    · split at hp
      · split at hp <;> simp_all
        tauto
      · rcases List.mem_cons.1 hp with h | h
        · simp [h]
        · rcases ih h with h | h <;> simp [h]

theorem cellsWf_write {m : Cells α} (a : Nat) (v : α) (h : CellsWf d m) : CellsWf d (cellsWrite d m a v) := by
  induction m with
  | nil =>
    unfold cellsWrite
    split <;> simp_all [CellsWf]
  | cons q m ih =>
    obtain ⟨k, w⟩ := q
    have ⟨hlt, hw, hm⟩ := cellsWf_cons.1 h
    unfold cellsWrite
    split
    · split
      · exact h
      · refine cellsWf_cons.2 ⟨fun p hp => ?_, ‹_›, h⟩
        rcases List.mem_cons.1 hp with rfl | hp
        · assumption
        · exact Nat.lt_trans ‹_› (hlt p hp)
    · split
      · split
        · exact hm
        · subst_vars
          exact cellsWf_cons.2 ⟨hlt, ‹_›, hm⟩
      · refine cellsWf_cons.2 ⟨fun p hp => ?_, hw, ih hm⟩
        rcases mem_cellsWrite hp with ⟨rfl, _⟩ | hp
        · simp only
          omega
        · exact hlt p hp

theorem cellsWf_writeAll {m : Cells α} (l : List (Nat × α)) (h : CellsWf d m) :
    CellsWf d (cellsWriteAll d m l) := by
  induction l generalizing m with
  | nil => exact h
  | cons p l ih => exact ih (cellsWf_write p.1 p.2 h)

/-! ## Reads after writes -/

omit [DecidableEq α] in
theorem cellsRead_of_lt {m : Cells α} {a : Nat} (h : ∀ p ∈ m, a < p.1) : cellsRead d m a = d := by
  induction m with
  | nil => rfl
  | cons q m ih =>
    have := h q (by simp)
    simp only [cellsRead]
    rw [if_neg (by omega)]
    exact ih fun p hp => h p (by simp [hp])

theorem cellsRead_cellsWrite_self {m : Cells α} (a : Nat) (v : α) (h : CellsWf d m) :
    cellsRead d (cellsWrite d m a v) a = v := by
  induction m with
  | nil =>
    unfold cellsWrite
    split <;> simp_all [cellsRead]
  | cons q m ih =>
    obtain ⟨k, w⟩ := q
    have ⟨hlt, _, hm⟩ := cellsWf_cons.1 h
    unfold cellsWrite
    split
    · split
      · subst_vars
        refine cellsRead_of_lt fun p hp => ?_
        rcases List.mem_cons.1 hp with rfl | hp
        · assumption
        · exact Nat.lt_trans ‹_› (hlt p hp)
      · simp [cellsRead]
    · split
      · split
        · subst_vars
          exact cellsRead_of_lt hlt
        · simp [cellsRead]
      · simp only [cellsRead]
        rw [if_neg ‹_›]
        exact ih hm

theorem cellsRead_cellsWrite_ne (m : Cells α) {a b : Nat} (v : α) (h : b ≠ a) :
    cellsRead d (cellsWrite d m a v) b = cellsRead d m b := by
  induction m with
  | nil =>
    unfold cellsWrite
    split <;> simp [cellsRead, h]
  | cons q m ih =>
    obtain ⟨k, w⟩ := q
    unfold cellsWrite
    split
    · split <;> simp [cellsRead, h]
    · split
      · subst_vars
        split <;> simp [cellsRead, h]
      · simp only [cellsRead, ih]

/-! ## Image memory -/

theorem readMem_writeMem_self {s : State} {off : Nat} {v : Word} (h : Memory.wf s.mem) :
    readMem (writeMem off v s) off = v := by
  simp [readMem, writeMem, cellsRead_cellsWrite_self off v h.1]

theorem readMem_writeMem_ne {s : State} {off a : Nat} {v : Word} (h : a ≠ off) :
    readMem (writeMem off v s) a = readMem s a := by
  simp [readMem, writeMem, cellsRead_cellsWrite_ne s.mem v h]

/-- Every write to a word of the image, of the command row or of the status row keeps the canonical form of
image memory. -/
theorem memory_wf_cellsWrite {m : Memory} {off : Nat} {v : Word} (h : Memory.wf m)
    (ho : off < Config.statusBase + 32) : Memory.wf (cellsWrite Config.blankWord m off v) :=
  ⟨cellsWf_write off v h.1, fun p hp => by
    rcases mem_cellsWrite hp with ⟨rfl, _⟩ | hp
    · exact ho
    · exact h.2 p hp⟩

/-- Several writes to such words keep it: a status burst writes 32 (R178). -/
theorem memory_wf_cellsWriteAll {m : Memory} {l : List (Nat × Word)} (h : Memory.wf m)
    (hl : ∀ p ∈ l, p.1 < Config.statusBase + 32) : Memory.wf (cellsWriteAll Config.blankWord m l) := by
  induction l generalizing m with
  | nil => exact h
  | cons p l ih =>
    exact ih (memory_wf_cellsWrite h (hl p (by simp))) fun q hq => hl q (by simp [hq])

theorem memory_wf_writeMem {s : State} {off : Nat} {v : Word} (h : Memory.wf s.mem)
    (ho : off < Config.statusBase + 32) : Memory.wf (writeMem off v s).mem := by
  simpa [writeMem] using memory_wf_cellsWrite h ho

theorem imageOffset_lt (r : Row) (w : WordIx) : imageOffset r w < Config.commandBase := by
  have := r.isLt
  have := w.isLt
  simp only [imageOffset, Config.commandBase]
  omega

theorem commandOffset_lt (w : WordIx) : commandOffset w < Config.statusBase := by
  have := w.isLt
  simp only [commandOffset, Config.commandBase, Config.statusBase]
  omega

theorem statusOffset_lt (w : WordIx) : statusOffset w < Config.statusBase + 32 := by
  have := w.isLt
  simp only [statusOffset]
  omega

/-- A granted area word is the one unit that a reset can find being served (R17). -/
theorem servableUnits_of_granted {s : State} (h : areaGranted s = true) : servableUnits s = areaUnit s := by
  simp [servableUnits, h]

/-- A unit that has never stood first is not being served (R17): with none of the three that may wait behind others,
the processor's unit alone may be. -/
theorem servableUnits_of_behind {s : State} (h : areaGranted s = false)
    (hr : reachedNow s = { burst := false, third := false, area := false }) :
    servableUnits s = processorUnit s := by
  simp [servableUnits, h, hr]

/-- An area word that has never stood first is not being served (R17), as behind AREA's RUNNING write (R165) or a
degraded row's notice-word update (R157). -/
theorem servableUnits_of_area_behind {s : State} (h : areaGranted s = false) (hr : (reachedNow s).area = false) :
    servableUnits s = processorUnit s ++
      (if s.port.burst && (reachedNow s).burst then [statusRecord s] else []) ++
      (if (reachedNow s).third then (s.port.third.take 1).map (thirdUnit s) else []) := by
  simp [servableUnits, h, hr]

/-- When the port has just finished a unit, the one it may be serving is the first in rank of those that wait (R17). -/
theorem servableUnits_of_unitEnded {p : Bool} {s : State} (h : areaGranted s = false) (hr : UnitEnded p s) :
    servableUnits s =
      if processorWaits s then processorUnit s
      else if s.port.burst then [statusRecord s]
      else if s.port.third ≠ [] then (s.port.third.take 1).map (thirdUnit s)
      else if snapshotAsked s then []
      else areaUnit s := by
  have idle (hp : processorWaits s = false) : processorUnit s = [] := by
    unfold processorWaits at hp
    unfold processorUnit
    split at hp <;> simp_all
  have area : (if s.area.any (fun a => a.unit == .requested) then areaUnit s else []) = areaUnit s := by
    unfold areaGranted at h
    unfold areaUnit
    cases hs : s.area with
    | none => simp
    | some a => cases hu : a.unit <;> simp_all
  cases hp : processorWaits s <;> cases hb : s.port.burst <;> cases ht : s.port.third <;>
    cases ha : snapshotAsked s <;>
    simp_all [servableUnits, reachedNow, areaGrantable, upperRanksEmpty]

/-- Every word of a unit that the port may be serving is a word of image memory (R2, R16). -/
theorem servableUnits_lt {s : State} {u : List (Nat × Word)} (hu : u ∈ servableUnits s) :
    ∀ p ∈ u, p.1 < Config.statusBase + 32 := by
  have image (r : Row) (w : WordIx) : imageOffset r w < Config.statusBase + 32 := by
    have := imageOffset_lt r w
    simp only [Config.commandBase, Config.statusBase] at *
    omega
  have command (w : WordIx) : commandOffset w < Config.statusBase + 32 := by
    have := commandOffset_lt w
    omega
  have area (hu : u ∈ areaUnit s) : ∀ p ∈ u, p.1 < Config.statusBase + 32 := by
    unfold areaUnit at hu
    split at hu
    · dsimp only at hu
      split at hu <;> simp_all
    · simp at hu
  unfold servableUnits at hu
  split at hu
  · exact area hu
  simp only [List.mem_append] at hu
  rcases hu with ((hu | hu) | hu) | hu
  · unfold processorUnit at hu
    split at hu
    · split at hu
      · simp_all
      · split at hu <;> simp_all
    · simp at hu
  · split at hu
    · obtain rfl := List.mem_singleton.1 hu
      simp only [statusRecord, List.mem_map, List.mem_range]
      rintro p ⟨k, hk, rfl⟩
      simp only
      omega
    · simp at hu
  · split at hu
    · obtain ⟨r, -, rfl⟩ := List.mem_map.1 hu
      cases r
      · simp [thirdUnit, statusOffset_lt]
      · unfold thirdUnit
        dsimp only
        split
        · simp only [List.mem_map]
          rintro p ⟨q, -, rfl⟩
          exact command q.1
        · simp
    · simp at hu
  · split at hu
    · exact area hu
    · simp at hu

/-- Image memory as a reset leaves it keeps the canonical form. -/
theorem memory_wf_cutMemory {s : State} (h : Memory.wf s.mem) : Memory.wf (cutMemory s) := by
  refine memory_wf_cellsWriteAll h fun p hp => ?_
  have hp := (List.mem_filter.1 hp).1
  rcases lt_or_ge (Config.servedUnit s.freeCount) (servableUnits s).length with hlt | hge
  · rw [List.getD_eq_getElem _ _ hlt] at hp
    exact servableUnits_lt (List.getElem_mem hlt) p hp
  · rw [List.getD_eq_default _ _ hge] at hp
    simp at hp

/-- The memory of the reset state has the canonical form. -/
theorem reset_memory_wf : Memory.wf State.reset.mem := ⟨cellsWf_nil, by simp [State.reset]⟩

end Sys2Proof.Machine
end

