-- ==== Sys2Proof/Laws/Table.lean ====
section
/-! SUPPORT. What each shared operation of the Change Table, of the hold, of the notices and of the Command Row
Handler can do, said once. -/

namespace Sys2Proof.Machine

/-! ## Masks -/

/-- A cell of a word's cells within its row (R18): column 16w + 15 - b holds bit b of word w. -/
theorem getLsbD_wordCells (w : WordIx) (v : Word) (i : Nat) :
    (wordCells w v).getLsbD i =
      (decide (i < 512) && decide (16 * (31 - w.val) ≤ i) && v.getLsbD (i - 16 * (31 - w.val))) := by
  unfold wordCells
  rw [BitVec.getLsbD_shiftLeft, BitVec.getLsbD_setWidth]
  by_cases h : i < 512
  · by_cases h' : i < 16 * (31 - w.val)
    · simp [h, h', Nat.not_le.2 h']
    · have : i - 16 * (31 - w.val) < 512 := by omega
      simp [h, h', Nat.not_lt.1 h', this]
  · simp [h]

theorem wordCells_and (w : WordIx) (u v : Word) : wordCells w u &&& wordCells w v = wordCells w (u &&& v) := by
  apply BitVec.eq_of_getLsbD_eq
  intro i _
  simp only [BitVec.getLsbD_and, getLsbD_wordCells]
  cases decide (i < 512) <;> cases decide (16 * (31 - w.val) ≤ i) <;> simp

@[simp] theorem wordCells_zero (w : WordIx) : wordCells w 0 = 0 := by simp [wordCells]

/-- A word with a cell has a cell in its row. -/
theorem wordCells_eq_zero {w : WordIx} {v : Word} (h : wordCells w v = 0) : v = 0 := by
  apply BitVec.eq_of_getLsbD_eq
  intro b hb
  have hw := w.isLt
  have := congrArg (fun m => m.getLsbD (16 * (31 - w.val) + b)) h
  simp only [getLsbD_wordCells] at this
  have h1 : 16 * (31 - w.val) + b < 512 := by omega
  simpa [h1] using this

/-- The actions applied to an entry with disjoint masks leave its masks disjoint (R20). -/
theorem applyActions_disjoint {e : Entry} {light dark : Mask} (he : e.setMask &&& e.clearMask = 0)
    (hd : light &&& dark = 0) :
    (applyActions e light dark).setMask &&& (applyActions e light dark).clearMask = 0 := by
  apply BitVec.eq_of_getLsbD_eq
  intro i hi
  have h1 := congrArg (fun m => m.getLsbD i) he
  have h2 := congrArg (fun m => m.getLsbD i) hd
  simp only [BitVec.getLsbD_and] at h1 h2
  simp only [applyActions, BitVec.getLsbD_and, BitVec.getLsbD_or, BitVec.getLsbD_not, hi]
  revert h1 h2
  cases e.setMask.getLsbD i <;> cases e.clearMask.getLsbD i <;> cases light.getLsbD i <;>
    cases dark.getLsbD i <;> simp

/-! ## The merge and the hold -/

/-- Everything a merge that finds room can do (R25 to R28): drop the difference, change the row's OPEN entry,
free it as annulled, or create an entry at the tail. -/
theorem mergeDifference_cases {r : Row} {w : WordIx} {rise fall : Word} {s s' : State}
    (h : mergeDifference r w rise fall s = some s') :
    (dropped s r w = true ∧ s' = s) ∨
    (dropped s r w = false ∧ ∃ e e', openEntry s.table r = some e ∧
      e' = applyActions e (wordCells w rise) (wordCells w fall) ∧
      ((emptyEntry e' = true ∧
          s' = countAnnulled (s.setTable { s.table with ageQueue := dropRow s.table.ageQueue r })) ∨
        (emptyEntry e' = false ∧
          s' = s.setTable { s.table with
            ageQueue := s.table.ageQueue.map (fun x => if x.row == r then e' else x) }))) ∨
    (dropped s r w = false ∧ openEntry s.table r = none ∧ slotsInUse s.table < Config.slots ∧
      s' = s.setTable { s.table with
        ageQueue := s.table.ageQueue ++
          [{ row := r, setMask := wordCells w rise, clearMask := wordCells w fall }] }) := by
  unfold mergeDifference at h
  split at h
  · cases h
    exact .inl ⟨‹_›, rfl⟩
  · rename_i hd
    have hd : dropped s r w = false := by simpa using hd
    split at h
    · rename_i e he
      dsimp only at h
      refine .inr (.inl ⟨hd, e, _, he, rfl, ?_⟩)
      split at h <;> cases h
      · exact .inl ⟨‹_›, rfl⟩
      · exact .inr ⟨by simp_all, rfl⟩
    · rename_i he
      split at h <;> cases h
      exact .inr (.inr ⟨hd, he, ‹_›, rfl⟩)

/-- A merge finds no room exactly when the difference is not dropped, its row has no OPEN entry and all 32
slots are in use (R29). -/
theorem mergeDifference_eq_none {r : Row} {w : WordIx} {rise fall : Word} {s : State} :
    mergeDifference r w rise fall s = none ↔
      dropped s r w = false ∧ openEntry s.table r = none ∧ ¬ slotsInUse s.table < Config.slots := by
  unfold mergeDifference
  split
  · simp_all
  · split
    · dsimp only
      split <;> simp_all
    · split <;> simp_all

/-- Everything an offer of the held record can do (R12, R30): the record merged, or kept for want of room. -/
theorem offerHeld_cases (h : HeldChange) (s : State) :
    (∃ s', mergeDifference h.row h.word h.rise h.fall s = some s' ∧ offerHeld h s = endCycle s') ∨
      (mergeDifference h.row h.word h.rise h.fall s = none ∧ offerHeld h s = s) := by
  unfold offerHeld
  cases mergeDifference h.row h.word h.rise h.fall s with
  | some s' => exact .inl ⟨s', rfl, rfl⟩
  | none => exact .inr ⟨rfl, rfl⟩

/-- Everything the end of a hold can be (R12, R13, R158): nothing while no record is held; the record dropped; the
record offered; or, when an area word seeks the freed slot, either that or the area word's unit granted. -/
theorem settleHold_cases (s : State) :
    ((∀ h, s.wmu.state ≠ .holding h) ∧ settleHold s = s) ∨
    ∃ h, s.wmu.state = .holding h ∧
      ((inResync s h.row = true ∧ settleHold s = endCycle s) ∨
        (inResync s h.row = false ∧ areaContends h s = false ∧ settleHold s = offerHeld h s) ∨
        (inResync s h.row = false ∧ areaContends h s = true ∧
          (settleHold s = grantArea (drawFree s) ∨ settleHold s = offerHeld h (drawFree s)))) := by
  unfold settleHold
  cases hw : s.wmu.state with
  | idle => exact .inl ⟨by simp, rfl⟩
  | merging c => exact .inl ⟨by simp, rfl⟩
  | holding h =>
    refine .inr ⟨h, rfl, ?_⟩
    dsimp only
    split
    · exact .inl ⟨‹_›, rfl⟩
    · rename_i hr
      replace hr := Bool.eq_false_iff.2 hr
      split
      · refine .inr (.inr ⟨hr, ‹_›, ?_⟩)
        split
        · exact .inl rfl
        · exact .inr rfl
      · rename_i hc
        exact .inr (.inl ⟨hr, Bool.eq_false_iff.2 hc, rfl⟩)

/-- With no record held, the end of a hold does nothing. -/
theorem settleHold_of_idle {s : State} (h : s.wmu.state = .idle) : settleHold s = s := by
  simp [settleHold, h]

/-- An addition to the FULL set leaves the TAKEN entry and the cursor (R34, R45). -/
@[simp] theorem addFull_taken (rows : RowSet) (s : State) : (addFull rows s).table.taken = s.table.taken := by
  unfold addFull
  split <;> rfl

@[simp] theorem addFull_cursor (rows : RowSet) (s : State) : (addFull rows s).sets.cursor = s.sets.cursor := by
  unfold addFull
  split <;> rfl

/-- Everything an addition to the FULL set can do (R34, R45): nothing while no record of the panel is held, or the
rows enter FULL and leave FILL, and the entries of the rows added are freed. -/
theorem addFull_cases (rows : RowSet) (s : State) :
    (recordless s.seq.state = true ∧ addFull rows s = s) ∨
    (recordless s.seq.state = false ∧ (addFull rows s).sets.full = s.sets.full ||| rows ∧
      (addFull rows s).sets.fill = s.sets.fill &&& ~~~rows ∧
      (addFull rows s).table.ageQueue = dropRows s.table.ageQueue (rows &&& ~~~s.sets.full)) := by
  unfold addFull
  split
  · exact .inl ⟨‹_›, rfl⟩
  · rename_i h
    exact .inr ⟨Bool.eq_false_iff.2 h, rfl, rfl, rfl⟩

@[simp] theorem endCycle_wmu (s : State) : (endCycle s).wmu = { s.wmu with state := .idle } := rfl

@[simp] theorem endCycle_bus (s : State) : (endCycle s).bus = { s.bus with ready := true } := rfl

/-! ## Notices and commands -/

/-- The notice set after a raise (R175). -/
@[simp] theorem raiseNotice_notices (n : Notice) (s : State) :
    (raiseNotice n s).notice.notices = s.notice.notices ||| (1#8 <<< noticeBit n) := by
  unfold raiseNotice
  split
  · rename_i h
    apply BitVec.eq_of_getLsbD_eq
    intro i hi
    simp only [noticePresent] at h
    rw [BitVec.getLsbD_or]
    by_cases hn : i = noticeBit n
    · subst hn
      simp [h]
    · have : (1#8 <<< noticeBit n).getLsbD i = false := by
        revert hn
        cases n <;> simp only [noticeBit] <;> intro hn <;> interval_cases i <;> simp_all
      simp [this]
  · simp [setNotices]

/-- A block hands a result for the command that is running, without a result yet (R168): it is recorded, and the
result words and word 0 are to be written after what is still to be written. -/
theorem finishCommand_of_running {res : Result} {words : List (WordIx × Word)} {s : State} {r : Running}
    (h : s.cmd.running = some r) (hr : r.result = none) :
    finishCommand res words s =
      requestCommandWrite (s.setCmd { s.cmd with
        running := some { r with
          result := some (resultCode res)
          writes := r.writes ++ words ++ [(0, commandWord r.code (resultCode res))] } }) := by
  simp [finishCommand, h, hr]

/-- A result handed when none is awaited changes nothing. -/
theorem finishCommand_of_done {res : Result} {words : List (WordIx × Word)} {s : State}
    (h : ∀ r, s.cmd.running = some r → r.result ≠ none) : finishCommand res words s = s := by
  unfold finishCommand
  split
  · rfl
  · rename_i r hr
    have := h r hr
    split
    · rfl
    · simp_all

/-- What a request of a third-rank unit makes of the requests (R16, R17). -/
@[simp] theorem requestThird_port (u : ThirdRank) (s : State) :
    (requestThird u s).port =
      { s.port with third := if u ∈ s.port.third then s.port.third else s.port.third ++ [u] } := by
  unfold requestThird
  split
  · simp [*]
  · dsimp only
    split <;> simp [*]

/-- What a request of a status burst makes of the requests (R177). -/
@[simp] theorem requestBurst_port (s : State) : (requestBurst s).port = { s.port with burst := true } := by
  unfold requestBurst
  split
  · next h => cases hp : s.port; simp_all
  · simp

/-- A unit that has been requested stays requested. -/
@[simp] theorem requestThird_mem (u : ThirdRank) (s : State) : u ∈ (requestThird u s).port.third := by
  rw [requestThird_port]
  dsimp only
  split <;> simp_all

@[simp] theorem requestCommandWrite_mem (s : State) :
    ThirdRank.commandWrite ∈ (requestCommandWrite s).port.third := requestThird_mem _ s

@[simp] theorem requestNoticeUpdate_mem (s : State) :
    ThirdRank.noticeUpdate ∈ (requestNoticeUpdate s).port.third := requestThird_mem _ s

/-- A third-rank unit that is newly requested behind a higher rank has not been granted (R17). -/
theorem requestThird_reached {u : ThirdRank} {s : State} (h : s.port.third = []) :
    (requestThird u s).reached = { reachedNow s with third := false } := by
  simp [requestThird, h]

end Sys2Proof.Machine
end

