-- ==== Sys2Proof/WellFormed.lean ====
section
/-! DEFINITION. What the operands of a command must meet, whatever the state: addresses lie in the region of
their row, clock pulses are one to nine, and a message has no more samples than bytes can be sent. -/

namespace Sys2Proof

open Machine

/-- An offset of the void (R2). -/
def voidOffset (a : BusAddr) : Bool := regionOf (addrOffset a) == .void

/-- A privileged address of a command word (R2). -/
def commandAddr (a : BusAddr) (w : WordIx) : Bool :=
  privilegedView (addrView a) && regionOf (addrOffset a) == .command w

/-- The samples of a message: at least one byte is clocked, and at most ten are sent (R76). -/
def sampleCount (l : List (BitVec 9)) : Bool := decide (1 ≤ l.length) && decide (l.length ≤ 10)

/-- Whether the samples of a message on the link fit its idle check: none after a check that failed (R79). -/
def samplesFit (idle : IdleCheck) (l : List (BitVec 9)) : Bool :=
  idlePossible idle && (if idlePasses idle then sampleCount l else l.isEmpty)

/-- Whether a command's operands are well formed. -/
def WellFormed : Instr → Bool
  | .reset _ => true
  | .passThroughCycle _ _ => true
  | .voidAccess a _ => voidOffset a
  | .processorRead a => !voidOffset a
  | .imageWordWrite a _ =>
    !voidOffset a && !(privilegedView (addrView a) && regionOf (addrOffset a) == .status 0)
  | .readCombineWrite => true
  | .holdExpiry => true
  | .apertureWrite a _ =>
    match regionOf (addrOffset a) with
    | .command w => !(privilegedView (addrView a) && w == 31)
    | .status w => !(privilegedView (addrView a) && w == 0)
    | _ => false
  | .setupSequenceWrite a _ => regionOf (addrOffset a) == .command 31
  | .noticeClear a _ => privilegedView (addrView a) && regionOf (addrOffset a) == .status 0
  | .repaint a _ => commandAddr a 0
  | .clearAndRepaint a _ => commandAddr a 0
  | .area a _ => commandAddr a 0
  | .blank a _ => commandAddr a 0
  | .unblank a _ => commandAddr a 0
  | .probe a _ => commandAddr a 0
  | .abort a _ => commandAddr a 0
  | .storeRead a _ => commandAddr a 0
  | .storeErase a _ => commandAddr a 0
  | .storeWrite a _ => commandAddr a 0
  | .settingsApply a _ => commandAddr a 0
  | .badCode a _ => commandAddr a 0
  | .storeEraseEnd => true
  | .storeWriteEnd => true
  | .commandRowWordWrite => true
  | .noticeWordUpdate => true
  | .statusBurst => true
  | .burstTimerExpiry => true
  | .areaWord => true
  | .schedulerTake => true
  | .snapshotWordRead => true
  | .loadMessage idle l => samplesFit idle l
  | .probeMessage idle l => samplesFit idle l
  | .stretchExpiry place =>
    match place with
    | .message l _ => decide (l.length ≤ 10)
    | _ => true
  | .recoveryTimerExpiry => true
  | .recoveryAttempt idle _ => idlePossible idle
  | .periodEnd => true
  | .strobe => true
  | .globalEraseStrobe => true
  | .driverClearPulse => true
  | .clearPulseEnd => true
  | .primingEraseEnd => true
  | .sampleInstant _ => true
  | .conversionCompletion => true
  | .goodHigh => true
  | .goodLow => true
  | .settleLimitReached => true
  | .lossLimitReached => true
  | .supplyGoodSample _ => true

end Sys2Proof
end

