-- ==== Sys2Proof/Tests/Slice0.lean ====
section
/-! SUPPORT. The model's own tests: the checks of WellFormed refuse an ill-formed term each; the manual's worked
examples; and, for each statement with hypotheses, a state and operands that meet them. Expected values are the
manual's: the rule or the example is named at each test. -/

namespace Sys2Proof.Tests

/-! The proofs are elaborated one after another: each `decide +kernel` waits for all that stands before it. -/
set_option Elab.async false

open Machine Safety

/-! ## Small states -/

/-- The state after a command; the state itself where the command is not a step. -/
def after (c : Instr) (s : State) : State :=
  match exec c s with
  | .next t => t
  | _ => s

/-- The state after several commands. -/
def afterAll (cs : List Instr) (s : State) : State := cs.foldl (fun s c => after c s) s

/-- Whether a command is a step of the machine in a state. -/
def runs (c : Instr) (s : State) : Bool :=
  match exec c s with
  | .next _ => true
  | _ => false

/-- The sequencer in LIT, no row owed a rewrite, no period given yet. -/
def litState : State :=
  (State.reset.setSeq { State.reset.seq with state := .lit, filtered := true, input := true }).setSets
    { full := 0, fill := 0, cursor := 0 }

/-- OPEN entries for rows 100, 101, …, each with one cell to light and one to darken. -/
def someEntries (n : Nat) : List Entry :=
  (List.range n).map (fun k => { row := Fin.ofNat 512 (100 + k), setMask := 1, clearMask := 2 })

/-- A LIT state with a number of OPEN entries. -/
def litWith (n : Nat) : State := litState.setTable { ageQueue := someEntries n, taken := none }

/-- A LIT state with an operation in flight. -/
def litOp (op : RowOp) : State := litState.setSched { litState.sched with op := some op }

/-- A DELTA operation of row 100 with the erase mask `e` and the write mask `w`. -/
def deltaOf (e w : Mask) (p : OpPhase) (g : Stage) : RowOp :=
  { kind := .delta, row := 100, eraseMask := e, writeMask := w, cursor := none, asked := false, phase := p, stage := g
    loaded := 0, eraseDone := p == .write, writeDone := false, toHand := [], returnDue := false }

/-- A period of a kind at a tick. -/
def periodAt (k : PeriodKind) (n : Nat) (strobed : Bool) : Period :=
  { kind := k, fires := none, tick := n, strobed := strobed, sampled := false }

/-- A state with a current period. -/
def inPeriod (p : Period) (s : State) : State := s.setPeriod { s.period with current := some p }

/-- A state with a command running. -/
def running (code : Byte) (s : State) : State :=
  s.setCmd { s.cmd with
    running := some { code := code, args := [], result := none, abortTaken := false, writes := [] } }

/-- A state with a message on the link, some ticks after its idle check began. -/
def onLink (m : Message) (ticks : Nat) (s : State) : State :=
  s.setLink { s.link with
    message := some m, activity := .checking, elapsed := ticks, course := LinkCourse.start .check }

/-- What is on the link after a number of ticks of its course, with LCK and LDA held low from outside in the ticks of
these numbers. -/
def coursed (n : Nat) (lck lda : Nat → Bool) (l : DriverLink) : DriverLink :=
  (List.range n).foldl (fun l k => linkCourse (lck k) (lda k) l) l

/-- The write slice of the manual's example of a retry (Driver Link): module 2, word 8 holds 0xF00F. -/
def exampleSlice : Slice := { modNo := 2, phase := .write, cells := 0xF00F000000000000 }

/-- A write accepted by the Write Merge Unit. -/
def merging (r : Row) (w : WordIx) (v : BitVec 3) (d : Word) (s : State) : State :=
  s.setWmu { s.wmu with state := .merging { target := .image r w, view := v, data := d } }

/-- An area operation at a word of a row, its unit in a state. -/
def areaAt (r : Row) (w : WordIx) (u : UnitState) : AreaOp :=
  { areaRecord (areaArgs State.reset.cmd) with unit := u, row := r, word := w, firstWord := w, lastWord := w }

/-- The Write Merge Unit in HOLDING with a change of row 7, word 0, held for a number of ticks. -/
def holding (n : Nat) (s : State) : State :=
  (s.setWmu { state := .holding { row := 7, word := 0, rise := 1, fall := 0 }, holdCounter := n }).setBus
    { s.bus with ready := false }

/-- The port with nothing waiting. -/
def quiet (s : State) : State := s.setPort { burst := false, third := [] }

/-! ## WellFormed refuses ill-formed terms -/

theorem test_wellFormed_void : WellFormed (.voidAccess 0xC8021 .read) = false := by decide
theorem test_wellFormed_read : WellFormed (.processorRead 0xC7FFF) = false := by decide
theorem test_wellFormed_imageWrite : WellFormed (.imageWordWrite 0xE4020 1) = false := by decide
theorem test_wellFormed_apertureWrite : WellFormed (.apertureWrite 0xC8021 1) = false := by decide
theorem test_wellFormed_setup : WellFormed (.setupSequenceWrite 0xE4000 1) = false := by decide
theorem test_wellFormed_noticeClear : WellFormed (.noticeClear 0xC4020 1) = false := by decide
theorem test_wellFormed_posting : WellFormed (.repaint 0xC4000 0x0100) = false := by decide
theorem test_wellFormed_samples : WellFormed (.loadMessage .clear []) = false := by decide
theorem test_wellFormed_pulses : WellFormed (.recoveryAttempt (.freed 10 true) true) = false := by decide
theorem test_wellFormed_stretch :
    WellFormed (.stretchExpiry (.message (List.replicate 11 0) true)) = false := by decide
theorem test_wellFormed_accepts : WellFormed (.processorRead 0xC8021) = true := by decide

/-! ## The manual's worked examples -/

/-- 'Examples of decoding' (Writing the Image). -/
theorem test_decoding : decodeIn State.reset 0x40000 = .passThrough ∧
    decodeIn State.reset 0xC8021 = .aperture 1 (.image 1 1) ∧
    decodeIn State.reset 0xE4000 = .aperture 4 (.command 0) ∧
    decodeIn State.reset 0xC4020 = .aperture 0 (.status 0) ∧
    decodeIn State.reset 0xC7FFF = .aperture 0 .void := by decide

/-- No row of the table has bits, so no word spells a command. -/
theorem test_no_word_spells_a_command : decodeTableWord 16 0x0100 = none := by rfl

/-- 'A word written and undone' (The Change Table), the first write: set mask columns 0 and 15. -/
theorem test_first_complement :
    (after .readCombineWrite (merging 7 0 3 0x8001 litState)).table.ageQueue.map
      (fun e => (e.row, maskWord e.setMask 0, e.clearMask)) = [(7, 0x8001, 0)] := by decide +kernel

/-- 'A word written and undone', the second write: the entry is annulled and the word is as it was. -/
theorem test_second_complement :
    let t := after .readCombineWrite
      (merging 7 0 3 0x8001 (after .readCombineWrite (merging 7 0 3 0x8001 litState)))
    t.table.ageQueue = [] ∧ t.notice.annulled = 1 ∧ readMem t 224 = 0 := by decide +kernel

/-- 'Merge-back after a link fault' (The Change Table): erase {80..83} meets set {80, 81}. -/
theorem test_merge_back :
    let s := litState.setTable
      { ageQueue := [{ row := 40, setMask := wordCells 5 0xC000, clearMask := 0 }]
        taken := some { row := 40, setMask := 0, clearMask := wordCells 5 0xF000 } }
    (mergeBack 40 0 (wordCells 5 0xF000) s).table =
      { ageQueue := [{ row := 40, setMask := 0, clearMask := wordCells 5 0x3000 }], taken := none } := by
  decide +kernel

/-- 'Sharing turns' (Resync Sets), take 3: with the run count at the weight, the FULL row 5 before the table. -/
theorem test_sharing_turns :
    let s := ((litWith 1).setSets { full := oneRow 5 ||| oneRow 300, fill := 0, cursor := 0 }).setSched
      { op := none, runCount := 4, clearWaiting := false }
    (after .schedulerTake s).sets = { full := oneRow 300, fill := 0, cursor := 6 } ∧
      (after .schedulerTake s).sched.runCount = 0 := by decide +kernel

/-- 'A FULL operation with one module failed' (Resync Sets): the erase mask has 448 cells. -/
theorem test_full_erase_mask :
    let s := ((litState.setSets { full := oneRow 10, fill := 0, cursor := 10 }).setLink
      { litState.link with failed := oneModule 6 })
    (after .schedulerTake s).sched.op.map
      (fun o => ((allModules.map (fun m => cellCount (maskSlice o.eraseMask m))).sum, o.kind, o.cursor)) =
        some (448, .full, some 0) := by decide +kernel

/-- The bytes of 'a load that succeeds on its retry' (Driver Link), with the layout of R195, and their 76 ticks. -/
theorem test_message_bytes :
    messageBytes (loadMessageOf exampleSlice) = [0x5A, 0x03, 0xF0, 0x0F] ∧
      (messageHalves (messageBytes (loadMessageOf exampleSlice))).length = 76 := by decide +kernel

/-- 'A load that succeeds on its retry', its NACK: the retry is on the link and the counter has increased. -/
theorem test_retry :
    let s := onLink (loadMessageOf exampleSlice) 76
      (litOp (deltaOf 0 (sliceCells 2 0xF00F000000000000) .write .loading))
    let t := after (.loadMessage .clear
      [ackedSample 0x5A, ackedSample 0x03, ackedSample 0xF0, refusedSample 0x0F]) s
    t.notice.retries = 1 ∧ t.link.message.map (·.attempt) = some .retry := by decide +kernel

/-- The same load once every byte is acknowledged: module 2 has latched it and the phase is READY. -/
theorem test_load :
    let s := onLink (loadMessageOf exampleSlice) 76
      (litOp (deltaOf 0 (sliceCells 2 0xF00F000000000000) .write .loading))
    let t := after (.loadMessage .clear
      [ackedSample 0x5A, ackedSample 0x03, ackedSample 0xF0, ackedSample 0x0F]) s
    t.latches = { cols := sliceCells 2 0xF00F000000000000, writePhase := oneModule 2 } ∧
      t.sched.op.map (·.stage) = some .ready := by decide +kernel

/-- The same message in its course, each byte acknowledged: CHECKING in OPEN, SENDING with three bytes sent after
2 + 3 * 18 ticks, CLOSING after the fourth byte's 18 more, over at tick 76; held for three ticks at its first bit, it is
there with a stretch of 3 counted, and over three ticks later (R71); refused at its first byte, it is CLOSING after 20
ticks (R81). -/
theorem test_message_course :
    let l := (onLink (loadMessageOf exampleSlice) 0 litState).link
    let t := fun n => coursed n (fun _ => false) (fun k => k % 18 == 1) l
    let held := fun n => coursed n (fun k => 3 ≤ k && k < 6) (fun k => 6 ≤ k && (k - 3) % 18 == 1) l
    ((t 1).activity = .checking ∧ (t 56).activity = .sending ∧ (t 56).message.map (·.bytesSent) = some 3 ∧
      (t 73).activity = .sending ∧ (t 74).activity = .closing ∧ (t 75).course.part = .closing ∧
      (t 76).course.part = .ended) ∧
    ((held 6).course.stretch = 3 ∧ (held 6).course.half = 1 ∧ (held 78).course.part = .closing ∧
      (held 79).course.part = .ended) ∧
    (coursed 20 (fun _ => false) (fun _ => false) l).activity = .closing := by decide +kernel

/-- An idle check whose second pulse frees LDA (R79): CHECKING through the pulses, the CLOSE and OPEN, with no byte
sent; with LCK held to the stretch limit it is over, and LCK held at a bit of a message brings the CLOSE attempt
(R82). -/
theorem test_idle_check_course :
    let l := { (onLink (loadMessageOf exampleSlice) 0 litState).link with stretchLimit := 8 }
    let t := fun n => coursed n (fun _ => false) (fun k => k < 2) l
    ((t 4).course.part = .checkClose ∧ (t 6).course.part = .recheck ∧ (t 7).activity = .checking ∧
      (t 7).message.map (·.bytesSent) = some 0 ∧ (t 8).activity = .sending) ∧
    (coursed 7 (fun _ => true) (fun _ => false) l).course = { LinkCourse.start .check with stretch := 7 } ∧
    (coursed 8 (fun _ => true) (fun _ => false) l).course = { LinkCourse.start .ended with stretch := 8 } ∧
    (coursed 11 (fun k => 3 ≤ k) (fun _ => false) l).course.part = .attempt := by decide +kernel

/-- The recovery timer returns to 0 where it would reach 16,384, and an attempt begins (R87). -/
theorem test_recovery_timer :
    let t := fun n => tick (State.reset.setLink { State.reset.link with state := .faulted, timer := n })
    (t 16382).link.timer = 16383 ∧ runs .recoveryTimerExpiry (t 16382) = false ∧ (t 16383).link.timer = 0 ∧
      (after .recoveryTimerExpiry (t 16383)).link.activity = .recovering := by decide +kernel

/-- The burst timer returns to 0 where it would reach 16,384, and a status burst is requested (R177). -/
theorem test_burst_timer :
    let t := fun n => tick (State.reset.setNotice { State.reset.notice with burstTimer := n })
    (t 16382).notice.burstTimer = 16383 ∧ runs .burstTimerExpiry (t 16382) = false ∧ (t 16383).notice.burstTimer = 0 ∧
      (after .burstTimerExpiry (t 16383)).port.burst = true := by decide +kernel

/-- A message cannot end before its 76 ticks. -/
theorem test_load_too_early :
    runs (.loadMessage .clear [ackedSample 0x5A, ackedSample 0x03, ackedSample 0xF0, ackedSample 0x0F])
      (onLink (loadMessageOf exampleSlice) 75
        (litOp (deltaOf 0 (sliceCells 2 0xF00F000000000000) .write .loading))) = false := by decide +kernel

/-- The first two words of 'a two-row fill' (The Area Engine). -/
theorem test_area_fill :
    let s := afterAll
      [.apertureWrite 0xE4001 1, .apertureWrite 0xE4003 20, .apertureWrite 0xE4004 2, .apertureWrite 0xE4005 3,
        .apertureWrite 0xE4006 3, .apertureWrite 0xE4007 0x0FFF, .apertureWrite 0xE4008 0xF000,
        .apertureWrite 0xE4009 0xFFFF, .apertureWrite 0xE400A 0xAAAA, .area 0xE4000 0x0300] litState
    let t := afterAll [.areaWord, .areaWord] (quiet s)
    readMem t 643 = 0x0FFF ∧ readMem t 644 = 0xFFFF ∧ t.area.map (·.wordsWritten) = some 2 := by
  decide +kernel

/-- 'A load that clamps' (The Settings Store): its last row. -/
theorem test_load_that_clamps :
    let w : Cells Word :=
      [(0, 0x0F51), (1, 9), (2, 500), (3, 40), (4, 40), (5, 30), (6, 1200), (7, 0), (8, 25), (9, 30), (10, 5),
        (11, 50), (12, 10), (15, 5000)]
    (loadSettings w).aperture = 3 ∧ (loadSettings w).rowCount = 12 ∧ (loadSettings w).allowance = 1 ∧
      (loadSettings w).pMax = 40 ∧ (loadSettings w).ws = 17 ∧ (loadSettings w).dc = 0 ∧
      (loadSettings w).wc = 10 ∧ (loadSettings w).dr = 0 ∧ (loadSettings w).wr = 10 ∧
      (loadSettings w).holdLimit = 4095 := by decide +kernel

/-- The setup state opens at the fifth value of its sequence (R185). -/
theorem test_setup_opens :
    (afterAll (Config.openingSequence.map (fun v => .setupSequenceWrite 0xE401F v)) State.reset).cmd.setupOpen =
      true := by decide +kernel

/-- 'A bounce survived, then a loss' (Panel Sequencer): the loss in RESUMING at tick 8,000. -/
theorem test_loss_in_resuming :
    let s := litState.setSeq { litState.seq with state := .resuming, settle := 800, gap := 8000 }
    (after .lossLimitReached s).seq.state = .settling ∧ (after .lossLimitReached s).seq.settle = 800 ∧
      (after .lossLimitReached s).seq.gapLength = 8000 := by decide +kernel

/-- The expected code at the extreme that R138 works out: 1020 for 262,144 lit cells at G = 255, B = 0. -/
theorem test_expected_code :
    expectedCode { defaultSettings with baseCode := 0, gain := 255 } 262144 = 1020 := by decide

/-- An exact multiple of K is not rounded up, and one cell more is (R134, K = 1,200). -/
theorem test_load_limiter :
    limitPeriod defaultTiming 120000 = (100, false) ∧ limitPeriod defaultTiming 120001 = (101, false) := by
  decide

/-- Status word 1 in LIT with the filtered level high (R194). -/
theorem test_state_word : statusWord litState 1 = 0x0013 := by decide

/-- A strobe lights the latched columns of the row and of no other (R57, R74). -/
theorem test_strobe :
    let op := { deltaOf 0 (sliceCells 2 1) .write .firing with loaded := oneModule 2 }
    let s := (inPeriod (periodAt .address 60 false) (litOp op)).setLatches
      { cols := sliceCells 2 1, writePhase := oneModule 2 }
    let t := after .strobe s
    panelRow t 100 = sliceCells 2 1 ∧ t.lit.total = 1 ∧ t.sched.op = none := by decide +kernel

/-- The third agreeing sample is good high (R112). -/
theorem test_filter :
    let s := State.reset.setSeq { State.reset.seq with input := true, sampled := false, runCount := 2 }
    runs (.supplyGoodSample true) s = false ∧ (after .goodHigh s).seq.state = .settling := by decide +kernel

/-- Ten steps with nothing waiting and the supply good: good high came on the third tick (R112). -/
theorem test_idle_steps_reach_settling :
    let s := quiet (State.reset.setSeq { State.reset.seq with input := true })
    (Nat.repeat idleStep 7 s).seq.state = .settling ∧ (Nat.repeat idleStep 5 s).seq.state = .dark := by
  decide +kernel

/-! ## Witnesses: a state and operands that meet the hypotheses of each statement -/

/-- A posting of a code, by the privileged REPLACE address of command word 0, right after reset. -/
theorem reset_posts (d : Word) (code : Byte) (h : highByte d = code) : Posts State.reset 0xE4000 d code :=
  ⟨rfl, d, ⟨⟨rfl, rfl⟩, rfl, 4, by decide, rfl, rfl⟩, h⟩

/-- The same in the LIT state. -/
theorem lit_posts (d : Word) (code : Byte) (h : highByte d = code) : Posts litState 0xE4000 d code :=
  ⟨rfl, d, ⟨⟨rfl, rfl⟩, rfl, 4, by decide, rfl, rfl⟩, h⟩

/-- No block holds anything for a command, and no period runs, in the LIT state. -/
theorem lit_commandLaw : CommandLaw litState :=
  ⟨⟨nofun, nofun, nofun, nofun, fun h => absurd rfl h⟩, nofun, nofun⟩

theorem reset_commandLaw : CommandLaw State.reset :=
  ⟨⟨nofun, nofun, nofun, nofun, fun h => absurd rfl h⟩, nofun, nofun⟩

theorem witness_StepRunsTheFrontCommand :
    (litState.setPending [.driverClearPulse, .statusBurst]).pending = .driverClearPulse :: [.statusBurst] := rfl

/-- A state with nothing due, so that its idle step is a tick, with nothing on the link or a message whose LCK is to
read high. -/
theorem witness_IdleStepIsAnOwnEventOrATick :
    let s := quiet (State.reset.setSeq { State.reset.seq with sampled := true })
    let m := onLink (loadMessageOf exampleSlice) 3 s
    let m := m.setLink { m.link with course := { LinkCourse.start .byte with half := 1 } }
    State.reset.pending = [] ∧ s.pending = [] ∧ (ownEvents s).all (fun c => !runs c s) = true ∧
      (ownEvents m).all (fun c => !runs c m) = true ∧ LinkInUse m.link ∧ AwaitsLck m.link.course := by
  decide +kernel

theorem witness_CommandsLeaveTheQueue :
    ∃ t, exec (.passThroughCycle 0x40000 (.read 7)) State.reset = .next t := ⟨_, rfl⟩

theorem witness_ResetGivesEveryBlockItsValues : litState.store.op = .none ∧ Memory.wf litState.mem ∧
    servableUnits (quiet litState) = [] := ⟨rfl, reset_memory_wf, rfl⟩

/-- A granted area word beside other requests, the two units of the third rank in either order, an area word
requested while AREA's RUNNING write waits, and a write accepted while no other unit has stood first. -/
theorem witness_ResetGivesEveryBlockItsValues_port :
    let x := areaAt 7 3 .granted
    let port := fun a b : ThirdRank => (litState.setPort { burst := false, third := [a, b] })
    (litState.setArea (some x)).area = some x ∧ x.unit = .granted ∧ litState.wmu.state = .idle ∧
      (port .noticeUpdate .commandWrite).port.third = .noticeUpdate :: [.commandWrite] ∧
      (port .commandWrite .noticeUpdate).port = { burst := false, third := .commandWrite :: [.noticeUpdate] } ∧
      ((port .commandWrite .noticeUpdate).setArea (some (areaAt 7 3 .requested))).area =
        some (areaAt 7 3 .requested) ∧ (areaAt 7 3 .requested).unit ≠ .granted ∧
      (merging 7 0 3 1 (port .commandWrite .noticeUpdate)).reached = { burst := false, third := false, area := false } ∧
      (merging 7 0 3 1 (port .commandWrite .noticeUpdate)).wmu.state =
        .merging { target := .image 7 0, view := 3, data := 1 } ∧
      (litState.setPort { burst := true, third := [.noticeUpdate] }).port.burst = true ∧
      (litState.setPort { burst := true, third := [.noticeUpdate] }).reached =
        { burst := false, third := false, area := false } :=
  ⟨rfl, rfl, rfl, rfl, rfl, rfl, nofun, rfl, rfl, rfl, rfl⟩

/-- An erase of page 1 and a write of word 63 in progress. -/
theorem witness_ResetGivesEveryBlockItsValues_store :
    (litState.setStore { litState.store with op := .erase 1 5 }).store.op = .erase 1 5 ∧
      (litState.setStore { litState.store with op := .write 63 0 5 }).store.op = .write 63 0 5 ∧
      CellsWf 0xFFFF litState.store.words := ⟨rfl, rfl, List.Pairwise.nil, nofun⟩

/-- The cause of a reset by both sources is power-on (R179). -/
theorem test_reset_together : (after (.reset .together) litState).notice.cause = .powerOn ∧
    (after (.reset .resetInput) litState).notice.cause = .resetInput := by decide +kernel

/-- A reset may find the unit of an accepted write being served: its word is O or N (R9, R17), here N of a
COMPLEMENT of 0 by 0x8001 (R3). -/
theorem test_reset_cuts_write :
    servableUnits (quiet (merging 7 0 3 0x8001 litState)) = [[(224, 0x8001)]] := by decide +kernel

/-- A reset finds no unit being served that has waited behind a higher rank all along, nor any beside an area word that
is granted (R17): of a burst, a notice word and an area word asked for at once it finds the burst; where the notice
word stood first before the burst came, either of the two. -/
theorem test_reset_cuts_one_unit :
    let s := (running 0x05 litState).setPort { burst := true, third := [.noticeUpdate, .commandWrite] }
    let units := fun s : State => (servableUnits s).map (·.map (·.1))
    let record := (List.range 32).map (16416 + ·)
    let area := s.setArea (some (areaAt 7 3 .requested))
    units area = [record] ∧ units (area.setReached { area.reached with third := true }) = [record, [16416]] ∧
      units (s.setArea (some (areaAt 7 3 .granted))) = [[227]] ∧ units (quiet area) = [[227]] ∧
      units (requestBurst (quiet area)) = [record, [227]] := by decide +kernel

/-- After an area word that degrades its row, a reset can find the notice word being served, and not the next area
word, which is asked for behind it (R17, R157); once the notice word is written, it can. -/
theorem test_reset_after_degrade :
    let x := { areaAt 7 3 .requested with
      op := .set, lastWord := 4, leftMask := 1, rightMask := 1, pattern := [1, 1, 1, 1] }
    let t := after .areaWord ((quiet (litWith 32)).setArea (some x))
    let units := fun s : State => (servableUnits s).map (·.map (·.1))
    t.notice.degradedRows = 1 ∧ units t = [[16416]] ∧ units (after .noticeWordUpdate t) = [[228]] := by
  decide +kernel

/-- A unit that still waits when another ends was not granted before (R16, R17): an area word stood first until a burst
and a notice word were asked for, and a reset may then find it or the burst; after the burst, or after a write of the
processor that came instead, it finds the notice word alone, and after that the area word. -/
theorem test_reset_after_unit :
    let units := fun s : State => (servableUnits s).map (·.map (·.1))
    let first := (quiet litState).setArea (some (areaAt 7 3 .requested))
    let s := requestNoticeUpdate (requestBurst first)
    let written := after .readCombineWrite (merging 9 0 1 1 (requestNoticeUpdate first))
    units s = [(List.range 32).map (16416 + ·), [227]] ∧ units (after .statusBurst s) = [[16416]] ∧
      units (requestNoticeUpdate first) = [[16416], [227]] ∧ units written = [[16416]] ∧
      units (after .noticeWordUpdate written) = [[227]] := by decide +kernel

/-- AREA's first word waits behind its RUNNING write (R17, R165). -/
theorem test_area_behind_running :
    let h := { litState.cmd with copy := [(1, 1), (3, 7), (4, 1), (6, 1), (7, 1), (8, 1)] }
    let t := after (.area 0xE4000 0x0300) (quiet (litState.setCmd h))
    t.area.map (·.unit) = some .requested ∧ (servableUnits t).map (·.map (·.1)) = [[16384]] := by decide +kernel

theorem witness_ReadsAndPassThroughCyclesComplete :
    State.reset.bus.ready = true ∧ NoGap State.reset ∧
      addrQuarter (0x40000 : BusAddr) ≠ State.reset.store.settings.aperture ∧
      addrQuarter (0xC4040 : BusAddr) = State.reset.store.settings.aperture ∧
      16448 ≤ addrOffset (0xC4040 : BusAddr) ∧
      addrQuarter (0xC403F : BusAddr) = State.reset.store.settings.aperture ∧
      addrOffset (0xC403F : BusAddr) < 16448 := by decide

/-- The port between two cycles of the processor: a status burst waits; a third-rank unit; the handler's write; a
snapshot word; an area word, alone, and ahead of a snapshot word not yet requested; nothing; an area word's unit is
being served. -/
theorem witness_ReadsAndPassThroughCyclesComplete_gap :
    let s := (quiet litState).setGapDue true
    let r : Running := { code := 1, args := [], result := none, abortTaken := false, writes := [(0, 0x0101)] }
    let snap := { deltaOf 0 0 .erase .snapshot with kind := .fill, cursor := some 31 }
    let area := fun u => s.setArea (some (areaAt 511 31 u))
    (s.bus.ready = true ∧ s.wmu.state = .idle ∧ s.gapDue = true ∧ areaGranted s = false) ∧
      (s.setPort { burst := true, third := [] }).port.burst = true ∧
      (State.reset.setGapDue true).port = { burst := false, third := [.noticeUpdate] } ∧
      (s.setCmd { s.cmd with running := some r }).cmd.running = some r ∧ r.writes ≠ [] ∧
      (∀ q : Bool, (s.setSched { s.sched with op := some { snap with asked := q } }).sched.op =
        some { snap with asked := q }) ∧ snap.stage = .snapshot ∧ snap.cursor = some 31 ∧
      (areaAt 511 31 .requested).unit = .requested ∧ (area .requested).port = { burst := false, third := [] } ∧
      areaGranted (area .granted) = true ∧
      decodeIn s 0xC3DE0 = .aperture 0 (.image 495 0) ∧ inBand s.store.settings 495 = false ∧
      decodeIn s 0xE4000 = .aperture 4 (.command 0) := by decide +kernel

/-- Each unit of the port where it is served: the five of other blocks, the processor's two, and a write to the command
row. -/
theorem witness_ReadsAndPassThroughCyclesComplete_units :
    let s := quiet litState
    let r : Running := { code := 1, args := [], result := none, abortTaken := false, writes := [(0, 0x0101)] }
    let snap := { deltaOf 0 0 .erase .snapshot with kind := .fill, cursor := some 31 }
    runs .commandRowWordWrite
        ((s.setCmd { s.cmd with running := some r }).setPort { burst := false, third := [.commandWrite] }) = true ∧
      runs .noticeWordUpdate State.reset = true ∧
      runs .statusBurst (s.setPort { burst := true, third := [.noticeUpdate] }) = true ∧
      runs .areaWord (s.setArea (some (areaAt 511 31 .granted))) = true ∧
      runs .snapshotWordRead (s.setSched { s.sched with op := some snap }) = true ∧
      runs .readCombineWrite (merging 7 0 3 1 s) = true ∧ runs (.processorRead 0xC403F) s = true ∧
      WritesCommand s 0xE401E 5 30 5 ∧ runs (commandRowWrite 30 0 0xE401E 5) s = true :=
  ⟨rfl, rfl, rfl, by decide +kernel, rfl, by decide +kernel, by decide +kernel,
    ⟨by decide, rfl, 4, by decide +kernel⟩, by decide +kernel⟩

/-- Between two processor cycles the port grants waiting work (R17): the second read is served after the burst. -/
theorem test_gap :
    let s := (quiet litState).setPort { burst := true, third := [] }
    let t := afterAll [.processorRead 0xC0000, .processorRead 0xC4021] s
    (after (.processorRead 0xC4021) s).bus.readData = 0 ∧ t.bus.readData = 0x0013 ∧ t.port.burst = false := by
  decide +kernel

/-- Row 496, the first of the default band, and the last word of row 511, through ordinary views. -/
theorem witness_ProtectedWritesAreDiscardedAndCounted :
    State.reset.bus.ready = true ∧ State.reset.store.settings.aperture = 3 ∧
      addrQuarter (0xC3E00 : BusAddr) = 3 ∧ addrView (0xC3E00 : BusAddr) = 0 ∧
      addrOffset (0xC3E00 : BusAddr) = 32 * 496 ∧ addrQuarter (0xDBFFF : BusAddr) = 3 ∧
      addrView (0xDBFFF : BusAddr) = 3 ∧ addrOffset (0xDBFFF : BusAddr) = 32 * 511 + 31 ∧
      State.reset.store.settings.firstRow = 496 ∧ State.reset.store.settings.rowCount = 16 := by decide

/-- Both ends of the command row and the status row through ordinary views, and of status words 1 to 31 through a
privileged one. -/
theorem witness_ProtectedWritesAreDiscardedAndCounted_rows :
    addrView (0xC4000 : BusAddr) = 0 ∧ addrOffset (0xC4000 : BusAddr) = 16384 ∧
      addrView (0xDC03F : BusAddr) = 3 ∧ addrOffset (0xDC03F : BusAddr) = 16447 ∧
      addrOffset (0xC401F : BusAddr) = 16415 ∧ addrOffset (0xE4021 : BusAddr) = 16417 ∧
      addrQuarter (0xE4021 : BusAddr) = 3 := by decide

/-- Row 495 through an ordinary view and row 496 through a privileged one. -/
theorem witness_WritesThatPassAreAccepted :
    NoGap State.reset ∧ State.reset.bus.ready = true ∧
      (decodeIn State.reset 0xC3DE0 = .aperture 0 (.image 495 0) ∧
        ¬ ((0 : BitVec 3) < 4 ∧ 496 ≤ (495 : Row).val ∧ (495 : Row).val < 496 + 16)) ∧
      decodeIn State.reset 0xE3E00 = .aperture 4 (.image 496 0) ∧ ¬ (4 : BitVec 3) < 4 := by decide +kernel

/-- Command word 31, written through a privileged view. -/
theorem witness_WritesThatPassAreAccepted_command :
    decodeIn State.reset 0xE401F = .aperture 4 (.command 31) ∧ (4 : BitVec 3) ≤ 4 ∧
      WritesCommand State.reset 0xE401F 5 31 5 ∧ State.reset.wmu.state = .idle :=
  ⟨by decide +kernel, by decide, ⟨⟨rfl, rfl⟩, rfl, 4, by decide +kernel, rfl, rfl⟩, rfl⟩

theorem witness_ReadCombineWriteStoresTheNewWord :
    Memory.wf (merging 511 31 7 0x8001 litState).mem ∧
      (merging 511 31 7 0x8001 litState).wmu.state =
        .merging { target := .image 511 31, view := 7, data := 0x8001 } :=
  ⟨⟨⟨List.Pairwise.nil, nofun⟩, nofun⟩, rfl⟩

/-- A difference that the merge has a place for. -/
theorem witness_ReadCombineWriteStoresTheNewWord_merged :
    (mergeDifference 511 31 0x8001 0 (writeMem (32 * 511 + 31) 0x8001 (merging 511 31 7 0x8001 litState))).isSome =
      true := by decide +kernel

/-- The word unchanged; its row in a set; a snapshot that has still to read it. -/
theorem witness_WriteWithNothingToPlaceCompletes :
    combine (viewCombine 0) (readMem litState (imageOffset 7 0)) 0 = readMem litState (imageOffset 7 0) ∧
      hasRow (merging 7 0 0 1 State.reset).sets.fill 7 = true ∧
      ∃ op k, (litOp { deltaOf 0 0 .erase .snapshot with kind := .fill, cursor := some 31 }).sched.op = some op ∧
        op.row = 100 ∧ op.stage = .snapshot ∧ op.cursor = some k ∧ k ≤ (31 : WordIx).val :=
  ⟨rfl, by decide +kernel, _, 31, rfl, rfl, rfl, rfl, by decide⟩

theorem witness_MergeIntoAnOpenEntry :
    dropped (litWith 1) 100 31 = false ∧
      openEntry (litWith 1).table 100 = some { row := 100, setMask := 1, clearMask := 2 } ∧
      (1 : Mask) &&& 2 = 0 ∧ (2 : Word) &&& 1 = 0 := by decide +kernel

theorem witness_MergeWithoutAnOpenEntry :
    dropped (litWith 31) 7 0 = false ∧ openEntry (litWith 31).table 7 = none ∧
      slotsInUse (litWith 31).table < 32 ∧ dropped (litWith 32) 7 0 = false ∧
      openEntry (litWith 32).table 7 = none ∧ 32 ≤ slotsInUse (litWith 32).table := by decide +kernel

/-- A hold: its row in a set, or not, with a free slot; and an area word that seeks the slot too, or none. -/
theorem witness_MergeBackStandsAtTheHead_hold :
    let h : HeldChange := { row := 7, word := 0, rise := 1, fall := 0 }
    let s := holding 5 (quiet (litWith 31))
    let c := s.setArea (some { areaAt 9 0 .requested with op := .complement, pattern := [1, 1, 1, 1]
                                                          leftMask := 1, rightMask := 1 })
    (holding 5 State.reset).wmu.state = .holding h ∧ inResync (holding 5 State.reset) h.row = true ∧
      s.wmu.state = .holding h ∧ inResync s h.row = false ∧ areaContends h s = false ∧
      c.wmu.state = .holding h ∧ inResync c h.row = false ∧ areaContends h c = true := by decide +kernel

/-- 'Both seek one slot just freed' (R158): with two free slots the two do not contend. -/
theorem test_two_free_slots :
    let h : HeldChange := { row := 7, word := 0, rise := 1, fall := 0 }
    let s := fun n => (holding 5 (quiet (litWith n))).setArea (some
      { areaAt 9 0 .requested with op := .complement, pattern := [1, 1, 1, 1], leftMask := 1, rightMask := 1 })
    areaContends h (s 31) = true ∧ areaContends h (s 30) = false ∧ areaContends h (s 32) = false := by
  decide +kernel

/-- A slot freed under a hold is taken by the held record (R12, R30): entry, READY high. -/
theorem test_hold_merged :
    let t := settleHold (holding 5 (litWith 31))
    t.table.ageQueue.length = 32 ∧ t.wmu.state = .idle ∧ t.bus.ready = true := by decide +kernel

theorem witness_MergeBackStandsAtTheHead :
    (2 : Mask) &&& 1 = 0 ∧ (∀ e ∈ (litWith 1).table.ageQueue, EntryLaw e) ∧
      inResync (litWith 1) 100 = false ∧ inResync State.reset 100 = true := by decide +kernel

theorem witness_WriteWithoutRoomIsHeld :
    let s := merging 7 0 0 1 (litWith 32)
    s.wmu.state = .merging { target := .image 7 0, view := 0, data := 1 } ∧ dropped s 7 0 = false ∧
      openEntry s.table 7 = none ∧ 32 ≤ slotsInUse s.table ∧
      combine (viewCombine 0) (readMem s (imageOffset 7 0)) 1 ≠ readMem s (imageOffset 7 0) ∧
      0 < s.store.settings.holdLimit ∧ recordless s.seq.state = false := by decide +kernel

theorem witness_HoldExpiryDegradesTheRow :
    let h : HeldChange := { row := 7, word := 0, rise := 1, fall := 0 }
    let s := (litWith 32).setWmu { state := .holding h, holdCounter := 4095 }
    s.wmu.state = .holding h ∧ s.store.settings.holdLimit ≤ s.wmu.holdCounter ∧
      recordless s.seq.state = false ∧ inResync s h.row = false := by decide +kernel

/-- Word 30, and word 0 with a zero high byte. -/
theorem witness_CommandWordsAreStoredWhileIdle :
    WritesCommand State.reset 0xE401E 0xFFFF 30 0xFFFF ∧ WritesCommand State.reset 0xE4000 0x00FF 0 0x00FF ∧
      highByte 0x00FF = 0 ∧ State.reset.cmd.running = none ∧ (30 : WordIx) ≠ 31 :=
  ⟨⟨⟨rfl, rfl⟩, rfl, 4, by decide, rfl, rfl⟩, ⟨⟨rfl, rfl⟩, rfl, 4, by decide, rfl, rfl⟩, rfl, rfl, by decide⟩

/-- An ABORT that finds nothing to stop, and a write to word 31. -/
theorem witness_CommandRowWritesAreRefusedWhileRunning :
    WritesCommand (running 0x06 litState) 0xE4000 0x0700 0 0x0700 ∧
      WritesCommand (running 0x06 litState) 0xE401F 0x2E71 31 0x2E71 ∧
      (running 0x06 litState).cmd.running =
        some { code := 0x06, args := [], result := none, abortTaken := false, writes := [] } :=
  ⟨⟨⟨rfl, rfl⟩, rfl, 4, by decide, rfl, rfl⟩, ⟨⟨rfl, rfl⟩, rfl, 4, by decide, rfl, rfl⟩, rfl⟩

theorem witness_CommandRowIsLockedWhileRunning :
    NoGap (running 0x06 litState) ∧ (running 0x06 litState).cmd.running ≠ none ∧
      ∃ t, exec (.imageWordWrite 0xE4001 5) (running 0x06 litState) = .next t := ⟨⟨rfl, rfl⟩, nofun, _, rfl⟩

/-- A command that is no bus cycle, while the port owes waiting work its grant. -/
theorem witness_CommandRowIsLockedWhileRunning_gap :
    let s := (running 0x06 litState).setGapDue true
    usesPort (.passThroughCycle 0x40000 (.read 7)) = false ∧ s.gapDue = true ∧ s.cmd.running ≠ none ∧
      ∃ t, exec (.passThroughCycle 0x40000 (.read 7)) s = .next t := ⟨rfl, rfl, nofun, _, rfl⟩

theorem witness_SetupMatchersFollowTheSequences :
    WritesCommand State.reset 0xE401F 0x2E71 31 0x2E71 ∧ State.reset.cmd.running = none ∧
      State.reset.cmd.setupOpen = false := ⟨⟨⟨rfl, rfl⟩, rfl, 4, by decide, rfl, rfl⟩, rfl, rfl⟩

theorem witness_PostingsAreAccepted :
    WritesCommand State.reset 0xE4000 0x2100 0 0x2100 ∧ State.reset.cmd.running = none ∧ highByte 0x2100 ≠ 0 :=
  ⟨⟨⟨rfl, rfl⟩, rfl, 4, by decide, rfl, rfl⟩, rfl, by decide⟩

/-- Posted in LIT: a count of 0 for BAD_ARGUMENT, and row 511 with a count of 1, the last that is not clamped. -/
theorem witness_RepaintRequestsItsRows :
    let s := litState.setCmd { litState.cmd with copy := [(1, 511), (2, 1)] }
    Posts litState 0xE4000 0x0100 0x01 ∧ Posts s 0xE4000 0x0100 0x01 ∧ ReadyFollows s ∧ ThirdLaw s ∧
      argument litState 2 = 0 ∧ ¬ (511 < argument s 1 ∨ argument s 2 = 0) ∧ recordless s.seq.state = false :=
  ⟨lit_posts _ _ rfl, ⟨rfl, 0x0100, ⟨⟨rfl, rfl⟩, rfl, 4, by decide, rfl, rfl⟩, rfl⟩, by decide,
    by decide +kernel, by decide, by decide, rfl⟩

theorem witness_ClearAndRepaintErasesThePanel :
    Posts State.reset 0xE4000 0x0200 0x02 ∧ Posts litState 0xE4000 0x0200 0x02 ∧
      let s := inPeriod (periodAt .globalErase 60 false) litState
      s.seq.state = .lit ∧ s.period.current = some (periodAt .globalErase 60 false) ∧
        s.period.timing.dc + s.period.timing.wc + 1 ≤ (periodAt .globalErase 60 false).tick :=
  ⟨reset_posts _ _ rfl, lit_posts _ _ rfl, rfl, rfl, by decide⟩

/-- Row 511 and word 31 are the last that are not refused; row 495 is the last outside the default band. -/
theorem witness_AreaIsCheckedAndClamped :
    let s := State.reset.setCmd
      { State.reset.cmd with copy := [(1, 3), (3, 495), (4, 1), (5, 31), (6, 1)] }
    Posts State.reset 0xE4000 0x0300 0x03 ∧ Posts s 0xE4000 0x0300 0x03 ∧
      ¬ (3 < argument s 1 % 256 ∨ argument s 4 = 0 ∨ argument s 6 = 0 ∨ 511 < argument s 3 ∨ 31 < argument s 5) ∧
      inBand s.store.settings 495 = false :=
  ⟨reset_posts _ _ rfl, ⟨rfl, 0x0300, ⟨⟨rfl, rfl⟩, rfl, 4, by decide, rfl, rfl⟩, rfl⟩, by decide, by decide⟩

/-- A rectangle of rows 510 to 511, both passed over, and one of rows 495 to 496 and 0 to 511 whose first row is
not: with PRIV clear the rows from 496 on are passed over. -/
theorem witness_AreaIsCheckedAndClamped_band :
    let s := fun row rows : Word => State.reset.setCmd
      { State.reset.cmd with copy := [(1, 3), (3, row), (4, rows), (5, 31), (6, 1)] }
    Posts (s 510 2) 0xE4000 0x0300 0x03 ∧ (copyWord (s 510 2).cmd 1).getLsbD 15 = false ∧
      inBand (s 510 2).store.settings 510 = true ∧ inBand (s 510 2).store.settings 511 = true ∧
      Posts (s 495 2) 0xE4000 0x0300 0x03 ∧ inBand (s 495 2).store.settings 495 = false ∧
      Posts (s 0 512) 0xE4000 0x0300 0x03 ∧ inBand (s 0 512).store.settings 0 = false :=
  ⟨⟨rfl, 0x0300, ⟨⟨rfl, rfl⟩, rfl, 4, by decide, rfl, rfl⟩, rfl⟩, by decide, by decide, by decide,
    ⟨rfl, 0x0300, ⟨⟨rfl, rfl⟩, rfl, 4, by decide, rfl, rfl⟩, rfl⟩, by decide,
    ⟨rfl, 0x0300, ⟨⟨rfl, rfl⟩, rfl, 4, by decide, rfl, rfl⟩, rfl⟩, by decide⟩

/-- A band of row 5 alone: an area of rows 5 to 6 begins at row 6. -/
theorem test_area_passes_over :
    let s := (State.reset.setStore { State.reset.store with
      settings := { State.reset.store.settings with firstRow := 5, rowCount := 1 } }).setCmd
        { State.reset.cmd with copy := [(1, 3), (3, 5), (4, 2), (5, 31), (6, 1)] }
    (after (.area 0xE4000 0x0300) s).area.map (·.row) = some 6 := by decide +kernel

theorem witness_BlankDarkensThePanel : Posts litState 0xE4000 0x0400 0x04 ∧ CommandLaw litState :=
  ⟨lit_posts _ _ rfl, lit_commandLaw⟩

theorem witness_UnblankJudgesTheSupply : Posts State.reset 0xE4000 0x0500 0x05 := reset_posts _ _ rfl

theorem witness_ProbeStartsARoundOfFailedModules :
    Posts State.reset 0xE4000 0x0600 0x06 ∧ State.reset.link.state = .ok ∧ State.reset.link.failed = 0 :=
  ⟨reset_posts _ _ rfl, rfl, rfl⟩

/-- PROBE posted with a module FAILED, and on a FAULTED link. -/
theorem witness_ProbeStartsARoundOfFailedModules_round :
    let s := fun q : LinkState => litState.setLink { litState.link with state := q, failed := oneModule 2 }
    (∀ q, Posts (s q) 0xE4000 0x0600 0x06) ∧ (s .ok).link.state = .ok ∧ (s .faulted).link.state = .faulted ∧
      (s .ok).link.failed ≠ 0 :=
  ⟨fun _ => ⟨rfl, 0x0600, ⟨⟨rfl, rfl⟩, rfl, 4, rfl, rfl, rfl⟩, rfl⟩, rfl, rfl, by decide⟩

/-- PROBE with modules 2 and 6 FAILED: module 2 is probed at once on a free link, and the round waits while a phase is
LOADING (R78, R90). -/
theorem test_probe_is_sent :
    let failed := fun s : State => s.setLink { s.link with failed := oneModule 2 ||| oneModule 6 }
    let t := fun s => (after (.probe 0xE4000 0x0600) (failed s)).link
    (t litState).message = some (probeOf 2) ∧ (t litState).round.map (·.left) = some [2, 6] ∧
      (t (litOp (deltaOf 1 2 .erase .loading))).message = none := by decide +kernel

/-- A probe refused: the round's next module is probed, or a slice that waits is sent first (R78, R91). -/
theorem test_probe_then_next :
    let s := onLink (probeOf 2) 40 litState
    let s := s.setLink { s.link with
      failed := oneModule 2 ||| oneModule 6, round := some { left := [2, 6], restored := false } }
    let t := fun s => (after (.probeMessage .clear [refusedSample 0x4A]) s).link
    (t s).message = some (probeOf 6) ∧
      (t (s.setLink { s.link with waiting := some exampleSlice })).message = some (loadMessageOf exampleSlice) := by
  decide +kernel

theorem witness_AbortWhileIdleAndBadCodesDoNothing :
    Posts State.reset 0xE4000 0x0700 0x07 ∧ Posts State.reset 0xE4000 0x0900 0x09 :=
  ⟨reset_posts _ _ rfl, reset_posts _ _ rfl⟩

/-- A running CLEAR_AND_REPAINT, and a running SETTINGS_APPLY. -/
theorem witness_AbortStopsTheRunningCommand :
    let r := fun code : Byte =>
      { code := code, args := [], result := none, abortTaken := false, writes := [] : Running }
    let clear := (running 0x02 litState).setSched { litState.sched with clearWaiting := true }
    let apply := (running 0x12 litState).setStore { litState.store with staged := some defaultSettings }
    WritesCommand clear 0xE4000 0x0700 0 0x0700 ∧ clear.cmd.running = some (r 0x02) ∧
      clear.sched.clearWaiting = true ∧ WritesCommand apply 0xE4000 0x0700 0 0x0700 ∧
      apply.cmd.running = some (r 0x12) ∧ apply.store.staged = some defaultSettings :=
  ⟨⟨⟨rfl, rfl⟩, rfl, 4, by decide, rfl, rfl⟩, rfl, rfl, ⟨⟨rfl, rfl⟩, rfl, 4, by decide, rfl, rfl⟩, rfl, rfl⟩

/-- A running AREA with its operation: with a rank above its word waiting at the port, and with none. -/
theorem witness_AbortStopsTheRunningArea :
    let x := areaAt 0 0 .requested
    let s := (running 0x03 litState).setArea (some x)
    WritesCommand s 0xE4000 0x0700 0 0x0700 ∧ WritesCommand (quiet s) 0xE4000 0x0700 0 0x0700 ∧ s.area = some x ∧
      x.unit = .requested ∧ areaGrantable s = false ∧ areaGrantable (quiet s) = true :=
  ⟨⟨⟨rfl, rfl⟩, rfl, 4, by decide, rfl, rfl⟩, ⟨⟨rfl, rfl⟩, rfl, 4, by decide, rfl, rfl⟩, rfl, rfl, rfl, rfl⟩

/-- An ABORT taken second at the grant of the last word's unit (R160): the word is combined and counted, and the
area completes with ABORTED, in place of TRUNCATED. -/
theorem test_abort_after_grant :
    let x := { areaAt 511 31 .granted with truncated := true, abortPending := true, wordsWritten := 7 }
    let t := after .areaWord ((running 0x03 (quiet litState)).setArea (some x))
    t.area = none ∧ t.cmd.running.map (fun r => (r.result, r.writes)) = some (some 0x82, [(2, 8), (0, 0x0382)]) := by
  decide +kernel

/-- An ABORT taken first (R160): with a rank above the word waiting, the request is withdrawn and not counted. -/
theorem test_abort_before_grant :
    let t := after (.abort 0xE4000 0x0700) ((running 0x03 litState).setArea (some (areaAt 511 31 .requested)))
    t.area = none ∧ t.cmd.running.map (fun r => (r.result, r.writes)) = some (some 0x82, [(2, 0), (0, 0x0382)]) := by
  decide +kernel

theorem witness_StoreCommandsAreChecked :
    Posts State.reset 0xE4000 0x0800 0x08 ∧ Posts State.reset 0xE4000 0x1000 0x10 ∧
      Posts State.reset 0xE4000 0x1100 0x11 := ⟨reset_posts _ _ rfl, reset_posts _ _ rfl, reset_posts _ _ rfl⟩

theorem witness_StoreOperationsEnd :
    let s := (running 0x10 State.reset).setStore { State.reset.store with op := .erase 1 96000 }
    let w := (running 0x11 State.reset).setStore { State.reset.store with op := .write 63 0 256 }
    CellsWf 0xFFFF s.store.words ∧ s.store.op = .erase 1 96000 ∧ w.store.op = .write 63 0 256 ∧
      s.cmd.running ≠ none := ⟨⟨List.Pairwise.nil, nofun⟩, rfl, rfl, nofun⟩

/-- The setup state closed, open in DARK and open in LIT. -/
theorem witness_SettingsApplyStagesOrInstalls :
    Posts State.reset 0xE4000 0x1200 0x12 ∧ CommandLaw State.reset ∧ State.reset.cmd.setupOpen = false ∧
      let s := State.reset.setCmd { State.reset.cmd with setupOpen := true }
      let t := litState.setCmd { litState.cmd with setupOpen := true }
      Posts s 0xE4000 0x1200 0x12 ∧ s.seq.state ≠ .lit ∧ Posts t 0xE4000 0x1200 0x12 ∧ t.seq.state = .lit :=
  ⟨reset_posts _ _ rfl, reset_commandLaw, rfl, ⟨rfl, 0x1200, ⟨⟨rfl, rfl⟩, rfl, 4, by decide, rfl, rfl⟩, rfl⟩, nofun,
    ⟨rfl, 0x1200, ⟨⟨rfl, rfl⟩, rfl, 4, by decide, rfl, rfl⟩, rfl⟩, rfl⟩

/-- An installation that reaches the settle limit, the loss limit, both, or none, by the defaults of an erased
store. -/
theorem witness_SettingsApplyStagesOrInstalls_limits :
    let new := loadSettings State.reset.store.words
    new.settleLimit = 1024 ∧ new.lossLimit = 8000 ∧
      ∀ q ∈ [SeqState.settling, .gap, .resuming], ∀ n ∈ [1023, 1024], ∀ m ∈ [7999, 8000],
        let s := (State.reset.setCmd { State.reset.cmd with setupOpen := true }).setSeq
          { State.reset.seq with state := q, settle := n, gap := m }
        s.bus.ready = true ∧ s.cmd.setupOpen = true ∧ s.seq.state ≠ .lit := by decide +kernel

theorem witness_CommandRowWritesAndCompletion :
    let r : Running :=
      { code := 0x05, args := [], result := some 0x80, abortTaken := false, writes := [(0, 0x0580)] }
    let s := (litState.setCmd { litState.cmd with running := some r }).setPort
      { burst := false, third := [.commandWrite] }
    s.cmd.running = some r ∧ r.writes = (0, 0x0580) :: [] ∧ (∀ c, s.wmu.state ≠ .merging c) ∧
      areaGranted s = false ∧ s.port = { burst := false, third := .commandWrite :: [] } :=
  ⟨rfl, rfl, nofun, rfl, rfl⟩

/-- After reset with an erased store SETTINGS_DEFAULT is in the set: data 0x80 removes it, data 0x7F nothing. -/
theorem witness_NoticesAreClearedAndWritten :
    State.reset.bus.ready = true ∧ decodeIn State.reset 0xE4020 = .aperture 4 (.status 0) ∧
      State.reset.notice.notices &&& ~~~((0x80 : Word).setWidth 8) ≠ State.reset.notice.notices ∧
      State.reset.notice.notices &&& ~~~((0x7F : Word).setWidth 8) = State.reset.notice.notices ∧
      (∀ c, State.reset.wmu.state ≠ .merging c) ∧ areaGranted State.reset = false ∧
      State.reset.port = { burst := false, third := .noticeUpdate :: [] } :=
  ⟨rfl, by decide, by decide, by decide, nofun, rfl, rfl⟩

theorem witness_StatusBurstWritesTheRecord :
    let s := State.reset.setPort { State.reset.port with burst := true }
    let t := State.reset.setNotice { State.reset.notice with burstExpired := true }
    Memory.wf s.mem ∧ s.port.burst = true ∧ (∀ c, s.wmu.state ≠ .merging c) ∧ areaGranted s = false ∧
      s.sense.m < 1024 ∧
      s.sense.e < 1024 ∧ s.sense.runCount < 4 ∧ t.seq.state ≠ .lit ∧ t.notice.burstExpired = true :=
  ⟨⟨⟨List.Pairwise.nil, nofun⟩, nofun⟩, rfl, nofun, rfl, by decide, by decide, by decide, nofun, rfl⟩

/-- The word of row 511, of the last word, in a table with room and in a full one: requested, with no snapshot or
with one whose next word is not requested yet; and granted, with a record held. -/
theorem witness_AreaWordCombinesAndGoesOn :
    ∀ n ∈ [0, 32], ∀ op ∈ [none, some { deltaOf 0 0 .erase .snapshot with kind := .fill, cursor := some 31 }],
      let s := (quiet (litWith n)).setSched { op := op, runCount := 0, clearWaiting := false }
      let x := areaAt 511 31 .requested
      let g := areaAt 511 31 .granted
      (s.setArea (some { g with abortPending := true })).area = some { g with abortPending := true } ∧
        (s.setArea (some x)).area = some x ∧ x.unit = .requested ∧ x.abortPending = false ∧ s.mem = [] ∧
        s.wmu.state = .idle ∧ s.port = { burst := false, third := [] } ∧
        (s.sched.op.all (fun o => !o.asked)) = true ∧ dropped s 511 31 = false ∧ openEntry s.table 511 = none ∧
        ((holding 5 s).setArea (some g)).area = some g ∧ g.unit = .granted ∧ g.abortPending = false := by
  decide +kernel

/-- 'An area word of row r, below the cursor, during a snapshot of row r' is merged, and one at or above it dropped
(R158). -/
theorem test_area_amid_snapshot :
    let op := { deltaOf 0 0 .erase .snapshot with kind := .fill, cursor := some 8 }
    let area := fun w => { areaAt 100 w .requested with
      op := .complement, pattern := [1, 1, 1, 1], leftMask := 1, rightMask := 1 }
    let t := fun w => after .areaWord ((quiet (litOp op)).setArea (some (area w)))
    (t 7).table.ageQueue.map (·.row) = [100] ∧ (t 8).table.ageQueue = [] ∧ readMem (t 8) 3208 = 1 := by
  decide +kernel

/-- Both kinds of work, with the run count below the weight and at it. -/
theorem witness_TakeFollowsWeightAndCursor :
    let s := (litWith 1).setSets { full := oneRow 511, fill := 0, cursor := 0 }
    let t := s.setSched { s.sched with runCount := 4 }
    recordless s.seq.state = false ∧ s.link.state = .ok ∧ s.sched.op = none ∧ s.sched.clearWaiting = false ∧
      s.table.ageQueue = { row := 100, setMask := 1, clearMask := 2 } :: [] ∧
      s.sched.runCount < s.store.settings.weight ∧ t.store.settings.weight ≤ t.sched.runCount ∧
      hasRow t.sets.full 511 = true ∧ presentCells s.link.failed ((2 : Mask) ||| 1) ≠ 0 ∧
      presentCells (oneModule 7) ((2 : Mask) ||| 1) = 0 := by decide +kernel

/-- The take of a DELTA with an erase cell in each of modules 7 and 2: module 2's slice is sent, and 7's is left to hand
(R55, R78); with a probe on the link it waits. -/
theorem test_first_slice :
    let e : Entry := { row := 100, setMask := 1, clearMask := 2 ||| sliceCells 2 1 }
    let s := litState.setTable { ageQueue := [e], taken := none }
    let v : Slice := { modNo := 2, phase := .erase, cells := 1 }
    let t := after .schedulerTake s
    let w := after .schedulerTake (onLink (probeOf 6) 5 s)
    t.link.message = some (loadMessageOf v) ∧ t.sched.op.map (·.toHand) = some [7] ∧ w.link.waiting = some v ∧
      w.link.message = some (probeOf 6) := by decide +kernel

/-- A DELTA with its two cells in a FAILED module: both are dropped and counted, and it completes (R55, R60). -/
theorem test_dropped_cells :
    let s := (litWith 1).setLink { litState.link with failed := oneModule 7 }
    let t := after .schedulerTake s
    t.notice.droppedCells = 2 ∧ t.sched.op = none ∧ t.table.taken = none := by decide +kernel

theorem witness_SnapshotReadsOneWord :
    let op := fun k : Nat => { deltaOf 0 0 .erase .snapshot with kind := .fill, cursor := some k }
    ∀ k ∈ [0, 30, 31], (quiet (litOp (op k))).sched.op = some (op k) ∧ (op k).stage = .snapshot ∧
      (op k).cursor = some k ∧ (quiet (litOp (op k))).wmu.state = .idle ∧
      areaGranted (quiet (litOp (op k))) = false ∧
      (quiet (litOp (op k))).port = { burst := false, third := [] } := by decide +kernel

theorem witness_StrobeAppliesThePhase :
    ∀ p ∈ [(OpPhase.erase, Phase.erase), (OpPhase.write, Phase.write)],
      let op := deltaOf 1 2 p.1 .firing
      let s := inPeriod (periodAt .address 60 false) (litOp op)
      s.seq.state = .lit ∧ s.period.current = some (periodAt .address 60 false) ∧
        s.period.timing.dc + s.period.timing.wc + 1 ≤ (periodAt .address 60 false).tick ∧ s.sched.op = some op ∧
        op.stage = .firing ∧ (op.phase = .erase ∧ p.2 = .erase ∨ op.phase = .write ∧ p.2 = .write) ∧
        s.mem = [] ∧ s.panel = [] ∧ s.lit.counts = [] ∧ s.cmd.copy = [] ∧ s.store.words = [] := by
  decide +kernel

/-- The same strobes after a link fault, with a write still to be done and with none, and under a hold. -/
theorem witness_StrobeAppliesThePhase_return :
    let op := { deltaOf 1 2 .erase .firing with returnDue := true }
    presentCells litState.link.failed op.writeMask ≠ 0 ∧
      presentCells litState.link.failed { op with writeMask := 0 }.writeMask = 0 ∧
      (litOp op).area = none ∧ (holding 5 (litOp op)).wmu.state ≠ .idle := by decide +kernel

/-- The strobe that completes a DELTA frees its slot, and the record held merges into a new entry (R12, R30). -/
theorem test_strobe_ends_hold :
    let op := { deltaOf 0 (sliceCells 2 1) .write .firing with loaded := oneModule 2 }
    let s := inPeriod (periodAt .address 60 false) (holding 5 (litOp op))
    let t := after .strobe (s.setTable
      { ageQueue := someEntries 31, taken := some { row := 100, setMask := sliceCells 2 1, clearMask := 0 } })
    t.wmu.state = .idle ∧ t.bus.ready = true ∧ t.table.ageQueue.length = 32 ∧ t.table.taken = none := by
  decide +kernel

theorem witness_ModulesRebuildTheSlicesSent :
    maskSlice (sliceCells 7 0x8000000000000001) 7 = 0x8000000000000001 ∧
      (31 : WordIx).val = 4 * (7 : ModuleNo).val + 7 / 2 := by decide +kernel

/-- The manual's example, with an idle check that passes at once and one that needs nine pulses. -/
theorem witness_LoadedSlicesAreLatched :
    let m := loadMessageOf exampleSlice
    let s := onLink m 96 (litOp (deltaOf 0 (sliceCells 2 0xF00F000000000000) .write .loading))
    s.link.message = some m ∧ m.purpose = .phaseLoad ∧ m.beforeLoss = false ∧
      ∀ idle ∈ [IdleCheck.clear, .freed 9 true], idlePossible idle = true ∧ idlePasses idle = true ∧
        idleHalves idle * s.link.halfBit + messageTicks s.link.halfBit (2 + m.data.length) ≤ s.link.elapsed := by
  decide +kernel

/-- A NACK and contention in the last byte of the manual's example, on either attempt, each at its own tick. -/
theorem witness_FailedLoadsAreRetriedOnce :
    let m := loadMessageOf exampleSlice
    let s := onLink m 76 (litOp (deltaOf 0 (sliceCells 2 0xF00F000000000000) .write .loading))
    s.link.message = some m ∧ m.purpose = .phaseLoad ∧ m.beforeLoss = false ∧ m.attempt = .first ∧
      idlePossible .clear = true ∧ idlePasses .clear = true ∧
      (messageBytes m)[3]? = some 0x0F ∧ Contended 0x0F 0 ∧
      (idleHalves .clear + failedHalves 3 0x0F (refusedSample 0x0F)) * s.link.halfBit = 76 ∧
      (idleHalves .clear + failedHalves 3 0x0F 0) * s.link.halfBit = 74 := by decide +kernel

/-- The same message as the retry, and as one handed over before loss effects. -/
theorem witness_FailedLoadsAreRetriedOnce_retry :
    let m := loadMessageOf exampleSlice
    { m with attempt := .retry }.beforeLoss = false ∧ { m with beforeLoss := true }.purpose = .phaseLoad ∧
      messageBytes { m with beforeLoss := true } = messageBytes m ∧ litState.link.waiting = none ∧
      litState.link.round = none := by decide +kernel

theorem witness_ProbesRestoreModules :
    let s := (onLink (probeOf 2) 40 litState).setLink
      { (onLink (probeOf 2) 40 litState).link with
        failed := oneModule 2, round := some { left := [2], restored := false } }
    ThirdLaw s ∧ s.link.message = some (probeOf 2) ∧ (probeOf 2).purpose = .probe ∧
      s.link.round = some { left := [2], restored := false } ∧
      (idleHalves .clear + (18 * (2 + (probeOf 2).data.length) + 4)) * s.link.halfBit ≤ s.link.elapsed ∧
      (messageBytes (probeOf 2))[1]? = some 0 ∧ (messageBytes (probeOf 2))[0]? = some 0x4A ∧ Contended 0x4A 0 ∧
      (idleHalves .clear + failedHalves 0 0x4A (refusedSample 0x4A)) * s.link.halfBit = 22 ∧
      (idleHalves .clear + failedHalves 0 0x4A 0) * s.link.halfBit = 20 := by decide +kernel

/-- A probe refused at its address byte, at its own tick (R81, R91): module 2 stays FAILED and leaves the round. -/
theorem test_probe_refused :
    let s := onLink (probeOf 2) 22 litState
    let s := s.setLink { s.link with failed := oneModule 2, round := some { left := [2, 3], restored := false } }
    let t := after (.probeMessage .clear [refusedSample 0x4A]) s
    t.link.failed = oneModule 2 ∧ t.link.round.map (·.left) = some [3] ∧
      t.link.message = some (probeOf 3) := by decide +kernel

/-- A stretch at the manual's default limit of 200 ticks: before the first byte of a message, after three, in byte 3,
refused or contended, and after the last acknowledge; and the idle checks that fail. -/
theorem witness_ExpiredStretchesFaultTheLink :
    let m := loadMessageOf exampleSlice
    let s := onLink m 274 (litOp (deltaOf 0 (sliceCells 2 0xF00F000000000000) .write .loading))
    let r := litState.setLink { litState.link with state := .faulted, activity := .recovering, elapsed := 200 }
    s.link.message = some m ∧ s.link.stretchLimit ≤ s.link.elapsed ∧
      (∀ idle ∈ [IdleCheck.stuck, .freed 1 false, .freed 9 false], idlePossible idle = true ∧
        idlePasses idle = false ∧ idleHalves idle * s.link.halfBit ≤ s.link.elapsed) ∧
      (∀ k ∈ [0, 3], k < (messageBytes m).length ∧
        (18 * k + 2) * s.link.halfBit + s.link.stretchLimit ≤ s.link.elapsed) ∧
      (18 * (messageBytes m).length + 2) * s.link.halfBit + s.link.stretchLimit ≤ s.link.elapsed ∧
      (messageBytes m)[3]? = some 0x0F ∧ Contended 0x0F 0 ∧
      r.link.message = none ∧ r.link.activity = .recovering ∧ r.link.stretchLimit ≤ r.link.elapsed := by
  decide +kernel

/-- A DELTA operation returned by a fault, with no probe round, no area and no record held. -/
theorem witness_ExpiredStretchesFaultTheLink_return :
    let s := onLink (loadMessageOf exampleSlice) 256
      (litOp (deltaOf 0 (sliceCells 2 0xF00F000000000000) .write .loading))
    s.sched.op = some (deltaOf 0 (sliceCells 2 0xF00F000000000000) .write .loading) ∧ s.link.round = none ∧
      s.area = none ∧ s.wmu.state = .idle := by decide +kernel

/-- A probe and its round, whose last byte's acknowledge a stretch follows. -/
theorem witness_ExpiredStretchesFaultTheLink_probe :
    let s := onLink (probeOf 2) 238 litState
    let s := s.setLink { s.link with round := some { left := [2], restored := false } }
    s.link.message = some (probeOf 2) ∧ (probeOf 2).purpose = .probe ∧ ThirdLaw s ∧
      s.link.round = some { left := [2], restored := false } ∧
      (18 * (messageBytes (probeOf 2)).length + 2) * s.link.halfBit + s.link.stretchLimit ≤ s.link.elapsed := by
  decide +kernel

/-- A retry whose expired stretch leaves LCK freed (R82, R85): module 2 is FAILED and its 8 cells are dropped. -/
theorem test_stretched_retry :
    let s := onLink { loadMessageOf exampleSlice with attempt := .retry } 274
      (litOp (deltaOf 0 (sliceCells 2 0xF00F000000000000) .write .loading))
    let t := after (.stretchExpiry (.message [ackedSample 0x5A, ackedSample 0x03] true)) s
    t.link.failed = oneModule 2 ∧ t.link.state = .ok ∧ t.notice.droppedCells = 8 := by decide +kernel

theorem witness_RecoveryFreesTheLink :
    let s := State.reset.setLink { State.reset.link with
      state := .faulted, activity := .recovering, elapsed := 42, expired := true }
    let failing := s.setLink { s.link with elapsed := 18 }
    s.seq.state ≠ .lit ∧ s.link.expired = true ∧ s.link.state = .faulted ∧ s.link.activity = .recovering ∧
      (∀ idle ∈ [IdleCheck.clear, .freed 9 true, .freed 9 false], idlePossible idle = true ∧
        (idleHalves idle + if idlePasses idle = true then 22 else 0) * s.link.halfBit ≤ s.link.elapsed) ∧
      idlePossible .stuck = true ∧
        (idleHalves .stuck + if idlePasses .stuck = true then 22 else 0) * failing.link.halfBit ≤
          failing.link.elapsed := by decide +kernel

theorem witness_LoadLimiterFollowsItsTable :
    TimingFits defaultTiming ∧ 262144 ≤ 262144 ∧ defaultTiming.k ≤ 16383 := by decide

/-- The end of a SUSTAIN period within a frame, and at the frame end. -/
theorem witness_PeriodsFollowOneAnother :
    ∀ i ∈ [0, 254, 255],
      let s := inPeriod (periodAt .sustain 64 false) litState
      let s := s.setPeriod { s.period with index := i, timing := { s.period.timing with sampleIndex := 128 } }
      s.seq.state = .lit ∧ s.period.current = some (periodAt .sustain 64 false) ∧
        s.period.length ≤ (periodAt .sustain 64 false).tick ∧ s.period.index ≠ s.period.timing.sampleIndex := by
  decide +kernel

/-- At the frame end, settings with a hold limit of 5 are staged while a record is held for 5 ticks, and for 4. -/
theorem witness_PeriodsFollowOneAnother_hold :
    let staged := { defaultSettings with holdLimit := 5 }
    ∀ n ∈ [4, 5],
      let s := (holding n litState).setStore { litState.store with staged := some staged }
      s.store.staged ≠ none ∧ s.wmu.state = .holding { row := 7, word := 0, rise := 1, fall := 0 } ∧
        s.wmu.holdCounter = n ∧ (s.store.staged.getD s.store.settings).holdLimit = 5 := by decide +kernel

theorem witness_PrimingClearsAndErases :
    (State.reset.setPeriod { State.reset.period with clearPulse := .pending }).period.current = none ∧
      (State.reset.setPeriod { State.reset.period with clearPulse := .given 4 true }).period.clearPulse =
        .given 4 true ∧
      let s := (inPeriod (periodAt .globalErase 64 true) State.reset).setSeq
        { State.reset.seq with state := .priming }
      let u := (inPeriod (periodAt .globalErase 60 false) State.reset).setSeq
        { State.reset.seq with state := .priming }
      s.period.current = some (periodAt .globalErase 64 true) ∧ s.seq.state = .priming ∧
        s.period.timing.pMin ≤ (periodAt .globalErase 64 true).tick ∧
        u.period.current = some (periodAt .globalErase 60 false) ∧
        u.period.timing.dc + u.period.timing.wc + 1 ≤ (periodAt .globalErase 60 false).tick := by decide +kernel

/-- From its strobe on the priming erase has darkened the panel (R102, R103), whatever follows. -/
theorem test_priming_strobe :
    let s := ((inPeriod (periodAt .globalErase 60 false) State.reset).setSeq
      { State.reset.seq with state := .priming }).setPanel [(7, 1)]
    (after (.reset .resetInput) (after .globalEraseStrobe s)).panel = [] ∧
      (after (.reset .resetInput) s).panel = [(7, 1)] := by decide +kernel

/-- The sample period at its instant; a completion within tolerance, a first and a third deviation, and hold-off. -/
theorem witness_DriftIsConfirmedAtTheThirdDeviation :
    let s := inPeriod (periodAt .sustain 32 false) litState
    let s := s.setPeriod { s.period with index := s.period.timing.sampleIndex }
    let c : Conversion := { capturedL := 0, expected := 40, tick := 40, level := 65 }
    let d := fun run held => litState.setSense
      { litState.sense with conversion := some c, runCount := run, holdOff := held }
    (s.period.current = some (periodAt .sustain 32 false) ∧ s.period.length / 2 ≤ 32 ∧
      s.period.index = s.period.timing.sampleIndex) ∧
      ThirdLaw (d 2 false) ∧ (d 2 false).sense.conversion = some c ∧ 40 ≤ c.tick ∧
      (d 2 false).store.settings.tolerance < 65 - 40 ∧ (d 1 false).sense.runCount < 2 ∧
      (d 0 true).sense.holdOff = true := by decide +kernel

theorem witness_SupplyFilterAndGoodHigh :
    let s := fun n => State.reset.setSeq { State.reset.seq with sampled := false, runCount := n }
    (s 1).seq.sampled = false ∧ (s 1).seq.runCount < 2 ∧ true ≠ (s 1).seq.filtered ∧
      (s 2).seq.filtered = false ∧ 2 ≤ (s 2).seq.runCount := by decide

/-- In LIT, with an ADDRESS period before its strobe and with a global erase period before its strobe. -/
theorem witness_GoodLowStopsTheSustain :
    let low := fun s : State => s.setSeq { s.seq with sampled := false, filtered := true, runCount := 2 }
    let s := low (inPeriod (periodAt .address 5 false) (litOp (deltaOf 1 2 .erase .firing)))
    let g := low (inPeriod (periodAt .globalErase 5 false) litState)
    let p := low (State.reset.setSeq { State.reset.seq with state := .priming })
    s.seq.sampled = false ∧ s.seq.filtered = true ∧ 2 ≤ s.seq.runCount ∧ s.seq.state = .lit ∧
      s.store.staged = none ∧ s.period.current = some (periodAt .address 5 false) ∧
      s.sched.op = some (deltaOf 1 2 .erase .firing) ∧ ThirdLaw g ∧
      g.period.current = some (periodAt .globalErase 5 false) ∧ p.seq.state = .priming := by decide +kernel

/-- Leaving LIT with a global erase before its strobe and an ABORT taken; and with staged settings whose hold limit
is at, or above, the counter of a record held. -/
theorem witness_GoodLowStopsTheSustain_staged :
    let r : Running := { code := 2, args := [], result := none, abortTaken := true, writes := [] }
    let g := (inPeriod (periodAt .globalErase 5 false) litState).setCmd { litState.cmd with running := some r }
    let s := fun n => (holding n (inPeriod (periodAt .sustain 5 false) litState)).setStore
      { litState.store with staged := some { defaultSettings with holdLimit := 5 } }
    g.cmd.running = some r ∧ abortTaken litState = false ∧ (s 5).wmu.holdCounter = 5 ∧
      (s 4).wmu.holdCounter < 5 ∧ (s 5).store.staged = some { defaultSettings with holdLimit := 5 } ∧
      (s 5).cmd.running = none ∧ 0 < { defaultSettings with holdLimit := 5 }.lossLimit ∧
      CellsWf 0 litState.panel := by decide +kernel

/-- SETTINGS_APPLY waits with its staged settings as LIT ends. -/
theorem witness_GoodLowStopsTheSustain_apply :
    let s := (running 0x12 litState).setStore { litState.store with staged := some defaultSettings }
    CommandLaw s ∧ s.store.staged = some defaultSettings :=
  ⟨⟨⟨nofun, nofun, nofun, fun _ => ⟨_, rfl, rfl, rfl⟩, fun h => absurd rfl h⟩, nofun, nofun⟩, rfl⟩

/-- A global erase cut in LIT is recorded as ADDRESS, and the index and the frame count stay (R97, R108, R109). -/
theorem test_cut_is_recorded :
    let s := inPeriod (periodAt .globalErase 20 true) (litState.setPeriod { litState.period with
      index := 9, frameCount := 3, window := List.replicate 15 .sustain })
    let t := after .goodLow (s.setSeq { s.seq with sampled := false, runCount := 2 })
    t.period = { s.period with current := none, window := List.replicate 14 .sustain ++ [.address] } := by
  decide +kernel

/-- A supply drop cuts an ADDRESS period of a DELTA (R30, R62): its slot is free and the held record takes it. -/
theorem test_cut_ends_hold :
    let s := inPeriod (periodAt .address 5 false) (holding 5 (litOp (deltaOf 1 2 .erase .firing)))
    let s := s.setTable { ageQueue := someEntries 31, taken := some { row := 300, setMask := 2, clearMask := 1 } }
    let t := after .goodLow (s.setSeq { s.seq with sampled := false, runCount := 2 })
    t.seq.state = .gap ∧ t.wmu.state = .idle ∧ t.bus.ready = true ∧ t.table.taken = none := by decide +kernel

theorem witness_LimitsPrimeResumeOrLose :
    ∀ q ∈ [SeqState.settling, .resuming, .gap],
      let s := litState.setSeq { litState.seq with state := q, settle := 1024, gap := 8000 }
      s.seq.state = q ∧ s.store.settings.settleLimit ≤ s.seq.settle ∧ s.store.settings.lossLimit ≤ s.seq.gap := by
  decide +kernel

/-- A state in LIT whose stores are canonical, and that keeps the laws of the table, of the sets and of the lit
table. -/
theorem witness_StoresStayCanonical : StoresCanonical litState :=
  ⟨⟨⟨List.Pairwise.nil, fun _ h => absurd h List.not_mem_nil⟩, fun _ h => absurd h List.not_mem_nil⟩,
    ⟨List.Pairwise.nil, fun _ h => absurd h List.not_mem_nil⟩,
    ⟨List.Pairwise.nil, fun _ h => absurd h List.not_mem_nil⟩,
    ⟨List.Pairwise.nil, fun _ h => absurd h List.not_mem_nil⟩,
    List.Pairwise.nil, fun _ h => absurd h List.not_mem_nil⟩

theorem witness_TableLawsAreKept : FirstLaw litState ∧ SecondLaw litState :=
  ⟨⟨by decide +kernel, List.Pairwise.nil, rfl⟩, fun _ h => absurd h List.not_mem_nil,
    fun _ h => absurd (show (none : Option Entry) = some _ from h) nofun, True.intro, True.intro⟩

theorem witness_ThirdLawIsKept : ThirdLaw litState := by decide +kernel

theorem witness_FifthLawIsKept : FifthLaw litState := ⟨⟨List.Pairwise.nil, nofun⟩, nofun, rfl⟩

/-- The same state keeps the laws of the periods, of the bus and of the commands; DARK is a recordless state. -/
theorem witness_theOtherLawsAreKept : SixthLaw litState ∧ BudgetLaw litState ∧
    recordless State.reset.seq.state = true ∧ ReadyFollows litState ∧ AttentionFollows litState ∧
    CommandLaw litState ∧ litState.pending = [] :=
  ⟨⟨by decide, nofun, by decide, fun _ => by decide⟩, ⟨by decide, nofun⟩, rfl, by decide, rfl, lit_commandLaw,
    rfl⟩

/-- A period of each kind, a clear pulse, a message and a recovery attempt. -/
theorem witness_LinesFollowTheirBlocks :
    let s := fun k => inPeriod { periodAt k 4 false with fires := some (7, .write) } litState
    (∀ k, (s k).period.current = some { periodAt k 4 false with fires := some (7, .write) }) ∧
      litState.period.current = none ∧
      (litState.setPeriod { litState.period with clearPulse := .given 1 true }).period.clearPulse = .given 1 true ∧
      (onLink (loadMessageOf exampleSlice) 75 litState).link.message = some (loadMessageOf exampleSlice) ∧
      (messageBytes (loadMessageOf exampleSlice))[3]? = some 0x0F ∧
      litState.link.message = none ∧ litState.link.activity ≠ .recovering :=
  ⟨fun _ => rfl, rfl, rfl, rfl, by decide, rfl, nofun⟩

/-- 'With the defaults and P = 84, the X pulse occupies ticks 0..15 and the Y pulse ticks 42..57' (R99). -/
theorem test_sustain_lines :
    let s := fun n => inPeriod (periodAt .sustain n false) (litState.setPeriod { litState.period with length := 84 })
    ((List.range 84).filter (fun n => xDrive (s n))) = List.range 16 ∧
      ((List.range 84).filter (fun n => yDrive (s n))) = (List.range 16).map (· + 42) := by decide +kernel

/-- 'With the defaults the row is selected during ticks 2..22, the column pulse occupies ticks 4..18' (R100); a global
erase drives every row and X at the same ticks (R102). -/
theorem test_address_lines :
    let a := fun n => inPeriod { periodAt .address n false with fires := some (7, .write) } litState
    let g := fun n => inPeriod (periodAt .globalErase n false) litState
    ∀ n < 64,
      rowSelect (a n) = (if 2 ≤ n ∧ n ≤ 22 then .row 7 else .none) ∧
        columnStrobe (a n) = (if 4 ≤ n ∧ n ≤ 18 then some .write else none) ∧ xDrive (a n) = false ∧
        rowSelect (g n) = (if 2 ≤ n ∧ n ≤ 22 then .allRows else .none) ∧
        xDrive (g n) = decide (4 ≤ n ∧ n ≤ 18) ∧ columnStrobe (g n) = none := by decide +kernel

end Sys2Proof.Tests
end

