-- ==== Sys2Proof/Proofs/LoadLimiter.lean ====
section
/-! PROOFS. The Load Limiter (R134): the quotient as a rounded-up division, the bounds of P, and the strobe, which
leaves P. -/

namespace Sys2Proof.Machine

/-! ## Steps that happen under a condition -/

/-- A conditional step answers a next state exactly when its condition holds. -/
theorem stepWhen_eq_next {due : Bool} {why : Refusal} {after t : State} :
    stepWhen due why after = .next t ↔ due = true ∧ after = t := by
  cases due <;> simp [stepWhen]

/-! ## The load quotient and the limit -/

/-- The load quotient is Mathlib's ceiling division. -/
theorem loadQuotient_eq_ceilDiv (l k : Nat) : loadQuotient l k = l ⌈/⌉ k := rfl

/-- A number is at least the load quotient exactly when that many times K covers the load (R134). -/
theorem loadQuotient_le_iff {l k n : Nat} (hk : 0 < k) : loadQuotient l k ≤ n ↔ l ≤ n * k := by
  rw [loadQuotient_eq_ceilDiv, ceilDiv_le_iff_le_mul hk, Nat.mul_comm]

/-- With K at least 256, even a panel with all of its 262,144 cells lit has a quotient of at most 1024. -/
theorem loadQuotient_le_1024 {l k : Nat} (hl : l ≤ 262144) (hk : 256 ≤ k) : loadQuotient l k ≤ 1024 := by
  rw [loadQuotient_le_iff (by omega)]
  calc l ≤ 1024 * 256 := hl
    _ ≤ 1024 * k := Nat.mul_le_mul_left 1024 hk

/-- P lies within P_min..P_max, whatever the load (R134). -/
theorem limitPeriod_mem_bounds {t : Timing} (l : Nat) (h : t.pMin ≤ t.pMax) :
    t.pMin ≤ (limitPeriod t l).1 ∧ (limitPeriod t l).1 ≤ t.pMax := by
  unfold limitPeriod
  dsimp only
  split
  · exact ⟨le_rfl, h⟩
  · split
    · dsimp only
      omega
    · exact ⟨h, le_rfl⟩

/-! ## What a strobe leaves of the period generator -/

/-- A request of a driver clear pulse leaves P (R67, R110). -/
@[simp] theorem requestClear_length (s : State) : (requestClear s).period.length = s.period.length := rfl

@[simp] theorem markStrobe_length (p : Period) (s : State) : (markStrobe p s).period.length = s.period.length :=
  rfl

/-- The return of an operation leaves P, with a clear pulse for latched slices and without (R61, R67). -/
@[simp] theorem returnOp_length (op : RowOp) (s : State) : (returnOp op s).period.length = s.period.length := by
  unfold returnOp
  split <;> simp

/-- Whether the operation is returned or its phase is done, P is left (R57, R101). -/
@[simp] theorem afterStrobe_length (op : RowOp) (s : State) :
    (afterStrobe op s).period.length = s.period.length := by
  unfold afterStrobe
  split <;> simp

@[simp] theorem strobePhase_length (op : RowOp) (p : Period) (s : State) :
    (strobePhase op p s).period.length = s.period.length := by
  simp [strobePhase]

/-- A strobe that happens applies the phase of the operation in flight in the current period (R57). -/
theorem execStrobe_next {s t : State} (h : execStrobe s = .next t) :
    ∃ p op, s.period.current = some p ∧ s.sched.op = some op ∧ s.seq.state = .lit ∧
      strobeDue .address p s = true ∧ op.stage = .firing ∧ t = strobePhase op p s := by
  unfold execStrobe at h
  split at h
  · rename_i p op hp hop
    obtain ⟨hdue, rfl⟩ := stepWhen_eq_next.1 h
    simp only [Bool.and_eq_true, beq_iff_eq] at hdue
    obtain ⟨⟨hlit, hstrobe⟩, hfiring⟩ := hdue
    exact ⟨p, op, hp, hop, hlit, hstrobe, hfiring, rfl⟩
  · cases h

/-- A strobe does not change P (R134). -/
theorem execStrobe_length {s t : State} (h : execStrobe s = .next t) : t.period.length = s.period.length := by
  obtain ⟨p, op, -, -, -, -, -, rfl⟩ := execStrobe_next h
  exact strobePhase_length op p s

/-! ## The obligation -/

/-- Settles O45: the quotient is the ceiling division, the table is the definition of the limit, and the strobe part
is the frame of the strobe. -/
theorem loadLimiterFollowsItsTable : Obligations.LoadLimiterFollowsItsTable := by
  refine ⟨fun _ _ h => execStrobe_length h, fun t l fits hl _ => ?_⟩
  obtain ⟨-, hmin, -, hk, -⟩ := fits
  have hpos : 0 < t.k := by omega
  refine ⟨loadQuotient l t.k, (loadQuotient_le_iff hpos).1 le_rfl, fun _ => (loadQuotient_le_iff hpos).2,
    loadQuotient_le_1024 hl hk, rfl, limitPeriod_mem_bounds l hmin⟩

end Sys2Proof.Machine
end

