-- ==== Sys2Proof/Proofs/Repaint.lean ====
section
/-! PROOFS. REPAINT (R172): a posting write as the state its block acts on, the result the block hands, the clamped
range as a set of rows, and what the rows make of the resync sets and of the Change Table. -/

namespace Sys2Proof.Machine

open Safety

/-! ## A posting write -/

/-- With no unit being served and no grant owed, the port does nothing before a cycle (R17). -/
theorem portGap_of_noGap {s : State} (h : NoGap s) : portGap s = s := by
  obtain ⟨hdue, hgranted⟩ := h
  have hnone : areaIn .granted s = none := by
    unfold areaGranted at hgranted
    unfold areaIn
    cases ha : s.area with
    | none => rfl
    | some x => simpa [ha] using hgranted
  simp [portGap, hnone, hdue]

@[simp] theorem readMem_noteFirst (s : State) (off : Nat) : readMem (noteFirst s) off = readMem s off := rfl

/-- The state a block acts on when its command is accepted (R164, R165): word 0 is stored in memory and in the copy, and
the handler is RUNNING with the arguments of its copy. -/
def accepted (code : Byte) (n : Word) (s : State) : State :=
  let u := storeCommandWord 0 n (noteFirst s)
  u.setCmd { u.cmd with
    running := some
      { code := code
        args := (argumentWords code).map (copyWord u.cmd)
        result := none
        abortTaken := false
        writes := [(0, commandWord code runningCode)] } }

@[simp] theorem accepted_frame (code : Byte) (n : Word) (s : State) :
    (accepted code n s).pending = s.pending ∧ (accepted code n s).bus = s.bus ∧
    (accepted code n s).wmu = s.wmu ∧ (accepted code n s).port = s.port ∧
    (accepted code n s).table = s.table ∧ (accepted code n s).sets = s.sets ∧
    (accepted code n s).sched = s.sched ∧ (accepted code n s).lit = s.lit ∧
    (accepted code n s).link = s.link ∧ (accepted code n s).latches = s.latches ∧
    (accepted code n s).panel = s.panel ∧ (accepted code n s).period = s.period ∧
    (accepted code n s).seq = s.seq ∧ (accepted code n s).sense = s.sense ∧
    (accepted code n s).area = s.area ∧ (accepted code n s).notice = s.notice ∧
    (accepted code n s).store = s.store ∧ (accepted code n s).gapDue = s.gapDue ∧
    (accepted code n s).freeCount = s.freeCount := by
  simp [accepted]

/-- The stored word 0 is no argument: the block reads the arguments the copy held before the posting (R193). -/
theorem copyWord_accepted {w : WordIx} (hw : w ≠ 0) (code : Byte) (n : Word) (s : State) :
    copyWord (accepted code n s).cmd w = copyWord s.cmd w :=
  cellsRead_cellsWrite_ne s.cmd.copy n (fun h => hw (Fin.ext h))

/-- The accepted command awaits its result, with the RUNNING word to be written (R165). -/
theorem accepted_goesOn (code : Byte) (n : Word) (s : State) : GoesOn (accepted code n s) code :=
  ⟨_, rfl, rfl, rfl, rfl, rfl⟩

/-- A nonzero code stored in word 0 is a command to accept (R165). -/
theorem seeStored_of_code {n : Word} (h : highByte n ≠ 0) (s : State) :
    seeStored 0 n s = acceptCommand (highByte n) s := by
  rw [seeStored, if_pos rfl, if_neg h]

/-- A posting write of a nonzero code goes to the block of its code, and the RUNNING write and the end of the
processor's unit follow (R165, R170, R17). -/
theorem postingOf_of_posts {s : State} {a : BusAddr} {d : Word} {code : Byte} {p : Byte → Bool}
    (h : Posts s a d code) (hcode : code ≠ 0) (hp : p code = true) :
    ∃ n, busStep s (postingOf p a d s) =
      .next (cycleServed (requestCommandWrite (acceptCode code (accepted code n s)))) := by
  obtain ⟨hidle, n, ⟨hgap, hready, v, hdecode, hview, rfl⟩, rfl⟩ := h
  refine ⟨commandResult s v 0 d, ?_⟩
  have hserved : serveCommand v 0 d (noteFirst s) =
      acceptCommand (highByte (commandResult s v 0 d))
        (storeCommandWord 0 (commandResult s v 0 d) (noteFirst s)) := by
    simp [serveCommand, hidle, commandResult, seeStored_of_code hcode]
  have hposted : postingOf p a d s = some (cycleServed (serveCommand v 0 d (noteFirst s))) := by
    simp [postingOf, hdecode, portGap_of_noGap hgap, hview, commandResult, hp]
  rw [hposted, hserved]
  simp only [busStep, hready, if_true]
  rfl

/-- Whether a command ends with a result is a matter of the handler's state alone. -/
theorem endsWith_congr {s t : State} (h : t.cmd = s.cmd) (code res : Byte) (words : List (WordIx × Word)) :
    EndsWith t code res words ↔ EndsWith s code res words := by
  simp only [EndsWith, h]

/-- A result handed for a command that goes on is to be written after the RUNNING word (R168). -/
theorem finishCommand_endsWith {s : State} {code : Byte} (h : GoesOn s code) (res : Result)
    (words : List (WordIx × Word)) : EndsWith (finishCommand res words s) code (resultCode res) words := by
  obtain ⟨r, hrun, rfl, hnone, -, hwrites⟩ := h
  rw [finishCommand_of_running hrun hnone]
  simp [EndsWith, hwrites, commandWord]

/-! ## The rows requested -/

@[simp] theorem hasRow_or (a b : RowSet) (q : Row) : hasRow (a ||| b) q = (hasRow a q || hasRow b q) :=
  BitVec.getLsbD_or

@[simp] theorem hasRow_and_not (a b : RowSet) (q : Row) : hasRow (a &&& ~~~b) q = (hasRow a q && !hasRow b q) := by
  simp [hasRow]

/-- A row is in a range of rows exactly when it lies between its ends. -/
theorem hasRow_rowRange {first last : Nat} (h : last ≤ 511) (q : Row) :
    hasRow (rowRange first last) q = (decide (first ≤ q.val) && decide (q.val ≤ last)) := by
  have hq := q.isLt
  have hlast : 511 - last + q.val < 512 ↔ q.val ≤ last := by omega
  simp [hasRow, rowRange, hlast, ← decide_not]

/-- The clamped range holds the rows of the image that the range from `first` asks for (R172). -/
theorem hasRow_clampedRange {first count : Nat} (hfirst : first ≤ 511) (hcount : count ≠ 0) (q : Row) :
    hasRow (rowRange first (lastOf 512 first count)) q =
      (decide (first ≤ q.val) && decide (q.val < first + count)) := by
  have hq := q.isLt
  have hlast : lastOf 512 first count ≤ 511 ∧ (q.val ≤ lastOf 512 first count ↔ q.val < first + count) := by
    unfold lastOf
    split <;> omega
  rw [hasRow_rowRange hlast.1, decide_eq_decide.2 hlast.2]

/-- While no record of the panel is held, a request to the FULL set is ignored (R45). -/
theorem addFull_of_recordless {s : State} (h : recordless s.seq.state = true) (rows : RowSet) :
    addFull rows s = s := by
  rw [addFull, if_pos h]

/-- With no record held there is no hold for a request to settle (R13). -/
theorem requestFull_of_idle {s : State} (h : s.wmu.state = .idle) (rows : RowSet) :
    requestFull rows s = addFull rows s := by
  have hadded : (addFull rows s).wmu.state = .idle := by simpa using h
  rw [requestFull, settleHold_of_idle hadded]
  split
  · exact (addFull_of_recordless ‹_› rows).symm
  · rfl

/-- While a record of the panel is held, the rows enter the FULL set and leave the FILL set, and by the third law every
OPEN entry of these rows is freed and no other (R34, R45, R47). -/
theorem addFull_rows {s : State} (h : recordless s.seq.state = false) (third : ThirdLaw s) (rows : RowSet) (q : Row) :
    hasRow (addFull rows s).sets.full q = (hasRow s.sets.full q || hasRow rows q) ∧
      hasRow (addFull rows s).sets.fill q = (hasRow s.sets.fill q && !hasRow rows q) ∧
      ∀ e, e ∈ (addFull rows s).table.ageQueue ↔ e ∈ s.table.ageQueue ∧ hasRow rows e.row = false := by
  obtain ⟨hrec, -⟩ | ⟨-, hfull, hfill, hqueue⟩ := addFull_cases rows s
  · simp [h] at hrec
  · refine ⟨by simp [hfull], by simp [hfill], fun e => ?_⟩
    rw [hqueue, dropRows, List.mem_filter]
    refine and_congr_right fun he => ?_
    have hout := third.2 e he
    simp only [inResync, Bool.or_eq_false_iff] at hout
    simp [hout]

/-! ## REPAINT at its acceptance -/

/-- A cycle can only be posted while READY is high, and then no record is held (R9, R15). -/
theorem idle_of_posts {s : State} {a : BusAddr} {d : Word} {code : Byte} (h : Posts s a d code)
    (follows : ReadyFollows s) : s.wmu.state = .idle := by
  obtain ⟨-, _, ⟨-, hready, -⟩, -⟩ := h
  exact (follows.1.1 hready).1

/-- What REPAINT does with no record held: BAD_ARGUMENT, or its clamped rows added to the FULL set (R172). -/
theorem acceptRepaint_of_idle {s : State} (h : s.wmu.state = .idle) :
    acceptRepaint s =
      if 511 < argument s 1 ∨ argument s 2 = 0 then finishCommand .badArgument [] s
      else finishCommand (if 512 < argument s 1 + argument s 2 then .truncated else .ok) []
        (addFull (rowRange (argument s 1) (lastOf 512 (argument s 1) (argument s 2))) s) := by
  rw [← requestFull_of_idle h]
  rfl

/-- With no record held, REPAINT leaves the hold, the area, the notices, the TAKEN entry and the cursor (R172). -/
theorem acceptRepaint_frame_of_idle {s : State} (h : s.wmu.state = .idle) :
    (acceptRepaint s).wmu = s.wmu ∧ (acceptRepaint s).area = s.area ∧ (acceptRepaint s).notice = s.notice ∧
    (acceptRepaint s).table.taken = s.table.taken ∧ (acceptRepaint s).sets.cursor = s.sets.cursor := by
  rw [acceptRepaint_of_idle h]
  split <;> simp

/-- REPAINT with a bad argument: the result, and nothing requested (R172). -/
theorem acceptRepaint_refused {s : State} (h : s.wmu.state = .idle) (runs : GoesOn s 0x01)
    (bad : 511 < argument s 1 ∨ argument s 2 = 0) :
    EndsWith (acceptRepaint s) 0x01 0xC1 [] ∧ (acceptRepaint s).sets = s.sets ∧
      (acceptRepaint s).table = s.table := by
  rw [acceptRepaint_of_idle h, if_pos bad]
  exact ⟨finishCommand_endsWith runs .badArgument [], by simp, by simp⟩

/-- REPAINT with good arguments: the result by whether the range is clamped, and the sets and the table as the rows
added to the FULL set leave them (R172, R47). -/
theorem acceptRepaint_requested {s : State} (h : s.wmu.state = .idle) (runs : GoesOn s 0x01)
    (good : ¬ (511 < argument s 1 ∨ argument s 2 = 0)) :
    let added := addFull (rowRange (argument s 1) (lastOf 512 (argument s 1) (argument s 2))) s
    EndsWith (acceptRepaint s) 0x01 (if 512 < argument s 1 + argument s 2 then 0x81 else 0x80) [] ∧
      (acceptRepaint s).sets = added.sets ∧ (acceptRepaint s).table = added.table := by
  intro added
  rw [acceptRepaint_of_idle h, if_neg good]
  have runsOn : GoesOn added 0x01 := by simpa [GoesOn, added] using runs
  refine ⟨?_, by simp [added], by simp [added]⟩
  split
  · exact finishCommand_endsWith runsOn .truncated []
  · exact finishCommand_endsWith runsOn .ok []

/-- A posting of REPAINT goes to REPAINT's block (R170). -/
theorem exec_repaint_of_posts {s : State} {a : BusAddr} {d : Word} (h : Posts s a d 0x01) :
    ∃ n, exec (.repaint a d) s =
      .next (cycleServed (requestCommandWrite (acceptRepaint (accepted 0x01 n s)))) :=
  postingOf_of_posts (p := fun c => c == 0x01) h (by decide) rfl

/-- Settles O20: READY being high, no record is held, so the request is an addition to the FULL set with no hold to
settle; by the third law the entries it frees are those of the rows requested. -/
theorem repaintRequestsItsRows : Obligations.RepaintRequestsItsRows := by
  intro s a d posts follows third first count inRange
  obtain ⟨n, hexec⟩ := exec_repaint_of_posts posts
  refine ⟨_, hexec, ?_⟩
  have hu := accepted_frame 0x01 n s
  have hruns := accepted_goesOn 0x01 n s
  have hfirst : argument (accepted 0x01 n s) 1 = first :=
    congrArg BitVec.toNat (copyWord_accepted (by decide) _ n s)
  have hcount : argument (accepted 0x01 n s) 2 = count :=
    congrArg BitVec.toNat (copyWord_accepted (by decide) _ n s)
  clear hexec
  generalize accepted 0x01 n s = u at *
  have hidle : u.wmu.state = .idle := by simpa [hu] using idle_of_posts posts follows
  have hthird : ThirdLaw u := by simpa [ThirdLaw, inResync, hu] using third
  have hframe := acceptRepaint_frame_of_idle hidle
  refine ⟨by simp [hu], by simp [hu], by simp [SameDrive, hu], by simp [hframe, hu], by simp [hu],
    by simp [hframe, hu], by simp [hframe, hu], by simp [hframe, hu], by simp [hframe, hu], ?_⟩
  have hends := endsWith_congr (s := acceptRepaint u)
    (t := cycleServed (requestCommandWrite (acceptRepaint u))) (by simp)
  simp only [hends, cycleServed_frame, requestCommandWrite_frame]
  split
  · next bad =>
    have hbad := acceptRepaint_refused hidle hruns (by rwa [hfirst, hcount])
    simpa [hu] using hbad
  · next good =>
    have hin : ∀ q, hasRow (rowRange first (lastOf 512 first count)) q = inRange q :=
      hasRow_clampedRange (by omega) (by omega)
    obtain ⟨hres, hsets, htable⟩ := acceptRepaint_requested hidle hruns (by rwa [hfirst, hcount])
    rw [hfirst, hcount] at hres hsets htable
    rw [hsets, htable]
    refine ⟨hres, fun hrec => ?_, fun hrec q => ?_⟩
    · rw [addFull_of_recordless (by simpa [hu] using hrec)]
      simp [hu]
    · have hrows := addFull_rows (by simpa [hu] using hrec) hthird (rowRange first (lastOf 512 first count)) q
      simpa [hu, hin] using hrows

end Sys2Proof.Machine
end

