-- ==== Sys2Proof/Proofs/StoreCommands.lean ====
section
/-! PROOFS. The store commands at their acceptance (R186, R187, R188): what each block hands or starts, over any state
in which its command runs, and that the posting leaves what their checks read. -/

namespace Sys2Proof.Machine

open Safety

/-! ## The checks and what they let through -/

/-- STORE_READ ends at once, with BAD_ARGUMENT or with the word of the store in word 2 (R186). -/
theorem acceptStoreRead_outcome {s : State} (runs : GoesOn s 0x08) :
    if 63 < argument s 1 then EndsWith (acceptStoreRead s) 0x08 0xC1 []
    else EndsWith (acceptStoreRead s) 0x08 0x80 [(2, storeWord s.store.words (argument s 1))] := by
  unfold acceptStoreRead
  dsimp only
  split
  · exact finishCommand_endsWith runs .badArgument []
  · exact finishCommand_endsWith runs .ok _

/-- STORE_ERASE is refused with the store as it is, for the setup state before the page, or starts its operation
(R187). -/
theorem acceptStoreErase_outcome {s : State} (runs : GoesOn s 0x10) :
    if s.cmd.setupOpen = false then
      EndsWith (acceptStoreErase s) 0x10 0xC2 [] ∧ (acceptStoreErase s).store = s.store
    else if 1 < argument s 1 then
      EndsWith (acceptStoreErase s) 0x10 0xC1 [] ∧ (acceptStoreErase s).store = s.store
    else GoesOn (acceptStoreErase s) 0x10 ∧
      (acceptStoreErase s).store = { s.store with op := .erase (argument s 1) 0 } := by
  unfold acceptStoreErase
  simp only [Bool.not_eq_true']
  split
  · exact ⟨finishCommand_endsWith runs .notInSetup [], by simp⟩
  · split
    · exact ⟨finishCommand_endsWith runs .badArgument [], by simp⟩
    · exact ⟨runs, rfl⟩

/-- STORE_WRITE is refused with the store as it is, for the setup state, then the index, then a word that is not
erased, or starts its operation with the value of word 2 (R188). -/
theorem acceptStoreWrite_outcome {s : State} (runs : GoesOn s 0x11) :
    if s.cmd.setupOpen = false then
      EndsWith (acceptStoreWrite s) 0x11 0xC2 [] ∧ (acceptStoreWrite s).store = s.store
    else if 63 < argument s 1 then
      EndsWith (acceptStoreWrite s) 0x11 0xC1 [] ∧ (acceptStoreWrite s).store = s.store
    else if storeWord s.store.words (argument s 1) ≠ Config.erasedWord then
      EndsWith (acceptStoreWrite s) 0x11 0xC3 [] ∧ (acceptStoreWrite s).store = s.store
    else GoesOn (acceptStoreWrite s) 0x11 ∧
      (acceptStoreWrite s).store = { s.store with op := .write (argument s 1) (copyWord s.cmd 2) 0 } := by
  unfold acceptStoreWrite
  simp only [Bool.not_eq_true']
  split
  · exact ⟨finishCommand_endsWith runs .notInSetup [], by simp⟩
  · split
    · exact ⟨finishCommand_endsWith runs .badArgument [], by simp⟩
    · split
      · exact ⟨finishCommand_endsWith runs .alreadyWritten [], by simp⟩
      · exact ⟨runs, rfl⟩

/-! ## The postings -/

/-- An acceptance leaves the setup state (R165, R185). -/
@[simp] theorem accepted_setupOpen (code : Byte) (n : Word) (s : State) :
    (accepted code n s).cmd.setupOpen = s.cmd.setupOpen := rfl

/-- The RUNNING request and the end of the processor's unit leave the handler's state, and so a result handed. -/
theorem endsWith_posted (s : State) (code res : Byte) (words : List (WordIx × Word)) :
    EndsWith (cycleServed (requestCommandWrite s)) code res words ↔ EndsWith s code res words :=
  endsWith_congr (by simp) code res words

/-- A command that goes on after its block has acted goes on after its posting. -/
theorem goesOn_posted (s : State) (code : Byte) :
    GoesOn (cycleServed (requestCommandWrite s)) code ↔ GoesOn s code := by
  simp only [GoesOn, cycleServed_frame, requestCommandWrite_frame]

/-- A posting of STORE_READ goes to its block (R170). -/
theorem exec_storeRead_of_posts {s : State} {a : BusAddr} {d : Word} (h : Posts s a d 0x08) :
    ∃ n, exec (.storeRead a d) s =
      .next (cycleServed (requestCommandWrite (acceptStoreRead (accepted 0x08 n s)))) :=
  postingOf_of_posts (p := fun c => c == 0x08) h (by decide) rfl

/-- A posting of STORE_ERASE goes to its block (R170). -/
theorem exec_storeErase_of_posts {s : State} {a : BusAddr} {d : Word} (h : Posts s a d 0x10) :
    ∃ n, exec (.storeErase a d) s =
      .next (cycleServed (requestCommandWrite (acceptStoreErase (accepted 0x10 n s)))) :=
  postingOf_of_posts (p := fun c => c == 0x10) h (by decide) rfl

/-- A posting of STORE_WRITE goes to its block (R170). -/
theorem exec_storeWrite_of_posts {s : State} {a : BusAddr} {d : Word} (h : Posts s a d 0x11) :
    ∃ n, exec (.storeWrite a d) s =
      .next (cycleServed (requestCommandWrite (acceptStoreWrite (accepted 0x11 n s)))) :=
  postingOf_of_posts (p := fun c => c == 0x11) h (by decide) rfl

/-- While the handler is IDLE no store operation is in progress: an operation in progress is that of a running
STORE_ERASE or STORE_WRITE. -/
theorem storeOp_none_of_idle {s : State} (law : CommandLaw s) (hidle : s.cmd.running = none) :
    s.store.op = .none := by
  obtain ⟨⟨-, -, -, -, howned⟩, -⟩ := law
  by_contra hop
  obtain ⟨r, hrun, -⟩ | ⟨r, hrun, -⟩ := howned hop <;> simp [hidle] at hrun

/-- Settles O28: each posting reaches its block with the arguments, the setup state and the store as they were, and
the outcome of the block stands after the end of the processor's unit. -/
theorem storeCommandsAreChecked : Obligations.StoreCommandsAreChecked := by
  intro s a d same i
  have hi : ∀ code n, argument (accepted code n s) 1 = i :=
    fun code n => congrArg BitVec.toNat (copyWord_accepted (by decide) code n s)
  refine ⟨storeOp_none_of_idle, fun posts => ?read, fun posts => ?erase, fun posts => ?write⟩
  case read =>
    obtain ⟨n, hexec⟩ := exec_storeRead_of_posts posts
    have hout := acceptStoreRead_outcome (accepted_goesOn 0x08 n s)
    refine ⟨_, hexec, by simp [same, SameRecords, SameDrive], by simp, ?_⟩
    simpa [endsWith_posted, hi] using hout
  case erase =>
    obtain ⟨n, hexec⟩ := exec_storeErase_of_posts posts
    have hout := acceptStoreErase_outcome (accepted_goesOn 0x10 n s)
    refine ⟨_, hexec, by simp [same, SameRecords, SameDrive], ?_⟩
    simpa [endsWith_posted, goesOn_posted, hi] using hout
  case write =>
    obtain ⟨n, hexec⟩ := exec_storeWrite_of_posts posts
    have hout := acceptStoreWrite_outcome (accepted_goesOn 0x11 n s)
    refine ⟨_, hexec, by simp [same, SameRecords, SameDrive], ?_⟩
    simpa [endsWith_posted, goesOn_posted, hi, copyWord_accepted, Config.erasedWord] using hout

end Sys2Proof.Machine
end

