-- ==== Sys2Proof/Proofs/LoadedSettings.lean ====
section
/-! PROOFS. A load of the settings (R183, R184): each fitting step as the one setting it replaces, and the bounds that
the six steps together give. -/

namespace Sys2Proof.Machine

open Safety

/-! ## The steps of R184 -/

theorem fitBand_eq (t : Settings) : fitBand t = { t with rowCount := min t.rowCount (512 - t.firstRow) } := by
  cases t
  simp only [fitBand] at *
  split <;> simp only [Settings.mk.injEq, true_and, and_true] <;> omega

theorem fitLongest_eq (t : Settings) : fitLongest t = { t with pMax := max t.pMin t.pMax } := by
  cases t
  simp only [fitLongest] at *
  split <;> simp only [Settings.mk.injEq, true_and, and_true] <;> omega

theorem fitSustain_eq (t : Settings) : fitSustain t = { t with ws := min t.ws (t.pMin / 2 - 3) } := by
  cases t
  simp only [fitSustain] at *
  split <;> simp only [Settings.mk.injEq, true_and, and_true] <;> omega

theorem fitColumnStart_eq (t : Settings) :
    fitColumnStart t = { t with dc := if t.pMin - 3 < t.dc then 0 else t.dc } := by
  unfold fitColumnStart
  split <;> rfl

theorem fitColumnWidth_eq {t : Settings} (h : t.dc ≤ t.pMin - 3) :
    fitColumnWidth t = { t with wc := min t.wc (t.pMin - 3 - t.dc) } := by
  cases t
  simp only [fitColumnWidth] at *
  split <;> simp only [Settings.mk.injEq, true_and, and_true] <;> omega

theorem fitRowStart_eq (t : Settings) : fitRowStart t = { t with dr := min t.dr t.dc } := by
  cases t
  simp only [fitRowStart] at *
  split <;> simp only [Settings.mk.injEq, true_and, and_true] <;> omega

theorem fitRowWidth_eq (t : Settings) : fitRowWidth t = { t with wr := max t.wr (t.dc + t.wc - t.dr) } := by
  cases t
  simp only [fitRowWidth] at *
  split <;> simp only [Settings.mk.injEq, true_and, and_true] <;> omega

/-- The settings that the six steps give, each by those before it (R184). -/
theorem fitTogether_eq (t : Settings) :
    let dc := if t.pMin - 3 < t.dc then 0 else t.dc
    let wc := min t.wc (t.pMin - 3 - dc)
    let dr := min t.dr dc
    fitTogether t = { t with
      rowCount := min t.rowCount (512 - t.firstRow), pMax := max t.pMin t.pMax, ws := min t.ws (t.pMin / 2 - 3)
      dc := dc, wc := wc, dr := dr, wr := max t.wr (dc + wc - dr) } := by
  intro dc wc dr
  have hdc : dc ≤ t.pMin - 3 := by
    simp only [dc]
    split <;> omega
  rw [fitTogether, fitBand_eq, fitLongest_eq, fitSustain_eq, fitColumnStart_eq, fitColumnWidth_eq hdc,
    fitRowStart_eq, fitRowWidth_eq]

/-! ## The bounds -/

/-- Settings in range fit together after the six steps (R184). -/
theorem fitTogether_fits {t : Settings} (hmin : 40 ≤ t.pMin) (hmin' : t.pMin ≤ 255) (hmax : t.pMax ≤ 255)
    (hk : 256 ≤ t.k) (ha : 1 ≤ t.allowance) (ha' : t.allowance ≤ 8) (hfirst : t.firstRow ≤ 511)
    (hw : 1 ≤ t.weight) (hw' : t.weight ≤ 15) : SettingsFit (fitTogether t) := by
  rw [fitTogether_eq]
  simp only [SettingsFit, TimingFits, timingOf]
  split <;> omega

theorem intoRange_bounds {lo hi : Nat} (h : lo ≤ hi) (n : Nat) :
    lo ≤ intoRange lo hi n ∧ intoRange lo hi n ≤ hi := by
  unfold intoRange
  omega

theorem rangeStep_fits (words : Cells Word) : SettingsFit (fitTogether (rangeStep words)) := by
  have h := fun (lo hi i : Nat) (hle : lo ≤ hi) => intoRange_bounds hle (storeWord words i).toNat
  obtain ⟨hmin, hmin'⟩ := h 40 255 4 (by omega)
  obtain ⟨hk, -⟩ := h 256 16383 6 (by omega)
  obtain ⟨ha, ha'⟩ := h 1 8 7 (by omega)
  obtain ⟨hw, hw'⟩ := h 1 15 16 (by omega)
  exact fitTogether_fits hmin hmin' (h 0 255 5 (by omega)).2 hk ha ha' (h 0 511 2 (by omega)).2 hw hw'

theorem loadSettings_of_right {words : Cells Word} (h : storeWord words 0 = Config.formatWord) :
    loadSettings words = fitTogether (rangeStep words) := by
  rw [loadSettings, formatRight, decide_eq_true h, if_pos rfl]

theorem loadSettings_of_wrong {words : Cells Word} (h : storeWord words 0 ≠ Config.formatWord) :
    loadSettings words = defaultSettings := by
  rw [loadSettings, formatRight, decide_eq_false h, if_neg (by decide)]
  decide

/-- Whatever the store holds, the settings loaded fit (R183, R184). -/
theorem loadSettings_fits (words : Cells Word) : SettingsFit (loadSettings words) := by
  by_cases h : storeWord words 0 = Config.formatWord
  · rw [loadSettings_of_right h]
    exact rangeStep_fits words
  · rw [loadSettings_of_wrong h]
    decide

/-- Settles O31: the fitted settings as the six steps leave them, with the ranges of the words they come from. -/
theorem loadedSettingsFit : Obligations.LoadedSettingsFit := by
  refine fun words => ⟨loadSettings_fits words, loadSettings_of_wrong, fun h => ?_⟩
  intro v t
  have ht : t = fitTogether (rangeStep words) := loadSettings_of_right h
  have hword : ∀ i, min 65535 (storeWord words i).toNat = (storeWord words i).toNat :=
    fun i => Nat.min_eq_right (Nat.le_of_lt_succ (storeWord words i).isLt)
  rw [fitTogether_eq] at ht
  simp only [ht, rangeStep, intoRange, Nat.zero_max, hword, v, and_self]

end Sys2Proof.Machine
end

