-- ==== Sys2Proof/Proofs/Changes.lean ====
section
/-! PROOFS. What a step is made of: the single changes of the state that the laws of the device speak of, and the chains
of such changes. Each law is then shown for the single changes, and each step to be a chain of them. -/

namespace Sys2Proof.Machine

open Safety

/-! ## Single changes -/

/-- The parts of the state that the laws speak of are the same in two states. -/
abbrev SameCore (s t : State) : Prop :=
  t.mem = s.mem ∧ t.bus.ready = s.bus.ready ∧ t.bus.clearHeld = s.bus.clearHeld ∧ t.wmu.state = s.wmu.state ∧
    t.table = s.table ∧ t.sets = s.sets ∧ t.sched.op = s.sched.op ∧ t.lit = s.lit ∧ t.panel = s.panel ∧
    t.period.length = s.period.length ∧ t.period.timing = s.period.timing ∧ t.period.index = s.period.index ∧
    t.period.window = s.period.window ∧ t.period.current = s.period.current ∧ t.seq.state = s.seq.state ∧
    t.cmd.copy = s.cmd.copy ∧ t.notice.notices = s.notice.notices ∧ t.notice.attention = s.notice.attention ∧
    t.store.words = s.store.words ∧ t.store.settings = s.store.settings ∧ t.store.staged = s.store.staged

/-- An operation in flight goes on as another record of the same operation: a DELTA keeps its masks (R52, R53). -/
abbrev Continues (op op' : RowOp) : Prop :=
  op'.kind = op.kind ∧ op'.row = op.row ∧
    (op.kind = .delta → op.cursor = none →
      op'.eraseMask = op.eraseMask ∧ op'.writeMask = op.writeMask ∧ op'.cursor = none)

/-- The difference offered to the merge is that of the held record, or a new one that is not empty (R10, R12). -/
abbrev DifferenceFits (r : Row) (w : WordIx) (rise fall : Word) (s : State) : Prop :=
  s.wmu.state = .holding { row := r, word := w, rise := rise, fall := fall } ∨
    rise &&& fall = 0 ∧ ¬ (rise = 0 ∧ fall = 0)

/-- The Change Table after a merge-back (R37 to R41). -/
def mergedBack (r : Row) (writes erases : Mask) (s : State) : ChangeTable :=
  let e := applyActions ((openEntry s.table r).getD { row := r, setMask := 0, clearMask := 0 }) writes erases
  if inResync s r then { s.table with taken := none }
  else if emptyEntry e then { ageQueue := dropRow s.table.ageQueue r, taken := none }
  else { ageQueue := e :: dropRow s.table.ageQueue r, taken := none }

/-- The operation in flight is no more, and with a DELTA its TAKEN entry (R32, R60). -/
def opEnded (kind : OpKind) (s : State) : State :=
  match kind with
  | .delta => (setOp none s).setTable { s.table with taken := none }
  | _ => setOp none s

/-- The records of the panel are replaced: no change is recorded, and every row is owed a write (R35, R36, R47). -/
def recordsCleared (s : State) : State :=
  setOp none (((s.setTable { ageQueue := [], taken := none }).setSets
    { s.sets with full := 0, fill := RowSet.all }).setLit { counts := [], total := 0 })

/-- There is no record of panel work (R126). -/
abbrev NoRecords (s : State) : Prop :=
  s.table = { ageQueue := [], taken := none } ∧ s.sched.op = none ∧ (∀ h, s.wmu.state ≠ .holding h) ∧
    s.sets.full = 0 ∧ s.sets.fill = RowSet.all ∧ s.lit = { counts := [], total := 0 }

/-- One change of the state, with what the model gives it to rest on. -/
inductive Change : State → State → Prop where
  | quiet {s t : State} (h : SameCore s t) : Change s t
  | memory {s : State} (m : Memory) (h : Memory.wf s.mem → Memory.wf m) : Change s (s.setMem m)
  | handler {s : State} (c : CommandHandler) (h : CellsWf 0 s.cmd.copy → CellsWf 0 c.copy) :
      Change s (s.setCmd c)
  | panel {s : State} (v : Cells Mask) (h : CellsWf 0 s.panel → CellsWf 0 v) : Change s (s.setPanel v)
  | phaseApplied {s : State} (op : RowOp) (h : s.seq.state = .lit) : Change s (s.setLit (applyPhase op s.lit))
  | notices {s : State} (v : BitVec 8) : Change s (setNotices v s)
  | writeAccepted {s : State} (c : WriteCycle) (h : s.bus.ready = true) :
      Change s ((s.setWmu { s.wmu with state := .merging c }).setBus { s.bus with ready := false })
  | cycleEnded {s : State} (h : s.wmu.state ≠ .idle ∨ s.bus.ready = true) : Change s (endCycle s)
  | writeHeld {s : State} (h : HeldChange) (c : WriteCycle) (hw : s.wmu.state = .merging c)
      (hh : HeldLaw (.holding h)) (hr : inResync s h.row = false) :
      Change s (s.setWmu { state := .holding h, holdCounter := 0 })
  | clearBegun {s : State} (h : s.bus.ready = true) :
      Change s (s.setBus { s.bus with ready := false, clearHeld := true })
  | clearDone {s : State} (h : s.bus.clearHeld = true) :
      Change s (s.setBus { s.bus with ready := true, clearHeld := false })
  | merged {s t : State} {r : Row} {w : WordIx} {rise fall : Word}
      (h : mergeDifference r w rise fall s = some t) (hd : DifferenceFits r w rise fall s) : Change s t
  | fullAdded {s : State} (rows : RowSet) : Change s (addFull rows s)
  | fillAdded {s : State} (r : Row) (h : hasRow s.sets.full r = false) :
      Change s ((s.setSets { s.sets with fill := s.sets.fill ||| oneRow r }).setTable
        { s.table with ageQueue := dropRow s.table.ageQueue r })
  | rowTaken {s : State} (r : Row) (cursor : Row) (op : RowOp) (d : Scheduler) (ho : s.sched.op = none)
      (hr : recordless s.seq.state = false) (hk : op.kind ≠ .delta) (hd : d.op = some op) :
      Change s ((s.setSets
        { full := s.sets.full &&& ~~~oneRow r, fill := s.sets.fill &&& ~~~oneRow r, cursor := cursor }).setSched d)
  | entryTaken {s : State} (e : Entry) (rest : List Entry) (d : Scheduler) (ho : s.sched.op = none)
      (hr : recordless s.seq.state = false) (hq : s.table.ageQueue = e :: rest) (hd : d.op = some (deltaOp e)) :
      Change s ((s.setTable { ageQueue := rest, taken := some e }).setSched d)
  | opGoesOn {s : State} {op : RowOp} (op' : RowOp) (ho : s.sched.op = some op) (hc : Continues op op') :
      Change s (setOp (some op') s)
  | opEnds {s : State} {op : RowOp} (ho : s.sched.op = some op) : Change s (opEnded op.kind s)
  | opReturned {s : State} {op : RowOp} (writes erases : Mask) (ho : s.sched.op = some op)
      (hk : op.kind = .delta) (hw : writes = 0 ∨ writes = op.writeMask) (he : erases = 0 ∨ erases = op.eraseMask) :
      Change s ((setOp none s).setTable (mergedBack op.row writes erases s))
  | cleared {s : State} : Change s (recordsCleared s)
  | seqTo {s : State} (q : Sequencer) (hl : q.state ≠ .lit)
      (hr : recordless q.state = true → recordless s.seq.state = true) : Change s (s.setSeq q)
  | periodOff {s : State} (g : PeriodGen) (hc : g.current = none) (hl : g.length = s.period.length)
      (ht : g.timing = s.period.timing)
      (hw : g.window.length ≤ Config.windowPeriods ∨ g.window = s.period.window) : Change s (s.setPeriod g)
  | periodTimed {s : State} (g : PeriodGen) (hc : g.current = none) (hw : g.window = s.period.window)
      (ht : g.timing = timingOf s.store.settings)
      (hl : s.seq.state ≠ .lit ∨ ∃ l, g.length = (limitPeriod g.timing l).1) : Change s (s.setPeriod g)
  | litEntered {s : State} (q : Sequencer) (g : PeriodGen) (hq : q.state = .lit) (hc : g.current = none)
      (hw : g.window = s.period.window) (ht : g.timing = timingOf s.store.settings)
      (hl : ∃ l, g.length = (limitPeriod g.timing l).1) : Change s ((s.setSeq q).setPeriod g)
  | periodBegins {s : State} (p : Period)
      (h : p.kind = .sustain ∨ budgetAllows s.period = true ∨ s.seq.state ≠ .lit) :
      Change s (s.setPeriod { s.period with current := some p })
  | periodMarked {s : State} {p : Period} (p' : Period) (c : ClearPulse) (hp : s.period.current = some p)
      (hk : p'.kind = p.kind) : Change s (s.setPeriod { s.period with current := some p', clearPulse := c })
  | storeWords {s : State} (m : Cells Word) (op : StoreOp)
      (h : CellsWf Config.erasedWord s.store.words → CellsWf Config.erasedWord m) :
      Change s (s.setStore { s.store with words := m, op := op })
  | installed {s : State} {t : Settings} (h : s.store.staged = some t) :
      Change s (s.setStore { s.store with settings := t, staged := none })
  | staged {s : State} {t : Settings} (h : SettingsFit t) : Change s (s.setStore { s.store with staged := some t })
  | unstaged {s : State} : Change s (s.setStore { s.store with staged := none })
  | resets {s : State} (sources : ResetSources) : Change s (resetState sources s)

/-- The sequencer enters a state that holds no record of the panel, with the records still to be replaced (R125). -/
inductive Darkens : State → State → Prop where
  | seq {s : State} (q : Sequencer) (h : recordless q.state = true) : Darkens s (s.setSeq q)

/-- A chain of changes in which the sequencer may enter a state without records before the records are replaced. -/
abbrev Loosely : State → State → Prop := Relation.ReflTransGen (fun s t => Change s t ∨ Darkens s t)

/-- A chain of changes; where the panel is lost or blanked, the records are replaced by its end (R125, R126). -/
inductive Evolves : State → State → Prop where
  | refl {s : State} : Evolves s s
  | tail {s t u : State} (h : Evolves s t) (c : Change t u) : Evolves s u
  | lost {s t u : State} (h : Evolves s t) (c : Loosely t u) (hn : NoRecords u) : Evolves s u

/-! ## Chains of changes -/

theorem Change.evolves {s t : State} (h : Change s t) : Evolves s t := .tail .refl h

theorem Evolves.trans {s t u : State} (h : Evolves s t) (k : Evolves t u) : Evolves s u := by
  induction k with
  | refl => exact h
  | tail _ c ih => exact ih.tail c
  | lost _ c hn ih => exact ih.lost c hn

/-- A change of no part that the laws speak of. -/
theorem Evolves.quiet {s t : State} (h : SameCore s t) : Evolves s t := (Change.quiet h).evolves

theorem Evolves.loosely {s t : State} (h : Evolves s t) : Loosely s t := by
  induction h with
  | refl => exact .refl
  | tail _ c ih => exact ih.tail (.inl c)
  | lost _ c _ ih => exact ih.trans c

theorem Evolves.ite {c : Prop} [Decidable c] {s t u : State} (h : Evolves s t) (k : Evolves s u) :
    Evolves s (if c then t else u) := by
  split
  · exact h
  · exact k

/-- A property that every change keeps, and the entry of a state without records, is kept by a chain. -/
theorem Evolves.keeps {P : State → Prop} (hc : ∀ {s t}, Change s t → P s → P t)
    (hd : ∀ {s t}, Darkens s t → P s → P t) {s t : State} (h : Evolves s t) (hs : P s) : P t := by
  have loose : ∀ {s t : State}, Loosely s t → P s → P t := fun h hs => by
    induction h with
    | refl => exact hs
    | tail _ c ih => exact c.elim (hc · ih) (hd · ih)
  induction h with
  | refl => exact hs
  | tail _ c ih => exact hc c ih
  | lost _ c _ ih => exact loose c ih

/-- A property that every change keeps, and that holds without records, is kept by a chain. -/
theorem Evolves.keeps_of_noRecords {P : State → Prop} (hc : ∀ {s t}, Change s t → P s → P t)
    (hn : ∀ {s}, NoRecords s → P s) {s t : State} (h : Evolves s t) (hs : P s) : P t := by
  induction h with
  | refl => exact hs
  | tail _ c ih => exact hc c ih
  | lost _ _ hr _ => exact hn hr

end Sys2Proof.Machine
end

