-- ==== Sys2Proof/Proofs/TableChains.lean ====
section
/-! PROOFS. The operations of the Change Table, of the hold, of the notices, of row operations and of the link as
chains of changes. -/

namespace Sys2Proof.Machine

open Safety

/-! ## Requests, notices and results -/

theorem noteFirst_evolves (s : State) : Evolves s (noteFirst s) := .quiet (by simp [SameCore])

theorem drawFree_evolves (s : State) : Evolves s (drawFree s) := .quiet (by simp [SameCore])

theorem requestThird_evolves (u : ThirdRank) (s : State) : Evolves s (requestThird u s) :=
  .quiet (by simp [SameCore])

theorem requestCommandWrite_evolves (s : State) : Evolves s (requestCommandWrite s) := requestThird_evolves _ s

theorem requestBurst_evolves (s : State) : Evolves s (requestBurst s) := .quiet (by simp [SameCore])

theorem unitEnds_evolves (p : Bool) (s : State) : Evolves s (unitEnds p s) := .quiet (by simp [SameCore])

theorem cycleServed_evolves (s : State) : Evolves s (cycleServed s) := unitEnds_evolves true s

theorem raiseNotice_evolves (n : Notice) (s : State) : Evolves s (raiseNotice n s) := by
  unfold raiseNotice
  split
  · exact .refl
  · exact (Change.notices _).evolves.trans (requestThird_evolves _ _)

/-- A count of the Notice and Status Unit changes no notice. -/
theorem counted_evolves {s : State} {v : NoticeUnit} (hn : v.notices = s.notice.notices)
    (ha : v.attention = s.notice.attention) : Evolves s (s.setNotice v) := .quiet (by simp [SameCore, hn, ha])

theorem countProtected_evolves (s : State) : Evolves s (countProtected s) := counted_evolves rfl rfl

theorem countAnnulled_evolves (s : State) : Evolves s (countAnnulled s) := counted_evolves rfl rfl

theorem countDropped_evolves (n : Nat) (s : State) : Evolves s (countDropped n s) := counted_evolves rfl rfl

theorem countRetry_evolves (s : State) : Evolves s (countRetry s) := counted_evolves rfl rfl

theorem countContention_evolves (s : State) : Evolves s (countContention s) := counted_evolves rfl rfl

theorem countCommandDiscard_evolves (s : State) : Evolves s (countCommandDiscard s) := counted_evolves rfl rfl

theorem countDegraded_evolves (s : State) : Evolves s (countDegraded s) :=
  (counted_evolves (v := { s.notice with degradedRows := saturate (s.notice.degradedRows + 1) }) rfl rfl).trans
    (raiseNotice_evolves _ _)

/-- A change of the Command Row Handler that leaves its copy. -/
theorem handler_evolves {s : State} {c : CommandHandler} (h : c.copy = s.cmd.copy) : Evolves s (s.setCmd c) :=
  .quiet (by simp [SameCore, h])

theorem finishCommand_evolves (res : Result) (words : List (WordIx × Word)) (s : State) :
    Evolves s (finishCommand res words s) := by
  unfold finishCommand
  split
  · exact .refl
  · split
    · exact .refl
    · refine .trans ?_ (requestCommandWrite_evolves _)
      exact handler_evolves rfl

theorem requestClear_evolves (s : State) : Evolves s (requestClear s) := .quiet (by simp [SameCore, requestClear])

/-! ## The hold and the Resync Sets -/

theorem endCycle_evolves {s : State} (h : s.wmu.state ≠ .idle ∨ s.bus.ready = true) : Evolves s (endCycle s) :=
  (Change.cycleEnded h).evolves

/-- The held record offered again is merged, with its cycle complete, or stays held. -/
theorem offerHeld_evolves {h : HeldChange} {s : State} (hw : s.wmu.state = .holding h) :
    Evolves s (offerHeld h s) := by
  obtain ⟨m, hm, heq⟩ | ⟨-, heq⟩ := offerHeld_cases h s
  · have hwm := (mergeDifference_frame hm).2.2.2.1
    rw [heq]
    exact (Change.merged hm (.inl hw)).evolves.trans (endCycle_evolves (.inl (by simp [hwm, hw])))
  · rw [heq]
    exact .refl

theorem grantArea_evolves (s : State) : Evolves s (grantArea s) := .quiet (by simp [SameCore])

theorem settleHold_evolves (s : State) : Evolves s (settleHold s) := by
  obtain ⟨-, heq⟩ | ⟨h, hw, ⟨-, heq⟩ | ⟨-, -, heq⟩ | ⟨-, -, heq | heq⟩⟩ := settleHold_cases s <;> rw [heq]
  · exact .refl
  · exact endCycle_evolves (.inl (by simp [hw]))
  · exact offerHeld_evolves hw
  · exact (drawFree_evolves s).trans (grantArea_evolves _)
  · exact (drawFree_evolves s).trans (offerHeld_evolves (by simpa using hw))

theorem addFull_evolves (rows : RowSet) (s : State) : Evolves s (addFull rows s) := (Change.fullAdded rows).evolves

theorem requestFull_evolves (rows : RowSet) (s : State) : Evolves s (requestFull rows s) := by
  unfold requestFull
  split
  · exact .refl
  · exact (addFull_evolves rows s).trans (settleHold_evolves _)

theorem requestFill_evolves (r : Row) (s : State) : Evolves s (requestFill r s) := by
  unfold requestFill
  split
  · exact .refl
  · next h => exact (Change.fillAdded r (by simpa using h)).evolves.trans (settleHold_evolves _)

theorem dropHold_evolves (s : State) : Evolves s (dropHold s) := by
  unfold dropHold
  split
  · next hw => exact endCycle_evolves (.inl (by simp [hw]))
  · exact .refl

/-- The end of a hold keeps the Write Merge Unit's state, or ends the cycle (R12, R13). -/
theorem settleHold_ends (s : State) :
    (settleHold s).wmu.state = s.wmu.state ∨
      (settleHold s).wmu.state = .idle ∧ (settleHold s).bus.ready = true := by
  have offered : ∀ (h : HeldChange) (u : State), (offerHeld h u).wmu.state = u.wmu.state ∨
      (offerHeld h u).wmu.state = .idle ∧ (offerHeld h u).bus.ready = true := fun h u => by
    obtain ⟨m, -, heq⟩ | ⟨-, heq⟩ := offerHeld_cases h u <;> simp [heq]
  obtain ⟨-, heq⟩ | ⟨h, -, ⟨-, heq⟩ | ⟨-, -, heq⟩ | ⟨-, -, heq | heq⟩⟩ := settleHold_cases s <;> rw [heq]
  · exact .inl rfl
  · exact .inr ⟨rfl, rfl⟩
  · exact offered h s
  · simp
  · simpa using offered h (drawFree s)

theorem requestFull_ends (rows : RowSet) (s : State) :
    (requestFull rows s).wmu.state = s.wmu.state ∨
      (requestFull rows s).wmu.state = .idle ∧ (requestFull rows s).bus.ready = true := by
  unfold requestFull
  split
  · exact .inl rfl
  · simpa using settleHold_ends (addFull rows s)

/-- A write that waits is degraded: its row is requested, and its cycle ends (R11, R14). -/
theorem degradeHeld_evolves {r : Row} {s : State} (hw : s.wmu.state ≠ .idle) : Evolves s (degradeHeld r s) := by
  refine ((requestFull_evolves _ s).trans (countDegraded_evolves _)).trans (endCycle_evolves ?_)
  obtain h | h := requestFull_ends (oneRow r) s
  · exact .inl (by simpa [h] using hw)
  · exact .inr (by simpa using h.2)

theorem placeOrHold_evolves {h : HeldChange} {c : WriteCycle} {s : State} (hw : s.wmu.state = .merging c)
    (hd : HeldLaw (.holding h)) : Evolves s (placeOrHold h s) := by
  unfold placeOrHold
  split
  · next m hm =>
    have hwm := (mergeDifference_frame hm).2.2.2.1
    exact (Change.merged hm (.inr hd)).evolves.trans (endCycle_evolves (.inl (by simp [hwm, hw])))
  · next hm =>
    split
    · exact degradeHeld_evolves (by simp [hw])
    · have hr := (mergeDifference_eq_none.1 hm).1
      rw [dropped, Bool.or_eq_false_iff] at hr
      exact (Change.writeHeld h c hw hd hr.1).evolves

/-! ## Row operations -/

/-- A change of the link alone. -/
theorem setLink_evolves (s : State) (v : DriverLink) : Evolves s (s.setLink v) := .quiet (by simp [SameCore])

theorem linkNext_evolves (s : State) : Evolves s (linkNext s) := .quiet (by simp [SameCore])

theorem handSlice_evolves (v : Slice) (s : State) : Evolves s (handSlice v s) := .quiet (by simp [SameCore])

theorem handFirst_evolves (v : Slice) (s : State) : Evolves s (handFirst v s) := .quiet (by simp [SameCore])

theorem beginMessage_evolves (m : Message) (s : State) : Evolves s (beginMessage m s) := .quiet (by simp [SameCore])

theorem endMessage_evolves (s : State) : Evolves s (endMessage s) := .quiet (by simp [SameCore])

theorem setOp_evolves {s : State} {op op' : RowOp} (ho : s.sched.op = some op) (hc : Continues op op') :
    Evolves s (setOp (some op') s) := (Change.opGoesOn op' ho hc).evolves

/-- The operation in flight completes, whatever record of it the caller holds. -/
theorem completeOp_evolves {s : State} {op op' : RowOp} (ho : s.sched.op = some op) (hk : op'.kind = op.kind) :
    Evolves s (completeOp op' s) := by
  have hends := (Change.opEnds ho).evolves
  have heq : completeOp op' s =
      match op.kind with
      | .delta => settleHold (opEnded op.kind s)
      | _ => opEnded op.kind s := by
    rw [completeOp, hk]
    cases op.kind <;> rfl
  rw [heq]
  cases h : op.kind <;> rw [h] at hends
  · exact hends.trans (settleHold_evolves _)
  · exact hends
  · exact hends

theorem enterLoading_evolves {s : State} {op op' : RowOp} (ho : s.sched.op = some op) (hc : Continues op op')
    (m : ModuleNo) (rest : List ModuleNo) : Evolves s (enterLoading op' m rest s) :=
  (setOp_evolves ho (op' := { op' with stage := .loading, loaded := 0, toHand := rest }) hc).trans
    (handFirst_evolves _ _)

theorem startWrite_evolves {s : State} {op op' : RowOp} (ho : s.sched.op = some op) (hc : Continues op op') :
    Evolves s (startWrite op' s) := by
  unfold startWrite
  refine (countDropped_evolves (cellsDropped s.link.failed op'.writeMask) s).trans ?_
  dsimp only
  split
  · exact completeOp_evolves (op := op) (by simpa using ho) hc.1
  · exact enterLoading_evolves (op' := { op' with phase := .write }) (op := op) (by simpa using ho) hc _ _

theorem startErase_evolves {s : State} {op op' : RowOp} (ho : s.sched.op = some op) (hc : Continues op op') :
    Evolves s (startErase op' s) := by
  unfold startErase
  refine (countDropped_evolves (cellsDropped s.link.failed op'.eraseMask) s).trans ?_
  dsimp only
  split
  · exact startWrite_evolves (op := op) (by simpa using ho) hc
  · exact enterLoading_evolves (op' := { op' with phase := .erase }) (op := op) (by simpa using ho) hc _ _

theorem phaseDone_evolves {s : State} {op op' : RowOp} (ho : s.sched.op = some op) (hc : Continues op op') :
    Evolves s (phaseDone op' s) := by
  unfold phaseDone
  split
  · exact startWrite_evolves ho hc
  · exact completeOp_evolves ho hc.1

theorem loadNext_evolves {s : State} {op op' : RowOp} (ho : s.sched.op = some op) (hc : Continues op op') :
    Evolves s (loadNext op' s) := by
  unfold loadNext
  split
  · next m rest _ =>
    exact (setOp_evolves ho (op' := { op' with toHand := rest }) hc).trans (handSlice_evolves _ _)
  · split
    · exact phaseDone_evolves ho hc
    · exact setOp_evolves ho hc

theorem continues_refl (op : RowOp) : Continues op op := ⟨rfl, rfl, fun _ h => ⟨rfl, rfl, h⟩⟩

/-! ## The return of an operation -/

/-- A merge-back is the change of the table that it makes, and the end of a hold. -/
theorem mergeBack_evolves {s : State} {op : RowOp} (ho : s.sched.op = some op) (hk : op.kind = .delta)
    {writes erases : Mask} (hw : writes = 0 ∨ writes = op.writeMask) (he : erases = 0 ∨ erases = op.eraseMask) :
    Evolves s (mergeBack op.row writes erases (setOp none s)) := by
  have hret := (Change.opReturned writes erases ho hk hw he).evolves
  unfold mergedBack at hret
  unfold mergeBack
  dsimp only at hret ⊢
  have hin : inResync (setOp none s) op.row = inResync s op.row := rfl
  simp only [setOp_frame, hin]
  split
  · next h => exact (by simpa [h] using hret : Evolves s _).trans (settleHold_evolves _)
  · next h =>
    simp only [h] at hret
    split
    · next h' =>
      simp only [h'] at hret
      exact (hret.trans (countAnnulled_evolves _)).trans (settleHold_evolves _)
    · next h' =>
      simp only [h'] at hret
      exact hret.trans (settleHold_evolves _)

/-- A returned operation gives its work back, with the operation gone before. -/
theorem giveBack_evolves {s : State} {op op' : RowOp} (ho : s.sched.op = some op) (hk : op'.kind = op.kind)
    (hr : op'.row = op.row) (hm : op.kind = .delta → op'.eraseMask = op.eraseMask ∧ op'.writeMask = op.writeMask) :
    Evolves s (giveBack op' (setOp none s)) := by
  unfold giveBack
  split
  · next hd =>
    obtain ⟨heq, hwq⟩ := hm (hk ▸ hd)
    rw [hr]
    refine mergeBack_evolves ho (hk ▸ hd) ?_ ?_
    · split <;> simp [hwq]
    · split <;> simp [heq]
  · next hd =>
    have hends : Evolves s (setOp none s) := by simpa [opEnded, ← hk, hd] using (Change.opEnds ho).evolves
    split
    · exact hends.trans (requestFill_evolves _ _)
    · exact hends.trans (requestFull_evolves _ _)
  · next hd =>
    have hends : Evolves s (setOp none s) := by simpa [opEnded, ← hk, hd] using (Change.opEnds ho).evolves
    exact hends.trans (requestFill_evolves _ _)

theorem returnOp_evolves {s : State} {op op' : RowOp} (ho : s.sched.op = some op) (hk : op'.kind = op.kind)
    (hr : op'.row = op.row) (hm : op.kind = .delta → op'.eraseMask = op.eraseMask ∧ op'.writeMask = op.writeMask) :
    Evolves s (returnOp op' s) := by
  unfold returnOp
  dsimp only
  split
  · have hcl : requestClear (setOp none s) = setOp none (requestClear s) := rfl
    rw [hcl]
    exact (requestClear_evolves s).trans (giveBack_evolves (by simpa using ho) hk hr hm)
  · exact giveBack_evolves ho hk hr hm

theorem schedulerFault_evolves (s : State) : Evolves s (schedulerFault s) := by
  unfold schedulerFault
  split
  · next op ho =>
    split
    · exact setOp_evolves ho ⟨rfl, rfl, fun _ h => ⟨rfl, rfl, h⟩⟩
    · exact returnOp_evolves ho rfl rfl fun _ => ⟨rfl, rfl⟩
  · exact .refl

/-! ## Probe rounds, the link fault and the outcomes of messages -/

theorem endRound_evolves (res : Result) (s : State) : Evolves s (endRound res s) := by
  unfold endRound
  split
  · dsimp only
    refine .trans ?_ (finishCommand_evolves _ _ _)
    split
    · exact .trans (setLink_evolves _ _) (requestFull_evolves _ _)
    · exact setLink_evolves _ _
  · exact .refl

theorem linkFault_evolves (s : State) : Evolves s (linkFault s) := by
  unfold linkFault
  have raised : ∀ v, Evolves s (raiseNotice .linkFault (s.setLink v)) :=
    fun v => .trans (setLink_evolves s v) (raiseNotice_evolves _ _)
  dsimp only
  refine .trans (.trans ?_ (schedulerFault_evolves _)) (endRound_evolves _ _)
  exact .ite (.trans (raised _) (requestClear_evolves _)) (raised _)

theorem reportSlice_evolves (loaded : Bool) (m : ModuleNo) (s : State) : Evolves s (reportSlice loaded m s) := by
  unfold reportSlice
  split
  · next op ho =>
    split
    · exact loadNext_evolves ho (continues_refl op)
    · exact (countDropped_evolves _ s).trans (loadNext_evolves (by simpa using ho) (continues_refl op))
  · exact .refl

theorem roundNext_evolves (restored : Bool) (s : State) : Evolves s (roundNext restored s) := by
  unfold roundNext
  split
  · dsimp only
    split
    · exact .trans (setLink_evolves _ _) (endRound_evolves _ _)
    · exact setLink_evolves _ _
  · exact .refl

/-- The latches of the driver modules change. -/
theorem setLatches_evolves (s : State) (v : ModuleLatches) : Evolves s (s.setLatches v) :=
  .quiet (by simp [SameCore])

theorem messageSucceeded_evolves (m : Message) (s : State) : Evolves s (messageSucceeded m s) := by
  unfold messageSucceeded
  have latched : ∀ v, Evolves s ((endMessage s).setLatches v) :=
    fun v => .trans (endMessage_evolves s) (setLatches_evolves _ v)
  dsimp only
  split
  · split <;> refine .trans ?_ (linkNext_evolves _)
    · exact .trans (latched _) (requestClear_evolves _)
    · exact .trans (latched _) (reportSlice_evolves _ _ _)
  · exact .trans (.trans (.trans (latched _) (setLink_evolves _ _)) (roundNext_evolves _ _)) (linkNext_evolves _)

theorem messageFailed_evolves (m : Message) (s : State) : Evolves s (messageFailed m s) := by
  unfold messageFailed
  split
  · split
    · exact ((endMessage_evolves s).trans (requestClear_evolves _)).trans (linkNext_evolves _)
    · split
      · exact (countRetry_evolves s).trans (beginMessage_evolves _ _)
      · exact ((((endMessage_evolves s).trans (setLink_evolves _ _)).trans (raiseNotice_evolves _ _)).trans
          (reportSlice_evolves _ _ _)).trans (linkNext_evolves _)
  · exact ((endMessage_evolves s).trans (roundNext_evolves _ _)).trans (linkNext_evolves _)

theorem messageOutcome_evolves {m : Message} {scan : ByteScan} {s t : State} (h : messageOutcome m scan s = some t) :
    Evolves s t := by
  unfold messageOutcome at h
  split at h <;> cases h
  · exact messageSucceeded_evolves m s
  · exact messageFailed_evolves m s
  · exact (countContention_evolves s).trans (messageFailed_evolves m _)

theorem mayLatch_evolves (m : Message) (s : State) : Evolves s (mayLatch m s) := .quiet (by simp [SameCore])

theorem stretchOutcome_evolves (m : Message) (scan : ByteScan) (freed : Bool) (s : State) :
    Evolves s (stretchOutcome m scan freed s) := by
  unfold stretchOutcome
  have after : ∀ u, Evolves u (if freed then (match scan with
      | .acked => messageFailed m (mayLatch m u)
      | _ => messageFailed m u) else linkFault u) := fun u => by
    split
    · split
      · exact .trans (mayLatch_evolves m u) (messageFailed_evolves m _)
      · exact messageFailed_evolves m u
    · exact linkFault_evolves u
  refine .trans ?_ (after _)
  split
  · exact countContention_evolves s
  · exact .refl

theorem beginRecovery_evolves (s : State) : Evolves s (beginRecovery s) := .quiet (by simp [SameCore])

end Sys2Proof.Machine
end

