-- ==== Sys2Proof/Proofs/PanelChains.lean ====
section
/-! PROOFS. The operations of the Period Generator, of the Panel Sequencer and of the settings as chains of changes. -/

namespace Sys2Proof.Machine

open Safety

/-! ## The panel and the records -/

theorem setPanel_evolves {s : State} {v : Cells Mask} (h : CellsWf 0 s.panel → CellsWf 0 v) :
    Evolves s (s.setPanel v) := (Change.panel v h).evolves

theorem panelDark_evolves (s : State) : Evolves s (panelDark s) := setPanel_evolves fun _ => cellsWf_nil

theorem drivePanel_evolves (r : Row) (v : Mask) (s : State) : Evolves s (drivePanel r v s) :=
  setPanel_evolves fun h => cellsWf_write _ _ h

/-- What a cut erase leaves of each row keeps the canonical form: the rows stay, and an empty one is not listed. -/
theorem cellsWf_cutErase {m : Cells Mask} (f : Nat → Mask) (h : CellsWf 0 m) :
    CellsWf 0 ((m.map (fun p => (p.1, p.2 &&& f p.1))).filter (fun p => p.2 != 0)) := by
  refine ⟨List.Pairwise.filter _ (List.pairwise_map.2 h.1), fun p hp => ?_⟩
  simpa using (List.mem_filter.1 hp).2

theorem cutErasePanel_evolves (s : State) : Evolves s (cutErasePanel s) :=
  (drawFree_evolves s).trans (setPanel_evolves fun h => cellsWf_cutErase _ (by simpa using h))

/-- The loss of every record is one change, and the end of a hold (R35, R36, R47). -/
theorem noRecord_eq (s : State) : setOp none (allRowsDark s) =
    dropHold ((recordsCleared s).setSched { s.sched with op := none, runCount := 0 }) := by
  unfold allRowsDark dropHold
  cases h : s.wmu.state <;> simp [h, recordsCleared] <;> rfl

theorem noRecord_evolves (s : State) : Evolves s (setOp none (allRowsDark s)) := by
  rw [noRecord_eq]
  exact .trans (Change.cleared.evolves.trans (.quiet (by simp [SameCore, recordsCleared, setOp])))
    (dropHold_evolves _)

theorem dropHold_notHolding (s : State) (h : HeldChange) : (dropHold s).wmu.state ≠ .holding h := by
  unfold dropHold
  split
  · simp
  · next hw => exact hw h

theorem noRecord_noRecords (s : State) : NoRecords (setOp none (allRowsDark s)) := by
  rw [noRecord_eq]
  simp [NoRecords, recordsCleared, setOp, dropHold_notHolding]

/-- The absence of records is a matter of the records alone. -/
theorem noRecords_congr {s t : State} (ht : t.table = s.table) (ho : t.sched.op = s.sched.op)
    (hw : t.wmu.state = s.wmu.state) (hs : t.sets = s.sets) (hl : t.lit = s.lit) :
    NoRecords t ↔ NoRecords s := by
  simp only [NoRecords, ht, ho, hw, hs, hl]

/-! ## Periods -/

theorem beginPeriod_evolves {k : PeriodKind} {fires : Option (Row × Phase)} {s : State}
    (h : k = .sustain ∨ budgetAllows s.period = true ∨ s.seq.state ≠ .lit) : Evolves s (beginPeriod k fires s) :=
  (Change.periodBegins _ h).evolves

/-- The budget and the sample index in the manual's terms (R96). -/
theorem budgetAllows_iff (g : PeriodGen) : budgetAllows g = true ↔
    g.index ≠ g.timing.sampleIndex ∧
      (g.window.filter (fun k => k == .address)).length < g.timing.allowance := by
  simp [budgetAllows, addressCount, List.countP_eq_length_filter]

/-- A period's start changes the period generator and the scheduler, and nothing else (R96, R104). -/
theorem startPeriod_eq (s : State) : startPeriod s =
    (s.setPeriod (started s.period s.sched).1).setSched (started s.period s.sched).2 := by
  unfold startPeriod started
  dsimp only
  by_cases hb : budgetAllows s.period = true
  · rw [if_pos hb, if_pos ((budgetAllows_iff _).1 hb)]
    cases ho : s.sched.op with
    | none => cases hc : s.sched.clearWaiting <;> rfl
    | some op =>
      have hphase : (workingPhase op).1 = if op.phase = .erase then .erase else .write := by
        cases h : op.phase <;> simp [workingPhase, h]
      by_cases hs : op.stage = .ready <;> simp [hphase, hs] <;> rfl
  · rw [if_neg hb, if_neg (mt (budgetAllows_iff _).2 hb)]
    rfl

/-- The start of a period does not depend on the period before. -/
theorem startPeriod_setCurrent (c : Option Period) (s : State) :
    startPeriod (s.setPeriod { s.period with current := c }) = startPeriod s := by
  rw [startPeriod_eq, startPeriod_eq]
  rfl

theorem startPeriod_evolves (s : State) : Evolves s (startPeriod s) := by
  unfold startPeriod
  split
  · next hb =>
    have begins : ∀ k fires u, u.period = s.period → Evolves u (beginPeriod k fires u) :=
      fun k fires u h => beginPeriod_evolves (.inr (.inl (h ▸ hb)))
    split
    · next op ho =>
      exact .ite (.trans (setOp_evolves ho (op' := { op with stage := .firing }) (continues_refl op))
        (begins _ _ _ rfl))
        (begins _ _ _ rfl)
    · exact .ite (begins _ _ _ rfl) (begins _ _ _ rfl)
  · exact beginPeriod_evolves (.inl rfl)

theorem raiseNotice_setPeriod (n : Notice) (g : PeriodGen) (s : State) :
    raiseNotice n (s.setPeriod g) = (raiseNotice n s).setPeriod g := by
  unfold raiseNotice requestNoticeUpdate requestThird
  by_cases hp : noticePresent n s = true
  · rw [if_pos hp, if_pos (by exact hp)]
  · rw [if_neg hp, if_neg (by exact hp)]
    by_cases hu : ThirdRank.noticeUpdate ∈ s.port.third
    · rw [if_pos (by exact hu), if_pos (by exact hu)]
      rfl
    · rw [if_neg (by exact hu), if_neg (by exact hu)]
      cases ht : s.port.third <;> simp [setNotices, ht] <;> rfl

/-- The timing and P that a frame begins with (R105, R133). -/
def framed (s : State) : PeriodGen :=
  { s.period with
    timing := timingOf s.store.settings
    length := (limitPeriod (timingOf s.store.settings) s.lit.total).1
    index := 0 }

/-- A frame begins with its timing and P, and an overloaded one raises its notice (R133 to R135). -/
theorem limitLoad_takeTiming (s : State) : limitLoad (takeTiming s) =
    if (limitPeriod (timingOf s.store.settings) s.lit.total).2 then raiseNotice .overload (s.setPeriod (framed s))
    else s.setPeriod (framed s) := rfl

theorem limitLoad_takeTiming_evolves {s : State} (h : s.period.current = none) :
    Evolves s (limitLoad (takeTiming s)) := by
  have timed : Evolves s (s.setPeriod (framed s)) :=
    (Change.periodTimed (framed s) h rfl rfl (.inr ⟨_, rfl⟩)).evolves
  rw [limitLoad_takeTiming]
  exact .ite (.trans timed (raiseNotice_evolves _ _)) timed

/-! ## States of the sequencer -/

theorem restartTimers_evolves (s : State) : Evolves s (restartTimers s) := .quiet (by simp [SameCore, restartTimers])

/-- The sequencer takes another state than LIT, or stays, and the loss of its records is not at hand. -/
theorem setSeq_evolves {s : State} {q : Sequencer} (hl : q.state ≠ .lit)
    (hr : recordless q.state = true → recordless s.seq.state = true) : Evolves s (s.setSeq q) :=
  (Change.seqTo q hl hr).evolves

/-- A change of the sequencer that leaves its state. -/
theorem setSeq_evolves_of_state {s : State} {q : Sequencer} (h : q.state = s.seq.state) : Evolves s (s.setSeq q) :=
  .quiet (by simp [SameCore, h])

/-- The entry to LIT, the period before it over: the state, timing and P at once, then the notice and period 0. -/
theorem enterLit_eq (s : State) : enterLit s =
    startPeriod
      (let u := restartTimers ((setSeqState .lit s).setPeriod { framed s with current := none })
       if (limitPeriod (timingOf s.store.settings) s.lit.total).2 then raiseNotice .overload u else u) := by
  have hdark : ∀ u : State, startPeriod u = startPeriod (u.setPeriod { u.period with current := none }) :=
    fun u => (startPeriod_setCurrent none u).symm
  unfold enterLit
  dsimp only
  rw [limitLoad_takeTiming, hdark]
  congr 1
  have hset : ∀ u : State, u.period = s.period → u.store = s.store → u.lit = s.lit → framed u = framed s :=
    fun u hp hs hl => by simp [framed, hp, hs, hl]
  have hf := hset (restartTimers (setSeqState .lit s)) rfl rfl rfl
  rw [hf]
  have hcond : (limitPeriod (timingOf (restartTimers (setSeqState .lit s)).store.settings)
    (restartTimers (setSeqState .lit s)).lit.total).2 =
      (limitPeriod (timingOf s.store.settings) s.lit.total).2 := rfl
  rw [hcond]
  split
  · rw [raiseNotice_setPeriod]
    have : restartTimers ((setSeqState .lit s).setPeriod { framed s with current := none }) =
      (restartTimers (setSeqState .lit s)).setPeriod { framed s with current := none } := rfl
    rw [this, raiseNotice_setPeriod]
    rfl
  · rfl

theorem enterLit_evolves (s : State) : Evolves s (enterLit s) := by
  rw [enterLit_eq]
  have entered : Evolves s (restartTimers ((setSeqState .lit s).setPeriod { framed s with current := none })) :=
    .trans (Change.litEntered { s.seq with state := .lit } { framed s with current := none } rfl rfl rfl rfl
      ⟨_, rfl⟩).evolves (restartTimers_evolves _)
  exact .trans (.ite (.trans entered (raiseNotice_evolves _ _)) entered) (startPeriod_evolves _)

theorem endGap_evolves (s : State) : Evolves s (endGap s) :=
  (setSeq_evolves_of_state (q := { s.seq with gapLength := s.seq.gap }) rfl).trans (enterLit_evolves _)

/-- The current period is over, with the history as given. -/
theorem periodOff_evolves {s : State} {g : PeriodGen} (hc : g.current = none) (hl : g.length = s.period.length)
    (ht : g.timing = s.period.timing) (hw : g.window.length ≤ Config.windowPeriods ∨ g.window = s.period.window) :
    Evolves s (s.setPeriod g) := (Change.periodOff g hc hl ht hw).evolves

theorem enterPriming_evolves {s : State} (h : recordless s.seq.state = true) : Evolves s (enterPriming s) := by
  let g : PeriodGen := { s.period with window := [], current := none }
  have off : Evolves s (s.setPeriod g) := periodOff_evolves rfl rfl rfl (.inl (Nat.zero_le _))
  have primes : Evolves (s.setPeriod g) (setSeqState .priming (s.setPeriod g)) :=
    setSeq_evolves (by simp) fun _ => h
  have timed := (Change.periodTimed (s := setSeqState .priming (s.setPeriod g))
    { g with timing := timingOf s.store.settings } rfl rfl rfl (.inl (by simp [setSeqState]))).evolves
  exact ((off.trans primes).trans timed).trans (requestClear_evolves _)

theorem judgeDark_evolves (s : State) : Evolves s (judgeDark s) := by
  unfold judgeDark
  split
  · next h =>
    simp only [Bool.and_eq_true, beq_iff_eq] at h
    exact setSeq_evolves (by simp) fun _ => by rw [h.1.1]; rfl
  · exact .refl

theorem enterDark_evolves {s : State} (h : recordless s.seq.state = true) : Evolves s (enterDark s) :=
  .trans (setSeq_evolves (by simp) fun _ => h) (requestClear_evolves _)

/-- The sequencer enters DARK, with the records still to be replaced. -/
theorem enterDark_loosely (s : State) : Loosely s (enterDark s) :=
  .trans (.single (.inr (.seq _ rfl))) (requestClear_evolves _).loosely

theorem endPriming_evolves (s : State) : Evolves s (endPriming s) := by
  unfold endPriming
  refine .trans ?_ (periodOff_evolves rfl rfl rfl (.inr rfl))
  split
  · exact .ite .refl (cutErasePanel_evolves s)
  · exact .refl

theorem abandonErase_evolves (s : State) : Evolves s (abandonErase s) :=
  .trans (.quiet (by simp [SameCore])) (finishCommand_evolves _ _ _)

/-! ## The loss effects -/

/-- The link after loss effects: the waiting slice withdrawn, and a LOAD message marked as handed over before (R93). -/
def lostLink (l : DriverLink) : DriverLink := { l with waiting := none, message := l.message.map afterLoss }

/-- Everything the loss effects do (R125): the records, the panel, the link and the clear pulse, and the end of a
CLEAR_AND_REPAINT that waits. -/
theorem lossEffects_eq (s : State) : lossEffects s =
    let u := requestClear ((panelDark (setOp none (allRowsDark s))).setLink (lostLink s.link))
    if s.sched.clearWaiting then abandonErase u else u := by
  have hlink : (panelDark (setOp none (allRowsDark s))).link = s.link := by simp
  have hwait : (setOp none (allRowsDark s)).sched.clearWaiting = s.sched.clearWaiting := by
    rw [noRecord_eq]
    simp
  unfold lossEffects lostLink
  dsimp only
  rw [hlink]
  cases s.link.message with
  | none => simp [hwait]
  | some m => by_cases hp : m.purpose = .phaseLoad <;> simp [afterLoss, hp, hwait]

theorem lossEffects_evolves (s : State) : Evolves s (lossEffects s) := by
  rw [lossEffects_eq]
  have cleared := (((noRecord_evolves s).trans (panelDark_evolves _)).trans
    (setLink_evolves _ (lostLink s.link))).trans (requestClear_evolves _)
  exact .ite (.trans cleared (abandonErase_evolves _)) cleared

theorem lossEffects_noRecords (s : State) : NoRecords (lossEffects s) := by
  rw [lossEffects_eq]
  refine (noRecords_congr ?_ ?_ ?_ ?_ ?_).2 (noRecord_noRecords s) <;> dsimp only <;> split <;>
    simp [abandonErase]

theorem judgeDark_noRecords (s : State) : NoRecords (judgeDark s) ↔ NoRecords s := by simp [NoRecords]

theorem lossInGap_loosely (s : State) : Loosely s (lossInGap s) := by
  let q : Sequencer := { s.seq with gapLength := s.store.settings.lossLimit }
  let u := s.setSeq q
  have begun : Loosely s (enterDark u) :=
    .trans (setSeq_evolves_of_state (q := q) rfl).loosely (enterDark_loosely u)
  have lost : Evolves (enterDark u) (judgeDark (lossEffects (raiseNotice .panelLost (enterDark u)))) :=
    .trans (.trans (raiseNotice_evolves _ _) (lossEffects_evolves _)) (judgeDark_evolves _)
  exact begun.trans lost.loosely

theorem lossInGap_evolves (s : State) : Evolves s (lossInGap s) := by
  refine .lost .refl (lossInGap_loosely s) ?_
  exact (judgeDark_noRecords _).2 (lossEffects_noRecords _)

theorem lossInResuming_evolves (s : State) : Evolves s (lossInResuming s) := by
  refine .lost .refl ?_ (lossEffects_noRecords _)
  let q : Sequencer := { s.seq with state := .settling, gap := 0, gapLength := s.store.settings.lossLimit }
  have darkens : Loosely s (s.setSeq q) := .single (.inr (.seq q rfl))
  have lost : Evolves (s.setSeq q) (lossEffects (raiseNotice .panelLost (s.setSeq q))) :=
    .trans (raiseNotice_evolves _ _) (lossEffects_evolves _)
  exact darkens.trans lost.loosely

/-! ## The installation of settings -/

theorem expireHold_evolves (s : State) : Evolves s (expireHold s) := by
  unfold expireHold
  split
  · next hw => exact .ite (degradeHeld_evolves (by simp [hw])) .refl
  · exact .refl

@[simp] theorem lossInResuming_state (s : State) : (lossInResuming s).seq.state = .settling := by
  simp [lossInResuming]

theorem reachLimits_evolves (s : State) : Evolves s (reachLimits s) := by
  have afterLoss : ∀ u, Evolves u (reachLimits.reachAfterLoss u) := fun u =>
    .trans (lossInResuming_evolves u) (enterPriming_evolves (by rw [lossInResuming_state]; rfl))
  unfold reachLimits
  split
  · next h => exact .ite (enterPriming_evolves (by rw [h]; rfl)) .refl
  · exact .ite (lossInGap_evolves s) .refl
  · refine .ite (.ite (.ite ?_ ?_) (endGap_evolves s)) (.ite (lossInResuming_evolves s) .refl)
    · exact .trans (drawFree_evolves s) (endGap_evolves _)
    · exact .trans (drawFree_evolves s) (afterLoss _)
  · exact .refl

theorem installSettings_evolves {t : Settings} {s : State} (h : s.store.staged = some t) :
    Evolves s (installSettings t s) :=
  ((Change.installed h).evolves.trans (expireHold_evolves _)).trans (reachLimits_evolves _)

/-- In LIT an installation reaches no limit of the sequencer, and leaves the periods (R190). -/
theorem installSettings_of_lit {t : Settings} {s : State} (h : s.seq.state = .lit) :
    installSettings t s = expireHold (s.setStore { s.store with settings := t, staged := none }) := by
  unfold installSettings reachLimits
  simp [h]

theorem installStaged_evolves {thenDo : State → State} {s : State}
    (h : ∀ u, s.store.staged = none ∧ u = s ∨ (∃ t, u = installSettings t s) → Evolves u (thenDo u)) :
    Evolves s (installStaged thenDo s) := by
  unfold installStaged
  split
  · next t ht =>
    exact .trans (.trans (installSettings_evolves ht) (h _ (.inr ⟨t, rfl⟩))) (finishCommand_evolves _ _ _)
  · next hn => exact h s (.inl ⟨hn, rfl⟩)

/-- The frame end in LIT, the period that ended ended (R106). -/
theorem frameEnd_evolves {s : State} (hl : s.seq.state = .lit) (hc : s.period.current = none) :
    Evolves s (frameEnd s) := by
  unfold frameEnd
  refine .trans (requestBurst_evolves s) (installStaged_evolves fun u hu => ?_)
  have hcu : u.period.current = none := by
    obtain ⟨-, rfl⟩ | ⟨t, rfl⟩ := hu
    · simpa using hc
    · rw [installSettings_of_lit (by simpa using hl)]
      simpa using hc
  have counted : Evolves u ((limitLoad (takeTiming u)).setPeriod
      { (limitLoad (takeTiming u)).period with
        frameCount := ((limitLoad (takeTiming u)).period.frameCount + 1) % 65536 }) :=
    .trans (limitLoad_takeTiming_evolves hcu) (.quiet (by simp [SameCore]))
  exact .ite (.trans counted (beginRecovery_evolves _)) counted

/-- The window history never holds more than 15 kinds (R97). -/
theorem pushWindow_length (w : List WindowKind) (k : WindowKind) :
    (pushWindow w k).length ≤ Config.windowPeriods := by
  simp only [pushWindow, List.length_drop]
  omega

/-- The period generator as a period ends or is cut (R97): its kind joins the history. -/
def periodOver (p : Period) (g : PeriodGen) : PeriodGen :=
  { g with window := pushWindow g.window (windowKind p.kind), current := none }

theorem endPeriod_evolves {p : Period} {s : State} (hl : s.seq.state = .lit) : Evolves s (endPeriod p s) := by
  unfold endPeriod
  have ended : Evolves s (s.setPeriod (periodOver p s.period)) :=
    periodOff_evolves rfl rfl rfl (.inl (pushWindow_length _ _))
  refine .trans (.ite (.trans ended (frameEnd_evolves hl rfl)) (.trans ended ?_)) (startPeriod_evolves _)
  exact periodOff_evolves rfl rfl rfl (.inr rfl)

/-! ## Leaving LIT -/

theorem cutOperation_evolves {op : RowOp} {s : State} (ho : s.sched.op = some op) : Evolves s (cutOperation op s) := by
  have driven : Evolves s (requestClear (drivePanel op.row (Config.cutRow s.freeCount) (drawFree s))) :=
    .trans (.trans (drawFree_evolves s) (drivePanel_evolves _ _ _)) (requestClear_evolves _)
  have ended := (Change.opEnds (s := requestClear (drivePanel op.row (Config.cutRow s.freeCount) (drawFree s)))
    (op := op) (by simpa using ho)).evolves
  have heq : cutOperation op s = settleHold (addFull (oneRow op.row)
      (opEnded op.kind (requestClear (drivePanel op.row (Config.cutRow s.freeCount) (drawFree s))))) := by
    unfold cutOperation
    cases op.kind <;> rfl
  rw [heq]
  exact .trans (.trans (.trans driven ended) (addFull_evolves _ _)) (settleHold_evolves _)

theorem cutErase_evolves (s : State) : Evolves s (cutErase s) := by
  unfold cutErase
  have asked : Evolves s (requestFull RowSet.all (cutErasePanel s)) :=
    .trans (cutErasePanel_evolves s) (requestFull_evolves _ _)
  exact .ite (.trans asked (abandonErase_evolves _)) asked

theorem cutWork_evolves (p : Period) (s : State) : Evolves s (cutWork p s) := by
  unfold cutWork
  split
  · exact .refl
  · split
    · exact .refl
    · exact cutErase_evolves s
    · split
      · next op ho => exact cutOperation_evolves ho
      · exact .refl

theorem cutPeriod_evolves (s : State) : Evolves s (cutPeriod s) := by
  unfold cutPeriod
  split
  · next p _ =>
    have ended : Evolves s (s.setPeriod (periodOver p s.period)) :=
      periodOff_evolves rfl rfl rfl (.inl (pushWindow_length _ _))
    exact ended.trans (cutWork_evolves _ _)
  · exact .refl

theorem leaveLit_evolves (s : State) : Evolves s (leaveLit s) := by
  unfold leaveLit
  refine .trans (.trans ?_ (restartTimers_evolves _)) (installStaged_evolves fun _ _ => .refl)
  exact .trans (cutPeriod_evolves s) (.quiet (by simp [SameCore]))

end Sys2Proof.Machine
end

