-- ==== Sys2Proof/Proofs/StepChains.lean ====
section
/-! PROOFS. The commands of the Command Row Handler, the units of the port and the rows of the table as chains of
changes, and with them every step. -/

namespace Sys2Proof.Machine

open Safety

/-! ## Areas and commands -/

/-- A change of the area operation. -/
theorem setArea_evolves (s : State) (v : Option AreaOp) : Evolves s (s.setArea v) := .quiet (by simp [SameCore])

theorem completeArea_evolves (a : AreaOp) (s : State) : Evolves s (completeArea a s) :=
  .trans (setArea_evolves s none) (finishCommand_evolves _ _ _)

theorem areaFrom_evolves (a : AreaOp) (r : Nat) (s : State) : Evolves s (areaFrom a r s) := by
  unfold areaFrom
  split
  · exact setArea_evolves _ _
  · exact completeArea_evolves a s

theorem areaNext_evolves (a : AreaOp) (s : State) : Evolves s (areaNext a s) :=
  .ite (completeArea_evolves a s) (.ite (setArea_evolves _ _) (areaFrom_evolves _ _ _))

theorem riseBits_and_fallBits (o n : Word) : riseBits o n &&& fallBits o n = 0 := by
  unfold riseBits fallBits
  ext i
  simp
  grind

theorem placeArea_evolves (offer : Bool) (r : Row) (w : WordIx) (o n : Word) (s : State) :
    Evolves s (placeArea offer r w (riseBits o n) (fallBits o n) s) := by
  unfold placeArea
  split
  · exact .ite (settleHold_evolves s) .refl
  · next hne =>
    split
    · next hm =>
      exact .trans (Change.merged hm (.inr ⟨riseBits_and_fallBits o n, hne⟩)).evolves (settleHold_evolves _)
    · exact .trans (requestFull_evolves _ _) (countDegraded_evolves _)

theorem acceptRepaint_evolves (s : State) : Evolves s (acceptRepaint s) :=
  .ite (finishCommand_evolves _ _ _) (.trans (requestFull_evolves _ _) (finishCommand_evolves _ _ _))

theorem acceptClear_evolves (s : State) : Evolves s (acceptClear s) :=
  .ite (.quiet (by simp [SameCore])) (finishCommand_evolves _ _ _)

theorem acceptArea_evolves (s : State) : Evolves s (acceptArea s) :=
  .ite (finishCommand_evolves _ _ _) (areaFrom_evolves _ _ _)

/-- BLANK darkens the sequencer first, and by its end the records are replaced (R128). -/
theorem acceptBlank_evolves (s : State) : Evolves s (acceptBlank s) := by
  let q : Sequencer := { s.seq with blanked := true }
  let u := enterDark (s.setSeq q)
  let v := match s.seq.state with
    | .lit => leaveLit u
    | .priming => endPriming u
    | _ => u
  have darkened : Loosely s u := .trans (setSeq_evolves_of_state (q := q) rfl).loosely (enterDark_loosely _)
  have left : Evolves u v := by
    simp only [v]
    split
    · exact leaveLit_evolves u
    · exact endPriming_evolves u
    · exact .refl
  have lost : Evolves s (lossEffects v) :=
    .lost .refl (darkened.trans (left.trans (lossEffects_evolves v)).loosely) (lossEffects_noRecords v)
  exact lost.trans (finishCommand_evolves _ _ _)

theorem acceptUnblank_evolves (s : State) : Evolves s (acceptUnblank s) := by
  let q : Sequencer := { s.seq with blanked := false }
  exact .trans (.ite (.trans (setSeq_evolves_of_state (q := q) rfl) (judgeDark_evolves _)) .refl)
    (finishCommand_evolves _ _ _)

theorem acceptProbe_evolves (s : State) : Evolves s (acceptProbe s) :=
  .ite (finishCommand_evolves _ _ _) (.ite (finishCommand_evolves _ _ _)
    (.trans (setLink_evolves _ _) (linkNext_evolves _)))

/-- A change of the store operation alone. -/
theorem storeOp_evolves {s : State} (op : StoreOp) : Evolves s (s.setStore { s.store with op := op }) :=
  .quiet (by simp [SameCore])

theorem acceptStoreRead_evolves (s : State) : Evolves s (acceptStoreRead s) :=
  .ite (finishCommand_evolves _ _ _) (finishCommand_evolves _ _ _)

theorem acceptStoreErase_evolves (s : State) : Evolves s (acceptStoreErase s) :=
  .ite (finishCommand_evolves _ _ _) (.ite (finishCommand_evolves _ _ _) (storeOp_evolves _))

theorem acceptStoreWrite_evolves (s : State) : Evolves s (acceptStoreWrite s) :=
  .ite (finishCommand_evolves _ _ _) (.ite (finishCommand_evolves _ _ _)
    (.ite (finishCommand_evolves _ _ _) (storeOp_evolves _)))

theorem acceptApply_evolves (s : State) : Evolves s (acceptApply s) := by
  unfold acceptApply
  refine .ite (finishCommand_evolves _ _ _) ?_
  have stagedAfter : ∀ u : State, Evolves s u →
      Evolves s (u.setStore { u.store with staged := some (loadSettings u.store.words) }) :=
    fun u h => h.trans (Change.staged (loadSettings_fits _)).evolves
  have loaded := stagedAfter (if formatRight s.store.words then s else raiseNotice .settingsDefault s)
    (.ite .refl (raiseNotice_evolves _ _))
  exact .ite loaded (.trans loaded (installStaged_evolves fun _ _ => .refl))

theorem acceptCode_evolves (code : Byte) (s : State) : Evolves s (acceptCode code s) :=
  .ite (acceptRepaint_evolves s) <| .ite (acceptClear_evolves s) <| .ite (acceptArea_evolves s) <|
    .ite (acceptBlank_evolves s) <| .ite (acceptUnblank_evolves s) <| .ite (acceptProbe_evolves s) <|
    .ite (finishCommand_evolves _ _ _) <| .ite (acceptStoreRead_evolves s) <| .ite (acceptStoreErase_evolves s) <|
    .ite (acceptStoreWrite_evolves s) <| .ite (acceptApply_evolves s) (finishCommand_evolves _ _ _)

theorem acceptCommand_evolves (code : Byte) (s : State) : Evolves s (acceptCommand code s) := by
  refine .trans (.trans ?_ (acceptCode_evolves _ _)) (requestCommandWrite_evolves _)
  exact handler_evolves rfl

theorem withdrawWord_evolves (a : AreaOp) (s : State) : Evolves s (withdrawWord a s) := completeArea_evolves _ s

theorem abortArea_evolves (a : AreaOp) (s : State) : Evolves s (abortArea a s) :=
  .ite (setArea_evolves _ _) (.ite
    (.ite (.trans (drawFree_evolves s) (setArea_evolves _ _)) (.trans (drawFree_evolves s) (withdrawWord_evolves _ _)))
    (withdrawWord_evolves _ _))

theorem takeAbort_evolves (r : Running) (s : State) : Evolves s (takeAbort r s) := by
  unfold takeAbort
  have taken : Evolves s (s.setCmd { s.cmd with running := some { r with abortTaken := true } }) :=
    handler_evolves rfl
  refine .ite ?_ (.ite (.ite taken (.trans taken (abandonErase_evolves _))) ?_)
  · split
    · exact .trans taken (abortArea_evolves _ _)
    · exact taken
  · exact .trans (.trans taken Change.unstaged.evolves) (finishCommand_evolves _ _ _)

/-! ## Writes -/

theorem writeMem_evolves {off : Nat} {v : Word} {s : State} (h : off < Config.statusBase + 32) :
    Evolves s (writeMem off v s) := (Change.memory _ fun hm => memory_wf_cellsWrite hm h).evolves

theorem imageOffset_lt_end (r : Row) (w : WordIx) : imageOffset r w < Config.statusBase + 32 :=
  Nat.lt_of_lt_of_le (imageOffset_lt r w) (by decide)

theorem commandOffset_lt_end (w : WordIx) : commandOffset w < Config.statusBase + 32 :=
  Nat.lt_of_lt_of_le (commandOffset_lt w) (by decide)

theorem storeCommandWord_evolves (w : WordIx) (n : Word) (s : State) : Evolves s (storeCommandWord w n s) :=
  .trans (writeMem_evolves (commandOffset_lt_end w)) (Change.handler _ fun h => cellsWf_write _ _ h).evolves

/-- The matchers leave the copy (R185). -/
@[simp] theorem seeSetup_copy (v : Word) (h : CommandHandler) : (seeSetup v h).copy = h.copy := by
  unfold seeSetup
  dsimp only
  repeat' split
  all_goals rfl

@[simp] theorem seeSetup_running (v : Word) (h : CommandHandler) : (seeSetup v h).running = h.running := by
  unfold seeSetup
  dsimp only
  repeat' split
  all_goals rfl

theorem seeStored_evolves (w : WordIx) (n : Word) (s : State) : Evolves s (seeStored w n s) :=
  .ite (.ite .refl (acceptCommand_evolves _ s)) (.ite (handler_evolves (by simp)) .refl)

theorem seeOffered_evolves (r : Running) (w : WordIx) (n : Word) (s : State) : Evolves s (seeOffered r w n s) :=
  .ite (takeAbort_evolves r s) (countCommandDiscard_evolves s)

theorem serveCommand_evolves (view : BitVec 3) (w : WordIx) (d : Word) (s : State) :
    Evolves s (serveCommand view w d s) := by
  unfold serveCommand
  dsimp only
  split
  · exact .trans (storeCommandWord_evolves _ _ s) (seeStored_evolves _ _ _)
  · exact seeOffered_evolves _ _ _ s

theorem serveImage_evolves {c : WriteCycle} {s : State} (hw : s.wmu.state = .merging c) (view : BitVec 3) (r : Row)
    (w : WordIx) (d : Word) : Evolves s (serveImage view r w d s) := by
  unfold serveImage
  dsimp only
  have written : ∀ v, Evolves s (writeMem (imageOffset r w) v s) := fun v => writeMem_evolves (imageOffset_lt_end r w)
  split
  · exact .trans (written _) (endCycle_evolves (.inl (by simp [hw])))
  · next hne =>
    exact .trans (written _) (placeOrHold_evolves (c := c) (by simpa using hw) ⟨riseBits_and_fallBits _ _, hne⟩)

/-! ## Units of the port -/

/-- The words of a status burst are those of the status row (R178). -/
theorem statusRecord_lt {s : State} {p : Nat × Word} (h : p ∈ statusRecord s) : p.1 < Config.statusBase + 32 := by
  simp only [statusRecord, List.mem_map, List.mem_range] at h
  obtain ⟨k, hk, rfl⟩ := h
  exact Nat.add_lt_add_left hk _

/-- A change of the port's requests. -/
theorem setPort_evolves (s : State) (v : PortRequests) : Evolves s (s.setPort v) := .quiet (by simp [SameCore])

theorem burstUnit_evolves (s : State) : Evolves s (burstUnit s) := by
  refine .trans (.trans ?_ (setPort_evolves _ _)) (unitEnds_evolves _ _)
  exact (Change.memory _ fun h => memory_wf_cellsWriteAll h fun _ => statusRecord_lt).evolves

theorem noticeUpdateUnit_evolves (s : State) : Evolves s (noticeUpdateUnit s) := by
  unfold noticeUpdateUnit
  have written : Evolves s (writeMem (statusOffset 0) (noticeWord s) (popThird s)) :=
    .trans (setPort_evolves s _) (writeMem_evolves (statusOffset_lt 0))
  dsimp only
  refine .trans ?_ (unitEnds_evolves _ _)
  split
  · next h => exact written.trans (Change.clearDone h).evolves
  · exact written

theorem completeCommand_evolves (s : State) : Evolves s (completeCommand s) := by
  refine .trans (.trans ?_ (raiseNotice_evolves _ _)) (requestBurst_evolves _)
  exact handler_evolves rfl

theorem commandWriteUnit_evolves (r : Running) (w : WordIx) (v : Word) (rest : List (WordIx × Word)) (s : State) :
    Evolves s (commandWriteUnit r w v rest s) := by
  unfold commandWriteUnit
  let u := storeCommandWord w v (popThird s)
  have stored : Evolves s u := .trans (setPort_evolves s _) (storeCommandWord_evolves w v (popThird s))
  have written : Evolves s (u.setCmd { u.cmd with running := some { r with writes := rest } }) :=
    stored.trans (handler_evolves rfl)
  refine .trans (.ite (.ite ?_ ?_) ?_) (unitEnds_evolves _ _)
  · exact .trans written (completeCommand_evolves _)
  · exact written
  · exact .trans written (requestCommandWrite_evolves _)

theorem serveThird_evolves (u : ThirdRank) (s : State) : Evolves s (serveThird u s) := by
  unfold serveThird
  split
  · exact noticeUpdateUnit_evolves s
  · split
    · exact commandWriteUnit_evolves _ _ _ _ s
    · exact .trans (setPort_evolves s _) (unitEnds_evolves _ _)

/-- A snapshot in progress is that of the operation in flight (R54). -/
theorem snapshotNext_eq_some {s : State} {op : RowOp} {c : Nat} (h : snapshotNext s = some (op, c)) :
    s.sched.op = some op ∧ op.cursor = some c ∧ op.stage = .snapshot ∧ c < 32 := by
  unfold snapshotNext at h
  repeat' split at h
  all_goals simp_all

theorem snapshotUnit_evolves {op : RowOp} {c : Nat} {s : State} (ho : s.sched.op = some op)
    (hc : op.cursor = some c) : Evolves s (snapshotUnit op c s) := by
  have goesOn : ∀ (m : Mask) (k : Option Nat) (b : Bool),
      Continues op { op with writeMask := m, cursor := k, asked := b } :=
    fun m k b => ⟨rfl, rfl, fun _ hn => by simp [hc] at hn⟩
  refine .trans (.ite ?_ ?_) (unitEnds_evolves _ _)
  · exact startErase_evolves ho (goesOn _ _ op.asked)
  · exact .trans (drawFree_evolves s) (setOp_evolves (op := op) (by simpa using ho) (goesOn _ _ _))

theorem askSnapshot_evolves (s : State) : Evolves s (askSnapshot s) := by
  unfold askSnapshot
  split
  · next op ho => exact .ite (setOp_evolves ho (op' := { op with asked := true }) (continues_refl op)) .refl
  · exact .refl

theorem areaWordUnit_evolves (a : AreaOp) (s : State) : Evolves s (areaWordUnit a s) := by
  refine .trans (.trans (.trans (.trans (.trans ?_ (setArea_evolves _ _)) (placeArea_evolves _ _ _ _ _ _))
    (askSnapshot_evolves _)) (areaNext_evolves _ _)) (unitEnds_evolves _ _)
  exact writeMem_evolves (imageOffset_lt_end _ _)

theorem serveLow_evolves (s : State) : Evolves s (serveLow s) := by
  unfold serveLow
  split
  · next op c a hsnap _ =>
    obtain ⟨ho, hc, -, -⟩ := snapshotNext_eq_some hsnap
    exact .ite (snapshotUnit_evolves ho hc) (areaWordUnit_evolves a s)
  · next op c hsnap _ =>
    obtain ⟨ho, hc, -, -⟩ := snapshotNext_eq_some hsnap
    exact snapshotUnit_evolves ho hc
  · exact areaWordUnit_evolves _ s
  · exact .quiet (by simp [SameCore])

theorem portGap_evolves (s : State) : Evolves s (portGap s) := by
  unfold portGap
  split
  · exact areaWordUnit_evolves _ s
  · refine .ite (.ite (burstUnit_evolves s) ?_) .refl
    split
    · exact serveThird_evolves _ s
    · exact serveLow_evolves s

/-! ## READY across the port's units -/

theorem offerHeld_ready {h : HeldChange} {s : State} (hr : s.bus.ready = true) : (offerHeld h s).bus.ready = true := by
  obtain ⟨m, -, heq⟩ | ⟨-, heq⟩ := offerHeld_cases h s <;> simp [heq, hr]

/-- The end of a hold does not take READY low. -/
theorem settleHold_ready {s : State} (hr : s.bus.ready = true) : (settleHold s).bus.ready = true := by
  obtain ⟨-, heq⟩ | ⟨h, -, ⟨-, heq⟩ | ⟨-, -, heq⟩ | ⟨-, -, heq | heq⟩⟩ := settleHold_cases s <;> rw [heq]
  · exact hr
  · rfl
  · exact offerHeld_ready hr
  · simpa using hr
  · exact offerHeld_ready (by simpa using hr)

theorem requestFull_ready {rows : RowSet} {s : State} (hr : s.bus.ready = true) :
    (requestFull rows s).bus.ready = true := by
  unfold requestFull
  split
  · exact hr
  · exact settleHold_ready (by simpa using hr)

theorem completeOp_ready {op : RowOp} {s : State} (hr : s.bus.ready = true) : (completeOp op s).bus.ready = true := by
  unfold completeOp freeTaken
  split
  · exact settleHold_ready (by simpa using hr)
  · simpa using hr

theorem startWrite_ready {op : RowOp} {s : State} (hr : s.bus.ready = true) : (startWrite op s).bus.ready = true := by
  unfold startWrite
  dsimp only
  split
  · exact completeOp_ready (by simpa using hr)
  · simpa using hr

theorem startErase_ready {op : RowOp} {s : State} (hr : s.bus.ready = true) : (startErase op s).bus.ready = true := by
  unfold startErase
  dsimp only
  split
  · exact startWrite_ready (by simpa using hr)
  · simpa using hr

theorem snapshotUnit_ready {op : RowOp} {c : Nat} {s : State} (hr : s.bus.ready = true) :
    (snapshotUnit op c s).bus.ready = true := by
  unfold snapshotUnit
  simp only [unitEnds_frame]
  split
  · exact startErase_ready hr
  · simpa using hr

theorem placeArea_ready {offer : Bool} {r : Row} {w : WordIx} {rise fall : Word} {s : State}
    (hr : s.bus.ready = true) : (placeArea offer r w rise fall s).bus.ready = true := by
  unfold placeArea
  split
  · split
    · exact settleHold_ready hr
    · exact hr
  · split
    · next hm => exact settleHold_ready (by rw [(mergeDifference_frame hm).2.2.1, hr])
    · simpa using requestFull_ready hr

theorem areaWordUnit_ready {a : AreaOp} {s : State} (hr : s.bus.ready = true) :
    (areaWordUnit a s).bus.ready = true := by
  unfold areaWordUnit
  simp only [unitEnds_frame, areaNext_frame, askSnapshot_frame]
  exact placeArea_ready (by simpa using hr)

theorem serveThird_ready {u : ThirdRank} {s : State} (hr : s.bus.ready = true) :
    (serveThird u s).bus.ready = true := by
  unfold serveThird
  split
  · unfold noticeUpdateUnit
    simp only [unitEnds_frame]
    split
    · rfl
    · simpa using hr
  · split <;> simpa using hr

theorem serveLow_ready {s : State} (hr : s.bus.ready = true) : (serveLow s).bus.ready = true := by
  unfold serveLow
  split
  · split
    · exact snapshotUnit_ready hr
    · exact areaWordUnit_ready hr
  · exact snapshotUnit_ready hr
  · exact areaWordUnit_ready hr
  · exact hr

/-- What the port grants before a cycle of the processor leaves READY high (R17). -/
theorem portGap_ready {s : State} (hr : s.bus.ready = true) : (portGap s).bus.ready = true := by
  unfold portGap
  split
  · exact areaWordUnit_ready hr
  · split
    · split
      · simpa using hr
      · split
        · exact serveThird_ready hr
        · exact serveLow_ready hr
    · exact hr

/-! ## The processor's cycles -/

/-- A step of the processor's bus happens with READY high alone (R4, R9). -/
theorem busStep_eq_next {s t : State} {after : Option State} :
    busStep s after = .next t ↔ s.bus.ready = true ∧ after = some t := by
  unfold busStep
  cases s.bus.ready <;> cases after <;> simp

theorem acceptWrite_evolves {c : WriteCycle} {s : State} (h : s.bus.ready = true) : Evolves s (acceptWrite c s) :=
  .trans (noteFirst_evolves s) (Change.writeAccepted c (by simpa using h)).evolves

/-- A cycle that writes a command word is served after what the port grants first (R17). -/
theorem servedCommand_evolves (v : BitVec 3) (w : WordIx) (d : Word) (s : State) :
    Evolves s (cycleServed (serveCommand v w d (noteFirst (portGap s)))) :=
  .trans (.trans (.trans (portGap_evolves s) (noteFirst_evolves _)) (serveCommand_evolves v w d _))
    (cycleServed_evolves _)

/-- The effect of a posting row: the write is served to the Command Row Handler. -/
theorem postingOf_eq_some {p : Byte → Bool} {a : BusAddr} {d : Word} {s t : State}
    (h : postingOf p a d s = some t) :
    ∃ v, decodeIn s a = .aperture v (.command 0) ∧ privilegedView v = true ∧
      p (highByte (commandResult (portGap s) v 0 d)) = true ∧
      t = cycleServed (serveCommand v 0 d (noteFirst (portGap s))) := by
  unfold postingOf at h
  split at h
  · next v w hdec =>
    dsimp only at h
    split at h <;> cases h
    next hc =>
    simp only [Bool.and_eq_true, beq_iff_eq] at hc
    obtain ⟨⟨hview, rfl⟩, hp⟩ := hc
    exact ⟨v, hdec, hview, hp, rfl⟩
  · cases h

theorem posting_evolves {p : Byte → Bool} {a : BusAddr} {d : Word} {s t : State}
    (h : busStep s (postingOf p a d s) = .next t) : Evolves s t := by
  obtain ⟨-, h⟩ := busStep_eq_next.1 h
  obtain ⟨v, -, -, -, rfl⟩ := postingOf_eq_some h
  exact servedCommand_evolves v 0 d s

theorem serveRead_evolves (off : Nat) (s : State) : Evolves s (serveRead off s) :=
  .quiet (by simp [SameCore, serveRead, returnWord])

theorem execProcessorRead_evolves {a : BusAddr} {s t : State} (h : execProcessorRead a s = .next t) :
    Evolves s t := by
  obtain ⟨-, h⟩ := busStep_eq_next.1 h
  split at h <;> cases h <;> exact .trans (portGap_evolves s) (serveRead_evolves _ _)

theorem execImageWordWrite_evolves {a : BusAddr} {d : Word} {s t : State}
    (h : execImageWordWrite a d s = .next t) : Evolves s t := by
  obtain ⟨hr, h⟩ := busStep_eq_next.1 h
  have accepts : ∀ c, Evolves s (acceptWrite c (portGap s)) :=
    fun c => .trans (portGap_evolves s) (acceptWrite_evolves (portGap_ready hr))
  split at h
  · split at h <;> cases h
    · exact countProtected_evolves s
    · exact accepts _
  · split at h <;> cases h
    · exact accepts _
    · exact countProtected_evolves s
  · split at h <;> cases h
    exact countProtected_evolves s
  · cases h

theorem execReadCombineWrite_evolves {s t : State} (h : execReadCombineWrite s = .next t) : Evolves s t := by
  unfold execReadCombineWrite at h
  split at h
  · next c hw =>
    split at h <;> cases h
    · exact .trans (serveImage_evolves hw _ _ _ _) (cycleServed_evolves _)
    · exact .trans (.trans (endCycle_evolves (.inl (by simp [hw]))) (serveCommand_evolves _ _ _ _))
        (cycleServed_evolves _)
  · cases h

theorem execApertureWrite_evolves {a : BusAddr} {d : Word} {s t : State}
    (h : execApertureWrite a d s = .next t) : Evolves s t := by
  obtain ⟨-, h⟩ := busStep_eq_next.1 h
  split at h
  · split at h
    · cases h
      exact countProtected_evolves s
    · dsimp only at h
      split at h <;> cases h
      exact servedCommand_evolves _ _ _ s
  · split at h <;> cases h
    exact countProtected_evolves s
  · cases h

theorem execSetupSequenceWrite_evolves {a : BusAddr} {d : Word} {s t : State}
    (h : execSetupSequenceWrite a d s = .next t) : Evolves s t := by
  obtain ⟨-, h⟩ := busStep_eq_next.1 h
  split at h
  · split at h
    · split at h <;> cases h
      · exact servedCommand_evolves _ _ _ s
      · exact countProtected_evolves s
    · cases h
  · cases h

theorem clearNotices_evolves {d : Word} {s : State} (hr : s.bus.ready = true) : Evolves s (clearNotices d s) := by
  unfold clearNotices
  dsimp only
  split
  · exact .refl
  · exact .trans (.trans (Change.notices _).evolves (requestThird_evolves _ _))
      (Change.clearBegun (by simpa [requestNoticeUpdate] using hr)).evolves

theorem execNoticeClear_evolves {a : BusAddr} {d : Word} {s t : State}
    (h : execNoticeClear a d s = .next t) : Evolves s t := by
  obtain ⟨hr, h⟩ := busStep_eq_next.1 h
  split at h
  · split at h <;> cases h
    exact clearNotices_evolves hr
  · cases h

/-! ## The other rows of the table -/

theorem execHoldExpiry_evolves {s t : State} (h : execHoldExpiry s = .next t) : Evolves s t := by
  unfold execHoldExpiry at h
  split at h
  · next hw =>
    obtain ⟨-, rfl⟩ := stepWhen_eq_next.1 h
    exact degradeHeld_evolves (by simp [hw])
  · cases h

theorem execStoreEraseEnd_evolves {s t : State} (h : execStoreEraseEnd s = .next t) : Evolves s t := by
  unfold execStoreEraseEnd at h
  split at h
  · obtain ⟨-, rfl⟩ := stepWhen_eq_next.1 h
    exact .trans (Change.storeWords _ .none fun hs => cellsWf_filter _ hs).evolves (finishCommand_evolves _ _ _)
  · cases h

theorem execStoreWriteEnd_evolves {s t : State} (h : execStoreWriteEnd s = .next t) : Evolves s t := by
  unfold execStoreWriteEnd at h
  split at h
  · obtain ⟨-, rfl⟩ := stepWhen_eq_next.1 h
    exact .trans (Change.storeWords _ .none fun hs => cellsWf_write _ _ hs).evolves (finishCommand_evolves _ _ _)
  · cases h

theorem execCommandRowWordWrite_evolves {s t : State} (h : execCommandRowWordWrite s = .next t) : Evolves s t := by
  unfold execCommandRowWordWrite at h
  split at h
  · obtain ⟨-, rfl⟩ := stepWhen_eq_next.1 h
    exact commandWriteUnit_evolves _ _ _ _ s
  · cases h

theorem execBurstTimerExpiry_evolves {s t : State} (h : execBurstTimerExpiry s = .next t) : Evolves s t := by
  obtain ⟨-, rfl⟩ := stepWhen_eq_next.1 h
  refine .trans ?_ (requestBurst_evolves _)
  exact counted_evolves rfl rfl

theorem execAreaWord_evolves {s t : State} (h : execAreaWord s = .next t) : Evolves s t := by
  unfold execAreaWord at h
  split at h
  · obtain ⟨-, rfl⟩ := stepWhen_eq_next.1 h
    exact areaWordUnit_evolves _ s
  · cases h

theorem takeResync_evolves {s : State} (ho : s.sched.op = none) (hr : recordless s.seq.state = false) :
    Evolves s (takeWork.takeResync s) := by
  unfold takeWork.takeResync
  split
  · next r _ =>
    let op := if hasRow s.sets.full r then resyncOp .full r (presentColumns s) else resyncOp .fill r 0
    have hk : op.kind ≠ .delta := by
      simp only [op]
      split <;> simp [resyncOp]
    exact .trans (noteFirst_evolves s) (Change.rowTaken (s := noteFirst s) r (r + 1) op
      { s.sched with runCount := 0, op := some op } (by simpa using ho) (by simpa using hr) hk rfl).evolves
  · exact .refl

theorem takeEntry_evolves {e : Entry} {rest : List Entry} {s : State} (ho : s.sched.op = none)
    (hr : recordless s.seq.state = false) (hq : s.table.ageQueue = e :: rest) : Evolves s (takeEntry e rest s) :=
  .trans (Change.entryTaken e rest
    { s.sched with runCount := min 15 (s.sched.runCount + 1), op := some (deltaOp e) } ho hr hq rfl).evolves
    (startErase_evolves (op := deltaOp e) rfl (continues_refl _))

theorem execSchedulerTake_evolves {s t : State} (h : execSchedulerTake s = .next t) : Evolves s t := by
  obtain ⟨hdue, rfl⟩ := stepWhen_eq_next.1 h
  simp only [takeDue, Bool.and_eq_true, Bool.not_eq_true', Option.isNone_iff_eq_none] at hdue
  obtain ⟨⟨⟨⟨hr, -⟩, ho⟩, -⟩, -⟩ := hdue
  unfold takeWork
  split
  · next e rest hq => exact .ite (takeEntry_evolves ho hr hq) (takeResync_evolves ho hr)
  · exact takeResync_evolves ho hr

theorem execSnapshotWordRead_evolves {s t : State} (h : execSnapshotWordRead s = .next t) : Evolves s t := by
  unfold execSnapshotWordRead at h
  split at h
  · next op c hsnap =>
    obtain ⟨-, rfl⟩ := stepWhen_eq_next.1 h
    obtain ⟨ho, hc, -, -⟩ := snapshotNext_eq_some hsnap
    exact snapshotUnit_evolves ho hc
  · cases h

/-- A message ends only as a link fault or with its outcome (R79 to R83). -/
theorem messageEnds_eq_next {purpose : Purpose} {idle : IdleCheck} {samples : List (BitVec 9)} {s t : State}
    (h : messageEnds purpose idle samples s = .next t) :
    ∃ m, s.link.message = some m ∧ m.purpose = purpose ∧
      (t = linkFault s ∨ ∃ scan, messageOutcome m scan s = some t) := by
  unfold messageEnds at h
  split at h
  · next m hm =>
    split at h
    · cases h
    · next hp =>
      refine ⟨m, hm, not_not.1 hp, ?_⟩
      split at h
      · cases h
      · split at h
        · obtain ⟨-, rfl⟩ := stepWhen_eq_next.1 h
          exact .inl rfl
        · split at h
          · next scan _ =>
            split at h
            · split at h <;> cases h
              next ho => exact .inr ⟨scan, ho⟩
            · cases h
          · cases h
  · cases h

theorem messageEnds_evolves {purpose : Purpose} {idle : IdleCheck} {samples : List (BitVec 9)} {s t : State}
    (h : messageEnds purpose idle samples s = .next t) : Evolves s t := by
  obtain ⟨m, -, -, rfl | ⟨scan, ho⟩⟩ := messageEnds_eq_next h
  · exact linkFault_evolves s
  · exact messageOutcome_evolves ho

theorem recoveryFails_evolves (s : State) : Evolves s (recoveryFails s) := setLink_evolves s _

theorem recoveryPasses_evolves (s : State) : Evolves s (recoveryPasses s) :=
  .trans (setLink_evolves s _) (linkNext_evolves _)

theorem execStretchExpiry_evolves {place : StretchPlace} {s t : State} (h : execStretchExpiry place s = .next t) :
    Evolves s t := by
  unfold execStretchExpiry at h
  split at h
  · obtain ⟨-, rfl⟩ := stepWhen_eq_next.1 h
    exact linkFault_evolves s
  · split at h
    · obtain ⟨-, rfl⟩ := stepWhen_eq_next.1 h
      exact stretchOutcome_evolves _ _ _ s
    · cases h
  · obtain ⟨-, rfl⟩ := stepWhen_eq_next.1 h
    exact recoveryFails_evolves s
  · cases h

theorem execRecoveryTimerExpiry_evolves {s t : State} (h : execRecoveryTimerExpiry s = .next t) : Evolves s t := by
  obtain ⟨-, rfl⟩ := stepWhen_eq_next.1 h
  exact .ite (setLink_evolves s _) (.trans (setLink_evolves s _) (beginRecovery_evolves _))

theorem execRecoveryAttempt_evolves {idle : IdleCheck} {high : Bool} {s t : State}
    (h : execRecoveryAttempt idle high s = .next t) : Evolves s t := by
  unfold execRecoveryAttempt at h
  split at h
  · cases h
  · obtain ⟨-, rfl⟩ := stepWhen_eq_next.1 h
    exact .ite (recoveryPasses_evolves s) (recoveryFails_evolves s)

theorem execPeriodEnd_evolves {s t : State} (h : execPeriodEnd s = .next t) : Evolves s t := by
  unfold execPeriodEnd at h
  split at h
  · obtain ⟨hdue, rfl⟩ := stepWhen_eq_next.1 h
    simp only [Bool.and_eq_true, beq_iff_eq] at hdue
    exact endPeriod_evolves hdue.1.1
  · cases h

theorem markStrobe_evolves {p : Period} {s : State} (hp : s.period.current = some p) : Evolves s (markStrobe p s) :=
  (Change.periodMarked { p with strobed := true } s.period.clearPulse hp rfl).evolves

theorem afterStrobe_evolves {op : RowOp} {s : State} (ho : s.sched.op = some op) : Evolves s (afterStrobe op s) :=
  .ite (returnOp_evolves ho rfl rfl fun _ => ⟨rfl, rfl⟩) (phaseDone_evolves ho (continues_refl op))

theorem execStrobe_evolves {s t : State} (h : execStrobe s = .next t) : Evolves s t := by
  obtain ⟨p, op, hp, ho, hl, -, -, rfl⟩ := execStrobe_next h
  let u := strobeColumns op.row (workingPhase op).1 (markStrobe p s)
  have pulsed : Evolves s u :=
    .trans (.trans (markStrobe_evolves hp) (drivePanel_evolves _ _ _)) (setLatches_evolves _ _)
  have applied : Evolves u (u.setLit (applyPhase op u.lit)) := (Change.phaseApplied op (by simpa [u] using hl)).evolves
  exact .trans (pulsed.trans applied) (afterStrobe_evolves (by simpa [u] using ho))

theorem execGlobalEraseStrobe_evolves {s t : State} (h : execGlobalEraseStrobe s = .next t) : Evolves s t := by
  unfold execGlobalEraseStrobe at h
  split at h
  · next p hp _ =>
    obtain ⟨-, rfl⟩ := stepWhen_eq_next.1 h
    refine .trans (.trans (.trans (.trans (markStrobe_evolves hp) (noRecord_evolves _)) (panelDark_evolves _)) ?_)
      (finishCommand_evolves _ _ _)
    exact .quiet (by simp [SameCore])
  · next p hp _ =>
    obtain ⟨-, rfl⟩ := stepWhen_eq_next.1 h
    exact .trans (markStrobe_evolves hp) (panelDark_evolves _)
  · cases h

theorem execDriverClearPulse_evolves {s t : State} (h : execDriverClearPulse s = .next t) : Evolves s t := by
  obtain ⟨-, rfl⟩ := stepWhen_eq_next.1 h
  exact .quiet (by simp [SameCore])

theorem execClearPulseEnd_evolves {s t : State} (h : execClearPulseEnd s = .next t) : Evolves s t := by
  unfold execClearPulseEnd at h
  split at h
  · obtain ⟨-, rfl⟩ := stepWhen_eq_next.1 h
    have emptied : ∀ c, Evolves s ((s.setLatches { cols := 0, writePhase := 0 }).setPeriod
        { s.period with clearPulse := c }) := fun c => .quiet (by simp [SameCore])
    unfold endClear
    by_cases hp : s.seq.state = .priming
    · have hl : s.seq.state ≠ .lit := by simp [hp]
      exact .ite (.trans (emptied _) (beginPeriod_evolves (.inr (.inr hl)))) (emptied _)
    · simpa [hp] using emptied _
  · cases h

theorem execPrimingEraseEnd_evolves {s t : State} (h : execPrimingEraseEnd s = .next t) : Evolves s t := by
  unfold execPrimingEraseEnd at h
  split at h
  · obtain ⟨-, rfl⟩ := stepWhen_eq_next.1 h
    exact .trans (panelDark_evolves s) (enterLit_evolves _)
  · cases h

/-- A change of the converter alone. -/
theorem setSense_evolves (s : State) (v : SenseConverter) : Evolves s (s.setSense v) := .quiet (by simp [SameCore])

theorem execSampleInstant_evolves {level : Int} {s t : State} (h : execSampleInstant level s = .next t) :
    Evolves s t := by
  unfold execSampleInstant at h
  split at h
  · next p hp =>
    obtain ⟨-, rfl⟩ := stepWhen_eq_next.1 h
    have marked := (Change.periodMarked { p with sampled := true } s.period.clearPulse hp rfl).evolves
    unfold takeSample
    dsimp only
    split <;> exact .trans marked (setSense_evolves _ _)
  · cases h

theorem execConversionCompletion_evolves {s t : State} (h : execConversionCompletion s = .next t) : Evolves s t := by
  unfold execConversionCompletion at h
  split at h
  · obtain ⟨-, rfl⟩ := stepWhen_eq_next.1 h
    refine .ite (.trans (setSense_evolves s _) (.ite (setSense_evolves _ _) .refl))
      (.trans (setSense_evolves s _) (.ite (.ite ?_ (setSense_evolves _ _)) (setSense_evolves _ _)))
    exact .trans (.trans (setSense_evolves _ _) (raiseNotice_evolves _ _)) (requestFull_evolves _ _)
  · cases h

theorem sampleSupply_evolves (level filtered : Bool) (run : Nat) (s : State) :
    Evolves s (sampleSupply level filtered run s) := .quiet (by simp [SameCore, sampleSupply])

@[simp] theorem sampleSupply_state (level filtered : Bool) (run : Nat) (s : State) :
    (sampleSupply level filtered run s).seq.state = s.seq.state := rfl

theorem execGoodHigh_evolves {s t : State} (h : execGoodHigh s = .next t) : Evolves s t := by
  obtain ⟨-, rfl⟩ := stepWhen_eq_next.1 h
  unfold goodHighEffect
  refine .trans (sampleSupply_evolves true true 0 s) ?_
  dsimp only
  split
  · exact judgeDark_evolves _
  · exact setSeq_evolves (by simp) (by simp [recordless])
  · exact .refl

theorem execGoodLow_evolves {s t : State} (h : execGoodLow s = .next t) : Evolves s t := by
  obtain ⟨-, rfl⟩ := stepWhen_eq_next.1 h
  unfold goodLowEffect
  refine .trans (sampleSupply_evolves false false 0 s) ?_
  dsimp only
  split
  · refine .trans ?_ (leaveLit_evolves _)
    exact setSeq_evolves (by simp) (by simp [recordless])
  · exact setSeq_evolves (by simp) (by simp [recordless])
  · next hs => exact enterDark_evolves (by rw [hs]; rfl)
  · next hs => exact .trans (endPriming_evolves _) (enterDark_evolves (by simp only [endPriming_frame, hs]; rfl))
  · exact .refl

theorem execSettleLimitReached_evolves {s t : State} (h : execSettleLimitReached s = .next t) : Evolves s t := by
  unfold execSettleLimitReached at h
  split at h
  · next hs =>
    obtain ⟨-, rfl⟩ := stepWhen_eq_next.1 h
    exact enterPriming_evolves (by rw [hs]; rfl)
  · obtain ⟨-, rfl⟩ := stepWhen_eq_next.1 h
    exact endGap_evolves s
  · cases h

theorem execLossLimitReached_evolves {s t : State} (h : execLossLimitReached s = .next t) : Evolves s t := by
  unfold execLossLimitReached at h
  split at h
  · obtain ⟨-, rfl⟩ := stepWhen_eq_next.1 h
    exact lossInGap_evolves s
  · obtain ⟨-, rfl⟩ := stepWhen_eq_next.1 h
    exact lossInResuming_evolves s
  · cases h

theorem execSupplyGoodSample_evolves {level : Bool} {s t : State} (h : execSupplyGoodSample level s = .next t) :
    Evolves s t := by
  unfold execSupplyGoodSample at h
  split at h
  · cases h
  · split at h
    · cases h
      exact sampleSupply_evolves _ _ _ s
    · split at h <;> cases h
      exact sampleSupply_evolves _ _ _ s

theorem execPassThroughCycle_evolves {a : BusAddr} {c : SideCycle} {s t : State}
    (h : execPassThroughCycle a c s = .next t) : Evolves s t := by
  obtain ⟨-, h⟩ := busStep_eq_next.1 h
  split at h <;> cases h
  exact .quiet (by simp [SameCore, sideCycle])

theorem execVoidAccess_evolves {a : BusAddr} {c : VoidCycle} {s t : State} (h : execVoidAccess a c s = .next t) :
    Evolves s t := by
  obtain ⟨-, h⟩ := busStep_eq_next.1 h
  split at h <;> cases h
  · exact .quiet (by simp [SameCore, returnWord])
  · exact .refl

/-! ## Every step -/

/-- Every row of the table is a chain of changes. -/
theorem exec_evolves {i : Instr} {s t : State} (h : exec i s = .next t) : Evolves s t := by
  cases i with
  | reset sources =>
    cases h
    exact (Change.resets sources).evolves
  | passThroughCycle a c => exact execPassThroughCycle_evolves h
  | voidAccess a c => exact execVoidAccess_evolves h
  | processorRead a => exact execProcessorRead_evolves h
  | imageWordWrite a d => exact execImageWordWrite_evolves h
  | readCombineWrite => exact execReadCombineWrite_evolves h
  | holdExpiry => exact execHoldExpiry_evolves h
  | apertureWrite a d => exact execApertureWrite_evolves h
  | setupSequenceWrite a d => exact execSetupSequenceWrite_evolves h
  | noticeClear a d => exact execNoticeClear_evolves h
  | repaint a d | clearAndRepaint a d | area a d | blank a d | unblank a d | probe a d | abort a d
  | storeRead a d | storeErase a d | storeWrite a d | settingsApply a d | badCode a d => exact posting_evolves h
  | storeEraseEnd => exact execStoreEraseEnd_evolves h
  | storeWriteEnd => exact execStoreWriteEnd_evolves h
  | commandRowWordWrite => exact execCommandRowWordWrite_evolves h
  | noticeWordUpdate => exact (stepWhen_eq_next.1 h).2 ▸ noticeUpdateUnit_evolves s
  | statusBurst => exact (stepWhen_eq_next.1 h).2 ▸ burstUnit_evolves s
  | burstTimerExpiry => exact execBurstTimerExpiry_evolves h
  | areaWord => exact execAreaWord_evolves h
  | schedulerTake => exact execSchedulerTake_evolves h
  | snapshotWordRead => exact execSnapshotWordRead_evolves h
  | loadMessage idle samples => exact messageEnds_evolves h
  | probeMessage idle samples => exact messageEnds_evolves h
  | stretchExpiry place => exact execStretchExpiry_evolves h
  | recoveryTimerExpiry => exact execRecoveryTimerExpiry_evolves h
  | recoveryAttempt idle high => exact execRecoveryAttempt_evolves h
  | periodEnd => exact execPeriodEnd_evolves h
  | strobe => exact execStrobe_evolves h
  | globalEraseStrobe => exact execGlobalEraseStrobe_evolves h
  | driverClearPulse => exact execDriverClearPulse_evolves h
  | clearPulseEnd => exact execClearPulseEnd_evolves h
  | primingEraseEnd => exact execPrimingEraseEnd_evolves h
  | sampleInstant level => exact execSampleInstant_evolves h
  | conversionCompletion => exact execConversionCompletion_evolves h
  | goodHigh => exact execGoodHigh_evolves h
  | goodLow => exact execGoodLow_evolves h
  | settleLimitReached => exact execSettleLimitReached_evolves h
  | lossLimitReached => exact execLossLimitReached_evolves h
  | supplyGoodSample level => exact execSupplyGoodSample_evolves h

/-- A tick changes no state that the laws speak of but the tick of the current period. -/
theorem tick_evolves (s : State) : Evolves s (tick s) := by
  have ticked : Evolves s (s.setPeriod (tickPeriod s.period)) := by
    cases hp : s.period.current with
    | none => exact .quiet (by simp [SameCore, tickPeriod, hp])
    | some p =>
      have heq : tickPeriod s.period =
          { s.period with current := some { p with tick := p.tick + 1 }
                          clearPulse := (tickPeriod s.period).clearPulse } := by
        simp [tickPeriod, hp]
      rw [heq]
      exact (Change.periodMarked { p with tick := p.tick + 1 } _ hp rfl).evolves
  refine ticked.trans (.quiet ?_)
  have hwmu : (tickWmu s.wmu).state = s.wmu.state := by
    unfold tickWmu
    split <;> rfl
  simp [SameCore, hwmu, tickSeq, tickNotice, tickStore]

/-- What a list of commands answers first is what one of them answers. -/
theorem firstStep_eq_some {s t : State} {l : List Instr} (h : firstStep s l = some t) :
    ∃ c ∈ l, exec c s = .next t := by
  induction l with
  | nil => cases h
  | cons c l ih =>
    unfold firstStep at h
    split at h
    · next hc =>
      cases h
      exact ⟨c, by simp, hc⟩
    · obtain ⟨c', hmem, hc'⟩ := ih h
      exact ⟨c', by simp [hmem], hc'⟩

/-- A step is a command's effect, with the command taken from the queue or an event of the block's own, or a tick. -/
theorem step_cases {s t : State} (h : step s = .next t) :
    (∃ i rest, s.pending = i :: rest ∧ exec i (s.setPending rest) = .next t) ∨
      s.pending = [] ∧ ((∃ i ∈ ownEvents s, exec i s = .next t) ∨ t = tick s) := by
  unfold step at h
  split at h
  · next i rest hp => exact .inl ⟨i, rest, hp, h⟩
  · next hp =>
    cases h
    refine .inr ⟨hp, ?_⟩
    unfold idleStep
    split
    · next hf => exact .inl (firstStep_eq_some hf)
    · exact .inr rfl

/-- Every step is a chain of changes. -/
theorem step_evolves {s t : State} (h : step s = .next t) : Evolves s t := by
  obtain ⟨i, rest, -, hi⟩ | ⟨-, ⟨i, -, hi⟩ | rfl⟩ := step_cases h
  · exact .trans (.quiet (by simp [SameCore])) (exec_evolves hi)
  · exact exec_evolves hi
  · exact tick_evolves s

end Sys2Proof.Machine
end

