-- ==== Sys2Proof/Proofs/TableLaws.lean ====
section
/-! PROOFS. The first, the second and the third law (R19, R20, R45): each change keeps them, and so every step. -/

namespace Sys2Proof.Machine

open Safety

/-! ## Entries and rows -/

@[simp] theorem applyActions_row (e : Entry) (light dark : Mask) : (applyActions e light dark).row = e.row := rfl

theorem openEntry_eq_some {t : ChangeTable} {r : Row} {e : Entry} (h : openEntry t r = some e) :
    e ∈ t.ageQueue ∧ e.row = r :=
  ⟨List.mem_of_find?_eq_some h, by simpa using List.find?_some h⟩

theorem openEntry_eq_none {t : ChangeTable} {r : Row} : openEntry t r = none ↔ ∀ e ∈ t.ageQueue, e.row ≠ r := by
  simp [openEntry]

/-- The entry a merge-back works on is that of its row (R39). -/
theorem openEntry_getD_row (t : ChangeTable) (r : Row) :
    ((openEntry t r).getD { row := r, setMask := 0, clearMask := 0 }).row = r := by
  cases h : openEntry t r with
  | none => rfl
  | some e => exact (openEntry_eq_some h).2

theorem mem_dropRow {q : List Entry} {r : Row} {e : Entry} : e ∈ dropRow q r ↔ e ∈ q ∧ e.row ≠ r := by
  simp [dropRow]

theorem mem_dropRows {q : List Entry} {rows : RowSet} {e : Entry} :
    e ∈ dropRows q rows ↔ e ∈ q ∧ hasRow rows e.row = false := by
  simp [dropRows]

/-- Replacing an entry by another of its row leaves the rows of the queue. -/
theorem rows_replace {q : List Entry} {r : Row} {e' : Entry} (h : e'.row = r) :
    (q.map (fun x => if x.row == r then e' else x)).map (·.row) = q.map (·.row) := by
  rw [List.map_map]
  refine List.map_congr_left fun x _ => ?_
  by_cases hx : x.row = r <;> simp [hx, h]

theorem mem_replace {q : List Entry} {r : Row} {e' x : Entry}
    (h : x ∈ q.map (fun x => if x.row == r then e' else x)) : x = e' ∨ x ∈ q := by
  obtain ⟨y, hy, rfl⟩ := List.mem_map.1 h
  split
  · exact .inl rfl
  · exact .inr hy

theorem slotsInUse_le (t : ChangeTable) : slotsInUse { t with taken := none } ≤ slotsInUse t :=
  Nat.add_le_add_left (Nat.zero_le _) _

theorem addFull_queue (rows : RowSet) (s : State) :
    (addFull rows s).table.ageQueue = s.table.ageQueue ∨
      (addFull rows s).table.ageQueue = dropRows s.table.ageQueue (rows &&& ~~~s.sets.full) := by
  obtain ⟨-, heq⟩ | ⟨-, -, -, hq⟩ := addFull_cases rows s
  · exact .inl (by rw [heq])
  · exact .inr hq

/-! ## The first law -/

/-- The rows of the OPEN entries are those of a part of the queue before, as where entries are freed. -/
theorem firstLaw_of_sublist {s t : State} (h : FirstLaw s) (hq : t.table.ageQueue.Sublist s.table.ageQueue)
    (ht : t.table.taken = s.table.taken) (ho : t.sched.op = s.sched.op) : FirstLaw t := by
  obtain ⟨hslots, hrows, htaken⟩ := h
  refine ⟨?_, (hq.map _).nodup hrows, ?_⟩
  · have := hq.length_le
    simp only [slotsInUse, ht] at hslots ⊢
    omega
  · simpa only [TakenMatches, ht, ho] using htaken

/-- A merge makes at most one entry, in a free slot and for a row without one (R25 to R28). -/
theorem firstLaw_of_merge {s t : State} {r : Row} {w : WordIx} {rise fall : Word} (h : FirstLaw s)
    (hm : mergeDifference r w rise fall s = some t) : FirstLaw t := by
  obtain ⟨-, rfl⟩ | ⟨-, e, e', he, rfl, ⟨-, rfl⟩ | ⟨-, rfl⟩⟩ | ⟨-, hnone, hfree, rfl⟩ := mergeDifference_cases hm
  · exact h
  · exact firstLaw_of_sublist h (by simp [dropRow]) (by simp) (by simp)
  · obtain ⟨hslots, hrows, htaken⟩ := h
    refine ⟨by simpa [slotsInUse] using hslots, ?_, by simpa using htaken⟩
    simp only [State.setTable_table]
    rwa [rows_replace (e' := applyActions e _ _) (openEntry_eq_some he).2]
  · obtain ⟨hslots, hrows, htaken⟩ := h
    refine ⟨?_, ?_, by simpa using htaken⟩
    · have hnew : slotsInUse { s.table with ageQueue := s.table.ageQueue ++
          [{ row := r, setMask := wordCells w rise, clearMask := wordCells w fall }] } = slotsInUse s.table + 1 := by
        simp only [slotsInUse, List.length_append, List.length_singleton]
        omega
      exact hnew ▸ hfree
    · simp only [State.setTable_table, List.map_append, List.map_singleton]
      refine List.nodup_append.2 ⟨hrows, by simp, ?_⟩
      rintro x hx y hy rfl
      obtain ⟨e, he, rfl⟩ := List.mem_map.1 hx
      exact openEntry_eq_none.1 hnone e he (by simpa using hy)

/-- With its DELTA the TAKEN entry goes, and its slot is there for the entry that comes back (R37 to R41). -/
theorem firstLaw_of_return {s : State} {op : RowOp} {writes erases : Mask} (h : FirstLaw s)
    (ho : s.sched.op = some op) (hk : op.kind = .delta) :
    FirstLaw ((setOp none s).setTable (mergedBack op.row writes erases s)) := by
  obtain ⟨hslots, hrows, htaken⟩ := h
  have hsome : s.table.taken.isSome = true := by
    rw [ho] at htaken
    exact Option.isSome_of_mem (Option.map_eq_some_iff.1 (by simpa [TakenMatches, hk] using htaken)).choose_spec.1
  have hlen : s.table.ageQueue.length + 1 ≤ Config.slots := by simpa [slotsInUse, hsome] using hslots
  have hdrop : (dropRow s.table.ageQueue op.row).length ≤ s.table.ageQueue.length := List.length_filter_le _ _
  unfold mergedBack
  dsimp only
  split
  · exact ⟨by simp [slotsInUse]; omega, hrows, rfl⟩
  · split
    · exact ⟨by simp [slotsInUse]; omega, List.Nodup.sublist (List.filter_sublist.map _) hrows, rfl⟩
    · refine ⟨by simp [slotsInUse]; omega, ?_, rfl⟩
      simp only [State.setTable_table, List.map_cons, applyActions_row, openEntry_getD_row]
      refine List.nodup_cons.2 ⟨?_, List.Nodup.sublist (List.filter_sublist.map _) hrows⟩
      rw [List.mem_map]
      rintro ⟨e, he, hrow⟩
      exact (mem_dropRow.1 he).2 hrow

theorem firstLaw_of_change {s t : State} (c : Change s t) (h : FirstLaw s) : FirstLaw t := by
  cases c with
  | quiet hc =>
    obtain ⟨-, -, -, -, ht, -, ho, -⟩ := hc
    simpa only [FirstLaw, ht, ho] using h
  | merged hm _ => exact firstLaw_of_merge h hm
  | fullAdded rows =>
    refine firstLaw_of_sublist h ?_ (by simp) (by simp)
    obtain hq | hq := addFull_queue rows s <;> simp [hq, dropRows]
  | fillAdded r _ => exact firstLaw_of_sublist h (by simp [dropRow]) rfl rfl
  | rowTaken r cursor op d ho _ hk hd =>
    obtain ⟨hslots, hrows, htaken⟩ := h
    exact ⟨hslots, hrows, by simpa [TakenMatches, ho, hd, hk] using htaken⟩
  | entryTaken e rest d ho _ hq hd =>
    obtain ⟨hslots, hrows, htaken⟩ := h
    rw [ho] at htaken
    rw [hq] at hrows
    refine ⟨by simpa [slotsInUse, hq, show s.table.taken = none from htaken] using hslots,
      (List.nodup_cons.1 hrows).2, ?_⟩
    simp [TakenMatches, hd, deltaOp]
  | opGoesOn op' ho hc =>
    obtain ⟨hslots, hrows, htaken⟩ := h
    exact ⟨hslots, hrows, by simpa [TakenMatches, ho, setOp, hc.1, hc.2.1] using htaken⟩
  | opEnds ho =>
    next op =>
    obtain ⟨hslots, hrows, htaken⟩ := h
    rw [ho] at htaken
    cases hk : op.kind with
    | delta => exact ⟨(slotsInUse_le s.table).trans hslots, hrows, rfl⟩
    | full | fill => exact ⟨hslots, hrows, by simpa [opEnded, setOp, TakenMatches, hk] using htaken⟩
  | opReturned writes erases ho hk _ _ => exact firstLaw_of_return h ho hk
  | cleared | resets => exact ⟨Nat.zero_le _, List.nodup_nil, rfl⟩
  | _ => simpa [FirstLaw] using h

/-! ## The second law -/

theorem getLsbD_and_eq_zero {n : Nat} {a b : BitVec n} (h : a &&& b = 0) (i : Nat) :
    (a.getLsbD i && b.getLsbD i) = false := by
  rw [← BitVec.getLsbD_and, h]
  simp

theorem emptyEntry_iff (e : Entry) : emptyEntry e = true ↔ e.setMask = 0 ∧ e.clearMask = 0 := by
  simp [emptyEntry]

/-- Actions with no cell in common, applied to an entry, leave an entry that keeps the second law if not empty. -/
theorem entryLaw_applyActions {e : Entry} {light dark : Mask} (he : e.setMask &&& e.clearMask = 0)
    (hd : light &&& dark = 0) (hne : emptyEntry (applyActions e light dark) = false) :
    EntryLaw (applyActions e light dark) :=
  ⟨applyActions_disjoint he hd, fun h => by simp [(emptyEntry_iff _).2 h] at hne⟩

theorem entryLaw_of_none {t : ChangeTable} (h : t.taken = none) (e : Entry) (he : t.taken = some e) : EntryLaw e := by
  rw [h] at he
  cases he

theorem secondLaw_of_merge {s t : State} {r : Row} {w : WordIx} {rise fall : Word} (h : SecondLaw s)
    (hm : mergeDifference r w rise fall s = some t) (hd : DifferenceFits r w rise fall s) : SecondLaw t := by
  obtain ⟨hopen, htaken, hheld, hdelta⟩ := h
  obtain ⟨hdisj, hne⟩ : rise &&& fall = 0 ∧ ¬ (rise = 0 ∧ fall = 0) := by
    obtain hw | hd := hd
    · simpa [HeldLaw, hw] using hheld
    · exact hd
  have hcells : wordCells w rise &&& wordCells w fall = 0 := by rw [wordCells_and, hdisj, wordCells_zero]
  obtain ⟨-, rfl⟩ | ⟨-, e, e', he, rfl, ⟨-, rfl⟩ | ⟨hempty, rfl⟩⟩ | ⟨-, hnone, hfree, rfl⟩ :=
    mergeDifference_cases hm
  · exact ⟨hopen, htaken, hheld, hdelta⟩
  · refine ⟨fun x hx => hopen x ?_, by simpa using htaken, by simpa using hheld, by simpa using hdelta⟩
    exact (mem_dropRow.1 (by simpa using hx)).1
  · refine ⟨fun x hx => ?_, htaken, hheld, hdelta⟩
    obtain rfl | hx := mem_replace hx
    · exact entryLaw_applyActions (hopen e (openEntry_eq_some he).1).1 hcells hempty
    · exact hopen x hx
  · refine ⟨fun x hx => ?_, htaken, hheld, hdelta⟩
    obtain hx | hx := List.mem_append.1 hx
    · exact hopen x hx
    · obtain rfl := List.mem_singleton.1 hx
      exact ⟨hcells, fun hz => hne ⟨wordCells_eq_zero hz.1, wordCells_eq_zero hz.2⟩⟩

theorem secondLaw_of_return {s : State} {op : RowOp} {writes erases : Mask} (h : SecondLaw s)
    (ho : s.sched.op = some op) (hk : op.kind = .delta) (hw : writes = 0 ∨ writes = op.writeMask)
    (he : erases = 0 ∨ erases = op.eraseMask) :
    SecondLaw ((setOp none s).setTable (mergedBack op.row writes erases s)) := by
  obtain ⟨hopen, -, hheld, hdelta⟩ := h
  have hdisj : writes &&& erases = 0 := by
    rw [ho] at hdelta
    have hmasks := (hdelta hk).1
    rw [BitVec.and_comm] at hmasks
    obtain rfl | rfl := hw
    · exact BitVec.zero_and
    · obtain rfl | rfl := he
      · exact BitVec.and_zero
      · exact hmasks
  have hopenRow : ((openEntry s.table op.row).getD { row := op.row, setMask := 0, clearMask := 0 }).setMask &&&
      ((openEntry s.table op.row).getD { row := op.row, setMask := 0, clearMask := 0 }).clearMask = 0 := by
    cases hq : openEntry s.table op.row with
    | none => exact BitVec.zero_and
    | some e => exact (hopen e (openEntry_eq_some hq).1).1
  unfold mergedBack
  dsimp only
  split
  · exact ⟨hopen, entryLaw_of_none rfl, hheld, trivial⟩
  · split
    · exact ⟨fun x hx => hopen x (mem_dropRow.1 hx).1, entryLaw_of_none rfl, hheld, trivial⟩
    · next hne =>
      refine ⟨fun x hx => ?_, entryLaw_of_none rfl, hheld, trivial⟩
      obtain rfl | hx := List.mem_cons.1 hx
      · exact entryLaw_applyActions hopenRow hdisj (by simpa using hne)
      · exact hopen x (mem_dropRow.1 hx).1

theorem secondLaw_of_change {s t : State} (c : Change s t) (h : SecondLaw s) : SecondLaw t := by
  have h' := h
  obtain ⟨hopen, htaken, hheld, hdelta⟩ := h'
  cases c with
  | quiet hc =>
    obtain ⟨-, -, -, hw, ht, -, ho, -⟩ := hc
    simpa only [SecondLaw, hw, ht, ho] using h
  | writeAccepted _ _ | cycleEnded _ => exact ⟨hopen, htaken, trivial, hdelta⟩
  | writeHeld _ _ _ hh _ => exact ⟨hopen, htaken, hh, hdelta⟩
  | merged hm hd => exact secondLaw_of_merge h hm hd
  | fullAdded rows =>
    refine ⟨fun e he => hopen e ?_, by simpa using htaken, by simpa using hheld, by simpa using hdelta⟩
    obtain hq | hq := addFull_queue rows s <;> rw [hq] at he
    · exact he
    · exact (mem_dropRows.1 he).1
  | fillAdded r _ => exact ⟨fun e he => hopen e (mem_dropRow.1 he).1, htaken, hheld, hdelta⟩
  | rowTaken r cursor op d ho _ hk hd =>
    exact ⟨hopen, htaken, hheld, by simp [DeltaLaw, hd, hk]⟩
  | entryTaken e rest d ho _ hq hd =>
    refine ⟨fun x hx => hopen x (by rw [hq]; exact List.mem_cons_of_mem _ hx), ?_, hheld, ?_⟩
    · rintro x hx
      cases hx
      exact hopen _ (by simp [hq])
    · have := (hopen e (by simp [hq])).1
      rw [BitVec.and_comm] at this
      simp [DeltaLaw, hd, deltaOp, this]
  | opGoesOn op' ho hc =>
    refine ⟨hopen, htaken, hheld, ?_⟩
    rw [ho] at hdelta
    intro hk
    obtain ⟨hdisj, hcursor⟩ := hdelta (hc.1 ▸ hk)
    obtain ⟨he, hw, hn⟩ := hc.2.2 (hc.1 ▸ hk) hcursor
    exact ⟨by rw [he, hw, hdisj], hn⟩
  | opEnds ho =>
    next op =>
    cases hk : op.kind with
    | delta => exact ⟨hopen, entryLaw_of_none rfl, hheld, trivial⟩
    | full | fill => exact ⟨hopen, htaken, hheld, trivial⟩
  | opReturned writes erases ho hk hw he => exact secondLaw_of_return h ho hk hw he
  | cleared => exact ⟨fun _ he => (List.not_mem_nil he).elim, entryLaw_of_none rfl, hheld, trivial⟩
  | resets => exact ⟨fun _ he => (List.not_mem_nil he).elim, entryLaw_of_none rfl, trivial, trivial⟩
  | _ => simpa [SecondLaw] using h

/-- Settles O54: each change keeps both laws, and the entry of a state without records leaves what they speak of. -/
theorem tableLawsAreKept : Obligations.TableLawsAreKept := by
  intro s t h
  have darkens : ∀ {s t : State}, Darkens s t → (FirstLaw s → FirstLaw t) ∧ (SecondLaw s → SecondLaw t) := by
    rintro s t ⟨q, -⟩
    exact ⟨id, id⟩
  exact ⟨(step_evolves h).keeps firstLaw_of_change (fun hd => (darkens hd).1),
    (step_evolves h).keeps secondLaw_of_change (fun hd => (darkens hd).2)⟩

/-! ## The third law -/

theorem hasRow_oneRow (r q : Row) : hasRow (oneRow r) q = decide (q = r) := by
  have hr := r.isLt
  have hq := q.isLt
  simp only [hasRow, oneRow, BitVec.getLsbD_shiftLeft, hq, decide_true, Bool.true_and]
  by_cases h : q = r
  · simp [h]
  · have hne : q.val ≠ r.val := fun hv => h (Fin.ext hv)
    rcases Nat.lt_or_gt_of_ne hne with hlt | hgt
    · simp [hlt, h]
    · have : ¬ q.val - r.val = 0 := by omega
      simp [h, BitVec.getLsbD_one, this]

/-- Two sets of rows have no row in common. -/
theorem disjoint_iff {a b : RowSet} : a &&& b = 0 ↔ ∀ q : Row, (hasRow a q && hasRow b q) = false := by
  constructor
  · intro h q
    simpa [hasRow] using getLsbD_and_eq_zero h q.val
  · intro h
    apply BitVec.eq_of_getLsbD_eq
    intro i hi
    simpa [hasRow] using h ⟨i, hi⟩

theorem thirdLaw_of_change {s t : State} (c : Change s t) (h : ThirdLaw s) : ThirdLaw t := by
  have h' := h
  obtain ⟨hdisj, hopen⟩ := h'
  rw [disjoint_iff] at hdisj
  cases c with
  | quiet hc =>
    obtain ⟨-, -, -, -, ht, hs, -⟩ := hc
    simpa only [ThirdLaw, inResync, ht, hs] using h
  | merged hm _ =>
    have hsets := (mergeDifference_frame hm).2.2.2.2.2.1
    refine ⟨by rw [hsets]; exact h.1, fun e he => ?_⟩
    have hin : ∀ r, inResync t r = inResync s r := fun r => by simp only [inResync, hsets]
    rw [hin]
    obtain ⟨-, rfl⟩ | ⟨-, e, e', hr, rfl, ⟨-, rfl⟩ | ⟨-, rfl⟩⟩ | ⟨hd, -, -, rfl⟩ := mergeDifference_cases hm
    · exact hopen e he
    · exact hopen _ (mem_dropRow.1 (by simpa using he)).1
    · obtain rfl | he := mem_replace he
      · exact hopen e (openEntry_eq_some hr).1
      · exact hopen _ he
    · obtain he | he := List.mem_append.1 he
      · exact hopen e he
      · obtain rfl := List.mem_singleton.1 he
        exact (Bool.or_eq_false_iff.1 hd).1
  | fullAdded rows =>
    obtain ⟨-, heq⟩ | ⟨-, hfull, hfill, hq⟩ := addFull_cases rows s
    · rw [heq]
      exact h
    · refine ⟨disjoint_iff.2 fun q => ?_, fun e he => ?_⟩
      · have := hdisj q
        rw [hfull, hfill, hasRow_or, hasRow_and_not]
        revert this
        cases hasRow s.sets.full q <;> cases hasRow s.sets.fill q <;> cases hasRow rows q <;> simp
      · rw [hq, mem_dropRows, hasRow_and_not] at he
        have := hopen e he.1
        rw [inResync, Bool.or_eq_false_iff] at this
        rw [inResync, hfull, hfill, hasRow_or, hasRow_and_not, this.1, this.2]
        simpa [this.1] using he.2
  | fillAdded r hr =>
    refine ⟨disjoint_iff.2 fun q => ?_, fun e he => ?_⟩
    · simp only [State.setTable_sets, State.setSets_sets, hasRow_or, hasRow_oneRow]
      by_cases hq : q = r
      · simp [hq, hr]
      · simpa [hq] using hdisj q
    · obtain ⟨he, hne⟩ := mem_dropRow.1 he
      simpa [inResync, hasRow_oneRow, hne] using hopen e he
  | rowTaken r cursor op d ho _ hk hd =>
    refine ⟨disjoint_iff.2 fun q => ?_, fun e he => ?_⟩
    · simp only [State.setSched_sets, State.setSets_sets, hasRow_and_not]
      have := hdisj q
      revert this
      cases hasRow s.sets.full q <;> cases hasRow s.sets.fill q <;> simp
    · have := hopen e he
      simp only [inResync, Bool.or_eq_false_iff] at this
      simp [inResync, this.1, this.2]
  | entryTaken e rest d ho _ hq hd => exact ⟨h.1, fun x hx => hopen x (by rw [hq]; exact List.mem_cons_of_mem _ hx)⟩
  | opEnds ho => next op => cases hk : op.kind <;> exact h
  | opReturned writes erases ho hk hw he =>
    unfold mergedBack
    dsimp only
    split
    · exact h
    · next hin =>
      split
      · exact ⟨h.1, fun x hx => hopen x (mem_dropRow.1 hx).1⟩
      · refine ⟨h.1, fun x hx => ?_⟩
        obtain rfl | hx := List.mem_cons.1 hx
        · rw [applyActions_row, openEntry_getD_row]
          exact (Bool.eq_false_iff.2 hin : inResync s _ = false)
        · exact hopen x (mem_dropRow.1 hx).1
  | cleared | resets => exact ⟨BitVec.zero_and, fun _ he => (List.not_mem_nil he).elim⟩
  | _ => simpa [ThirdLaw, inResync] using h

/-- Settles O55: each change keeps the third law. -/
theorem thirdLawIsKept : Obligations.ThirdLawIsKept := fun _ _ hs h =>
  (step_evolves h).keeps thirdLaw_of_change (fun hd hs => by cases hd; exact hs) hs

end Sys2Proof.Machine
end

