-- ==== Sys2Proof/Proofs/StoreLaws.lean ====
section
/-! PROOFS. The canonical form of the sparse stores, and the fifth law (R59): each change keeps them, and so every
step. -/

namespace Sys2Proof.Machine

open Safety

/-! ## The lit table -/

/-- A lit table as the fifth law has it (R59). -/
abbrev CountsFit (t : LitTable) : Prop :=
  CellsWf 0 t.counts ∧ (∀ p ∈ t.counts, p.1 < 4096 ∧ p.2 ≤ 64) ∧ t.total = (t.counts.map (·.2)).sum

/-- A count of the store is changed: the sum changes with it. -/
theorem sum_cellsWrite {m : Cells Nat} (a v : Nat) (h : CellsWf 0 m) :
    ((cellsWrite 0 m a v).map (·.2)).sum + cellsRead 0 m a = (m.map (·.2)).sum + v := by
  induction m with
  | nil => by_cases hv : v = 0 <;> simp [cellsWrite, cellsRead, hv]
  | cons q m ih =>
    obtain ⟨k, w⟩ := q
    obtain ⟨hlt, -, hm⟩ := cellsWf_cons.1 h
    obtain hak | rfl | hka := Nat.lt_trichotomy a k
    · have hread : cellsRead 0 m a = 0 := cellsRead_of_lt fun p hp => hak.trans (hlt p hp)
      by_cases hv : v = 0 <;> simp [cellsWrite, cellsRead, hak, hak.ne, hread, hv, Nat.add_comm]
    · by_cases hv : v = 0 <;> simp [cellsWrite, cellsRead, hv]
      all_goals omega
    · have := ih hm
      simp only [cellsWrite, cellsRead, hka.not_gt, hka.ne', if_false, List.map_cons, List.sum_cons]
      omega

theorem cellsRead_le {m : Cells Nat} {n : Nat} (h : ∀ p ∈ m, p.2 ≤ n) (a : Nat) : cellsRead 0 m a ≤ n := by
  induction m with
  | nil => exact Nat.zero_le n
  | cons q m ih =>
    simp only [cellsRead]
    split
    · exact h q List.mem_cons_self
    · exact ih fun p hp => h p (List.mem_cons_of_mem _ hp)

theorem litKey_lt (r : Row) (m : ModuleNo) : litKey r m < 4096 := by
  have := r.isLt
  have := m.isLt
  simp only [litKey]
  omega

/-- A count within 0..64 is set, and L follows (R59). -/
theorem countsFit_setCount {t : LitTable} (r : Row) (m : ModuleNo) {v : Nat} (hv : v ≤ 64) (h : CountsFit t) :
    CountsFit (setCount r m v t) := by
  obtain ⟨hwf, hbound, htotal⟩ := h
  refine ⟨cellsWf_write _ _ hwf, fun p hp => ?_, ?_⟩
  · obtain ⟨rfl, -⟩ | hp := mem_cellsWrite hp
    · exact ⟨litKey_lt r m, hv⟩
    · exact hbound p hp
  · have hsum := sum_cellsWrite (litKey r m) v hwf
    have hself := sum_cellsWrite (litKey r m) 0 hwf
    simp only [setCount, litCount, htotal]
    omega

/-- A phase leaves a count within 0..64 (R58). -/
theorem countAfter_le (op : RowOp) (m : ModuleNo) {n : Nat} (h : n ≤ 64) : countAfter op m n ≤ 64 := by
  unfold countAfter
  split
  · split
    · exact Nat.zero_le _
    · exact (Nat.sub_le _ _).trans h
  · exact Nat.min_le_left _ _

theorem countsFit_applyPhase (op : RowOp) {t : LitTable} (h : CountsFit t) : CountsFit (applyPhase op t) := by
  refine List.foldlRecOn allModules _ h fun t ht m _ => ?_
  split
  · exact countsFit_setCount _ _ (countAfter_le op m (cellsRead_le (fun p hp => (ht.2.1 p hp).2) _)) ht
  · exact ht

theorem cellsWf_applyPhase (op : RowOp) {t : LitTable} (h : CellsWf 0 t.counts) :
    CellsWf 0 (applyPhase op t).counts := by
  refine List.foldlRecOn (motive := fun t : LitTable => CellsWf 0 t.counts) allModules _ h fun t ht m _ => ?_
  split
  · exact cellsWf_write _ _ ht
  · exact ht

/-! ## The laws -/

/-- A reset that cuts a store operation leaves the store words in their form (R189). -/
theorem cellsWf_cutStore {free : Nat} {t : SettingsStore} (h : CellsWf Config.erasedWord t.words) :
    CellsWf Config.erasedWord (cutStore free t) := by
  unfold cutStore
  split
  · exact h
  · exact cellsWf_filter _ h
  · split
    · exact cellsWf_write _ _ h
    · exact h

theorem mergeDifference_stores {r : Row} {w : WordIx} {rise fall : Word} {s t : State}
    (h : mergeDifference r w rise fall s = some t) :
    t.mem = s.mem ∧ t.cmd = s.cmd ∧ t.store = s.store ∧ t.panel = s.panel ∧ t.lit = s.lit := by
  have := mergeDifference_frame h
  simp_all

theorem storesCanonical_of_change {s t : State} (c : Change s t) (h : StoresCanonical s) : StoresCanonical t := by
  have h' := h
  obtain ⟨hmem, hcopy, hstore, hpanel, hlit⟩ := h'
  cases c with
  | quiet hc =>
    obtain ⟨hm, -, -, -, -, -, -, hl, hp, -, -, -, -, -, -, hcmd, -, -, hw, -⟩ := hc
    simpa only [StoresCanonical, hm, hl, hp, hcmd, hw] using h
  | memory m hm => exact ⟨hm hmem, hcopy, hstore, hpanel, hlit⟩
  | handler c hc => exact ⟨hmem, hc hcopy, hstore, hpanel, hlit⟩
  | panel v hv => exact ⟨hmem, hcopy, hstore, hv hpanel, hlit⟩
  | phaseApplied op _ => exact ⟨hmem, hcopy, hstore, hpanel, cellsWf_applyPhase op hlit⟩
  | merged hm _ =>
    obtain ⟨hm, hc, hs, hp, hl⟩ := mergeDifference_stores hm
    simpa only [StoresCanonical, hm, hc, hs, hp, hl] using h
  | opEnds ho => next op => cases hk : op.kind <;> exact h
  | cleared => exact ⟨hmem, hcopy, hstore, hpanel, cellsWf_nil⟩
  | storeWords m op hm => exact ⟨hmem, hcopy, hm hstore, hpanel, hlit⟩
  | resets => exact ⟨memory_wf_cutMemory hmem, cellsWf_nil, cellsWf_cutStore hstore, hpanel, cellsWf_nil⟩
  | _ => simpa [StoresCanonical] using h

/-- Settles O53: each change keeps every store in its canonical form. -/
theorem storesStayCanonical : Obligations.StoresStayCanonical := fun _ _ hs h =>
  (step_evolves h).keeps storesCanonical_of_change (fun hd hs => by cases hd; exact hs) hs

theorem fifthLaw_of_change {s t : State} (c : Change s t) (h : FifthLaw s) : FifthLaw t := by
  cases c with
  | quiet hc =>
    obtain ⟨-, -, -, -, -, -, -, hl, -⟩ := hc
    simpa only [FifthLaw, hl] using h
  | phaseApplied op _ => exact countsFit_applyPhase op h
  | merged hm _ =>
    obtain ⟨-, -, -, -, hl⟩ := mergeDifference_stores hm
    simpa only [FifthLaw, hl] using h
  | opEnds ho => next op => cases hk : op.kind <;> exact h
  | cleared | resets => exact ⟨cellsWf_nil, fun _ hp => (List.not_mem_nil hp).elim, rfl⟩
  | _ => simpa [FifthLaw] using h

/-- Settles O56: each change keeps the fifth law. -/
theorem fifthLawIsKept : Obligations.FifthLawIsKept := fun _ _ hs h =>
  (step_evolves h).keeps fifthLaw_of_change (fun hd hs => by cases hd; exact hs) hs

end Sys2Proof.Machine
end

