-- ==== Sys2Proof/Proofs/Effects.lean ====
section
/-! PROOFS. What a row of the table can do, said once: each row's effect as the operation of its block, with what the
row asks of the state. The statements on all rows are cases over it. -/

namespace Sys2Proof.Machine

open Safety

/-- The effect of a row other than RESET that happens, with the conditions under which it does. -/
inductive Effect (i : Instr) (s : State) : State → Prop where
  | bus (b : BusPins) (hr : s.bus.ready = true) (hb : b.ready = true ∧ b.clearHeld = s.bus.clearHeld) :
      Effect i s (s.setBus b)
  | discarded (hr : s.bus.ready = true) : Effect i s (countProtected s)
  | read (off : Nat) (hu : usesPort i = true) (hr : s.bus.ready = true) : Effect i s (serveRead off (portGap s))
  | writeAccepted (c : WriteCycle) (hu : usesPort i = true) (hr : s.bus.ready = true) :
      Effect i s (acceptWrite c (portGap s))
  | commandServed (v : BitVec 3) (w : WordIx) (d : Word) (hu : usesPort i = true) (hr : s.bus.ready = true) :
      Effect i s (cycleServed (serveCommand v w d (noteFirst (portGap s))))
  | noticesCleared (d : Word) (hr : s.bus.ready = true) : Effect i s (clearNotices d s)
  | imageCombined (c : WriteCycle) (r : Row) (w : WordIx) (hw : s.wmu.state = .merging c) :
      Effect i s (cycleServed (serveImage c.view r w c.data s))
  | commandCombined (c : WriteCycle) (w : WordIx) (hw : s.wmu.state = .merging c) :
      Effect i s (cycleServed (serveCommand c.view w c.data (endCycle s)))
  | holdExpired (h : HeldChange) (hw : s.wmu.state = .holding h) : Effect i s (degradeHeld h.row s)
  | storeErased (page n : Nat) (ho : s.store.op = .erase page n) :
      Effect i s (finishCommand .ok []
        (s.setStore { s.store with words := erasePage page s.store.words, op := .none }))
  | storeWritten (k : Nat) (v : Word) (n : Nat) (ho : s.store.op = .write k v n) :
      Effect i s (finishCommand .ok [] (s.setStore { s.store with
        words := cellsWrite Config.erasedWord s.store.words k v, op := .none }))
  | commandWritten (r : Running) (p : WordIx × Word) (rest : List (WordIx × Word))
      (hi : i = .commandRowWordWrite) (hn : nextCommandWrite s = some (r, p, rest)) :
        Effect i s (commandWriteUnit r p.1 p.2 rest s)
  | noticesWritten : Effect i s (noticeUpdateUnit s)
  | burstWritten : Effect i s (burstUnit s)
  | burstAsked : Effect i s (requestBurst (s.setNotice { s.notice with burstTimer := 0, burstExpired := false }))
  | areaWord (a : AreaOp) (ha : s.area = some a) : Effect i s (areaWordUnit a s)
  | taken (hd : takeDue s = true) : Effect i s (takeWork s)
  | snapshot (op : RowOp) (c : Nat) (hn : snapshotNext s = some (op, c)) : Effect i s (snapshotUnit op c s)
  | linkFaulted (m : Message) (hm : s.link.message = some m) : Effect i s (linkFault s)
  | messageEnded (m : Message) (scan : ByteScan) (t : State) (hm : s.link.message = some m)
      (ho : messageOutcome m scan s = some t) : Effect i s t
  | stretched (m : Message) (scan : ByteScan) (freed : Bool) (hm : s.link.message = some m) :
      Effect i s (stretchOutcome m scan freed s)
  | recoveryFailed : Effect i s (recoveryFails s)
  | recoveryPassed : Effect i s (recoveryPasses s)
  | recoveryGoesOn : Effect i s (s.setLink { s.link with timer := 0, expired := false })
  | recoveryBegun : Effect i s (beginRecovery (s.setLink { s.link with timer := 0, expired := false }))
  | periodEnded (p : Period) (hp : s.period.current = some p) (hl : s.seq.state = .lit)
      (ho : periodOwes p s.period = false) : Effect i s (endPeriod p s)
  | strobed (p : Period) (op : RowOp) (hp : s.period.current = some p) (ho : s.sched.op = some op)
      (hl : s.seq.state = .lit) (hk : p.kind = .address) : Effect i s (strobePhase op p s)
  | erased (p : Period) (hp : s.period.current = some p) (hl : s.seq.state = .lit) (hk : p.kind = .globalErase)
      (hs : p.strobed = false) : Effect i s (eraseStrobe p s)
  | primed (p : Period) (hp : s.period.current = some p) (hl : s.seq.state = .priming) :
      Effect i s (primingStrobe p s)
  | clearGiven : Effect i s (s.setPeriod { s.period with clearPulse := .given 0 false })
  | clearEnded (t : Nat) (again : Bool) (hc : s.period.clearPulse = .given t again) : Effect i s (endClear again s)
  | primingEnded (p : Period) (hp : s.period.current = some p) (hl : s.seq.state = .priming) :
      Effect i s (enterLit (panelDark s))
  | sampleTaken (level : Int) (p : Period) (hp : s.period.current = some p) (hk : p.kind = .sustain) :
      Effect i s (takeSample level p s)
  | converted (c : Conversion) (hc : s.sense.conversion = some c) : Effect i s (completeConversion c s)
  | goodHigh : Effect i s (goodHighEffect s)
  | goodLow : Effect i s (goodLowEffect s)
  | settled (hq : s.seq.state = .settling) : Effect i s (enterPriming s)
  | resumed (hq : s.seq.state = .resuming) : Effect i s (endGap s)
  | lostInGap (hq : s.seq.state = .gap) : Effect i s (lossInGap s)
  | lostInResuming (hq : s.seq.state = .resuming) : Effect i s (lossInResuming s)
  | supplySampled (level filtered : Bool) (run : Nat) : Effect i s (sampleSupply level filtered run s)

/-! ## The processor's bus -/

theorem posting_effect {i : Instr} {p : Byte → Bool} {a : BusAddr} {d : Word} {s t : State}
    (hu : usesPort i = true) (h : busStep s (postingOf p a d s) = .next t) : Effect i s t := by
  obtain ⟨hr, h⟩ := busStep_eq_next.1 h
  obtain ⟨v, -, -, -, rfl⟩ := postingOf_eq_some h
  exact .commandServed v 0 d hu hr

theorem execPassThroughCycle_effect {i : Instr} {a : BusAddr} {c : SideCycle} {s t : State}
    (h : execPassThroughCycle a c s = .next t) : Effect i s t := by
  obtain ⟨hr, h⟩ := busStep_eq_next.1 h
  split at h <;> cases h
  exact .bus _ hr ⟨hr, rfl⟩

theorem execVoidAccess_effect {i : Instr} {a : BusAddr} {c : VoidCycle} {s t : State}
    (h : execVoidAccess a c s = .next t) :
    Effect i s t := by
  obtain ⟨hr, h⟩ := busStep_eq_next.1 h
  split at h <;> cases h
  · exact .bus _ hr ⟨hr, rfl⟩
  · exact .bus s.bus hr ⟨hr, rfl⟩

theorem execProcessorRead_effect {i : Instr} {a : BusAddr} {s t : State} (hu : usesPort i = true)
    (h : execProcessorRead a s = .next t) : Effect i s t := by
  obtain ⟨hr, h⟩ := busStep_eq_next.1 h
  split at h <;> cases h <;> exact .read _ hu hr

theorem execImageWordWrite_effect {i : Instr} {a : BusAddr} {d : Word} {s t : State} (hu : usesPort i = true)
    (h : execImageWordWrite a d s = .next t) :
    Effect i s t := by
  obtain ⟨hr, h⟩ := busStep_eq_next.1 h
  split at h
  · split at h <;> cases h
    · exact .discarded hr
    · exact .writeAccepted _ hu hr
  · split at h <;> cases h
    · exact .writeAccepted _ hu hr
    · exact .discarded hr
  · split at h <;> cases h
    exact .discarded hr
  · cases h

theorem execReadCombineWrite_effect {i : Instr} {s t : State} (h : execReadCombineWrite s = .next t) :
    Effect i s t := by
  unfold execReadCombineWrite at h
  split at h
  · next c hw =>
    split at h <;> cases h
    · exact .imageCombined c _ _ hw
    · exact .commandCombined c _ hw
  · cases h

theorem execApertureWrite_effect {i : Instr} {a : BusAddr} {d : Word} {s t : State} (hu : usesPort i = true)
    (h : execApertureWrite a d s = .next t) :
    Effect i s t := by
  obtain ⟨hr, h⟩ := busStep_eq_next.1 h
  split at h
  · split at h
    · cases h
      exact .discarded hr
    · dsimp only at h
      split at h <;> cases h
      exact .commandServed _ _ _ hu hr
  · split at h <;> cases h
    exact .discarded hr
  · cases h

theorem execSetupSequenceWrite_effect {i : Instr} {a : BusAddr} {d : Word} {s t : State}
    (hu : usesPort i = true) (h : execSetupSequenceWrite a d s = .next t) : Effect i s t := by
  obtain ⟨hr, h⟩ := busStep_eq_next.1 h
  split at h
  · split at h
    · split at h <;> cases h
      · exact .commandServed _ _ _ hu hr
      · exact .discarded hr
    · cases h
  · cases h

theorem execNoticeClear_effect {i : Instr} {a : BusAddr} {d : Word} {s t : State}
    (h : execNoticeClear a d s = .next t) :
    Effect i s t := by
  obtain ⟨hr, h⟩ := busStep_eq_next.1 h
  split at h
  · split at h <;> cases h
    exact .noticesCleared d hr
  · cases h

/-! ## Memory, commands and rows -/

theorem execHoldExpiry_effect {i : Instr} {s t : State} (h : execHoldExpiry s = .next t) : Effect i s t := by
  unfold execHoldExpiry at h
  split at h
  · next hw =>
    obtain ⟨-, rfl⟩ := stepWhen_eq_next.1 h
    exact .holdExpired _ hw
  · cases h

theorem execStoreEraseEnd_effect {i : Instr} {s t : State} (h : execStoreEraseEnd s = .next t) : Effect i s t := by
  unfold execStoreEraseEnd at h
  split at h
  · next page n ho =>
    obtain ⟨-, rfl⟩ := stepWhen_eq_next.1 h
    exact .storeErased page n ho
  · cases h

theorem execStoreWriteEnd_effect {i : Instr} {s t : State} (h : execStoreWriteEnd s = .next t) : Effect i s t := by
  unfold execStoreWriteEnd at h
  split at h
  · next i v n ho =>
    obtain ⟨-, rfl⟩ := stepWhen_eq_next.1 h
    exact .storeWritten i v n ho
  · cases h

theorem execCommandRowWordWrite_effect {s t : State} (h : execCommandRowWordWrite s = .next t) :
    Effect .commandRowWordWrite s t := by
  unfold execCommandRowWordWrite at h
  split at h
  · next hn =>
    obtain ⟨-, rfl⟩ := stepWhen_eq_next.1 h
    exact .commandWritten _ _ _ rfl hn
  · cases h

theorem execAreaWord_effect {i : Instr} {s t : State} (h : execAreaWord s = .next t) : Effect i s t := by
  unfold execAreaWord at h
  split at h
  · next ha =>
    obtain ⟨-, rfl⟩ := stepWhen_eq_next.1 h
    exact .areaWord _ ha
  · cases h

theorem execSnapshotWordRead_effect {i : Instr} {s t : State} (h : execSnapshotWordRead s = .next t) :
    Effect i s t := by
  unfold execSnapshotWordRead at h
  split at h
  · next hn =>
    obtain ⟨-, rfl⟩ := stepWhen_eq_next.1 h
    exact .snapshot _ _ hn
  · cases h

/-! ## The link -/

theorem messageEnds_effect {i : Instr} {purpose : Purpose} {idle : IdleCheck} {samples : List (BitVec 9)} {s t : State}
    (h : messageEnds purpose idle samples s = .next t) : Effect i s t := by
  obtain ⟨m, hm, -, rfl | ⟨scan, ho⟩⟩ := messageEnds_eq_next h
  · exact .linkFaulted m hm
  · exact .messageEnded m scan t hm ho

theorem execStretchExpiry_effect {i : Instr} {place : StretchPlace} {s t : State}
    (h : execStretchExpiry place s = .next t) :
    Effect i s t := by
  unfold execStretchExpiry at h
  split at h
  · next hm =>
    obtain ⟨-, rfl⟩ := stepWhen_eq_next.1 h
    exact .linkFaulted _ hm
  · next hm =>
    split at h
    · obtain ⟨-, rfl⟩ := stepWhen_eq_next.1 h
      exact .stretched _ _ _ hm
    · cases h
  · obtain ⟨-, rfl⟩ := stepWhen_eq_next.1 h
    exact .recoveryFailed
  · cases h

theorem execRecoveryTimerExpiry_effect {i : Instr} {s t : State} (h : execRecoveryTimerExpiry s = .next t) :
    Effect i s t := by
  obtain ⟨-, rfl⟩ := stepWhen_eq_next.1 h
  split
  · exact .recoveryGoesOn
  · exact .recoveryBegun

theorem execRecoveryAttempt_effect {i : Instr} {idle : IdleCheck} {high : Bool} {s t : State}
    (h : execRecoveryAttempt idle high s = .next t) : Effect i s t := by
  unfold execRecoveryAttempt at h
  split at h
  · cases h
  · obtain ⟨-, rfl⟩ := stepWhen_eq_next.1 h
    split
    · exact .recoveryPassed
    · exact .recoveryFailed

/-! ## The panel -/

theorem execPeriodEnd_effect {i : Instr} {s t : State} (h : execPeriodEnd s = .next t) : Effect i s t := by
  unfold execPeriodEnd at h
  split at h
  · next p hp =>
    obtain ⟨hdue, rfl⟩ := stepWhen_eq_next.1 h
    simp only [Bool.and_eq_true, beq_iff_eq, Bool.not_eq_true'] at hdue
    exact .periodEnded p hp hdue.1.1 hdue.2
  · cases h

theorem execStrobe_effect {i : Instr} {s t : State} (h : execStrobe s = .next t) : Effect i s t := by
  obtain ⟨p, op, hp, ho, hl, hdue, -, rfl⟩ := execStrobe_next h
  simp only [strobeDue, Bool.and_eq_true, beq_iff_eq] at hdue
  exact .strobed p op hp ho hl hdue.1.1

theorem execGlobalEraseStrobe_effect {i : Instr} {s t : State} (h : execGlobalEraseStrobe s = .next t) :
    Effect i s t := by
  unfold execGlobalEraseStrobe at h
  split at h
  · next p hp hl =>
    obtain ⟨hdue, rfl⟩ := stepWhen_eq_next.1 h
    simp only [strobeDue, Bool.and_eq_true, beq_iff_eq, Bool.not_eq_true'] at hdue
    exact .erased p hp hl hdue.1.1 hdue.1.2
  · next p hp hl =>
    obtain ⟨-, rfl⟩ := stepWhen_eq_next.1 h
    exact .primed p hp hl
  · cases h

theorem execClearPulseEnd_effect {i : Instr} {s t : State} (h : execClearPulseEnd s = .next t) : Effect i s t := by
  unfold execClearPulseEnd at h
  split at h
  · next hc =>
    obtain ⟨-, rfl⟩ := stepWhen_eq_next.1 h
    exact .clearEnded _ _ hc
  · cases h

theorem execPrimingEraseEnd_effect {i : Instr} {s t : State} (h : execPrimingEraseEnd s = .next t) : Effect i s t := by
  unfold execPrimingEraseEnd at h
  split at h
  · next p hp =>
    obtain ⟨hdue, rfl⟩ := stepWhen_eq_next.1 h
    simp only [Bool.and_eq_true, beq_iff_eq] at hdue
    exact .primingEnded p hp hdue.1.1
  · cases h

theorem execSampleInstant_effect {i : Instr} {level : Int} {s t : State} (h : execSampleInstant level s = .next t) :
    Effect i s t := by
  unfold execSampleInstant at h
  split at h
  · next p hp =>
    obtain ⟨hdue, rfl⟩ := stepWhen_eq_next.1 h
    simp only [sampleDue, Bool.and_eq_true, beq_iff_eq] at hdue
    exact .sampleTaken level p hp hdue.1.1.1.2
  · cases h

theorem execConversionCompletion_effect {i : Instr} {s t : State} (h : execConversionCompletion s = .next t) :
    Effect i s t := by
  unfold execConversionCompletion at h
  split at h
  · next hc =>
    obtain ⟨-, rfl⟩ := stepWhen_eq_next.1 h
    exact .converted _ hc
  · cases h

theorem execSettleLimitReached_effect {i : Instr} {s t : State} (h : execSettleLimitReached s = .next t) :
    Effect i s t := by
  unfold execSettleLimitReached at h
  split at h
  · next hq => exact (stepWhen_eq_next.1 h).2 ▸ .settled hq
  · next hq => exact (stepWhen_eq_next.1 h).2 ▸ .resumed hq
  · cases h

theorem execLossLimitReached_effect {i : Instr} {s t : State} (h : execLossLimitReached s = .next t) :
    Effect i s t := by
  unfold execLossLimitReached at h
  split at h
  · next hq => exact (stepWhen_eq_next.1 h).2 ▸ .lostInGap hq
  · next hq => exact (stepWhen_eq_next.1 h).2 ▸ .lostInResuming hq
  · cases h

theorem execSupplyGoodSample_effect {i : Instr} {level : Bool} {s t : State}
    (h : execSupplyGoodSample level s = .next t) :
    Effect i s t := by
  unfold execSupplyGoodSample at h
  split at h
  · cases h
  · split at h
    · cases h
      exact .supplySampled _ _ _
    · split at h <;> cases h
      exact .supplySampled _ _ _

/-! ## Every row -/

/-- Every row of the table but RESET has one of the effects where it happens. -/
theorem exec_effect {i : Instr} {s t : State} (h : exec i s = .next t) (hi : ∀ sources, i ≠ .reset sources) :
    Effect i s t := by
  cases i with
  | reset sources => exact absurd rfl (hi sources)
  | passThroughCycle a c => exact execPassThroughCycle_effect h
  | voidAccess a c => exact execVoidAccess_effect h
  | processorRead a => exact execProcessorRead_effect rfl h
  | imageWordWrite a d => exact execImageWordWrite_effect rfl h
  | readCombineWrite => exact execReadCombineWrite_effect h
  | holdExpiry => exact execHoldExpiry_effect h
  | apertureWrite a d => exact execApertureWrite_effect rfl h
  | setupSequenceWrite a d => exact execSetupSequenceWrite_effect rfl h
  | noticeClear a d => exact execNoticeClear_effect h
  | repaint a d | clearAndRepaint a d | area a d | blank a d | unblank a d | probe a d | abort a d
  | storeRead a d | storeErase a d | storeWrite a d | settingsApply a d | badCode a d => exact posting_effect rfl h
  | storeEraseEnd => exact execStoreEraseEnd_effect h
  | storeWriteEnd => exact execStoreWriteEnd_effect h
  | commandRowWordWrite => exact execCommandRowWordWrite_effect h
  | noticeWordUpdate => exact (stepWhen_eq_next.1 h).2 ▸ .noticesWritten
  | statusBurst => exact (stepWhen_eq_next.1 h).2 ▸ .burstWritten
  | burstTimerExpiry => exact (stepWhen_eq_next.1 h).2 ▸ .burstAsked
  | areaWord => exact execAreaWord_effect h
  | schedulerTake =>
    obtain ⟨hdue, rfl⟩ := stepWhen_eq_next.1 h
    exact .taken hdue
  | snapshotWordRead => exact execSnapshotWordRead_effect h
  | loadMessage idle samples | probeMessage idle samples => exact messageEnds_effect h
  | stretchExpiry place => exact execStretchExpiry_effect h
  | recoveryTimerExpiry => exact execRecoveryTimerExpiry_effect h
  | recoveryAttempt idle high => exact execRecoveryAttempt_effect h
  | periodEnd => exact execPeriodEnd_effect h
  | strobe => exact execStrobe_effect h
  | globalEraseStrobe => exact execGlobalEraseStrobe_effect h
  | driverClearPulse => exact (stepWhen_eq_next.1 h).2 ▸ .clearGiven
  | clearPulseEnd => exact execClearPulseEnd_effect h
  | primingEraseEnd => exact execPrimingEraseEnd_effect h
  | sampleInstant level => exact execSampleInstant_effect h
  | conversionCompletion => exact execConversionCompletion_effect h
  | goodHigh => exact (stepWhen_eq_next.1 h).2 ▸ .goodHigh
  | goodLow => exact (stepWhen_eq_next.1 h).2 ▸ .goodLow
  | settleLimitReached => exact execSettleLimitReached_effect h
  | lossLimitReached => exact execLossLimitReached_effect h
  | supplyGoodSample level => exact execSupplyGoodSample_effect h

/-- A step is a reset, a row of the queue's front, an event of the block's own, or a tick. -/
theorem step_effect {s t : State} (h : step s = .next t) :
    (∃ sources rest, s.pending = .reset sources :: rest ∧ t = resetState sources (s.setPending rest)) ∨
      (∃ i rest, Effect i (s.setPending rest) t) ∨ t = tick s := by
  obtain ⟨i, rest, hp, hi⟩ | ⟨hp, ⟨i, hmem, hi⟩ | rfl⟩ := step_cases h
  · by_cases hr : ∃ sources, i = .reset sources
    · obtain ⟨sources, rfl⟩ := hr
      cases hi
      exact .inl ⟨sources, rest, hp, rfl⟩
    · exact .inr (.inl ⟨i, rest, exec_effect hi fun c hc => hr ⟨c, hc⟩⟩)
  · refine .inr (.inl ⟨i, s.pending, exec_effect hi ?_⟩)
    rintro sources rfl
    simp only [ownEvents] at hmem
    split at hmem <;> simp at hmem
  · exact .inr (.inr rfl)

end Sys2Proof.Machine
end

