-- ==== Sys2Proof/Proofs/PeriodLaws.lean ====
section
/-! PROOFS. The sixth, the seventh and the eighth law (R97, R98, R106): each change keeps them, and so every step. And
P: what each operation leaves of it, and the rows of the table that change it (R106, R107). -/

namespace Sys2Proof.Machine

open Safety

/-! ## The laws of the changes -/

theorem mergeDifference_periods {r : Row} {w : WordIx} {rise fall : Word} {s t : State}
    (h : mergeDifference r w rise fall s = some t) :
    t.period = s.period ∧ t.seq = s.seq ∧ t.store = s.store := by
  have := mergeDifference_frame h
  simp_all

theorem sixthLaw_of_change {s t : State} (c : Change s t) (h : SixthLaw s) : SixthLaw t := by
  have h' := h
  obtain ⟨hsettings, hstaged, htiming, hlit⟩ := h'
  cases c with
  | quiet hc =>
    obtain ⟨-, -, -, -, -, -, -, -, -, hl, ht, -, -, -, hq, -, -, -, -, hs, hg⟩ := hc
    simpa only [SixthLaw, hl, ht, hq, hs, hg] using h
  | merged hm _ =>
    obtain ⟨hp, hq, hs⟩ := mergeDifference_periods hm
    simpa only [SixthLaw, hp, hq, hs] using h
  | opEnds ho => next op => cases hk : op.kind <;> exact h
  | seqTo q hl _ => exact ⟨hsettings, hstaged, htiming, fun hq => absurd hq hl⟩
  | periodOff g _ hl ht _ =>
    exact ⟨hsettings, hstaged, by simpa only [State.setPeriod_period, ht] using htiming,
      by simpa only [State.setPeriod_period, State.setPeriod_seq, hl, ht] using hlit⟩
  | cleared => exact h
  | periodTimed g _ _ ht hl =>
    refine ⟨hsettings, hstaged, by simpa only [State.setPeriod_period, ht] using hsettings.1, fun hq => ?_⟩
    obtain hn | ⟨l, hl⟩ := hl
    · exact absurd hq hn
    · simp only [State.setPeriod_period, hl, ht]
      exact limitPeriod_mem_bounds l hsettings.1.2.1
  | litEntered q g _ _ _ ht hl =>
    obtain ⟨l, hl⟩ := hl
    refine ⟨hsettings, hstaged, by simpa only [State.setPeriod_period, ht] using hsettings.1, fun _ => ?_⟩
    simp only [State.setPeriod_period, hl, ht]
    exact limitPeriod_mem_bounds l hsettings.1.2.1
  | installed hst => exact ⟨hstaged _ hst, nofun, htiming, hlit⟩
  | staged ht =>
    refine ⟨hsettings, fun u hu => ?_, htiming, hlit⟩
    cases hu
    exact ht
  | unstaged => exact ⟨hsettings, nofun, htiming, hlit⟩
  | resets sources =>
    have hfits := loadSettings_fits (cutStore s.freeCount s.store)
    exact ⟨hfits, nofun, hfits.1, nofun⟩
  | _ => simpa [SixthLaw] using h

theorem budgetLaw_of_change {s t : State} (c : Change s t) (h : BudgetLaw s) : BudgetLaw t := by
  have h' := h
  obtain ⟨hwindow, hbudget⟩ := h'
  cases c with
  | quiet hc =>
    obtain ⟨-, -, -, -, -, -, -, -, -, -, ht, hi, hw, hc, hq, -⟩ := hc
    simpa only [BudgetLaw, budgetAllows, ht, hi, hw, hc, hq] using h
  | merged hm _ =>
    obtain ⟨hp, hq, -⟩ := mergeDifference_periods hm
    simpa only [BudgetLaw, hp, hq] using h
  | opEnds ho => next op => cases hk : op.kind <;> exact h
  | seqTo q hl _ => exact ⟨hwindow, fun hq => absurd hq hl⟩
  | periodOff g hc _ _ hw =>
    refine ⟨hw.elim id fun hw => hw ▸ hwindow, fun _ p hp => ?_⟩
    simp [hc] at hp
  | periodTimed g hc hw _ _ | litEntered q g _ hc hw _ _ =>
    refine ⟨hw ▸ hwindow, fun _ p hp => ?_⟩
    simp [hc] at hp
  | periodBegins p hb =>
    refine ⟨hwindow, fun hq p' hp hk => ?_⟩
    obtain rfl : p = p' := by simpa using hp
    obtain hs | hb | hn := hb
    · exact absurd hs hk
    · exact hb
    · exact absurd hq hn
  | periodMarked p' c hp hk =>
    refine ⟨hwindow, fun hq p'' hp'' hs => ?_⟩
    obtain rfl : p' = p'' := by simpa using hp''
    exact hbudget hq _ hp (hk ▸ hs)
  | resets => exact ⟨Nat.zero_le _, nofun⟩
  | cleared => exact h
  | _ => simpa [BudgetLaw] using h

theorem recordless_not_lit {q : SeqState} (h : recordless q = true) : q ≠ .lit := by
  rintro rfl
  cases h

/-! ## What the operations leave of P -/

theorem ite_of {α : Type} {P : α → Prop} {c : Prop} [Decidable c] {x y : α} (hx : P x) (hy : P y) :
    P (if c then x else y) := by
  split
  · exact hx
  · exact hy

/-- Nothing of the period generator is changed but the clear pulse asked for (R67, R110). -/
abbrev PulseAsked (s t : State) : Prop := ∃ c, t.period = { s.period with clearPulse := c }

theorem PulseAsked.length {s t : State} (h : PulseAsked s t) : t.period.length = s.period.length := by
  obtain ⟨c, h⟩ := h
  rw [h]

theorem PulseAsked.current {s t : State} (h : PulseAsked s t) : t.period.current = s.period.current := by
  obtain ⟨c, h⟩ := h
  rw [h]

theorem pulseAsked_of_eq {s t : State} (h : t.period = s.period) : PulseAsked s t := ⟨s.period.clearPulse, h⟩

theorem PulseAsked.trans {s t u : State} (h : PulseAsked s t) (k : PulseAsked t u) : PulseAsked s u := by
  obtain ⟨c, h⟩ := h
  obtain ⟨d, k⟩ := k
  exact ⟨d, by rw [k, h]⟩

theorem requestClear_period (s : State) : PulseAsked s (requestClear s) := ⟨_, rfl⟩

theorem returnOp_period (op : RowOp) (s : State) : PulseAsked s (returnOp op s) := by
  unfold returnOp
  dsimp only
  split
  · exact .trans (requestClear_period (setOp none s)) (pulseAsked_of_eq (by simp))
  · exact pulseAsked_of_eq (by simp)

theorem schedulerFault_period (s : State) : PulseAsked s (schedulerFault s) := by
  unfold schedulerFault
  split
  · exact ite_of (pulseAsked_of_eq rfl) (returnOp_period _ s)
  · exact pulseAsked_of_eq rfl

theorem linkFault_period (s : State) : PulseAsked s (linkFault s) := by
  unfold linkFault
  dsimp only
  generalize hl : s.setLink _ = l
  have raised : PulseAsked s (raiseNotice .linkFault l) := pulseAsked_of_eq (by simp [← hl])
  have asked := ite_of (c := (match s.link.message with | some m => m.beforeLoss | none => false) = true)
    (raised.trans (requestClear_period _)) raised
  exact (asked.trans (schedulerFault_period _)).trans (pulseAsked_of_eq (endRound_frame _ _).2.2.2.2.2.2.1)

theorem messageSucceeded_period (m : Message) (s : State) : PulseAsked s (messageSucceeded m s) := by
  unfold messageSucceeded
  dsimp only
  split
  · refine ite_of (.trans (requestClear_period s) ?_) ?_
    all_goals exact pulseAsked_of_eq (by simp [requestClear])
  · exact pulseAsked_of_eq (by simp)

theorem messageFailed_period (m : Message) (s : State) : PulseAsked s (messageFailed m s) := by
  unfold messageFailed
  split
  · refine ite_of (.trans (requestClear_period s) ?_) ?_
    · exact pulseAsked_of_eq (by simp [requestClear])
    · split <;> exact pulseAsked_of_eq (by simp)
  · exact pulseAsked_of_eq (by simp)

theorem messageOutcome_period {m : Message} {scan : ByteScan} {s t : State} (h : messageOutcome m scan s = some t) :
    PulseAsked s t := by
  unfold messageOutcome at h
  split at h <;> cases h
  · exact messageSucceeded_period m s
  · exact messageFailed_period m s
  · exact .trans (pulseAsked_of_eq (by simp)) (messageFailed_period m _)

theorem stretchOutcome_period (m : Message) (scan : ByteScan) (freed : Bool) (s : State) :
    PulseAsked s (stretchOutcome m scan freed s) := by
  have ended : ∀ u v : State, u.period = s.period → v.period = s.period →
      PulseAsked s (if freed then messageFailed m u else linkFault v) := fun u v hu hv =>
    ite_of (.trans (pulseAsked_of_eq hu) (messageFailed_period m u))
      (.trans (pulseAsked_of_eq hv) (linkFault_period v))
  unfold stretchOutcome
  cases scan <;> exact ended _ _ (by simp) (by simp)

@[simp] theorem beginPeriod_length (k : PeriodKind) (fires : Option (Row × Phase)) (s : State) :
    (beginPeriod k fires s).period.length = s.period.length := rfl

/-- A period's start changes the current period alone (R96). -/
theorem started_period (g : PeriodGen) (c : Scheduler) : ∃ p, (started g c).1 = { g with current := some p } := by
  unfold started
  dsimp only
  repeat' split
  all_goals exact ⟨_, rfl⟩

theorem startPeriod_period (s : State) : ∃ p, (startPeriod s).period = { s.period with current := some p } := by
  rw [startPeriod_eq]
  exact started_period s.period s.sched

@[simp] theorem startPeriod_length (s : State) : (startPeriod s).period.length = s.period.length := by
  obtain ⟨p, hp⟩ := startPeriod_period s
  rw [hp]

@[simp] theorem startPeriod_index (s : State) : (startPeriod s).period.index = s.period.index := by
  obtain ⟨p, hp⟩ := startPeriod_period s
  rw [hp]

@[simp] theorem startPeriod_frameCount (s : State) : (startPeriod s).period.frameCount = s.period.frameCount := by
  obtain ⟨p, hp⟩ := startPeriod_period s
  rw [hp]

@[simp] theorem enterDark_length (s : State) : (enterDark s).period.length = s.period.length := rfl

@[simp] theorem enterPriming_length (s : State) : (enterPriming s).period.length = s.period.length := rfl

@[simp] theorem endPriming_length (s : State) : (endPriming s).period.length = s.period.length := by
  unfold endPriming
  repeat' split
  all_goals simp

@[simp] theorem lossEffects_length (s : State) : (lossEffects s).period.length = s.period.length := by
  rw [lossEffects_eq]
  dsimp only
  split <;> simp

@[simp] theorem lossInGap_length (s : State) : (lossInGap s).period.length = s.period.length := by
  simp [lossInGap]

@[simp] theorem lossInResuming_length (s : State) : (lossInResuming s).period.length = s.period.length := by
  simp [lossInResuming]

@[simp] theorem cutPeriod_length (s : State) : (cutPeriod s).period.length = s.period.length := by
  unfold cutPeriod cutWork cutOperation
  repeat' split
  all_goals simp

@[simp] theorem endClear_length (again : Bool) (s : State) : (endClear again s).period.length = s.period.length := by
  unfold endClear
  dsimp only
  generalize (if again = true then ClearPulse.pending else ClearPulse.idle) = c
  split <;> rfl

/-! ## What changes P -/

/-- P is as it was, or LIT is entered with its period 0 (R107). -/
abbrev LengthKept (s t : State) : Prop :=
  t.period.length = s.period.length ∨ s.seq.state ≠ .lit ∧ t.seq.state = .lit ∧ t.period.index = 0

@[simp] theorem enterLit_state (s : State) : (enterLit s).seq.state = .lit := by
  rw [enterLit_eq]
  dsimp only
  split <;> simp [setSeqState]

@[simp] theorem enterLit_index (s : State) : (enterLit s).period.index = 0 := by
  rw [enterLit_eq]
  dsimp only
  split <;> simp [framed]

@[simp] theorem endGap_state (s : State) : (endGap s).seq.state = .lit := enterLit_state _

@[simp] theorem endGap_index (s : State) : (endGap s).period.index = 0 := enterLit_index _

/-- An installation changes P where it brings the settle limit of RESUMING to its counter alone (R124). -/
theorem reachLimits_lengthKept (s : State) : LengthKept s (reachLimits s) := by
  unfold reachLimits
  split
  · split <;> simp [LengthKept]
  · split <;> simp [LengthKept]
  · next hs =>
    have entered : s.seq.state ≠ .lit := by simp [hs]
    split
    · split
      · split
        · exact .inr ⟨entered, endGap_state _, endGap_index _⟩
        · exact .inl (by simp [reachLimits.reachAfterLoss])
      · exact .inr ⟨entered, endGap_state _, endGap_index _⟩
    · split <;> simp [LengthKept]
  · exact .inl rfl

theorem installStaged_lengthKept {thenDo : State → State} {s : State}
    (h : ∀ u, (thenDo u).period = u.period ∧ (thenDo u).seq = u.seq) : LengthKept s (installStaged thenDo s) := by
  unfold installStaged
  split
  · next t _ =>
    have := reachLimits_lengthKept (expireHold (s.setStore { s.store with settings := t, staged := none }))
    simpa [LengthKept, installSettings, h] using this
  · simp [LengthKept, h]

/-- An installation outside RESUMING leaves P (R190). -/
theorem installStaged_length {thenDo : State → State} {s : State} (hq : s.seq.state ≠ .resuming)
    (h : ∀ u, (thenDo u).period = u.period) : (installStaged thenDo s).period.length = s.period.length := by
  have hreach : ∀ u : State, u.seq.state ≠ .resuming → (reachLimits u).period.length = u.period.length := by
    intro u hu
    unfold reachLimits
    split
    · split <;> simp
    · split <;> simp
    · next hr => exact absurd hr hu
    · rfl
  unfold installStaged
  split
  · next t _ =>
    have := hreach (expireHold (s.setStore { s.store with settings := t, staged := none })) (by simpa using hq)
    simpa [h, installSettings] using this
  · simp [h]

/-- What follows LIT enters it again by no limit of an installation (R122, R190). -/
theorem leaveLit_length {s : State} (h : s.seq.state ≠ .resuming) :
    (leaveLit s).period.length = s.period.length := by
  unfold leaveLit
  dsimp only
  rw [installStaged_length (thenDo := id) (by simpa [restartTimers] using h) fun _ => rfl]
  simp [restartTimers]

/-! ## P at a step -/

theorem acceptBlank_length (s : State) : (acceptBlank s).period.length = s.period.length := by
  unfold acceptBlank
  dsimp only
  split
  · simp [leaveLit_length (s := enterDark _) (by simp [enterDark])]
  · simp
  · simp

theorem acceptApply_lengthKept (s : State) : LengthKept s (acceptApply s) := by
  unfold acceptApply
  dsimp only
  split
  · simp [LengthKept]
  · generalize hu : (if formatRight s.store.words = true then s else raiseNotice .settingsDefault s) = u
    have hperiod : u.period = s.period := by rw [← hu]; split <;> simp
    have hseq : u.seq = s.seq := by rw [← hu]; split <;> simp
    split
    · exact .inl (by simp [hperiod])
    · have := installStaged_lengthKept (thenDo := id)
        (s := u.setStore { u.store with staged := some (loadSettings u.store.words) }) fun _ => ⟨rfl, rfl⟩
      simpa [LengthKept, hperiod, hseq] using this

theorem acceptCode_lengthKept (code : Byte) (s : State) : LengthKept s (acceptCode code s) := by
  have kept : ∀ u : State, u.period = s.period → LengthKept s u := fun u h => .inl (by rw [h])
  unfold acceptCode
  refine ite_of ?_ <| ite_of ?_ <| ite_of ?_ <| ite_of (.inl (acceptBlank_length s)) <| ite_of ?_ <| ite_of ?_ <|
    ite_of ?_ <| ite_of ?_ <| ite_of ?_ <| ite_of ?_ <| ite_of (acceptApply_lengthKept s) ?_
  all_goals exact kept _ (by simp)

theorem serveCommand_lengthKept (view : BitVec 3) (w : WordIx) (d : Word) (s : State) :
    LengthKept s (serveCommand view w d s) := by
  have command : ∀ (code : Byte) (u : State), u.period = s.period → u.seq = s.seq →
      LengthKept s (acceptCommand code u) :=
    fun code u hp hq => by
      have := acceptCode_lengthKept code (u.setCmd { u.cmd with
        running := some { code := code, args := (argumentWords code).map (copyWord u.cmd), result := none
                          abortTaken := false, writes := [(0, commandWord code runningCode)] } })
      simpa [LengthKept, acceptCommand, hp, hq] using this
  unfold serveCommand
  dsimp only
  split
  · unfold seeStored
    split
    · split
      · simp [LengthKept]
      · exact command _ _ (by simp) (by simp)
    · split <;> simp [LengthKept]
  · simp [LengthKept]

@[simp] theorem limitLoad_takeTiming_period (s : State) : (limitLoad (takeTiming s)).period = framed s := by
  rw [limitLoad_takeTiming]
  split <;> simp

/-- What the frame end does to the index and the frame count, in LIT (R106). -/
theorem frameEnd_counts {s : State} (hl : s.seq.state = .lit) :
    (frameEnd s).seq.state = .lit ∧ (frameEnd s).period.index = 0 ∧
      (frameEnd s).period.frameCount = (s.period.frameCount + 1) % 65536 := by
  have counted : ∀ u : State, u.seq.state = .lit → u.period = s.period →
      let v := (limitLoad (takeTiming u)).setPeriod { (limitLoad (takeTiming u)).period with
        frameCount := ((limitLoad (takeTiming u)).period.frameCount + 1) % 65536 }
      v.seq.state = .lit ∧ v.period.index = 0 ∧ v.period.frameCount = (s.period.frameCount + 1) % 65536 :=
    fun u hq hp => by simp [hq, hp, framed]
  unfold frameEnd installStaged
  split
  · next t _ =>
    have := counted (installSettings t (requestBurst s)) (by simp [installSettings_of_lit, hl])
      (by simp [installSettings_of_lit, hl])
    dsimp only
    split <;> simpa using this
  · have := counted (requestBurst s) (by simpa using hl) (by simp)
    dsimp only
    split <;> simpa using this

/-- The frame end of LIT takes P anew, with the index at 0 and the frame counted (R106). -/
theorem endPeriod_length {p : Period} {s : State} (hl : s.seq.state = .lit) :
    (endPeriod p s).period.length = s.period.length ∨
      s.seq.state = .lit ∧ (endPeriod p s).seq.state = .lit ∧ s.period.index = 255 ∧
        (endPeriod p s).period.index = 0 ∧
        (endPeriod p s).period.frameCount = (s.period.frameCount + 1) % 65536 := by
  unfold endPeriod
  dsimp only
  split
  · next hi =>
    generalize hu : s.setPeriod _ = u
    obtain ⟨hq, hindex, hcount⟩ := frameEnd_counts (s := u) (by rw [← hu]; exact hl)
    exact .inr ⟨hl, by simpa using hq, hi, by simpa using hindex, by simpa [← hu] using hcount⟩
  · exact .inl (by simp)

/-- P is as it was, or a frame ended in LIT, or LIT is entered (R106, R107). -/
abbrev LengthMoves (s t : State) : Prop :=
  t.period.length = s.period.length ∨
    (s.seq.state = .lit ∧ t.seq.state = .lit ∧ s.period.index = 255 ∧ t.period.index = 0 ∧
      t.period.frameCount = (s.period.frameCount + 1) % 65536) ∨
    (s.seq.state ≠ .lit ∧ t.seq.state = .lit ∧ t.period.index = 0)

theorem goodLow_length (s : State) : (goodLowEffect s).period.length = s.period.length := by
  unfold goodLowEffect
  dsimp only
  split
  · exact leaveLit_length (by simp)
  all_goals simp

theorem effect_lengthMoves {i : Instr} {s t : State} (e : Effect i s t) : LengthMoves s t := by
  have kept : ∀ {u : State}, u.period.length = s.period.length → LengthMoves s u :=
    fun h => .inl h
  have entered : ∀ {u : State}, LengthKept s u → LengthMoves s u :=
    fun h => h.imp id .inr
  cases e with
  | commandServed v w d =>
    exact entered (by simpa [LengthKept] using serveCommand_lengthKept v w d (noteFirst (portGap s)))
  | commandCombined c w =>
    exact entered (by simpa [LengthKept] using serveCommand_lengthKept c.view w c.data (endCycle s))
  | messageEnded m scan t hm ho => exact kept (messageOutcome_period ho).length
  | periodEnded p _ hl _ => exact (endPeriod_length hl).imp id .inl
  | primingEnded p _ hq => exact .inr (.inr ⟨by simp [hq], enterLit_state _, enterLit_index _⟩)
  | resumed hq => exact .inr (.inr ⟨by simp [hq], endGap_state _, endGap_index _⟩)
  | stretched m scan freed _ => exact kept (stretchOutcome_period m scan freed s).length
  | linkFaulted m _ => exact kept (linkFault_period s).length
  | erased p | primed p => exact kept (by simp [eraseStrobe, primingStrobe])
  | sampleTaken level p _ _ =>
    refine kept ?_
    unfold takeSample
    dsimp only
    split <;> rfl
  | goodLow => exact kept (goodLow_length s)
  | _ => exact kept (by simp)

theorem tick_length (s : State) : (tick s).period.length = s.period.length := by simp [tickPeriod]

/-- Settles O57: each change keeps the laws, and P moves at the frame end of LIT, on entry to LIT and at a reset. -/
theorem periodLawsAreKept : Obligations.PeriodLawsAreKept := by
  intro s t h
  refine ⟨(step_evolves h).keeps sixthLaw_of_change ?_, (step_evolves h).keeps budgetLaw_of_change ?_, fun hne => ?_⟩
  · rintro s t ⟨q, hq⟩ ⟨hsettings, hstaged, htiming, -⟩
    exact ⟨hsettings, hstaged, htiming, fun hl => absurd hl (recordless_not_lit hq)⟩
  · rintro s t ⟨q, hq⟩ ⟨hwindow, -⟩
    exact ⟨hwindow, fun hl => absurd hl (recordless_not_lit hq)⟩
  · obtain ⟨sources, rest, hp, -⟩ | ⟨i, rest, he⟩ | rfl := step_effect h
    · exact .inr (.inr ⟨sources, rest, hp⟩)
    · obtain heq | hframe | hentry := effect_lengthMoves he
      · exact absurd heq hne
      · exact .inl hframe
      · exact .inr (.inl hentry)
    · exact absurd (tick_length s) hne

end Sys2Proof.Machine
end

