-- ==== Sys2Proof/Proofs/RecordLaws.lean ====
section
/-! PROOFS. The tenth law (R126): each change keeps it, and so does the loss of every record. -/

namespace Sys2Proof.Machine

open Safety

theorem rowSet_all_or (rows : RowSet) : RowSet.all ||| rows = RowSet.all := by
  rw [RowSet.all, BitVec.allOnes_or]

theorem hasRow_all (r : Row) : hasRow RowSet.all r = true := by
  rw [hasRow, RowSet.all, BitVec.getLsbD_allOnes]
  exact decide_eq_true r.isLt

/-- Without records every row is in the FILL set. -/
theorem inResync_of_noRecords {s : State} (h : NoRecords s) (r : Row) : inResync s r = true := by
  obtain ⟨-, -, -, -, hfill, -⟩ := h
  simp [inResync, hfill, hasRow_all]

/-- Without records a difference is dropped (R25, R126). -/
theorem merge_of_noRecords {s t : State} {r : Row} {w : WordIx} {rise fall : Word} (h : NoRecords s)
    (hm : mergeDifference r w rise fall s = some t) : t = s := by
  have hdropped : dropped s r w = true := by simp [dropped, inResync_of_noRecords h]
  obtain ⟨-, rfl⟩ | ⟨hd, -⟩ | ⟨hd, -⟩ := mergeDifference_cases hm
  · rfl
  · simp [hdropped] at hd
  · simp [hdropped] at hd

/-- A change in a state that holds no record, and by its sequencer may hold none, leaves it so. -/
theorem noRecords_of_change {s t : State} (c : Change s t) (hr : recordless t.seq.state = true)
    (h : recordless s.seq.state = true → NoRecords s) : NoRecords t := by
  cases c with
  | quiet hc =>
    obtain ⟨-, -, -, hw, ht, hs, ho, hl, -, -, -, -, -, -, hq, -⟩ := hc
    exact (noRecords_congr ht ho (by rw [hw]) hs hl).2 (h (hq ▸ hr))
  | phaseApplied op hl => exact absurd hl (recordless_not_lit hr)
  | writeAccepted c _ | cycleEnded _ =>
    obtain ⟨ht, ho, -, hrest⟩ := h hr
    exact ⟨ht, ho, by simp, hrest⟩
  | writeHeld held c hw hh hrow => simp [inResync_of_noRecords (h hr)] at hrow
  | merged hm _ =>
    have hseq : s.seq = _ := (mergeDifference_periods hm).2.1.symm
    have hn := h (hseq ▸ hr)
    exact merge_of_noRecords hn hm ▸ hn
  | fullAdded rows =>
    rw [addFull_of_recordless (by simpa using hr)]
    exact h (by simpa using hr)
  | fillAdded r _ =>
    obtain ⟨ht, ho, hw, hfull, hfill, hl⟩ := h hr
    exact ⟨by simp [ht, dropRow], ho, hw, hfull, (congrArg (· ||| oneRow r) hfill).trans (rowSet_all_or _), hl⟩
  | rowTaken r cursor op d ho hn | entryTaken e rest d ho hn =>
    have : recordless s.seq.state = true := hr
    rw [hn] at this
    cases this
  | opEnds ho =>
    have hseq : recordless s.seq.state = true := by
      revert hr
      simp only [opEnded]
      split <;> exact id
    have hn : s.sched.op = none := (h hseq).2.1
    rw [hn] at ho
    cases ho
  | opGoesOn op' ho | opReturned writes erases ho =>
    have hn : s.sched.op = none := (h hr).2.1
    rw [hn] at ho
    cases ho
  | cleared =>
    obtain ⟨-, -, hw, -⟩ := h hr
    exact ⟨rfl, rfl, hw, rfl, rfl, rfl⟩
  | seqTo q _ hq => exact h (hq hr)
  | litEntered q g hq => exact absurd hq (recordless_not_lit hr)
  | resets sources => exact ⟨rfl, rfl, nofun, rfl, rfl, rfl⟩
  | _ => exact h hr

/-- Settles O58: each change keeps the law, and where the panel is lost or blanked every record is replaced. -/
theorem tenthLawIsKept : Obligations.TenthLawIsKept := fun _ _ hs h =>
  (step_evolves h).keeps_of_noRecords (fun c hs hr => noRecords_of_change c hr hs) (fun hn _ => hn) hs

end Sys2Proof.Machine
end

