-- ==== Sys2Proof/Proofs/LineLaws.lean ====
section
/-! PROOFS. READY and the attention line, which each change keeps with their blocks (R7, R9, R15, R175); and the
panel's drive lines and the link's lines as functions of the state (R69, R70, R99 to R102, R110). -/

namespace Sys2Proof.Machine

open Safety

/-! ## READY and attention -/

theorem mergeDifference_bus {r : Row} {w : WordIx} {rise fall : Word} {s t : State}
    (h : mergeDifference r w rise fall s = some t) : t.bus = s.bus ∧ t.wmu = s.wmu := by
  have := mergeDifference_frame h
  simp_all

theorem readyFollows_of_change {s t : State} (c : Change s t) (h : ReadyFollows s) : ReadyFollows t := by
  have h' := h
  obtain ⟨hready, hclear⟩ := h'
  cases c with
  | quiet hc =>
    obtain ⟨-, hr, hc, hw, -⟩ := hc
    simpa only [ReadyFollows, hr, hc, hw] using h
  | writeAccepted c hr =>
    have hheld : s.bus.clearHeld = false := (hready.1 hr).2
    exact ⟨by simp, fun hc => by simp [hheld] at hc⟩
  | cycleEnded hw =>
    have hheld : s.bus.clearHeld = false := by
      obtain hw | hr := hw
      · exact Bool.eq_false_iff.2 fun hc => hw (hclear hc)
      · exact (hready.1 hr).2
    exact ⟨by simp [endCycle, hheld], fun _ => rfl⟩
  | writeHeld held c hw =>
    have hnot : s.wmu.state ≠ .idle := by simp [hw]
    have hlow : s.bus.ready = false := Bool.eq_false_iff.2 fun hr => hnot (hready.1 hr).1
    exact ⟨by simp [hlow], fun hc => absurd (hclear hc) hnot⟩
  | clearBegun hr => exact ⟨by simp, fun _ => (hready.1 hr).1⟩
  | clearDone hc => exact ⟨by simpa using hclear hc, nofun⟩
  | merged hm _ =>
    obtain ⟨hb, hw⟩ := mergeDifference_bus hm
    simpa only [ReadyFollows, hb, hw] using h
  | fullAdded rows => simpa [ReadyFollows] using h
  | opEnds ho => next op => cases hk : op.kind <;> exact h
  | resets sources => exact ⟨by simp [resetState, State.reset], nofun⟩
  | _ => exact h

theorem attentionFollows_of_change {s t : State} (c : Change s t) (h : AttentionFollows s) : AttentionFollows t := by
  cases c with
  | quiet hc =>
    obtain ⟨-, -, -, -, -, -, -, -, -, -, -, -, -, -, -, -, hn, ha, -⟩ := hc
    simpa only [AttentionFollows, hn, ha] using h
  | notices v => rfl
  | merged hm _ =>
    obtain ⟨-, rfl⟩ | ⟨-, e, e', -, -, ⟨-, rfl⟩ | ⟨-, rfl⟩⟩ | ⟨-, -, -, rfl⟩ := mergeDifference_cases hm <;> exact h
  | fullAdded rows => simpa [AttentionFollows] using h
  | opEnds ho => next op => cases hk : op.kind <;> exact h
  | resets sources =>
    simp only [AttentionFollows, resetState, resetNotices]
    cases formatRight (cutStore s.freeCount s.store) <;> rfl
  | _ => exact h

/-! ## The panel's lines -/

theorem pulseAt_iff (start w tick : Nat) : pulseAt start w tick = true ↔ InPulse start w tick := by
  simp [pulseAt, InPulse]

/-- The panel's lines are those of the current period, at its tick (R95, R99 to R102, R110). -/
theorem panelLinesFollow (s : State) : PanelLinesFollow s := by
  refine ⟨fun hn => ?_, fun p hp hk => ?_, fun p r k hp hk hf => ?_, fun p hp hk => ?_, ?_⟩
  · simp [xDrive, yDrive, rowSelect, columnStrobe, hn]
  · simp [xDrive, yDrive, rowSelect, columnStrobe, hp, hk, pulseAt_iff]
  · simp [xDrive, yDrive, rowSelect, columnStrobe, hp, hk, hf, pulseAt_iff, periodLength]
  · simp [xDrive, yDrive, rowSelect, columnStrobe, hp, hk, pulseAt_iff, periodLength]
  · unfold driverClear
    cases s.period.clearPulse <;> simp

/-! ## The link's lines -/

/-- The lines in a half-bit of a part of the course, with the byte in hand (R70). -/
def halfAt (b : Byte) (part : CoursePart) (half : Nat) : HalfBit := (partHalves b part).getD half (true, true)

/-- A message or an attempt on the link drives the lines of its part (R69, R70). -/
theorem linkLines_of_inUse {s : State} (h : LinkInUse s.link) :
    ∃ b, linkLines s = halfAt b s.link.course.part s.link.course.half := by
  unfold linkLines
  cases hm : s.link.message with
  | some m => exact ⟨_, rfl⟩
  | none => exact ⟨0, by simp [h.resolve_left (by simp [hm]), halfAt]⟩

/-- The byte in hand of a message drives the lines (R70, R80). -/
theorem linkLines_of_message {s : State} {m : Message} {b : Byte} (hm : s.link.message = some m)
    (hb : (messageBytes m)[m.bytesSent]? = some b) :
    linkLines s = halfAt b s.link.course.part s.link.course.half := by
  have hhead : ((messageBytes m).drop m.bytesSent).headD 0 = b := by
    rw [List.headD_eq_head?_getD, List.head?_drop, hb]
    rfl
  simp only [linkLines, hm, hhead, halfAt]

theorem linkLines_of_free {s : State} (h : ¬ LinkInUse s.link) : linkLines s = (true, true) := by
  obtain ⟨hm, ha⟩ := not_or.1 h
  simp [linkLines, not_not.1 hm, ha]

/-- Where a part gives no clock both lines are released (R69, R79). -/
theorem halfAt_released {part : CoursePart} (h : part ∈ [CoursePart.check, .recheck, .ended]) (b : Byte) (half : Nat) :
    halfAt b part half = (true, true) := by
  simp only [List.mem_cons, List.not_mem_nil, or_false] at h
  obtain rfl | rfl | rfl := h <;> rfl

theorem halfAt_opening {half : Nat} (h : half < 2) (b : Byte) :
    halfAt b .opening half = (true, decide (half % 2 = 0)) := by
  interval_cases half <;> rfl

theorem halfAt_closing {part : CoursePart} (hp : part ∈ [CoursePart.closing, .checkClose]) {half : Nat} (h : half < 2)
    (b : Byte) : halfAt b part half = (decide (¬ half % 2 = 0), false) := by
  simp only [List.mem_cons, List.not_mem_nil, or_false] at hp
  obtain rfl | rfl := hp <;> interval_cases half <;> rfl

theorem halfAt_attempt {half : Nat} (h : half < 2) (b : Byte) : halfAt b .attempt half = (true, false) := by
  interval_cases half <;> rfl

/-- Clock pulses leave LDA released (R79, R83, R88). -/
theorem halfAt_clocked {part : CoursePart} (hp : part ∈ [CoursePart.pulses, .clocks, .spoiled]) {half : Nat}
    (h : half < partLength part) (b : Byte) : halfAt b part half = (decide (¬ half % 2 = 0), true) := by
  simp only [List.mem_cons, List.not_mem_nil, or_false] at hp
  obtain rfl | rfl | rfl := hp <;> simp only [partLength] at h <;> interval_cases half <;> rfl

/-- The data bits of a byte, the most significant first (R70). -/
theorem halfAt_dataBit {half : Nat} (h : half < 16) (b : Byte) :
    halfAt b .byte half = (decide (¬ half % 2 = 0), b.getLsbD (7 - half / 2)) := by
  interval_cases half <;> rfl

/-- The link's lines are those of its course (R69, R70, R79, R82, R83, R88). -/
theorem linkLinesFollow (s : State) : LinkLinesFollow s := by
  refine ⟨linkLines_of_free, fun hp => ?_, fun hu => ?_, fun m b hm hb hp => ?_⟩
  · by_cases hu : LinkInUse s.link
    · obtain ⟨b, hb⟩ := linkLines_of_inUse hu
      rw [hb, halfAt_released hp]
    · exact linkLines_of_free hu
  · obtain ⟨b, hb⟩ := linkLines_of_inUse hu
    rw [hb]
    refine ⟨fun hp h => ?_, fun hp h => halfAt_closing hp h b, fun hp h => ?_, fun hp h => halfAt_clocked hp h b⟩
    · rw [hp, halfAt_opening h]
    · rw [hp, halfAt_attempt h]
  · rw [linkLines_of_message hm hb, hp]
    exact ⟨fun h => halfAt_dataBit h b, fun h => by rw [h]; rfl, fun h => by rw [h]; rfl⟩

/-- Settles O59: each change keeps READY and attention, and the lines are those of their blocks in every state. -/
theorem linesFollowTheirBlocks : Obligations.LinesFollowTheirBlocks := by
  refine ⟨fun s t h => ⟨(step_evolves h).keeps readyFollows_of_change ?_,
    (step_evolves h).keeps attentionFollows_of_change ?_⟩, fun s => ⟨panelLinesFollow s, linkLinesFollow s⟩⟩
  · rintro s t ⟨q, -⟩ hs
    exact hs
  · rintro s t ⟨q, -⟩ hs
    exact hs

end Sys2Proof.Machine
end

