-- ==== Sys2Proof/Proofs/CommandFrames.lean ====
section
/-! PROOFS. What an operation leaves of all that blocks hold for commands, with the handler, the sequencer's state and
the current period: most operations leave them all. -/

namespace Sys2Proof.Machine

open Safety

/-- Nothing that blocks hold for a command is changed, nor the handler, the sequencer's state or the period. -/
abbrev CommandKept (s t : State) : Prop :=
  t.cmd = s.cmd ∧ t.area.isSome = s.area.isSome ∧ t.sched.clearWaiting = s.sched.clearWaiting ∧
    t.link.round = s.link.round ∧ t.store.staged = s.store.staged ∧ t.store.op = s.store.op ∧
    t.seq.state = s.seq.state ∧ t.period.current = s.period.current

theorem CommandKept.refl (s : State) : CommandKept s s := ⟨rfl, rfl, rfl, rfl, rfl, rfl, rfl, rfl⟩

theorem CommandKept.trans {s t u : State} (h : CommandKept s t) (k : CommandKept t u) : CommandKept s u := by
  obtain ⟨h1, h2, h3, h4, h5, h6, h7, h8⟩ := h
  obtain ⟨k1, k2, k3, k4, k5, k6, k7, k8⟩ := k
  exact ⟨k1.trans h1, k2.trans h2, k3.trans h3, k4.trans h4, k5.trans h5, k6.trans h6, k7.trans h7, k8.trans h8⟩

/-- A state whose parts are those of another in every respect but what commands do not meet. -/
theorem commandKept_of_eq {s t : State} (hc : t.cmd = s.cmd) (ha : t.area = s.area) (hw : t.sched = s.sched)
    (hl : t.link = s.link) (hs : t.store = s.store) (hq : t.seq = s.seq) (hp : t.period = s.period) :
    CommandKept s t := ⟨hc, by rw [ha], by rw [hw], by rw [hl], by rw [hs], by rw [hs], by rw [hq], by rw [hp]⟩

/-! ## Requests, notices and the hold -/

theorem raiseNotice_kept (n : Notice) (s : State) : CommandKept s (raiseNotice n s) := by simp [CommandKept]

theorem unitEnds_kept (p : Bool) (s : State) : CommandKept s (unitEnds p s) := by simp [CommandKept]

theorem requestClear_kept (s : State) : CommandKept s (requestClear s) := by simp [CommandKept, requestClear]

theorem mergeDifference_kept {r : Row} {w : WordIx} {rise fall : Word} {s t : State}
    (h : mergeDifference r w rise fall s = some t) : CommandKept s t := by
  simp [CommandKept, mergeDifference_frame h]

theorem offerHeld_kept (h : HeldChange) (s : State) : CommandKept s (offerHeld h s) := by
  obtain ⟨t, hm, heq⟩ | ⟨-, heq⟩ := offerHeld_cases h s
  · rw [heq]
    exact .trans (mergeDifference_kept hm) (by simp [CommandKept])
  · rw [heq]
    exact .refl s

theorem settleHold_kept (s : State) : CommandKept s (settleHold s) := by
  have drawn : CommandKept s (drawFree s) := by simp [CommandKept]
  unfold settleHold
  split
  · split
    · simp [CommandKept]
    · split
      · split
        · exact .trans drawn (by simp [CommandKept, grantArea])
        · exact .trans drawn (offerHeld_kept _ _)
      · exact offerHeld_kept _ s
  · exact .refl s

theorem addFull_kept (rows : RowSet) (s : State) : CommandKept s (addFull rows s) := by simp [CommandKept]

theorem requestFull_kept (rows : RowSet) (s : State) : CommandKept s (requestFull rows s) :=
  ite_of (.refl s) (.trans (addFull_kept rows s) (settleHold_kept _))

theorem requestFill_kept (r : Row) (s : State) : CommandKept s (requestFill r s) :=
  ite_of (.refl s) (.trans (by simp [CommandKept]) (settleHold_kept _))

theorem degradeHeld_kept (r : Row) (s : State) : CommandKept s (degradeHeld r s) :=
  .trans (requestFull_kept (oneRow r) s) (by simp [CommandKept, degradeHeld])

theorem placeOrHold_kept (h : HeldChange) (s : State) : CommandKept s (placeOrHold h s) := by
  unfold placeOrHold
  split
  · next hm => exact .trans (mergeDifference_kept hm) (by simp [CommandKept])
  · exact ite_of (degradeHeld_kept _ s) (by simp [CommandKept])

theorem mergeBack_kept (r : Row) (writes erases : Mask) (s : State) : CommandKept s (mergeBack r writes erases s) := by
  refine ite_of (.trans ?_ (settleHold_kept _)) (ite_of (.trans ?_ (settleHold_kept _))
    (.trans ?_ (settleHold_kept _))) <;> simp [CommandKept]

theorem dropHold_kept (s : State) : CommandKept s (dropHold s) := by simp [CommandKept]

theorem setOp_kept (op : Option RowOp) (s : State) : CommandKept s (setOp op s) := by simp [CommandKept, setOp]

/-- The loss of the records leaves what commands hold (R35, R125). -/
theorem noRecord_kept (s : State) : CommandKept s (setOp none (allRowsDark s)) := by
  rw [noRecord_eq]
  exact .trans (by simp [CommandKept, recordsCleared, setOp]) (dropHold_kept _)

/-! ## Row operations and the link -/

theorem beginMessage_kept (m : Message) (s : State) : CommandKept s (beginMessage m s) := by
  simp [CommandKept, beginMessage]

theorem linkNext_kept (s : State) : CommandKept s (linkNext s) := by
  unfold linkNext
  refine ite_of (.refl s) ?_
  split
  · exact .trans (t := s.setLink { s.link with waiting := none }) (by simp [CommandKept]) (beginMessage_kept _ _)
  · refine ite_of (.refl s) ?_
    split
    · exact beginMessage_kept _ s
    · exact .refl s

theorem handSlice_kept (v : Slice) (s : State) : CommandKept s (handSlice v s) :=
  ite_of (by simp [CommandKept]) (beginMessage_kept _ s)

theorem handFirst_kept (v : Slice) (s : State) : CommandKept s (handFirst v s) := by
  unfold handFirst
  refine ite_of ?_ (handSlice_kept v s)
  split
  · refine ite_of (.trans ?_ (beginMessage_kept _ _)) (.trans ?_ (beginMessage_kept _ _)) <;> simp [CommandKept]
  · exact .refl s

theorem freeTaken_kept (kind : OpKind) (s : State) : CommandKept s (freeTaken kind s) := by
  unfold freeTaken
  split
  · exact .trans (by simp [CommandKept]) (settleHold_kept _)
  · exact .refl s

theorem completeOp_kept (op : RowOp) (s : State) : CommandKept s (completeOp op s) :=
  .trans (setOp_kept none s) (freeTaken_kept _ _)

theorem enterLoading_kept (op : RowOp) (m : ModuleNo) (rest : List ModuleNo) (s : State) :
    CommandKept s (enterLoading op m rest s) := .trans (setOp_kept _ s) (handFirst_kept _ _)

theorem countDropped_kept (n : Nat) (s : State) : CommandKept s (countDropped n s) := by simp [CommandKept]

theorem startWrite_kept (op : RowOp) (s : State) : CommandKept s (startWrite op s) := by
  unfold startWrite
  dsimp only
  split
  · exact .trans (countDropped_kept _ s) (completeOp_kept _ _)
  · exact .trans (countDropped_kept _ s) (enterLoading_kept _ _ _ _)

theorem startErase_kept (op : RowOp) (s : State) : CommandKept s (startErase op s) := by
  unfold startErase
  dsimp only
  split
  · exact .trans (countDropped_kept _ s) (startWrite_kept _ _)
  · exact .trans (countDropped_kept _ s) (enterLoading_kept _ _ _ _)

theorem phaseDone_kept (op : RowOp) (s : State) : CommandKept s (phaseDone op s) := by
  unfold phaseDone
  split
  · exact startWrite_kept _ s
  · exact completeOp_kept _ s

theorem loadNext_kept (op : RowOp) (s : State) : CommandKept s (loadNext op s) := by
  unfold loadNext
  split
  · exact .trans (setOp_kept _ s) (handSlice_kept _ _)
  · exact ite_of (phaseDone_kept op s) (setOp_kept _ s)

theorem giveBack_kept (op : RowOp) (s : State) : CommandKept s (giveBack op s) := by
  unfold giveBack
  split
  · exact mergeBack_kept _ _ _ s
  · exact ite_of (requestFill_kept _ s) (requestFull_kept _ s)
  · exact requestFill_kept _ s

theorem returnOp_kept (op : RowOp) (s : State) : CommandKept s (returnOp op s) := by
  unfold returnOp
  dsimp only
  split
  · exact .trans (.trans (setOp_kept none s) (requestClear_kept _)) (giveBack_kept op _)
  · exact .trans (setOp_kept none s) (giveBack_kept op _)

theorem schedulerFault_kept (s : State) : CommandKept s (schedulerFault s) := by
  unfold schedulerFault
  split
  · exact ite_of (setOp_kept _ s) (returnOp_kept _ s)
  · exact .refl s

theorem reportSlice_kept (loaded : Bool) (m : ModuleNo) (s : State) : CommandKept s (reportSlice loaded m s) := by
  unfold reportSlice
  split
  · exact ite_of (loadNext_kept _ s) (.trans (countDropped_kept _ s) (loadNext_kept _ _))
  · exact .refl s

theorem afterStrobe_kept (op : RowOp) (s : State) : CommandKept s (afterStrobe op s) :=
  ite_of (returnOp_kept _ s) (phaseDone_kept op s)

/-! ## Units of the port -/

theorem takeWork_kept (s : State) : CommandKept s (takeWork s) := by
  have row : ∀ u, CommandKept u (takeWork.takeResync u) := fun u => by
    unfold takeWork.takeResync takeRow
    split
    · exact ⟨rfl, rfl, rfl, rfl, rfl, rfl, rfl, rfl⟩
    · exact .refl u
  unfold takeWork
  split
  · refine ite_of (.trans ?_ (startErase_kept _ _)) (row s)
    simp [CommandKept]
  · exact row s

theorem snapshotUnit_kept (op : RowOp) (c : Nat) (s : State) : CommandKept s (snapshotUnit op c s) := by
  have ended : ∀ u, CommandKept s u → CommandKept s (unitEnds false u) := fun u h => h.trans (by simp [CommandKept])
  have drawn : CommandKept s (drawFree s) := by simp [CommandKept]
  exact ended _ (ite_of (startErase_kept _ s) (drawn.trans (setOp_kept _ _)))

theorem askSnapshot_kept (s : State) : CommandKept s (askSnapshot s) := by
  unfold askSnapshot
  split
  · exact ite_of (setOp_kept _ s) (.refl s)
  · exact .refl s

theorem placeArea_kept (offer : Bool) (r : Row) (w : WordIx) (rise fall : Word) (s : State) :
    CommandKept s (placeArea offer r w rise fall s) := by
  unfold placeArea
  refine ite_of (ite_of (settleHold_kept s) (.refl s)) ?_
  split
  · next hm => exact .trans (mergeDifference_kept hm) (settleHold_kept _)
  · exact .trans (requestFull_kept (oneRow r) s) (by simp [CommandKept])

theorem serveImage_kept (view : BitVec 3) (r : Row) (w : WordIx) (d : Word) (s : State) :
    CommandKept s (serveImage view r w d s) := by
  unfold serveImage
  exact ite_of (by simp [CommandKept]) (.trans (by simp [CommandKept]) (placeOrHold_kept _ _))

theorem noticeUpdateUnit_kept (s : State) : CommandKept s (noticeUpdateUnit s) := by simp [CommandKept]

theorem burstUnit_kept (s : State) : CommandKept s (burstUnit s) := by simp [CommandKept]

end Sys2Proof.Machine
end

