-- ==== Sys2Proof/Proofs/CommandLaws.lean ====
section
/-! PROOFS. What blocks hold for commands is the running command's (R48, R90, R149, R181), and the ninth law (R100):
each operation keeps them, those that hand a result with their block released before. -/

namespace Sys2Proof.Machine

open Safety

/-! ## Results -/

/-- The running command, if it has no result yet, has this code. -/
abbrev CodeOpen (code : Byte) (s : State) : Prop :=
  ∀ r, s.cmd.running = some r → r.result = none → r.code = code

/-- The blocks of a command of this code hold nothing for it. -/
abbrev Released (code : Byte) (s : State) : Prop :=
  (code = 0x03 → s.area = none) ∧ (code = 0x02 → s.sched.clearWaiting = false) ∧
    (code = 0x06 → s.link.round = none) ∧ (code = 0x12 → s.store.staged = none) ∧
    (code = 0x10 ∨ code = 0x11 → s.store.op = .none)

theorem codeOpen_of_runsOpen {code : Byte} {s : State} (h : RunsOpen s code) : CodeOpen code s := by
  obtain ⟨r, hr, hcode, -⟩ := h
  intro r' hr' _
  obtain rfl : r = r' := Option.some_inj.1 (hr.symm.trans hr')
  exact hcode

/-- What a command hands its result with, in the handler. -/
theorem finishCommand_running {res : Result} {words : List (WordIx × Word)} {s : State} {r : Running}
    (h : s.cmd.running = some r) :
    ∃ r', (finishCommand res words s).cmd.running = some r' ∧ r'.code = r.code ∧ r'.args = r.args ∧
      r'.result ≠ none := by
  cases hr : r.result with
  | none =>
    rw [finishCommand_of_running h hr]
    exact ⟨{ r with result := some (resultCode res)
                    writes := r.writes ++ words ++ [(0, commandWord r.code (resultCode res))] },
      by simp, rfl, rfl, nofun⟩
  | some v =>
    rw [finishCommand_of_done fun r' hr' => ?_]
    · exact ⟨r, h, rfl, rfl, by simp [hr]⟩
    · obtain rfl : r = r' := Option.some_inj.1 (h.symm.trans hr')
      simp [hr]

@[simp] theorem finishCommand_copy (res : Result) (words : List (WordIx × Word)) (s : State) :
    (finishCommand res words s).cmd.copy = s.cmd.copy := by
  unfold finishCommand
  split
  · rfl
  · split
    · rfl
    · simp

/-- With its block released, a command hands its result and leaves nothing that blocks hold (R168). -/
theorem blocksOwned_finish {code : Byte} {res : Result} {words : List (WordIx × Word)} {s : State}
    (h : BlocksOwned s) (hc : CodeOpen code s) (hr : Released code s) :
    BlocksOwned (finishCommand res words s) := by
  by_cases hopen : ∃ r, s.cmd.running = some r ∧ r.result = none
  · obtain ⟨r, hrun, hres⟩ := hopen
    have code_eq : ∀ c, RunsOpen s c → c = code := fun c ho =>
      (codeOpen_of_runsOpen ho r hrun hres).symm.trans (hc r hrun hres)
    obtain ⟨harea, hwait, hround, hstaged, hop⟩ := h
    obtain ⟨rarea, rwait, rround, rstaged, rop⟩ := hr
    refine ⟨fun ha => ?_, fun hw => ?_, fun hl => ?_, fun hs => ?_, fun ho => ?_⟩
    · have ha : s.area.isSome = true := by simpa using ha
      simp [rarea (code_eq _ (harea ha)).symm] at ha
    · have hw : s.sched.clearWaiting = true := by simpa using hw
      simp [rwait (code_eq _ (hwait hw)).symm] at hw
    · have hl : s.link.round.isSome = true := by simpa using hl
      simp [rround (code_eq _ (hround hl)).symm] at hl
    · have hs : s.store.staged.isSome = true := by simpa using hs
      simp [rstaged (code_eq _ (hstaged hs)).symm] at hs
    · have ho : s.store.op ≠ .none := by simpa using ho
      exact absurd (rop ((hop ho).imp (fun k => (code_eq _ k).symm) fun k => (code_eq _ k).symm)) ho
  · rw [finishCommand_of_done fun r hrun hres => hopen ⟨r, hrun, hres⟩]
    exact h

/-! ## The running command goes on -/

/-- The copy stays, and the handler stays IDLE or its command goes on with its code, its arguments and its result. -/
structure HandlerGoesOn (s t : State) : Prop where
  copy : t.cmd.copy = s.cmd.copy
  idle : s.cmd.running = none → t.cmd.running = none
  running : ∀ r, s.cmd.running = some r →
    ∃ r', t.cmd.running = some r' ∧ r'.code = r.code ∧ r'.args = r.args ∧ (r'.result = none → r.result = none)

theorem HandlerGoesOn.trans {s t u : State} (h : HandlerGoesOn s t) (k : HandlerGoesOn t u) : HandlerGoesOn s u where
  copy := k.copy.trans h.copy
  idle hs := k.idle (h.idle hs)
  running r hr := by
    obtain ⟨r', hr', hcode, hargs, hres⟩ := h.running r hr
    obtain ⟨r'', hr'', hcode', hargs', hres'⟩ := k.running r' hr'
    exact ⟨r'', hr'', hcode'.trans hcode, hargs'.trans hargs, hres ∘ hres'⟩

theorem handlerGoesOn_of_eq {s t : State} (hc : t.cmd = s.cmd) : HandlerGoesOn s t where
  copy := by rw [hc]
  idle hs := by rw [hc, hs]
  running r hr := ⟨r, by rw [hc, hr], rfl, rfl, id⟩

/-- A command that hands its result goes on, as its words are still to be written (R168). -/
theorem HandlerGoesOn.finish {res : Result} {words : List (WordIx × Word)} {s t : State} (h : HandlerGoesOn s t) :
    HandlerGoesOn s (finishCommand res words t) where
  copy := by rw [finishCommand_copy, h.copy]
  idle hs := by
    rw [finishCommand_of_done fun r hr => ?_, h.idle hs]
    simp [h.idle hs] at hr
  running r hrun := by
    obtain ⟨r', hrun', hcode, hargs, -⟩ := h.running r hrun
    obtain ⟨r'', hrun'', hcode', hargs', hres⟩ := finishCommand_running (res := res) (words := words) hrun'
    exact ⟨r'', hrun'', hcode'.trans hcode, hargs'.trans hargs, fun hn => absurd hn hres⟩

/-- The command goes on, and blocks hold what they hold for it. -/
structure CommandGoesOn (s t : State) : Prop extends HandlerGoesOn s t where
  owned : BlocksOwned s → BlocksOwned t

theorem CommandGoesOn.trans {s t u : State} (h : CommandGoesOn s t) (k : CommandGoesOn t u) : CommandGoesOn s u where
  toHandlerGoesOn := h.toHandlerGoesOn.trans k.toHandlerGoesOn
  owned hs := k.owned (h.owned hs)

/-- The handler stays, and no block takes anything. -/
theorem goesOn_of_blocks {s t : State} (hc : t.cmd = s.cmd) (ha : t.area.isSome = true → s.area.isSome = true)
    (hw : t.sched.clearWaiting = true → s.sched.clearWaiting = true)
    (hl : t.link.round.isSome = true → s.link.round.isSome = true)
    (hs : t.store.staged.isSome = true → s.store.staged.isSome = true)
    (ho : t.store.op ≠ .none → s.store.op ≠ .none) : CommandGoesOn s t where
  toHandlerGoesOn := handlerGoesOn_of_eq hc
  owned h := by
    obtain ⟨harea, hwait, hround, hstaged, hop⟩ := h
    simp only [BlocksOwned, RunsOpen, hc]
    exact ⟨harea ∘ ha, hwait ∘ hw, hround ∘ hl, hstaged ∘ hs, hop ∘ ho⟩

theorem CommandKept.goesOn {s t : State} (h : CommandKept s t) : CommandGoesOn s t := by
  obtain ⟨hc, ha, hw, hl, hs, ho, -, -⟩ := h
  exact goesOn_of_blocks hc (by rw [ha]; exact id) (by rw [hw]; exact id) (by rw [hl]; exact id)
    (by rw [hs]; exact id) (by rw [ho]; exact id)

theorem CommandGoesOn.refl (s : State) : CommandGoesOn s s := (CommandKept.refl s).goesOn

theorem CommandGoesOn.codeOpen {code : Byte} {s t : State} (h : CommandGoesOn s t) (hc : CodeOpen code s) :
    CodeOpen code t := by
  intro r' hr' hres'
  cases hs : s.cmd.running with
  | none => simp [h.idle hs] at hr'
  | some r =>
    obtain ⟨r'', hr'', hcode, -, hres⟩ := h.running r hs
    obtain rfl : r'' = r' := Option.some_inj.1 (hr''.symm.trans hr')
    exact hcode.trans (hc r hs (hres hres'))

/-- A command hands its result once its blocks are released. -/
theorem CommandGoesOn.finish {res : Result} {words : List (WordIx × Word)} {s t : State}
    (h : CommandGoesOn s t) (hc : BlocksOwned s → ∃ code, CodeOpen code s ∧ Released code t) :
    CommandGoesOn s (finishCommand res words t) where
  toHandlerGoesOn := h.toHandlerGoesOn.finish
  owned hs := by
    obtain ⟨code, hopen, hreleased⟩ := hc hs
    exact blocksOwned_finish (h.owned hs) (h.codeOpen hopen) hreleased

theorem CommandGoesOn.ite {c : Prop} [Decidable c] {s t u : State} (h : CommandGoesOn s t) (k : CommandGoesOn s u) :
    CommandGoesOn s (if c then t else u) := ite_of h k

/-! ## The link -/

theorem released_round {s : State} (h : s.link.round = none) : Released 0x06 s :=
  ⟨nofun, nofun, fun _ => h, nofun, nofun⟩

theorem endRound_goesOn (res : Result) (s : State) : CommandGoesOn s (endRound res s) := by
  unfold endRound
  split
  · next r hr =>
    dsimp only
    let u := s.setLink { s.link with round := none }
    have off : CommandGoesOn s u := goesOn_of_blocks rfl id id nofun id id
    have asked : CommandGoesOn s (if r.restored then requestFull RowSet.all u else u) :=
      .ite (off.trans (requestFull_kept _ u).goesOn) off
    have hround : (if r.restored then requestFull RowSet.all u else u).link.round = none := by
      split
      · exact (requestFull_kept _ u).2.2.2.1
      · rfl
    exact asked.finish fun ho => ⟨_, codeOpen_of_runsOpen (ho.2.2.1 (by simp [hr])), released_round hround⟩
  · exact .refl s

theorem linkFault_goesOn (s : State) : CommandGoesOn s (linkFault s) := by
  unfold linkFault
  dsimp only
  generalize hl : s.setLink _ = l
  have faulted : CommandKept s l := by rw [← hl]; simp [CommandKept]
  have raised := faulted.trans (raiseNotice_kept .linkFault l)
  have asked := ite_of (c := (match s.link.message with | some m => m.beforeLoss | none => false) = true)
    (raised.trans (requestClear_kept _)) raised
  exact (asked.trans (schedulerFault_kept _)).goesOn.trans (endRound_goesOn _ _)

theorem roundNext_goesOn (restored : Bool) (s : State) : CommandGoesOn s (roundNext restored s) := by
  unfold roundNext
  split
  · next r hr =>
    dsimp only
    have left : ∀ v : ProbeRound, CommandGoesOn s (s.setLink { s.link with round := some v }) := fun v =>
      goesOn_of_blocks rfl id id (fun _ => by simp [hr]) id id
    exact .ite ((left _).trans (endRound_goesOn _ _)) (left _)
  · exact .refl s

theorem messageSucceeded_goesOn (m : Message) (s : State) : CommandGoesOn s (messageSucceeded m s) := by
  unfold messageSucceeded
  dsimp only
  generalize hu : (endMessage s).setLatches _ = u
  have ended : CommandKept s u := by rw [← hu]; simp [CommandKept, endMessage]
  split
  · refine .ite (CommandKept.goesOn ?_) (CommandKept.goesOn ?_)
    · exact .trans (.trans ended (requestClear_kept _)) (linkNext_kept _)
    · exact .trans (.trans ended (reportSlice_kept _ _ _)) (linkNext_kept _)
  · have restored : CommandKept u (u.setLink { u.link with failed := u.link.failed &&& ~~~oneModule m.modNo }) := by
      simp [CommandKept]
    exact .trans (.trans (ended.trans restored).goesOn (roundNext_goesOn _ _)) (linkNext_kept _).goesOn

theorem messageFailed_goesOn (m : Message) (s : State) : CommandGoesOn s (messageFailed m s) := by
  have ended : CommandKept s (endMessage s) := by simp [CommandKept, endMessage]
  unfold messageFailed
  split
  · refine .ite (CommandKept.goesOn ?_) ?_
    · exact .trans (.trans ended (requestClear_kept _)) (linkNext_kept _)
    · split
      · exact (CommandKept.trans (by simp [CommandKept]) (beginMessage_kept _ _)).goesOn
      · refine (CommandKept.trans (.trans (.trans ?_ (raiseNotice_kept _ _)) (reportSlice_kept _ _ _))
          (linkNext_kept _)).goesOn
        simp [CommandKept]
  · exact .trans (ended.goesOn.trans (roundNext_goesOn _ _)) (linkNext_kept _).goesOn

theorem messageOutcome_goesOn {m : Message} {scan : ByteScan} {s t : State} (h : messageOutcome m scan s = some t) :
    CommandGoesOn s t := by
  unfold messageOutcome at h
  split at h <;> cases h
  · exact messageSucceeded_goesOn m s
  · exact messageFailed_goesOn m s
  · exact .trans (CommandKept.goesOn (by simp [CommandKept])) (messageFailed_goesOn m _)

theorem stretchOutcome_goesOn (m : Message) (scan : ByteScan) (freed : Bool) (s : State) :
    CommandGoesOn s (stretchOutcome m scan freed s) := by
  have ended : ∀ u v : State, CommandKept s u → CommandKept s v →
      CommandGoesOn s (if freed then messageFailed m u else linkFault v) := fun u v hu hv =>
    .ite (hu.goesOn.trans (messageFailed_goesOn m u)) (hv.goesOn.trans (linkFault_goesOn v))
  unfold stretchOutcome
  cases scan <;> exact ended _ _ (by simp [CommandKept]) (by simp [CommandKept])

/-! ## Areas -/

theorem released_area {s : State} (h : s.area = none) : Released 0x03 s :=
  ⟨fun _ => h, nofun, nofun, nofun, nofun⟩

theorem completeArea_goesOn {a : AreaOp} {s t : State} (h : CommandGoesOn s t) (ha : BlocksOwned s → CodeOpen 0x03 s) :
    CommandGoesOn s (completeArea a t) := by
  have off : CommandGoesOn t (t.setArea none) := goesOn_of_blocks rfl nofun id id id id
  exact (h.trans off).finish fun ho => ⟨_, ha ho, released_area rfl⟩

theorem areaNext_goesOn {a : AreaOp} {s t : State} (h : CommandGoesOn s t) (ha : BlocksOwned s → CodeOpen 0x03 s)
    (hs : t.area.isSome = true) : CommandGoesOn s (areaNext a t) := by
  have on : ∀ v, CommandGoesOn s (t.setArea (some v)) := fun v =>
    h.trans (goesOn_of_blocks rfl (fun _ => hs) id id id id)
  unfold areaNext areaFrom
  refine .ite (completeArea_goesOn h ha) (.ite (on _) ?_)
  split
  · exact on _
  · exact completeArea_goesOn h ha

theorem areaWordUnit_goesOn {a : AreaOp} {s : State} (ha : s.area = some a) :
    CommandGoesOn s (areaWordUnit a s) := by
  unfold areaWordUnit
  dsimp only
  generalize hu : (writeMem _ _ s).setArea _ = u
  have counted : CommandKept s u := by rw [← hu]; simp [CommandKept, ha]
  have placed : ∀ rise fall, CommandKept s (askSnapshot (placeArea (a.unit == .granted) a.row a.word rise fall u)) :=
    fun rise fall => (counted.trans (placeArea_kept _ _ _ _ _ u)).trans (askSnapshot_kept _)
  refine .trans (areaNext_goesOn (placed _ _).goesOn (fun ho => codeOpen_of_runsOpen (ho.1 (by simp [ha]))) ?_)
    (unitEnds_kept false _).goesOn
  rw [(placed _ _).2.1, ha]
  rfl

/-! ## The panel -/

theorem released_waiting {s : State} (h : s.sched.clearWaiting = false) : Released 0x02 s :=
  ⟨nofun, fun _ => h, nofun, nofun, nofun⟩

theorem abandonErase_goesOn {s t : State} (h : CommandGoesOn s t) (hw : BlocksOwned s → CodeOpen 0x02 s) :
    CommandGoesOn s (abandonErase t) := by
  have off : CommandGoesOn t (t.setSched { t.sched with clearWaiting := false }) :=
    goesOn_of_blocks rfl id nofun id id id
  exact (h.trans off).finish fun ho => ⟨_, hw ho, released_waiting rfl⟩

theorem lossEffects_goesOn (s : State) : CommandGoesOn s (lossEffects s) := by
  rw [lossEffects_eq]
  have lost : CommandKept s (requestClear ((panelDark (setOp none (allRowsDark s))).setLink (lostLink s.link))) := by
    refine .trans (.trans (noRecord_kept s) ?_) (requestClear_kept _)
    simp [CommandKept, lostLink]
  dsimp only
  split
  · next hw => exact abandonErase_goesOn lost.goesOn fun ho => codeOpen_of_runsOpen (ho.2.1 hw)
  · exact lost.goesOn

/-- The sequencer and the periods are no block of a command. -/
theorem goesOn_of_panel {s t : State} (hc : t.cmd = s.cmd) (ha : t.area = s.area) (hw : t.sched = s.sched)
    (hl : t.link = s.link) (hs : t.store = s.store) : CommandGoesOn s t :=
  goesOn_of_blocks hc (by rw [ha]; exact id) (by rw [hw]; exact id) (by rw [hl]; exact id) (by rw [hs]; exact id)
    (by rw [hs]; exact id)

theorem setSeq_goesOn (q : Sequencer) (s : State) : CommandGoesOn s (s.setSeq q) :=
  goesOn_of_panel rfl rfl rfl rfl rfl

theorem enterDark_goesOn (s : State) : CommandGoesOn s (enterDark s) :=
  (setSeq_goesOn _ s).trans (requestClear_kept _).goesOn

theorem judgeDark_goesOn (s : State) : CommandGoesOn s (judgeDark s) := .ite (setSeq_goesOn _ s) (.refl s)

theorem enterPriming_goesOn (s : State) : CommandGoesOn s (enterPriming s) := goesOn_of_panel rfl rfl rfl rfl rfl

theorem lossInGap_goesOn (s : State) : CommandGoesOn s (lossInGap s) :=
  .trans (.trans (.trans ((setSeq_goesOn _ s).trans (enterDark_goesOn _)) (raiseNotice_kept _ _).goesOn)
    (lossEffects_goesOn _)) (judgeDark_goesOn _)

theorem lossInResuming_goesOn (s : State) : CommandGoesOn s (lossInResuming s) :=
  .trans ((setSeq_goesOn _ s).trans (raiseNotice_kept _ _).goesOn) (lossEffects_goesOn _)

theorem startPeriod_goesOn (s : State) : CommandGoesOn s (startPeriod s) := by
  unfold startPeriod beginPeriod
  refine .ite ?_ (goesOn_of_panel rfl rfl rfl rfl rfl)
  split
  · exact .ite (goesOn_of_blocks rfl id id id id id) (goesOn_of_panel rfl rfl rfl rfl rfl)
  · exact .ite (goesOn_of_panel rfl rfl rfl rfl rfl) (goesOn_of_panel rfl rfl rfl rfl rfl)

/-- A frame begins: the period generator and a notice are no block of a command. -/
theorem limitLoad_goesOn (s : State) : CommandGoesOn s (limitLoad (takeTiming s)) := by
  have timed : CommandGoesOn s (s.setPeriod (framed s)) := goesOn_of_panel rfl rfl rfl rfl rfl
  rw [limitLoad_takeTiming]
  exact .ite (timed.trans (raiseNotice_kept _ _).goesOn) timed

theorem restartTimers_goesOn (s : State) : CommandGoesOn s (restartTimers s) := goesOn_of_blocks rfl id id id id id

theorem enterLit_goesOn (s : State) : CommandGoesOn s (enterLit s) :=
  .trans (.trans ((setSeq_goesOn _ s).trans (restartTimers_goesOn _)) (limitLoad_goesOn _)) (startPeriod_goesOn _)

theorem endGap_goesOn (s : State) : CommandGoesOn s (endGap s) := (setSeq_goesOn _ s).trans (enterLit_goesOn _)

/-! ## The installation of settings -/

theorem expireHold_kept (s : State) : CommandKept s (expireHold s) := by
  unfold expireHold
  split
  · exact ite_of (degradeHeld_kept _ s) (.refl s)
  · exact .refl s

theorem reachLimits_goesOn (s : State) : CommandGoesOn s (reachLimits s) := by
  have drawn : CommandGoesOn s (drawFree s) := CommandKept.goesOn (by simp [CommandKept])
  unfold reachLimits
  split
  · exact .ite (enterPriming_goesOn s) (.refl s)
  · exact .ite (lossInGap_goesOn s) (.refl s)
  · refine .ite (.ite (.ite ?_ ?_) (endGap_goesOn s)) (.ite (lossInResuming_goesOn s) (.refl s))
    · exact drawn.trans (endGap_goesOn _)
    · exact drawn.trans ((lossInResuming_goesOn _).trans (enterPriming_goesOn _))
  · exact .refl s

theorem installSettings_goesOn (t : Settings) (s : State) : CommandGoesOn s (installSettings t s) := by
  have placed : CommandGoesOn s (s.setStore { s.store with settings := t, staged := none }) :=
    goesOn_of_blocks rfl id id id nofun id
  exact (placed.trans (expireHold_kept _).goesOn).trans (reachLimits_goesOn _)

theorem released_staged {s : State} (h : s.store.staged = none) : Released 0x12 s :=
  ⟨nofun, nofun, nofun, fun _ => h, nofun⟩

/-- Staged settings are installed, and the command that staged them hands its result (R190). -/
theorem installStaged_goesOn {thenDo : State → State} {s t : State} (h : CommandGoesOn s t)
    (hd : ∀ u, CommandGoesOn u (thenDo u) ∧ (thenDo u).store = u.store) :
    CommandGoesOn s (installStaged thenDo t) := by
  unfold installStaged
  split
  · next x hx =>
    have done : CommandGoesOn t (thenDo (installSettings x t)) := (installSettings_goesOn x t).trans (hd _).1
    refine h.trans (done.finish fun ho => ⟨_, codeOpen_of_runsOpen (ho.2.2.2.1 (by simp [hx])), released_staged ?_⟩)
    rw [(hd _).2]
    simp [installSettings]
  · exact h.trans (hd t).1

theorem frameEnd_goesOn (s : State) : CommandGoesOn s (frameEnd s) := by
  refine installStaged_goesOn (CommandKept.goesOn (by simp [CommandKept])) fun u => ?_
  have counted : CommandGoesOn u ((limitLoad (takeTiming u)).setPeriod
      { (limitLoad (takeTiming u)).period with
        frameCount := ((limitLoad (takeTiming u)).period.frameCount + 1) % 65536 }) :=
    .trans (limitLoad_goesOn u) (goesOn_of_panel rfl rfl rfl rfl rfl)
  dsimp only
  split
  · exact ⟨counted.trans (goesOn_of_blocks rfl id id id id id), by simp⟩
  · exact ⟨counted, by simp⟩

theorem endPeriod_goesOn (p : Period) (s : State) : CommandGoesOn s (endPeriod p s) := by
  have ended : CommandGoesOn s (s.setPeriod (periodOver p s.period)) := goesOn_of_panel rfl rfl rfl rfl rfl
  unfold endPeriod
  refine .trans (.ite (ended.trans (frameEnd_goesOn _)) (ended.trans ?_)) (startPeriod_goesOn _)
  exact goesOn_of_panel rfl rfl rfl rfl rfl

/-! ## Leaving LIT -/

/-- A global erase that has not reached its strobe is one that a command waits for (R64). -/
abbrev EraseOwned (s : State) : Prop :=
  ∀ p, s.period.current = some p → p.kind = .globalErase → p.strobed = false → s.sched.clearWaiting = true

theorem cutOperation_kept (op : RowOp) (s : State) :
    CommandKept s (cutOperation op s) := by
  have driven : CommandKept s
      (requestClear (setOp none (drivePanel op.row (Config.cutRow s.freeCount) (drawFree s)))) :=
    .trans (.trans (by simp [CommandKept]) (setOp_kept none _)) (requestClear_kept _)
  have freed : ∀ t : ChangeTable, CommandKept s
      ((requestClear (setOp none (drivePanel op.row (Config.cutRow s.freeCount) (drawFree s)))).setTable t) :=
    fun t => driven.trans (by simp [CommandKept])
  unfold cutOperation
  dsimp only
  cases op.kind
  · exact .trans (.trans (freed _) (addFull_kept _ _)) (settleHold_kept _)
  all_goals exact .trans (.trans driven (addFull_kept _ _)) (settleHold_kept _)

theorem cutErase_goesOn {s t : State} (h : CommandGoesOn s t) (hw : BlocksOwned s → CodeOpen 0x02 s) :
    CommandGoesOn s (cutErase t) := by
  unfold cutErase
  have asked : CommandGoesOn s (requestFull RowSet.all (cutErasePanel t)) :=
    h.trans (CommandKept.trans (by simp [CommandKept]) (requestFull_kept _ _)).goesOn
  exact .ite (abandonErase_goesOn asked hw) asked

theorem cutPeriod_goesOn {s : State} (he : EraseOwned s) : CommandGoesOn s (cutPeriod s) := by
  unfold cutPeriod cutWork
  split
  · next p hp =>
    dsimp only
    have ended : CommandGoesOn s (s.setPeriod (periodOver p s.period)) := goesOn_of_panel rfl rfl rfl rfl rfl
    split
    · exact ended
    · next hstrobed =>
      split
      · exact ended
      · next hk =>
        exact cutErase_goesOn ended fun ho => codeOpen_of_runsOpen (ho.2.1 (he p hp hk (by simpa using hstrobed)))
      · split
        · exact ended.trans (cutOperation_kept _ _).goesOn
        · exact ended
  · exact .refl s

theorem leaveLit_goesOn {s : State} (he : EraseOwned s) : CommandGoesOn s (leaveLit s) := by
  refine installStaged_goesOn (.trans (.trans (cutPeriod_goesOn he) ?_) (restartTimers_goesOn _)) fun u =>
    ⟨.refl u, rfl⟩
  exact goesOn_of_panel rfl rfl rfl rfl rfl

theorem endPriming_goesOn (s : State) : CommandGoesOn s (endPriming s) := by
  have off : ∀ u : State, CommandGoesOn u (u.setPeriod { u.period with current := none }) :=
    fun u => goesOn_of_panel rfl rfl rfl rfl rfl
  have cut : CommandGoesOn s (cutErasePanel s) := CommandKept.goesOn (by simp [CommandKept])
  unfold endPriming
  split
  · split
    · exact off s
    · exact cut.trans (off _)
  · exact off s

/-! ## The commands -/

theorem eraseStrobe_goesOn {p : Period} {s : State} (hw : BlocksOwned s → CodeOpen 0x02 s) :
    CommandGoesOn s (eraseStrobe p s) := by
  have marked : CommandGoesOn s (markStrobe p s) := goesOn_of_panel rfl rfl rfl rfl rfl
  have dark : CommandGoesOn s (panelDark (setOp none (allRowsDark (markStrobe p s)))) :=
    marked.trans (CommandKept.trans (noRecord_kept _) (by simp [CommandKept])).goesOn
  have off : ∀ u : State, CommandGoesOn u (u.setSched { u.sched with clearWaiting := false }) :=
    fun u => goesOn_of_blocks rfl id nofun id id id
  exact (dark.trans (off _)).finish fun ho => ⟨_, hw ho, released_waiting rfl⟩

theorem released_store {s : State} (h : s.store.op = .none) {code : Byte} (hc : code = 0x10 ∨ code = 0x11) :
    Released code s := by
  obtain rfl | rfl := hc <;> exact ⟨nofun, nofun, nofun, nofun, fun _ => h⟩

/-- A store operation ends with the result of the command that began it (R187, R188). -/
theorem storeEnd_goesOn {res : Result} {m : Cells Word} {s : State} (ho : s.store.op ≠ .none) :
    CommandGoesOn s (finishCommand res [] (s.setStore { s.store with words := m, op := .none })) := by
  have off : CommandGoesOn s (s.setStore { s.store with words := m, op := .none }) :=
    goesOn_of_blocks rfl id id id id fun h => absurd rfl h
  refine off.finish fun h => ?_
  obtain hopen | hopen := h.2.2.2.2 ho
  · exact ⟨_, codeOpen_of_runsOpen hopen, released_store rfl (.inl rfl)⟩
  · exact ⟨_, codeOpen_of_runsOpen hopen, released_store rfl (.inr rfl)⟩

/-- Of a choice, with its condition in the first case. -/
theorem ite_of_cond {α : Type} {P : α → Prop} {c : Prop} [Decidable c] {x y : α} (hx : c → P x) (hy : P y) :
    P (if c then x else y) := by
  split
  · next h => exact hx h
  · exact hy

/-- No block holds anything for a command. -/
abbrev NoBlocks (s : State) : Prop :=
  s.area = none ∧ s.sched.clearWaiting = false ∧ s.link.round = none ∧ s.store.staged = none ∧ s.store.op = .none

/-- While the handler is IDLE no block holds anything (R163). -/
theorem noBlocks_of_idle {s : State} (h : BlocksOwned s) (hi : s.cmd.running = none) : NoBlocks s := by
  have never : ∀ code, ¬ RunsOpen s code := fun code ⟨r, hr, _⟩ => by simp [hi] at hr
  obtain ⟨harea, hwait, hround, hstaged, hop⟩ := h
  refine ⟨?_, ?_, ?_, ?_, ?_⟩
  · exact Option.not_isSome_iff_eq_none.1 (mt harea (never _))
  · exact Bool.eq_false_iff.2 (mt hwait (never _))
  · exact Option.not_isSome_iff_eq_none.1 (mt hround (never _))
  · exact Option.not_isSome_iff_eq_none.1 (mt hstaged (never _))
  · exact not_not.1 (mt hop (not_or.2 ⟨never _, never _⟩))

theorem blocksOwned_of_noBlocks {s : State} (h : NoBlocks s) : BlocksOwned s := by
  obtain ⟨ha, hw, hl, hs, ho⟩ := h
  simp [BlocksOwned, ha, hw, hl, hs, ho]

theorem noBlocks_finish {res : Result} {words : List (WordIx × Word)} {s : State} (h : NoBlocks s) :
    BlocksOwned (finishCommand res words s) := blocksOwned_of_noBlocks (by simpa [NoBlocks] using h)

/-- With no block holding anything, an operation that keeps what blocks hold may be followed by a result. -/
theorem noBlocks_of_kept {s t : State} (h : NoBlocks s) (k : CommandKept s t) : NoBlocks t := by
  obtain ⟨ha, hw, hl, hs, ho⟩ := h
  obtain ⟨-, ka, kw, kl, ks, ko, -, -⟩ := k
  exact ⟨by simpa [ha] using ka, kw.trans hw, kl.trans hl, ks.trans hs, ko.trans ho⟩

section Accepted

variable {s : State} (hn : NoBlocks s)
include hn

theorem acceptRepaint_owned : BlocksOwned (acceptRepaint s) :=
  ite_of (noBlocks_finish hn) (noBlocks_finish (noBlocks_of_kept hn (requestFull_kept _ s)))

theorem acceptClear_owned (hr : RunsOpen s 0x02) : BlocksOwned (acceptClear s) := by
  obtain ⟨-, hround, hstaged, hop⟩ := (blocksOwned_of_noBlocks hn).2
  exact ite_of ⟨by simp [hn.1], fun _ => hr, hround, hstaged, hop⟩ (noBlocks_finish hn)

theorem acceptArea_owned (hr : RunsOpen s 0x03) : BlocksOwned (acceptArea s) := by
  refine ite_of (noBlocks_finish hn) ?_
  unfold areaFrom
  split
  · exact ⟨fun _ => hr, (blocksOwned_of_noBlocks hn).2⟩
  · exact noBlocks_finish ⟨rfl, hn.2⟩

theorem acceptBlank_owned (hr : RunsOpen s 0x04) (he : s.seq.state = .lit → EraseOwned s) :
    BlocksOwned (acceptBlank s) := by
  unfold acceptBlank
  dsimp only
  generalize hu : enterDark (s.setSeq { s.seq with blanked := true }) = u
  have dark : CommandGoesOn s u := by
    rw [← hu]
    exact (setSeq_goesOn _ s).trans (enterDark_goesOn _)
  have erase : s.seq.state = .lit → EraseOwned u := by
    rw [← hu]
    exact he
  have left : CommandGoesOn s (match s.seq.state with
      | .lit => leaveLit u
      | .priming => endPriming u
      | _ => u) := by
    split
    · next hl => exact dark.trans (leaveLit_goesOn (erase hl))
    · exact dark.trans (endPriming_goesOn u)
    · exact dark
  exact ((left.trans (lossEffects_goesOn _)).finish fun _ =>
    ⟨_, codeOpen_of_runsOpen hr, nofun, nofun, nofun, nofun, nofun⟩).owned (blocksOwned_of_noBlocks hn)

theorem acceptUnblank_owned : BlocksOwned (acceptUnblank s) := by
  refine noBlocks_finish (ite_of ?_ hn)
  simpa [NoBlocks] using hn

theorem acceptProbe_owned (hr : RunsOpen s 0x06) : BlocksOwned (acceptProbe s) := by
  have hblocks := hn
  obtain ⟨ha, hw, -, hs, ho⟩ := hblocks
  refine ite_of (noBlocks_finish hn) (ite_of (noBlocks_finish hn) ((linkNext_kept _).goesOn.owned ?_))
  exact ⟨by simp [ha], by simp [hw], fun _ => hr, by simp [hs], by simp [ho]⟩

theorem storeBegun_owned {op : StoreOp} (hr : RunsOpen s 0x10 ∨ RunsOpen s 0x11) :
    BlocksOwned (s.setStore { s.store with op := op }) := by
  obtain ⟨ha, hw, hl, hs, -⟩ := hn
  exact ⟨by simp [ha], by simp [hw], by simp [hl], by simp [hs], fun _ => hr⟩

theorem acceptStoreErase_owned (hr : RunsOpen s 0x10) : BlocksOwned (acceptStoreErase s) :=
  ite_of (noBlocks_finish hn) (ite_of (noBlocks_finish hn) (storeBegun_owned hn (.inl hr)))

theorem acceptStoreWrite_owned (hr : RunsOpen s 0x11) : BlocksOwned (acceptStoreWrite s) :=
  ite_of (noBlocks_finish hn) (ite_of (noBlocks_finish hn) (ite_of (noBlocks_finish hn)
    (storeBegun_owned hn (.inr hr))))

theorem acceptApply_owned (hr : RunsOpen s 0x12) : BlocksOwned (acceptApply s) := by
  unfold acceptApply
  dsimp only
  refine ite_of (noBlocks_finish hn) ?_
  generalize hu : (if formatRight s.store.words = true then s else raiseNotice .settingsDefault s) = u
  have kept : CommandKept s u := by
    rw [← hu]
    exact ite_of (.refl s) (raiseNotice_kept _ s)
  obtain ⟨ha, hw, hl, -, ho⟩ := noBlocks_of_kept hn kept
  have staged : BlocksOwned (u.setStore { u.store with staged := some (loadSettings u.store.words) }) := by
    refine ⟨by simp [ha], by simp [hw], by simp [hl], fun _ => ?_, by simp [ho]⟩
    simpa [RunsOpen, kept.1] using hr
  exact ite_of staged ((installStaged_goesOn (.refl _) fun v => ⟨.refl v, rfl⟩).owned staged)

/-- An accepted command takes for its blocks what is its own, or hands its result at once (R165, R170). -/
theorem acceptCode_owned {code : Byte} (hr : RunsOpen s code) (he : s.seq.state = .lit → EraseOwned s) :
    BlocksOwned (acceptCode code s) := by
  unfold acceptCode
  exact ite_of_cond (fun _ => acceptRepaint_owned hn) <| ite_of_cond (fun h => acceptClear_owned hn (h ▸ hr)) <|
    ite_of_cond (fun h => acceptArea_owned hn (h ▸ hr)) <| ite_of_cond (fun h => acceptBlank_owned hn (h ▸ hr) he) <|
    ite_of_cond (fun _ => acceptUnblank_owned hn) <| ite_of_cond (fun h => acceptProbe_owned hn (h ▸ hr)) <|
    ite_of_cond (fun _ => noBlocks_finish hn) <|
    ite_of_cond (fun _ => ite_of (noBlocks_finish hn) (noBlocks_finish hn)) <|
    ite_of_cond (fun h => acceptStoreErase_owned hn (h ▸ hr)) <|
    ite_of_cond (fun h => acceptStoreWrite_owned hn (h ▸ hr)) <|
    ite_of_cond (fun h => acceptApply_owned hn (h ▸ hr)) (noBlocks_finish hn)

end Accepted

theorem acceptCommand_owned {code : Byte} {s : State} (h : BlocksOwned s) (hi : s.cmd.running = none)
    (he : s.seq.state = .lit → EraseOwned s) : BlocksOwned (acceptCommand code s) := by
  unfold acceptCommand
  generalize hu : s.setCmd _ = u
  have hn : NoBlocks u := by
    have := noBlocks_of_idle h hi
    rw [← hu]
    exact this
  have hr : RunsOpen u code := by
    rw [← hu]
    exact ⟨_, rfl, rfl, rfl⟩
  have he : u.seq.state = .lit → EraseOwned u := by
    rw [← hu]
    exact he
  simpa [BlocksOwned, RunsOpen] using acceptCode_owned hn hr he

/-! ## Writes to the command row -/

theorem abortArea_goesOn {a : AreaOp} {s t : State} (h : CommandGoesOn s t)
    (hc : BlocksOwned s → CodeOpen 0x03 s) (hs : t.area.isSome = true) : CommandGoesOn s (abortArea a t) := by
  have on : ∀ u v, CommandGoesOn s u → u.area.isSome = true → CommandGoesOn s (u.setArea (some v)) :=
    fun u v hu hs => hu.trans (goesOn_of_blocks rfl (fun _ => hs) id id id id)
  have drawn : CommandGoesOn s (drawFree t) := h.trans (CommandKept.goesOn (by simp [CommandKept]))
  exact .ite (on _ _ h hs) (.ite (.ite (on _ _ drawn (by simpa using hs)) (completeArea_goesOn drawn hc))
    (completeArea_goesOn h hc))

end Sys2Proof.Machine
end

