-- ==== Sys2Proof/Proofs/CommandLaw.lean ====
section
/-! PROOFS. Writes to the command row and the handler's own writes (R163 to R168): the running command goes on until its
last word is written. With the periods of each state (R100) this gives that every step keeps the command law. -/

namespace Sys2Proof.Machine

open Safety

/-! ## Writes to the command row -/

/-- The handler's record of the running command becomes another of the same command. -/
theorem setRunning_goesOn {s : State} {r r' : Running} (hr : s.cmd.running = some r) (hc : r'.code = r.code)
    (ha : r'.args = r.args) (hres : r'.result = r.result) :
    CommandGoesOn s (s.setCmd { s.cmd with running := some r' }) where
  copy := rfl
  idle hs := by simp [hr] at hs
  running q hq := by
    obtain rfl : r = q := Option.some_inj.1 (hr.symm.trans hq)
    exact ⟨r', rfl, hc, ha, by rw [hres]; exact id⟩
  owned h := by
    have opened : ∀ code, RunsOpen s code → RunsOpen (s.setCmd { s.cmd with running := some r' }) code := by
      rintro code ⟨q, hq, hcode, hopen⟩
      obtain rfl : r = q := Option.some_inj.1 (hr.symm.trans hq)
      exact ⟨r', rfl, hc.trans hcode, hres.trans hopen⟩
    obtain ⟨harea, hwait, hround, hstaged, hop⟩ := h
    exact ⟨opened _ ∘ harea, opened _ ∘ hwait, opened _ ∘ hround, opened _ ∘ hstaged,
      Or.imp (opened _) (opened _) ∘ hop⟩

/-- An ABORT that is taken releases what its block holds before the result (R66, R160, R191). -/
theorem takeAbort_goesOn {s : State} {r : Running} (hr : s.cmd.running = some r) (ha : abortable s r = true) :
    CommandGoesOn s (takeAbort r s) := by
  have taken : CommandGoesOn s (s.setCmd { s.cmd with running := some { r with abortTaken := true } }) :=
    setRunning_goesOn hr rfl rfl rfl
  have opened : ∀ code, r.code = code → CodeOpen code s := fun code hc q hq _ => by
    obtain rfl : r = q := Option.some_inj.1 (hr.symm.trans hq)
    exact hc
  unfold takeAbort
  dsimp only
  split
  · next hc =>
    split
    · next a harea => exact abortArea_goesOn taken (fun _ => opened _ hc) (by rw [harea]; rfl)
    · exact taken
  · split
    · next hc => exact .ite taken (abandonErase_goesOn taken fun _ => opened _ hc)
    · next h3 h2 =>
      have hcode : r.code = 0x12 := by
        by_contra h
        rw [abortable, if_neg h3, if_neg h2, if_neg h, Bool.and_false] at ha
        cases ha
      have off : CommandGoesOn s ((s.setCmd { s.cmd with running := some { r with abortTaken := true } }).setStore
          { s.store with staged := none }) := taken.trans (goesOn_of_blocks rfl id id id nofun id)
      exact off.finish fun _ => ⟨_, opened _ hcode, released_staged rfl⟩

/-- While a command is RUNNING a write to the command row is offered to it alone (R166). -/
theorem serveCommand_goesOn {s : State} {r : Running} (hr : s.cmd.running = some r) (view : BitVec 3) (w : WordIx)
    (d : Word) : CommandGoesOn s (serveCommand view w d s) := by
  unfold serveCommand
  rw [hr]
  exact ite_of_cond (fun h => takeAbort_goesOn hr h.2.2) (CommandKept.goesOn (by simp [CommandKept]))

/-- What the handler stores of its copy while IDLE is no matter of the blocks. -/
theorem setCmd_owned {s : State} {c : CommandHandler} (h : BlocksOwned s) (hc : c.running = s.cmd.running) :
    BlocksOwned (s.setCmd c) := by simpa [BlocksOwned, RunsOpen, hc] using h

theorem serveCommand_owned {s : State} (h : BlocksOwned s) (he : s.seq.state = .lit → EraseOwned s)
    (view : BitVec 3) (w : WordIx) (d : Word) : BlocksOwned (serveCommand view w d s) := by
  cases hr : s.cmd.running with
  | some r => exact (serveCommand_goesOn hr view w d).owned h
  | none =>
    unfold serveCommand
    rw [hr]
    dsimp only
    generalize hu : storeCommandWord w (commandResult s view w d) s = u
    have stored : BlocksOwned u := by
      rw [← hu]
      exact setCmd_owned ((CommandKept.goesOn (by simp [CommandKept])).owned h) rfl
    have idle : u.cmd.running = none := by
      rw [← hu]
      exact hr
    have erase : u.seq.state = .lit → EraseOwned u := by
      rw [← hu]
      exact he
    unfold seeStored
    refine ite_of (ite_of stored (acceptCommand_owned stored idle erase)) (ite_of ?_ stored)
    exact setCmd_owned stored (by simp)

/-! ## The handler's own writes -/

/-- A command that has its result leaves nothing in the blocks, and its completion nothing for them (R168). -/
theorem completeCommand_owned {s : State} {r : Running} (h : BlocksOwned s) (hr : s.cmd.running = some r)
    (hres : r.result ≠ none) : BlocksOwned (completeCommand s) := by
  have never : ∀ code, ¬ RunsOpen s code := by
    rintro code ⟨q, hq, -, hopen⟩
    obtain rfl : r = q := Option.some_inj.1 (hr.symm.trans hq)
    exact hres hopen
  obtain ⟨harea, hwait, hround, hstaged, hop⟩ := h
  have hn : NoBlocks s := ⟨Option.not_isSome_iff_eq_none.1 (mt harea (never _)),
    Bool.eq_false_iff.2 (mt hwait (never _)), Option.not_isSome_iff_eq_none.1 (mt hround (never _)),
    Option.not_isSome_iff_eq_none.1 (mt hstaged (never _)), not_not.1 (mt hop (not_or.2 ⟨never _, never _⟩))⟩
  exact blocksOwned_of_noBlocks (by simpa [NoBlocks, completeCommand] using hn)

theorem nextCommandWrite_eq_some {s : State} {r : Running} {p : WordIx × Word} {rest : List (WordIx × Word)}
    (h : nextCommandWrite s = some (r, p, rest)) : s.cmd.running = some r ∧ r.writes = p :: rest := by
  unfold nextCommandWrite at h
  split at h
  · next q hq =>
    split at h <;> cases h
    next hw => exact ⟨hq, hw⟩
  · cases h

/-- A word of the handler's own is stored, and the record of the running command follows (R164, R168). -/
theorem commandWriteUnit_owned {s : State} {r : Running} {w : WordIx} {v : Word} {rest : List (WordIx × Word)}
    (h : BlocksOwned s) (hr : s.cmd.running = some r) : BlocksOwned (commandWriteUnit r w v rest s) := by
  unfold commandWriteUnit
  dsimp only
  generalize hu : storeCommandWord w v (popThird s) = u
  have stored : BlocksOwned u := by
    rw [← hu]
    exact setCmd_owned ((CommandKept.goesOn (by simp [CommandKept])).owned h) rfl
  have running : u.cmd.running = some r := by
    rw [← hu]
    exact hr
  have written := (setRunning_goesOn (r' := { r with writes := rest }) running rfl rfl rfl).owned stored
  have ended : ∀ x : State, BlocksOwned x → BlocksOwned (unitEnds false x) := fun x =>
    (unitEnds_kept false x).goesOn.owned
  refine ended _ (ite_of (ite_of_cond (fun hres => ?_) written) ?_)
  · exact completeCommand_owned written rfl (by simpa [Option.isSome_iff_ne_none] using hres)
  · exact (CommandKept.goesOn (by simp [CommandKept])).owned written

/-! ## What the port grants before a cycle -/

theorem serveLow_goesOn (s : State) : CommandGoesOn s (serveLow s) := by
  have area : ∀ {u a}, areaIn u s = some a → CommandGoesOn s (areaWordUnit a s) := fun h =>
    areaWordUnit_goesOn (Option.filter_eq_some_iff.1 h).1
  unfold serveLow
  split
  · next ha => exact .ite (snapshotUnit_kept _ _ s).goesOn (area ha)
  · exact (snapshotUnit_kept _ _ s).goesOn
  · next ha => exact area ha
  · exact goesOn_of_panel rfl rfl rfl rfl rfl

theorem serveThird_owned {s : State} (h : BlocksOwned s) (u : ThirdRank) : BlocksOwned (serveThird u s) := by
  unfold serveThird
  split
  · exact (noticeUpdateUnit_kept s).goesOn.owned h
  · split
    · next hn => exact commandWriteUnit_owned h (nextCommandWrite_eq_some hn).1
    · exact (CommandKept.goesOn (by simp [CommandKept])).owned h

theorem portGap_owned {s : State} (h : BlocksOwned s) : BlocksOwned (portGap s) := by
  unfold portGap
  split
  · next ha => exact (areaWordUnit_goesOn (Option.filter_eq_some_iff.1 ha).1).owned h
  · refine ite_of (ite_of ((burstUnit_kept s).goesOn.owned h) ?_) h
    split
    · exact serveThird_owned h _
    · exact (serveLow_goesOn s).owned h

theorem areaWordUnit_waiting (a : AreaOp) (s : State) :
    (areaWordUnit a s).sched.clearWaiting = s.sched.clearWaiting := by
  unfold areaWordUnit
  simp only [unitEnds_frame, areaNext_frame]
  rw [(askSnapshot_kept _).2.2.1, (placeArea_kept _ _ _ _ _ _).2.2.1]
  simp

/-- What the port grants leaves the sequencer, the period and clear waiting. -/
theorem portGap_panel (s : State) : (portGap s).seq = s.seq ∧ (portGap s).period = s.period ∧
    (portGap s).sched.clearWaiting = s.sched.clearWaiting := by
  refine ⟨by simp, by simp, ?_⟩
  unfold portGap
  split
  · exact areaWordUnit_waiting _ s
  · split
    · split
      · simp
      · split
        · simp
        · unfold serveLow
          split
          · split
            · exact (snapshotUnit_kept _ _ s).2.2.1
            · exact areaWordUnit_waiting _ s
          · exact (snapshotUnit_kept _ _ s).2.2.1
          · exact areaWordUnit_waiting _ s
          · rfl
    · rfl

/-! ## Every row -/

theorem endClear_goesOn (again : Bool) (s : State) : CommandGoesOn s (endClear again s) :=
  goesOn_of_panel (by simp) (by simp) (by simp) (by simp) (by simp)

theorem takeSample_goesOn (level : Int) (p : Period) (s : State) : CommandGoesOn s (takeSample level p s) := by
  unfold takeSample
  dsimp only
  split <;> exact goesOn_of_panel rfl rfl rfl rfl rfl

theorem setSense_kept (v : SenseConverter) (s : State) : CommandKept s (s.setSense v) :=
  commandKept_of_eq rfl rfl rfl rfl rfl rfl rfl

theorem compareReading_kept (s : State) : CommandKept s (compareReading s) := by
  refine ite_of (ite_of ?_ (setSense_kept _ s)) (setSense_kept _ s)
  exact .trans (.trans (setSense_kept _ s) (raiseNotice_kept _ _)) (requestFull_kept _ _)

theorem completeConversion_kept (c : Conversion) (s : State) : CommandKept s (completeConversion c s) := by
  have tested : ∀ u : State, CommandKept u (testHoldOff u) := fun u => ite_of (setSense_kept _ u) (.refl u)
  exact ite_of (.trans (setSense_kept _ s) (tested _)) (.trans (setSense_kept _ s) (compareReading_kept _))

theorem goodHigh_goesOn (s : State) : CommandGoesOn s (goodHighEffect s) := by
  have sampled : CommandGoesOn s (sampleSupply true true 0 s) := setSeq_goesOn _ s
  unfold goodHighEffect
  dsimp only
  split
  · exact sampled.trans (judgeDark_goesOn _)
  · exact sampled.trans (setSeq_goesOn _ _)
  · exact sampled

theorem goodLow_goesOn {s : State} (he : s.seq.state = .lit → EraseOwned s) : CommandGoesOn s (goodLowEffect s) := by
  have sampled : CommandGoesOn s (sampleSupply false false 0 s) := setSeq_goesOn _ s
  unfold goodLowEffect
  dsimp only
  split
  · next hl => exact (sampled.trans (setSeq_goesOn _ _)).trans (leaveLit_goesOn (he hl))
  · exact sampled.trans (setSeq_goesOn _ _)
  · exact sampled.trans (enterDark_goesOn _)
  · exact (sampled.trans (endPriming_goesOn _)).trans (enterDark_goesOn _)
  · exact sampled

/-- Every row keeps what blocks hold with the running command. -/
theorem effect_owned {i : Instr} {s t : State} (e : Effect i s t) (h : BlocksOwned s)
    (he : s.seq.state = .lit → EraseOwned s) : BlocksOwned t := by
  have kept : ∀ {u}, CommandKept s u → BlocksOwned u := fun k => k.goesOn.owned h
  have gap := portGap_owned h
  have gapErase : (portGap s).seq.state = .lit → EraseOwned (portGap s) := by
    obtain ⟨hq, hp, hw⟩ := portGap_panel s
    rw [hq]
    simpa only [EraseOwned, hp, hw] using he
  have served : ∀ u : State, BlocksOwned u → BlocksOwned (cycleServed u) := fun u => (unitEnds_kept true u).goesOn.owned
  cases e with
  | bus b _ _ => exact kept (by simp [CommandKept])
  | discarded _ => exact kept (by simp [CommandKept])
  | read off _ _ => exact (CommandKept.goesOn (by simp [CommandKept])).owned gap
  | writeAccepted c _ _ => exact (CommandKept.goesOn (by simp [CommandKept])).owned gap
  | commandServed v w d _ _ =>
    exact served _ (serveCommand_owned (s := noteFirst (portGap s))
      ((CommandKept.goesOn (by simp [CommandKept])).owned gap) gapErase v w d)
  | noticesCleared d _ => exact kept (by simp [CommandKept])
  | imageCombined c r w _ => exact served _ (kept (serveImage_kept _ _ _ _ s))
  | commandCombined c w _ =>
    exact served _ (serveCommand_owned (s := endCycle s) (kept (by simp [CommandKept])) he c.view w c.data)
  | holdExpired held _ => exact kept (degradeHeld_kept _ s)
  | storeErased page n ho => exact (storeEnd_goesOn (by simp [ho])).owned h
  | storeWritten k v n ho => exact (storeEnd_goesOn (by simp [ho])).owned h
  | commandWritten r p rest _ hn => exact commandWriteUnit_owned h (nextCommandWrite_eq_some hn).1
  | noticesWritten => exact kept (noticeUpdateUnit_kept s)
  | burstWritten => exact kept (burstUnit_kept s)
  | burstAsked => exact kept (by simp [CommandKept])
  | areaWord a ha => exact (areaWordUnit_goesOn ha).owned h
  | taken _ => exact kept (takeWork_kept s)
  | snapshot op c _ => exact kept (snapshotUnit_kept op c s)
  | linkFaulted m _ => exact (linkFault_goesOn s).owned h
  | messageEnded m scan t _ ho => exact (messageOutcome_goesOn ho).owned h
  | stretched m scan freed _ => exact (stretchOutcome_goesOn m scan freed s).owned h
  | recoveryFailed => exact kept (by simp [CommandKept, recoveryFails])
  | recoveryPassed => exact kept (.trans (by simp [CommandKept]) (linkNext_kept _))
  | recoveryGoesOn => exact kept (by simp [CommandKept])
  | recoveryBegun => exact kept (by simp [CommandKept, beginRecovery])
  | periodEnded p _ _ _ => exact (endPeriod_goesOn p s).owned h
  | strobed p op _ _ _ _ =>
    refine (CommandGoesOn.trans ?_ (afterStrobe_kept op _).goesOn).owned h
    exact goesOn_of_panel rfl rfl rfl rfl rfl
  | erased p hp hl hk hs =>
    exact (eraseStrobe_goesOn fun ho => codeOpen_of_runsOpen (ho.2.1 (he hl p hp hk hs))).owned h
  | primed p _ _ => exact (goesOn_of_panel rfl rfl rfl rfl rfl).owned h
  | clearGiven => exact kept ⟨rfl, rfl, rfl, rfl, rfl, rfl, rfl, rfl⟩
  | clearEnded n again _ => exact (endClear_goesOn again s).owned h
  | primingEnded p _ _ => exact ((goesOn_of_panel rfl rfl rfl rfl rfl).trans (enterLit_goesOn _)).owned h
  | sampleTaken level p _ _ => exact (takeSample_goesOn level p s).owned h
  | converted c _ => exact kept (completeConversion_kept c s)
  | goodHigh => exact (goodHigh_goesOn s).owned h
  | goodLow => exact (goodLow_goesOn he).owned h
  | settled _ => exact (enterPriming_goesOn s).owned h
  | resumed _ => exact (endGap_goesOn s).owned h
  | lostInGap _ => exact (lossInGap_goesOn s).owned h
  | lostInResuming _ => exact (lossInResuming_goesOn s).owned h
  | supplySampled level filtered run => exact (setSeq_goesOn _ s).owned h

/-! ## The periods of each state -/

/-- The ninth law (R100), and the global erase of LIT that a command waits for (R64). -/
abbrev PeriodOwned (s : State) : Prop := NinthLaw s ∧ (s.seq.state = .lit → EraseOwned s)

/-- With no period, no law speaks of it (R95). -/
theorem periodOwned_of_none {s : State} (h : s.period.current = none) : PeriodOwned s :=
  ⟨fun p hp => by simp [h] at hp, fun _ p hp => by simp [h] at hp⟩

theorem periodOwned_of_same {s t : State} (h : PeriodOwned s) (hq : t.seq.state = s.seq.state)
    (hp : t.period.current = s.period.current)
    (hw : s.sched.clearWaiting = true → t.sched.clearWaiting = true ∨ eraseFiring s = false) : PeriodOwned t := by
  refine ⟨fun p hcur => ?_, fun hl p hcur hk hs => ?_⟩
  · rw [hq]
    exact h.1 p (hp ▸ hcur)
  · rw [hp] at hcur
    obtain hwait | hfree := hw (h.2 (hq ▸ hl) p hcur hk hs)
    · exact hwait
    · simp [eraseFiring, hcur, hk, hs] at hfree

theorem CommandKept.periodOwned {s t : State} (k : CommandKept s t) (h : PeriodOwned s) : PeriodOwned t := by
  obtain ⟨-, -, hw, -, -, -, hq, hp⟩ := k
  exact periodOwned_of_same h hq hp fun hwait => .inl (hw.trans hwait)

/-- Outside PRIMING and LIT there is no period (R95, R100). -/
theorem current_of_ninthLaw {s : State} (h : NinthLaw s) (hl : s.seq.state ≠ .lit) (hp : s.seq.state ≠ .priming) :
    s.period.current = none := by
  cases hc : s.period.current with
  | none => rfl
  | some p => exact ((h p hc).elim hl fun k => hp k.1).elim

/-- A period of LIT starts as a global erase only while a command waits for it (R64, R104). -/
theorem startPeriod_periodOwned {s : State} (hl : s.seq.state = .lit) : PeriodOwned (startPeriod s) := by
  refine ⟨fun p _ => .inl (by simpa using hl), fun _ p hp hk _ => ?_⟩
  have hsustain : ∀ u : State, (beginPeriod .sustain none u).period.current = some p → False := fun u hc => by
    obtain rfl := Option.some_inj.1 hc
    cases hk
  revert hp
  unfold startPeriod
  split
  · split
    · next op ho =>
      split
      · intro hc
        obtain rfl := Option.some_inj.1 hc
        cases hk
      · exact fun hc => (hsustain _ hc).elim
    · split
      · next hw => exact fun _ => hw
      · exact fun hc => (hsustain _ hc).elim
  · exact fun hc => (hsustain _ hc).elim

theorem enterLit_periodOwned (s : State) : PeriodOwned (enterLit s) := by
  unfold enterLit
  dsimp only
  exact startPeriod_periodOwned (by simp [setSeqState])

@[simp] theorem requestClear_current (s : State) : (requestClear s).period.current = s.period.current := rfl

@[simp] theorem lossEffects_current (s : State) : (lossEffects s).period.current = s.period.current := by
  rw [lossEffects_eq]
  dsimp only
  split <;> simp

@[simp] theorem lossInGap_current (s : State) : (lossInGap s).period.current = s.period.current := by
  simp [lossInGap, enterDark]

@[simp] theorem lossInResuming_current (s : State) : (lossInResuming s).period.current = s.period.current := by
  simp [lossInResuming]

@[simp] theorem enterPriming_current (s : State) : (enterPriming s).period.current = none := rfl

@[simp] theorem enterDark_current (s : State) : (enterDark s).period.current = s.period.current := rfl

@[simp] theorem endPriming_current (s : State) : (endPriming s).period.current = none := rfl

@[simp] theorem cutPeriod_current (s : State) : (cutPeriod s).period.current = none := by
  unfold cutPeriod
  split
  · unfold cutWork
    split
    · rfl
    · split
      · rfl
      · simp
      · split
        · exact (cutOperation_kept _ _).2.2.2.2.2.2.2
        · rfl
  · next h => exact h

/-- The limits that an installation reaches leave each state with the periods it has (R100, R190). -/
theorem reachLimits_periodOwned {s : State} (h : PeriodOwned s) : PeriodOwned (reachLimits s) := by
  unfold reachLimits
  split
  · exact ite_of (periodOwned_of_none rfl) h
  · next hq =>
    have hnone := current_of_ninthLaw h.1 (by simp [hq]) (by simp [hq])
    exact ite_of (periodOwned_of_none (by simp [hnone])) h
  · next hq =>
    have hnone := current_of_ninthLaw h.1 (by simp [hq]) (by simp [hq])
    refine ite_of (ite_of (ite_of (enterLit_periodOwned _) ?_) (enterLit_periodOwned _)) (ite_of ?_ h)
    · exact periodOwned_of_none rfl
    · exact periodOwned_of_none (by simp [hnone])
  · exact h

theorem finishCommand_periodOwned {res : Result} {words : List (WordIx × Word)} {s : State} (h : PeriodOwned s) :
    PeriodOwned (finishCommand res words s) := by simpa [PeriodOwned, NinthLaw, EraseOwned] using h

theorem installStaged_periodOwned {thenDo : State → State} {s : State} (h : PeriodOwned s)
    (hd : ∀ u, PeriodOwned u → PeriodOwned (thenDo u)) : PeriodOwned (installStaged thenDo s) := by
  unfold installStaged installSettings
  split
  · next t _ =>
    have placed : PeriodOwned (s.setStore { s.store with settings := t, staged := none }) := h
    exact finishCommand_periodOwned (hd _ (reachLimits_periodOwned ((expireHold_kept _).periodOwned placed)))
  · exact hd s h

/-- Outside RESUMING no installation begins a period. -/
theorem reachLimits_current {s : State} (h : s.period.current = none) (hq : s.seq.state ≠ .resuming) :
    (reachLimits s).period.current = none := by
  unfold reachLimits
  split
  · exact ite_of (P := fun u : State => u.period.current = none) rfl h
  · exact ite_of (P := fun u : State => u.period.current = none) (by simp [h]) h
  · next hr => exact absurd hr hq
  · exact h

/-- After LIT no period runs (R95, R108). -/
theorem leaveLit_current {s : State} (h : s.seq.state ≠ .resuming) : (leaveLit s).period.current = none := by
  unfold leaveLit installStaged
  dsimp only
  split
  · next t _ =>
    simp only [id, finishCommand_frame, installSettings]
    exact reachLimits_current (by simp [restartTimers]) (by simpa [restartTimers] using h)
  · simp [restartTimers]

/-! ## The periods at a step -/

theorem acceptBlank_periodOwned {s : State} (h : PeriodOwned s) : PeriodOwned (acceptBlank s) := by
  refine finishCommand_periodOwned (periodOwned_of_none ?_)
  rw [lossEffects_current]
  dsimp only
  split
  · exact leaveLit_current (by simp [enterDark])
  · rfl
  · next hl hp => simpa using current_of_ninthLaw h.1 hl hp

theorem acceptApply_periodOwned {s : State} (h : PeriodOwned s) : PeriodOwned (acceptApply s) := by
  unfold acceptApply
  dsimp only
  refine ite_of (finishCommand_periodOwned h) ?_
  generalize hu : (if formatRight s.store.words = true then s else raiseNotice .settingsDefault s) = u
  have kept : CommandKept s u := by
    rw [← hu]
    exact ite_of (.refl s) (raiseNotice_kept _ s)
  have staged : PeriodOwned (u.setStore { u.store with staged := some (loadSettings u.store.words) }) :=
    kept.periodOwned h
  exact ite_of staged (installStaged_periodOwned staged fun _ => id)

theorem judgeDark_periodOwned {s : State} (h : PeriodOwned s) : PeriodOwned (judgeDark s) := by
  refine ite_of_cond (fun hd => ?_) h
  simp only [Bool.and_eq_true, beq_iff_eq] at hd
  have hnone : s.period.current = none := current_of_ninthLaw h.1 (by simp [hd.1.1]) (by simp [hd.1.1])
  exact periodOwned_of_none hnone

theorem acceptUnblank_periodOwned {s : State} (h : PeriodOwned s) : PeriodOwned (acceptUnblank s) :=
  finishCommand_periodOwned (ite_of (judgeDark_periodOwned (s := s.setSeq { s.seq with blanked := false }) h) h)

theorem acceptCode_periodOwned {code : Byte} {s : State} (h : PeriodOwned s) : PeriodOwned (acceptCode code s) := by
  have kept : ∀ t : State, t.seq = s.seq → t.period = s.period → t.sched = s.sched → PeriodOwned t :=
    fun t hq hp hw => by simpa only [PeriodOwned, NinthLaw, EraseOwned, hq, hp, hw] using h
  unfold acceptCode
  refine ite_of ?_ <| ite_of ?_ <| ite_of ?_ <| ite_of (acceptBlank_periodOwned h) <|
    ite_of (acceptUnblank_periodOwned h) <| ite_of ?_ <| ite_of ?_ <| ite_of ?_ <| ite_of ?_ <| ite_of ?_ <|
      ite_of (acceptApply_periodOwned h) ?_
  · exact kept _ (by simp) (by simp) (by simp)
  · refine ite_of ?_ (finishCommand_periodOwned h)
    exact ⟨h.1, fun _ _ _ _ _ => rfl⟩
  · exact kept _ (by simp) (by simp) (by simp)
  all_goals exact kept _ (by simp) (by simp) (by simp)

/-- An ABORT that is taken leaves clear waiting while a global erase is FIRING (R66). -/
theorem takeAbort_periodOwned {r : Running} {s : State} (h : PeriodOwned s) : PeriodOwned (takeAbort r s) := by
  refine periodOwned_of_same h (by simp) (by simp) fun hw => ?_
  have area : ∀ (a : AreaOp) (u : State), (abortArea a u).sched = u.sched := fun a u => by simp
  unfold takeAbort
  dsimp only
  split
  · split
    · exact .inl ((congrArg Scheduler.clearWaiting (area _ _)).trans hw)
    · exact .inl hw
  · split
    · split
      · exact .inl hw
      · next hf => exact .inr (Bool.eq_false_iff.2 hf)
    · exact .inl (by simpa using hw)

theorem acceptCommand_periodOwned {code : Byte} {s : State} (h : PeriodOwned s) :
    PeriodOwned (acceptCommand code s) := by
  have requested : ∀ u : State, PeriodOwned u → PeriodOwned (requestCommandWrite u) := fun u hu =>
    CommandKept.periodOwned (by simp [CommandKept]) hu
  unfold acceptCommand
  exact requested _ (acceptCode_periodOwned (s := s.setCmd _) h)

theorem serveCommand_periodOwned {s : State} (h : PeriodOwned s) (view : BitVec 3) (w : WordIx) (d : Word) :
    PeriodOwned (serveCommand view w d s) := by
  unfold serveCommand
  dsimp only
  split
  · have stored : PeriodOwned (storeCommandWord w (commandResult s view w d) s) := h
    unfold seeStored
    exact ite_of (ite_of stored (acceptCommand_periodOwned stored)) (ite_of stored stored)
  · exact ite_of (takeAbort_periodOwned h) h

theorem endPeriod_periodOwned {p : Period} {s : State} (hl : s.seq.state = .lit) : PeriodOwned (endPeriod p s) := by
  refine startPeriod_periodOwned (ite_of (P := fun u : State => u.seq.state = .lit) ?_ hl)
  exact (frameEnd_counts (s := s.setPeriod (periodOver p s.period)) hl).1

theorem goodLow_periodOwned {s : State} (h : PeriodOwned s) : PeriodOwned (goodLowEffect s) := by
  unfold goodLowEffect
  dsimp only
  split
  · exact periodOwned_of_none (leaveLit_current (by simp))
  · next hq =>
    have hq : s.seq.state = .resuming := hq
    have hnone : s.period.current = none := current_of_ninthLaw h.1 (by simp [hq]) (by simp [hq])
    exact periodOwned_of_none hnone
  · next hq =>
    have hq : s.seq.state = .settling := hq
    have hnone : s.period.current = none := current_of_ninthLaw h.1 (by simp [hq]) (by simp [hq])
    exact periodOwned_of_none hnone
  · exact periodOwned_of_none rfl
  · exact h

theorem goodHigh_periodOwned {s : State} (h : PeriodOwned s) : PeriodOwned (goodHighEffect s) := by
  have sampled : PeriodOwned (sampleSupply true true 0 s) := h
  unfold goodHighEffect
  dsimp only
  split
  · exact judgeDark_periodOwned sampled
  · next hq =>
    have hq : s.seq.state = .gap := hq
    have hnone : s.period.current = none := current_of_ninthLaw h.1 (by simp [hq]) (by simp [hq])
    exact periodOwned_of_none hnone
  · exact sampled

theorem linkFault_waiting (s : State) : (linkFault s).sched.clearWaiting = s.sched.clearWaiting := by
  unfold linkFault
  dsimp only
  rw [(endRound_frame _ _).2.2.1, (schedulerFault_kept _).2.2.1]
  exact ite_of (P := fun u : State => u.sched.clearWaiting = s.sched.clearWaiting) (by simp) (by simp)

theorem messageSucceeded_waiting (m : Message) (s : State) :
    (messageSucceeded m s).sched.clearWaiting = s.sched.clearWaiting := by
  unfold messageSucceeded
  dsimp only
  split
  · split
    · simp
    · simp [(reportSlice_kept _ _ _).2.2.1]
  · simp

theorem messageFailed_waiting (m : Message) (s : State) :
    (messageFailed m s).sched.clearWaiting = s.sched.clearWaiting := by
  unfold messageFailed
  split
  · split
    · simp
    · split
      · simp
      · simp [(reportSlice_kept _ _ _).2.2.1]
  · simp

theorem messageOutcome_waiting {m : Message} {scan : ByteScan} {s t : State} (h : messageOutcome m scan s = some t) :
    t.sched.clearWaiting = s.sched.clearWaiting := by
  unfold messageOutcome at h
  split at h <;> cases h
  · exact messageSucceeded_waiting m s
  · exact messageFailed_waiting m s
  · simpa using messageFailed_waiting m (countContention s)

theorem messageOutcome_seq {m : Message} {scan : ByteScan} {s t : State} (h : messageOutcome m scan s = some t) :
    t.seq = s.seq := by
  unfold messageOutcome at h
  split at h <;> cases h <;> simp

theorem stretchOutcome_waiting (m : Message) (scan : ByteScan) (freed : Bool) (s : State) :
    (stretchOutcome m scan freed s).sched.clearWaiting = s.sched.clearWaiting := by
  have ended : ∀ u v : State, u.sched = s.sched → v.sched = s.sched →
      (if freed then messageFailed m u else linkFault v).sched.clearWaiting = s.sched.clearWaiting := fun u v hu hv =>
    ite_of (P := fun x : State => x.sched.clearWaiting = s.sched.clearWaiting)
      ((messageFailed_waiting m u).trans (by rw [hu])) ((linkFault_waiting v).trans (by rw [hv]))
  unfold stretchOutcome
  cases scan <;> exact ended _ _ (by simp) (by simp)

/-- Another record of the current period, of the same kind, and strobed where it was (R94). -/
theorem periodOwned_of_marked {s t : State} {p p' : Period} (h : PeriodOwned s) (hp : s.period.current = some p)
    (hp' : t.period.current = some p') (hk : p'.kind = p.kind) (hs : p'.strobed = false → p.strobed = false)
    (hq : t.seq.state = s.seq.state) (hw : t.sched.clearWaiting = s.sched.clearWaiting) : PeriodOwned t := by
  refine ⟨fun x hx => ?_, fun hl x hx hkind hstrobed => ?_⟩
  · obtain rfl : p' = x := Option.some_inj.1 (hp'.symm.trans hx)
    rw [hq, hk]
    exact h.1 p hp
  · obtain rfl : p' = x := Option.some_inj.1 (hp'.symm.trans hx)
    rw [hw]
    exact h.2 (hq ▸ hl) p hp (hk ▸ hkind) (hs hstrobed)

theorem takeSample_periodOwned {level : Int} {p : Period} {s : State} (h : PeriodOwned s)
    (hp : s.period.current = some p) : PeriodOwned (takeSample level p s) := by
  have marked : PeriodOwned (s.setPeriod { s.period with current := some { p with sampled := true } }) :=
    periodOwned_of_marked h hp rfl rfl id rfl rfl
  unfold takeSample
  dsimp only
  split <;> exact marked

/-- The global erase of PRIMING begins in PRIMING (R103). -/
theorem endClear_periodOwned {again : Bool} {s : State} (h : PeriodOwned s) : PeriodOwned (endClear again s) := by
  unfold endClear
  refine ite_of_cond (fun hc => ?_) h
  simp only [Bool.and_eq_true, beq_iff_eq] at hc
  have hq : s.seq.state = .priming := hc.1.1
  refine ⟨fun p hp => .inr ⟨hq, ?_⟩, fun hl => ?_⟩
  · obtain rfl := Option.some_inj.1 hp
    rfl
  · exact absurd (hq.symm.trans hl) (by decide)

theorem effect_periodOwned {i : Instr} {s t : State} (e : Effect i s t) (h : PeriodOwned s) : PeriodOwned t := by
  have kept : ∀ {u}, CommandKept s u → PeriodOwned u := fun k => k.periodOwned h
  have gap : PeriodOwned (portGap s) := by
    obtain ⟨hq, hp, hw⟩ := portGap_panel s
    simpa only [PeriodOwned, NinthLaw, EraseOwned, hq, hp, hw] using h
  have same : ∀ {u : State}, u.seq.state = s.seq.state → u.period.current = s.period.current →
      u.sched.clearWaiting = s.sched.clearWaiting → PeriodOwned u := fun hq hp hw =>
    periodOwned_of_same h hq hp fun hwait => .inl (hw.trans hwait)
  cases e with
  | read off _ _ => exact (CommandKept.periodOwned (by simp [CommandKept])) gap
  | writeAccepted c _ _ => exact (CommandKept.periodOwned (by simp [CommandKept])) gap
  | commandServed v w d _ _ => exact serveCommand_periodOwned (s := noteFirst (portGap s)) gap v w d
  | imageCombined c r w _ => exact (serveImage_kept c.view r w c.data s).periodOwned h
  | commandCombined c w _ => exact serveCommand_periodOwned (s := endCycle s) h c.view w c.data
  | holdExpired held _ => exact kept (degradeHeld_kept _ s)
  | commandWritten r p rest _ hn => exact same (by simp) (by simp) (by simp)
  | areaWord a ha => exact same (by simp) (by simp) (areaWordUnit_waiting a s)
  | taken _ => exact kept (takeWork_kept s)
  | snapshot op c _ => exact kept (snapshotUnit_kept op c s)
  | linkFaulted m _ => exact same (by simp) (linkFault_period s).current (linkFault_waiting s)
  | messageEnded m scan t _ ho =>
    exact same (by rw [messageOutcome_seq ho]) (messageOutcome_period ho).current (messageOutcome_waiting ho)
  | stretched m scan freed _ =>
    exact same (by simp) (stretchOutcome_period m scan freed s).current (stretchOutcome_waiting m scan freed s)
  | recoveryPassed => exact kept (.trans (by simp [CommandKept]) (linkNext_kept _))
  | periodEnded p _ hl _ => exact endPeriod_periodOwned hl
  | strobed p op hp _ _ hk =>
    refine (afterStrobe_kept op _).periodOwned (periodOwned_of_marked h hp
      (p' := { p with strobed := true }) rfl rfl nofun rfl rfl)
  | erased p hp hl hk hs =>
    refine ⟨fun _ _ => .inl (by simpa [eraseStrobe] using hl), fun _ x hx _ hstrobed => ?_⟩
    obtain rfl : { p with strobed := true } = x := by simpa [eraseStrobe, markStrobe] using hx
    cases hstrobed
  | primed p hp _ => exact periodOwned_of_marked h hp rfl rfl nofun rfl rfl
  | clearEnded n again _ => exact endClear_periodOwned h
  | primingEnded p _ _ => exact enterLit_periodOwned _
  | sampleTaken level p hp _ => exact takeSample_periodOwned h hp
  | converted c _ => exact kept (completeConversion_kept c s)
  | goodHigh => exact goodHigh_periodOwned h
  | goodLow => exact goodLow_periodOwned h
  | settled _ => exact periodOwned_of_none rfl
  | resumed _ => exact enterLit_periodOwned _
  | lostInGap hq =>
    exact periodOwned_of_none (by simpa using current_of_ninthLaw h.1 (by simp [hq]) (by simp [hq]))
  | lostInResuming hq =>
    exact periodOwned_of_none (by simpa using current_of_ninthLaw h.1 (by simp [hq]) (by simp [hq]))
  | _ => exact same (by simp) (by simp) (by simp)

theorem commandLaw_iff (s : State) : CommandLaw s ↔ BlocksOwned s ∧ PeriodOwned s := Iff.rfl

theorem effect_commandLaw {i : Instr} {s t : State} (e : Effect i s t) (h : CommandLaw s) : CommandLaw t := by
  obtain ⟨howned, hperiod⟩ := (commandLaw_iff s).1 h
  exact (commandLaw_iff t).2 ⟨effect_owned e howned hperiod.2, effect_periodOwned e hperiod⟩

theorem resetState_commandLaw (sources : ResetSources) (s : State) : CommandLaw (resetState sources s) :=
  ⟨blocksOwned_of_noBlocks ⟨rfl, rfl, rfl, rfl, rfl⟩, periodOwned_of_none rfl⟩

/-- A tick counts in the current period, and a store operation goes on (R94, R181). -/
theorem tick_commandLaw {s : State} (h : CommandLaw s) : CommandLaw (tick s) := by
  obtain ⟨howned, hperiod⟩ := (commandLaw_iff s).1 h
  refine (commandLaw_iff _).2 ⟨?_, ?_⟩
  · refine (goesOn_of_blocks (by simp) (by simp) (by simp) (by simp [tickLink]) (by simp [tickStore]) ?_).owned howned
    cases ho : s.store.op <;> simp [tickStore, ho]
  · cases hp : s.period.current with
    | none => exact periodOwned_of_none (by simp [tickPeriod, hp])
    | some p =>
      exact periodOwned_of_marked (p' := { p with tick := p.tick + 1 }) hperiod hp (by simp [tickPeriod, hp]) rfl id
        (by simp [tickSeq]) (by simp)

/-- Settles O60: each row keeps the law, and so do a reset and a tick. -/
theorem commandLawIsKept : Obligations.CommandLawIsKept := by
  intro s t h hstep
  obtain ⟨sources, rest, -, rfl⟩ | ⟨i, rest, e⟩ | rfl := step_effect hstep
  · exact resetState_commandLaw sources _
  · exact effect_commandLaw e h
  · exact tick_commandLaw h

end Sys2Proof.Machine
end

