-- ==== Sys2Proof/Proofs/CommandRow.lean ====
section
/-! PROOFS. The law of the Command Row Handler (R163): of the rows that happen while a command is RUNNING, only its own
word writes and a reset change the command row, the copy or the command. -/

namespace Sys2Proof.Machine

open Safety

/-! ## Results, whatever holds of the blocks -/

/-- The handler stays as it is, or the running command has its result with the words to be written (R168). -/
def Hands (s t : State) : Prop :=
  t.cmd = s.cmd ∨ ∃ r res words, s.cmd.running = some r ∧ r.result = none ∧
    t.cmd = { s.cmd with running := some { r with result := some res, writes := r.writes ++ words } }

theorem hands_of_eq {s t : State} (h : t.cmd = s.cmd) : Hands s t := .inl h

/-- A command has one result (R168). -/
theorem Hands.trans {s t u : State} (h : Hands s t) (k : Hands t u) : Hands s u := by
  obtain h | ⟨r, res, words, hr, hres, h⟩ := h
  · rwa [Hands, h] at k
  · obtain k | ⟨q, res', words', hq, hopen, -⟩ := k
    · exact .inr ⟨r, res, words, hr, hres, k.trans h⟩
    · rw [h] at hq
      obtain rfl := Option.some_inj.1 hq
      cases hopen

theorem finishCommand_hands (res : Result) (words : List (WordIx × Word)) (s : State) :
    Hands s (finishCommand res words s) := by
  unfold finishCommand
  split
  · exact hands_of_eq rfl
  · next r hr =>
    split
    · exact hands_of_eq rfl
    · next hres =>
      refine .inr ⟨r, resultCode res, words ++ [(0, commandWord r.code (resultCode res))], hr, by simpa using hres, ?_⟩
      simp

theorem Hands.finish {res : Result} {words : List (WordIx × Word)} {s t : State} (h : Hands s t) :
    Hands s (finishCommand res words t) := h.trans (finishCommand_hands res words t)

theorem Hands.goesOn {s t : State} (h : Hands s t) : HandlerGoesOn s t := by
  obtain h | ⟨r, res, words, hr, -, h⟩ := h
  · exact handlerGoesOn_of_eq h
  · refine ⟨by rw [h], fun hn => by simp [hr] at hn, fun q hq => ?_⟩
    obtain rfl : r = q := Option.some_inj.1 (hr.symm.trans hq)
    exact ⟨{ r with result := some res, writes := r.writes ++ words }, by rw [h], rfl, rfl, nofun⟩

theorem abandonErase_hands (s : State) : Hands s (abandonErase s) := .finish (hands_of_eq rfl)

theorem lossEffects_hands (s : State) : Hands s (lossEffects s) := by
  rw [lossEffects_eq]
  dsimp only
  split
  · exact .trans (hands_of_eq (by simp)) (abandonErase_hands _)
  · exact hands_of_eq (by simp)

theorem lossInGap_hands (s : State) : Hands s (lossInGap s) := by
  unfold lossInGap
  dsimp only
  generalize hu : raiseNotice _ _ = u
  have raised : Hands s u := hands_of_eq (by simp [← hu])
  exact (raised.trans (lossEffects_hands u)).trans (hands_of_eq (by simp))

theorem lossInResuming_hands (s : State) : Hands s (lossInResuming s) := by
  unfold lossInResuming
  dsimp only
  generalize hu : raiseNotice _ _ = u
  have raised : Hands s u := hands_of_eq (by simp [← hu])
  exact raised.trans (lossEffects_hands u)

/-- A limit reached at an installation can end a CLEAR_AND_REPAINT (R66, R125). -/
theorem reachLimits_hands (s : State) : Hands s (reachLimits s) := by
  have drawn : Hands s (drawFree s) := hands_of_eq (by simp)
  unfold reachLimits
  split
  · exact ite_of (hands_of_eq (by simp)) (hands_of_eq rfl)
  · exact ite_of (lossInGap_hands s) (hands_of_eq rfl)
  · refine ite_of (ite_of (ite_of (hands_of_eq (by simp)) ?_) (hands_of_eq (by simp)))
      (ite_of (lossInResuming_hands s) (hands_of_eq rfl))
    exact (drawn.trans (lossInResuming_hands _)).trans (hands_of_eq (t := enterPriming _) (by simp))
  · exact hands_of_eq rfl

/-- The command that staged the settings hands its result as they are installed (R190). -/
theorem installStaged_hands {thenDo : State → State} (hd : ∀ u, (thenDo u).cmd = u.cmd) (s : State) :
    Hands s (installStaged thenDo s) := by
  unfold installStaged
  split
  · refine Hands.finish (.trans ?_ (hands_of_eq (hd _)))
    unfold installSettings
    exact .trans (hands_of_eq (by simp)) (reachLimits_hands _)
  · exact hands_of_eq (hd s)

theorem cutErase_hands (s : State) : Hands s (cutErase s) := by
  unfold cutErase
  exact ite_of (.trans (hands_of_eq (by simp)) (abandonErase_hands _)) (hands_of_eq (by simp))

theorem cutPeriod_hands (s : State) : Hands s (cutPeriod s) := by
  unfold cutPeriod cutWork
  split
  · next p hp =>
    have ended : Hands s (s.setPeriod (periodOver p s.period)) := hands_of_eq rfl
    dsimp only
    split
    · exact ended
    · split
      · exact ended
      · exact ended.trans (cutErase_hands _)
      · split
        · exact ended.trans (hands_of_eq (by simp))
        · exact ended
  · exact hands_of_eq rfl

theorem leaveLit_hands (s : State) : Hands s (leaveLit s) := by
  unfold leaveLit
  dsimp only
  generalize hu : restartTimers _ = u
  have cut : Hands s u := by
    rw [← hu]
    exact (cutPeriod_hands s).trans (hands_of_eq rfl)
  exact cut.trans (installStaged_hands (fun _ => rfl) u)

theorem finish_handler {res : Result} {words : List (WordIx × Word)} {s t : State} (h : t.cmd = s.cmd) :
    HandlerGoesOn s (finishCommand res words t) := (handlerGoesOn_of_eq h).finish

theorem goodLow_handler (s : State) : HandlerGoesOn s (goodLowEffect s) := by
  have sampled : HandlerGoesOn s (sampleSupply false false 0 s) := handlerGoesOn_of_eq rfl
  unfold goodLowEffect
  dsimp only
  split
  · exact (sampled.trans (setSeq_goesOn _ _).toHandlerGoesOn).trans (leaveLit_hands _).goesOn
  · exact sampled.trans (setSeq_goesOn _ _).toHandlerGoesOn
  · exact sampled.trans (enterDark_goesOn _).toHandlerGoesOn
  · exact (sampled.trans (endPriming_goesOn _).toHandlerGoesOn).trans (enterDark_goesOn _).toHandlerGoesOn
  · exact sampled

/-- Every row but the handler's own write lets the RUNNING command go on (R163). -/
theorem effect_handler {i : Instr} {s t : State} {r : Running} (e : Effect i s t)
    (hgap : usesPort i = true → NoGap s) (hr : s.cmd.running = some r) (hi : i ≠ .commandRowWordWrite) :
    HandlerGoesOn s t := by
  have kept : ∀ {u}, CommandKept s u → HandlerGoesOn s u := fun k => k.goesOn.toHandlerGoesOn
  have on : ∀ {u}, CommandGoesOn s u → HandlerGoesOn s u := fun k => k.toHandlerGoesOn
  cases e with
  | read off hu _ =>
    rw [portGap_of_noGap (hgap hu)]
    exact handlerGoesOn_of_eq (by simp)
  | writeAccepted c hu _ =>
    rw [portGap_of_noGap (hgap hu)]
    exact handlerGoesOn_of_eq (by simp)
  | commandServed v w d hu _ =>
    rw [portGap_of_noGap (hgap hu)]
    have noted : CommandKept s (noteFirst s) := by simp [CommandKept]
    refine ((kept noted).trans (serveCommand_goesOn (by simpa using hr) v w d).toHandlerGoesOn).trans ?_
    exact handlerGoesOn_of_eq (by simp)
  | commandCombined c w _ =>
    refine ((handlerGoesOn_of_eq (by simp)).trans
      (serveCommand_goesOn (s := endCycle s) (by simpa using hr) c.view w c.data).toHandlerGoesOn).trans ?_
    exact handlerGoesOn_of_eq (by simp)
  | storeErased page n _ => exact finish_handler rfl
  | storeWritten k v n _ => exact finish_handler rfl
  | commandWritten q p rest hc _ => exact absurd hc hi
  | areaWord a ha => exact on (areaWordUnit_goesOn ha)
  | linkFaulted m _ => exact on (linkFault_goesOn s)
  | messageEnded m scan t _ ho => exact on (messageOutcome_goesOn ho)
  | stretched m scan freed _ => exact on (stretchOutcome_goesOn m scan freed s)
  | periodEnded p _ _ _ => exact on (endPeriod_goesOn p s)
  | erased p _ _ _ _ => exact finish_handler (by simp [markStrobe])
  | goodLow => exact goodLow_handler s
  | resumed _ => exact on (endGap_goesOn s)
  | lostInGap _ => exact on (lossInGap_goesOn s)
  | lostInResuming _ => exact on (lossInResuming_goesOn s)
  | _ => exact handlerGoesOn_of_eq (by simp)

/-! ## The words of the command row -/

/-- No word of the command row changes. -/
abbrev CommandRowKept (s t : State) : Prop := ∀ w : WordIx, readMem t (16384 + w.val) = readMem s (16384 + w.val)

theorem rowKept_of_mem {s t : State} (h : t.mem = s.mem) : CommandRowKept s t := fun _ => by rw [readMem, readMem, h]

/-- A word of the image is no word of the command row (R2). -/
theorem rowKept_of_image {s t : State} {r : Row} {w : WordIx} {v : Word}
    (h : t.mem = cellsWrite 0 s.mem (imageOffset r w) v) : CommandRowKept s t := fun w' => by
  rw [readMem, h]
  refine cellsRead_cellsWrite_ne s.mem v ?_
  have : imageOffset r w < 16384 := imageOffset_lt r w
  omega

theorem cellsRead_cellsWriteAll_ne {α : Type} [DecidableEq α] {d : α} {b : Nat} (l : List (Nat × α)) (m : Cells α)
    (h : ∀ p ∈ l, b ≠ p.1) : cellsRead d (cellsWriteAll d m l) b = cellsRead d m b := by
  induction l generalizing m with
  | nil => rfl
  | cons p l ih =>
    exact (ih _ fun q hq => h q (.tail _ hq)).trans (cellsRead_cellsWrite_ne m p.2 (h p (.head _)))

/-- The words of the status row are no words of the command row (R2). -/
theorem rowKept_of_burst (s : State) : CommandRowKept s (burstUnit s) := fun w => by
  have mem : (burstUnit s).mem = cellsWriteAll Config.blankWord s.mem (statusRecord s) := by simp [burstUnit]
  rw [readMem, mem]
  refine cellsRead_cellsWriteAll_ne _ _ fun p hp => ?_
  obtain ⟨k, -, rfl⟩ := List.mem_map.1 hp
  have : w.val < 32 := w.isLt
  simp only [Config.statusBase]
  omega

theorem serveImage_mem (view : BitVec 3) (r : Row) (w : WordIx) (d : Word) (s : State) :
    (serveImage view r w d s).mem = cellsWrite 0 s.mem (imageOffset r w)
      (combine (viewCombine view) (readMem s (imageOffset r w)) d) := by
  unfold serveImage
  dsimp only
  split <;> simp [writeMem, Config.blankWord]

theorem areaWordUnit_mem (a : AreaOp) (s : State) :
    (areaWordUnit a s).mem = cellsWrite 0 s.mem (imageOffset a.row a.word)
      (areaCombine a.op (readMem s (imageOffset a.row a.word)) (areaPattern a a.row) (areaCells a a.word)) := by
  simp [areaWordUnit, writeMem, Config.blankWord]

theorem noticeUpdateUnit_mem (s : State) :
    (noticeUpdateUnit s).mem = cellsWrite 0 s.mem (statusOffset 0) (noticeWord s) := by
  unfold noticeUpdateUnit
  dsimp only
  split <;> simp [writeMem, Config.blankWord]

/-- A write offered to the running command is no write to memory (R166). -/
theorem serveCommand_mem_of_running {s : State} {r : Running} (hr : s.cmd.running = some r) (view : BitVec 3)
    (w : WordIx) (d : Word) : (serveCommand view w d s).mem = s.mem := by
  unfold serveCommand
  rw [hr]
  simp

theorem messageOutcome_mem {m : Message} {scan : ByteScan} {s t : State} (h : messageOutcome m scan s = some t) :
    t.mem = s.mem := by
  unfold messageOutcome at h
  split at h <;> cases h <;> simp

/-- Every row but the handler's own write leaves the command row while a command is RUNNING (R163, R166). -/
theorem effect_rowKept {i : Instr} {s t : State} {r : Running} (e : Effect i s t)
    (hgap : usesPort i = true → NoGap s) (hr : s.cmd.running = some r) (hi : i ≠ .commandRowWordWrite) :
    CommandRowKept s t := by
  cases e with
  | read off hu _ =>
    rw [portGap_of_noGap (hgap hu)]
    exact rowKept_of_mem (by simp)
  | writeAccepted c hu _ =>
    rw [portGap_of_noGap (hgap hu)]
    exact rowKept_of_mem (by simp)
  | commandServed v w d hu _ =>
    rw [portGap_of_noGap (hgap hu)]
    exact rowKept_of_mem (by simp [serveCommand_mem_of_running (s := noteFirst s) (by simpa using hr)])
  | commandCombined c w _ =>
    exact rowKept_of_mem (by simp [serveCommand_mem_of_running (s := endCycle s) (by simpa using hr)])
  | imageCombined c row w _ =>
    exact rowKept_of_image (by simpa using serveImage_mem c.view row w c.data s)
  | areaWord a _ => exact rowKept_of_image (areaWordUnit_mem a s)
  | commandWritten q p rest hc _ => exact absurd hc hi
  | noticesWritten =>
    intro w
    rw [readMem, noticeUpdateUnit_mem]
    exact cellsRead_cellsWrite_ne s.mem _ (by have := w.isLt; simp only [statusOffset, Config.statusBase]; omega)
  | burstWritten => exact rowKept_of_burst s
  | messageEnded m scan t _ ho => exact rowKept_of_mem (messageOutcome_mem ho)
  | _ => exact rowKept_of_mem (by simp)

/-! ## The command -/

theorem commandWriteUnit_running (r : Running) (w : WordIx) (v : Word) (rest : List (WordIx × Word)) (s : State) :
    (commandWriteUnit r w v rest s).cmd.running = none ∨
      (commandWriteUnit r w v rest s).cmd.running = some { r with writes := rest } := by
  unfold commandWriteUnit
  dsimp only
  split
  · split
    · exact .inl (by simp [completeCommand])
    · exact .inr (by simp)
  · exact .inr (by simp)

theorem execCommandRowWordWrite_eq_next {s t : State} {r : Running} (hr : s.cmd.running = some r)
    (h : execCommandRowWordWrite s = .next t) :
    ∃ (p : WordIx × Word) (rest : List (WordIx × Word)), t = commandWriteUnit r p.1 p.2 rest s := by
  unfold execCommandRowWordWrite at h
  split at h
  · next r' p rest hn =>
    obtain rfl : r = r' := Option.some_inj.1 (hr.symm.trans (nextCommandWrite_eq_some hn).1)
    obtain ⟨-, rfl⟩ := stepWhen_eq_next.1 h
    exact ⟨p, rest, rfl⟩
  · cases h

/-- Settles O17: the handler's own write and RESET apart, no row writes the command row, and the command goes on. -/
theorem commandRowIsLockedWhileRunning : Obligations.CommandRowIsLockedWhileRunning := by
  intro c s t r hgap hr h
  by_cases hreset : ∃ cause, c = .reset cause
  · obtain ⟨cause, rfl⟩ := hreset
    cases h
    exact ⟨fun _ hc => absurd rfl (hc cause), .inl rfl, fun hc => absurd rfl (hc cause)⟩
  · have e : Effect c s t := exec_effect h fun sources hs => hreset ⟨sources, hs⟩
    refine ⟨fun hc _ => effect_rowKept e hgap hr hc, ?_, fun _ hc => (effect_handler e hgap hr hc).copy⟩
    by_cases hc : c = .commandRowWordWrite
    · subst hc
      obtain ⟨p, rest, rfl⟩ := execCommandRowWordWrite_eq_next hr h
      exact (commandWriteUnit_running r p.1 p.2 rest s).imp_right fun hw => ⟨{ r with writes := rest }, hw, rfl, rfl⟩
    · obtain ⟨r', hr', hcode, hargs, -⟩ := (effect_handler e hgap hr hc).running r hr
      exact .inr ⟨r', hr', hcode, hargs⟩

end Sys2Proof.Machine
end

