-- ==== Sys2Proof/Proofs/Merging.lean ====
section
/-! PROOFS. The merge of a difference and the merge-back, cell by cell (R25 to R29, R37 to R41), and what they do to the
processor's write and to a hold (R9 to R14, R30). -/

namespace Sys2Proof.Machine

open Safety

/-! ## Cells -/

/-- Column c of a row is bit 15 - c mod 16 of its word c / 16, and no cell of another word (R18). -/
theorem getLsbD_wordCells_column (w : WordIx) (v : Word) {c : Nat} (h : c < 512) :
    (wordCells w v).getLsbD (511 - c) = (decide (c / 16 = w.val) && v.getLsbD (15 - c % 16)) := by
  have hw := w.isLt
  rw [getLsbD_wordCells]
  obtain hlt | heq | hgt := Nat.lt_trichotomy (c / 16) w.val
  · have : 16 ≤ 511 - c - 16 * (31 - w.val) := by omega
    simp [BitVec.getLsbD_of_ge v _ this, Nat.ne_of_lt hlt]
  · have hbit : 511 - c - 16 * (31 - w.val) = 15 - c % 16 := by omega
    have hin : 16 * (31 - w.val) ≤ 511 - c := by omega
    have hcol : 511 - c < 512 := by omega
    simp [heq, hbit, hin, hcol]
  · have : ¬ 16 * (31 - w.val) ≤ 511 - c := by omega
    simp [this, Nat.ne_of_gt hgt]

/-- A cell of an entry after actions: to be lit, unless an action to darken it comes; lit anew, unless it was to be
darkened; and the same of the other mask (R26, R39). -/
theorem applyActions_setMask (e : Entry) (light dark : Mask) {i : Nat} (h : i < 512) :
    (applyActions e light dark).setMask.getLsbD i =
      (e.setMask.getLsbD i && !dark.getLsbD i || light.getLsbD i && !e.clearMask.getLsbD i) := by
  simp [applyActions, h]

theorem applyActions_clearMask (e : Entry) (light dark : Mask) {i : Nat} (h : i < 512) :
    (applyActions e light dark).clearMask.getLsbD i =
      (e.clearMask.getLsbD i && !light.getLsbD i || dark.getLsbD i && !e.setMask.getLsbD i) := by
  simp [applyActions, h]

/-- Opposite actions on one cell annul each other, and an action on an idle cell stands (R26). -/
theorem cell_of_action {up down set clear : Bool} (hmask : (set && clear) = false) (hdiff : (up && down) = false) :
    let was := (set, clear)
    let is := (set && !down || up && !clear, clear && !up || down && !set)
    (up = true → was = (false, true) → is = (false, false)) ∧
      (up = true → was = (false, false) → is = (true, false)) ∧
      (down = true → was = (true, false) → is = (false, false)) ∧
      (down = true → was = (false, false) → is = (false, true)) ∧
      (up = true → was = (true, false) → is = (true, false)) ∧
      (down = true → was = (false, true) → is = (false, true)) ∧
      (up = false → down = false → is = was) := by
  cases up <;> cases down <;> cases set <;> cases clear <;> simp at *

/-! ## The merge of one difference -/

/-- Settles O10: the row's entry becomes the one with the actions applied, whose cells are those of the difference. -/
theorem mergeIntoAnOpenEntry : Obligations.MergeIntoAnOpenEntry := by
  intro s r w rise fall e hdropped hopen hmask hdiff
  refine ⟨applyActions e (wordCells w rise) (wordCells w fall), rfl, fun c hc => ?_, ?_⟩
  · have hlt : 511 - c < 512 := by omega
    have hopposed : ((decide (c / 16 = w.val) && rise.getLsbD (15 - c % 16)) &&
        (decide (c / 16 = w.val) && fall.getLsbD (15 - c % 16))) = false := by
      have := getLsbD_and_eq_zero hdiff (15 - c % 16)
      cases decide (c / 16 = w.val) <;> simp_all
    simp only [applyActions_setMask _ _ _ hlt, applyActions_clearMask _ _ _ hlt, getLsbD_wordCells_column w _ hc]
    exact cell_of_action (getLsbD_and_eq_zero hmask _) hopposed
  · have hempty := emptyEntry_iff (applyActions e (wordCells w rise) (wordCells w fall))
    simp only [mergeDifference, hdropped, hopen, if_false, Bool.false_eq_true, ← hempty]
    split <;> rfl

/-- Settles O11: without an OPEN entry the merge turns on the slots in use alone. -/
theorem mergeWithoutAnOpenEntry : Obligations.MergeWithoutAnOpenEntry := by
  intro s r w rise fall hdropped hopen
  refine ⟨fun hroom => ?_, fun hfull => mergeDifference_eq_none.2 ⟨hdropped, hopen, Nat.not_lt.2 hfull⟩⟩
  simp [mergeDifference, hdropped, hopen, Config.slots, hroom]

/-! ## The merge-back -/

/-- A row has at most one OPEN entry to return to, and its masks have no cell in common (R20). -/
theorem openEntry_getD_disjoint {t : ChangeTable} (r : Row) (h : ∀ e ∈ t.ageQueue, EntryLaw e) :
    let e := (openEntry t r).getD { row := r, setMask := 0, clearMask := 0 }
    e.setMask &&& e.clearMask = 0 := by
  cases ho : openEntry t r with
  | none => exact BitVec.zero_and
  | some e => exact (h e (openEntry_eq_some ho).1).1

/-- The returned actions on one cell: each annuls its opposite and stands otherwise (R39). -/
theorem cell_of_return {write erase set clear : Bool} (hmask : (set && clear) = false)
    (hdiff : (write && erase) = false) :
    let set' := set && !erase || write && !clear
    let clear' := clear && !write || erase && !set
    (erase = true → set = true → set' = false ∧ clear' = false) ∧
      (erase = true → set = false → set' = false ∧ clear' = true) ∧
      (write = true → clear = true → set' = false ∧ clear' = false) ∧
      (write = true → clear = false → set' = true ∧ clear' = false) ∧
      (erase = false → write = false → set' = set ∧ clear' = clear) := by
  cases write <;> cases erase <;> cases set <;> cases clear <;> simp at *

theorem area_of_contends {h : HeldChange} {s : State} (hc : areaContends h s = true) : ∃ a, s.area = some a := by
  unfold areaContends at hc
  split at hc
  · next a ha => exact ⟨a, ha⟩
  · cases hc

/-- Settles O12: a hold is settled as its three cases say, and the entry at the head is the row's entry with the
returned actions applied. -/
theorem mergeBackStandsAtTheHead : Obligations.MergeBackStandsAtTheHead := by
  refine ⟨fun b hfree => ?free, fun b h hheld => ?settled, fun s r writes erases hdiff hlaw => ?returned⟩
  case free =>
    obtain ⟨-, hsame⟩ | ⟨h, hheld, -⟩ := settleHold_cases b
    · exact hsame
    · exact absurd hheld (hfree h)
  case settled =>
    have offered : ∀ u : State, offerHeld h u = heldOffered h u := fun u => rfl
    refine ⟨fun hin => ?_, fun hout hcont => ?_, fun hout hcont => ?_⟩
    · simp [settleHold, hheld, hin, endCycle, cycleDone]
    · simp [settleHold, hheld, hout, hcont, offered]
    · have hheldOn : (drawFree b).wmu.state = .holding h := by simpa using hheld
      rw [settleHold, hheld]
      simp only [hout, hcont, if_true, if_false, Bool.false_eq_true]
      split
      · obtain ⟨x, hx⟩ := area_of_contends hcont
        exact .inr ⟨x, hx, by simp [grantArea, hx]⟩
      · exact .inl (offered _)
  case returned =>
    refine ⟨fun hin => ?_, fun hout => ?_⟩
    · simp [mergeBack, hin]
    · generalize hwas : (openEntry s.table r).getD { row := r, setMask := 0, clearMask := 0 } = was
      have hrow : was.row = r := hwas ▸ openEntry_getD_row s.table r
      have hmask : was.setMask &&& was.clearMask = 0 := hwas ▸ openEntry_getD_disjoint r hlaw
      refine ⟨applyActions was writes erases, hrow, fun i hi => ?_, ?_⟩
      · rw [applyActions_setMask _ _ _ hi, applyActions_clearMask _ _ _ hi]
        exact cell_of_return (getLsbD_and_eq_zero hmask i) (getLsbD_and_eq_zero hdiff i)
      · have hempty := emptyEntry_iff (applyActions was writes erases)
        simp only [mergeBack, hout, if_false, Bool.false_eq_true, ← hempty, hwas]
        split <;> rfl

/-! ## The processor's write -/

theorem changes_eq_zero_iff (o n : Word) : (riseBits o n = 0 ∧ fallBits o n = 0) ↔ n = o := by
  refine ⟨fun ⟨hrise, hfall⟩ => BitVec.eq_of_getLsbD_eq fun i hi => ?_, ?_⟩
  · have h1 := getLsbD_and_eq_zero hrise i
    have h2 := getLsbD_and_eq_zero hfall i
    simp only [BitVec.getLsbD_not, hi, decide_true, Bool.true_and] at h1 h2
    cases hn : n.getLsbD i <;> simp_all
  · rintro rfl
    simp [riseBits, fallBits]

/-- The unit of a write to an image word, by what its difference finds (R9, R10). -/
theorem serveImage_eq (view : BitVec 3) (r : Row) (w : WordIx) (d : Word) (s : State) :
    let o := readMem s (imageOffset r w)
    let n := combine (viewCombine view) o d
    serveImage view r w d s =
      if n = o then endCycle (writeMem (imageOffset r w) n s)
      else placeOrHold { row := r, word := w, rise := riseBits o n, fall := fallBits o n }
        (writeMem (imageOffset r w) n s) := by
  intro o n
  simp only [serveImage, changes_eq_zero_iff]
  rfl

theorem execReadCombineWrite_image {s : State} {c : WriteCycle} {r : Row} {w : WordIx}
    (hw : s.wmu.state = .merging c) (ht : c.target = .image r w) :
    exec .readCombineWrite s = .next (cycleServed (serveImage c.view r w c.data s)) := by
  have h : exec .readCombineWrite s = execReadCombineWrite s := rfl
  rw [h, execReadCombineWrite, hw]
  simp [ht]

theorem dropped_writeMem (off : Nat) (v : Word) (s : State) (r : Row) (w : WordIx) :
    dropped (writeMem off v s) r w = dropped s r w := rfl

/-- A difference is dropped for a row of a resync set, and for a word that a snapshot has yet to read (R25). -/
theorem dropped_of {s : State} {r : Row} {w : WordIx}
    (h : hasRow s.sets.full r = true ∨ hasRow s.sets.fill r = true ∨
      ∃ op k, s.sched.op = some op ∧ op.row = r ∧ op.stage = .snapshot ∧ op.cursor = some k ∧ k ≤ w.val) :
    dropped s r w = true := by
  obtain h | h | ⟨op, k, hop, hrow, hstage, hcursor, hle⟩ := h
  · simp [dropped, inResync, h]
  · simp [dropped, inResync, h]
  · simp [dropped, aboveCursor, hop, hrow, hstage, hcursor, hle]

/-- Settles O9: the word unchanged, or its difference dropped, the cycle ends at once. -/
theorem writeWithNothingToPlaceCompletes : Obligations.WriteWithNothingToPlaceCompletes := by
  intro s c r w hw ht o n hnothing
  rw [execReadCombineWrite_image hw ht, serveImage_eq]
  have ended : cycleServed (endCycle (writeMem (imageOffset r w) n s)) =
      unitEnds true (((writeMem (imageOffset r w) n s).setWmu { s.wmu with state := .idle }).setBus
        { s.bus with ready := true }) := rfl
  rw [← ended]
  congr 2
  split
  · rfl
  · next hchanged =>
    have hdropped := dropped_of (hnothing.resolve_left hchanged)
    simp [placeOrHold, mergeDifference, dropped_writeMem, hdropped, o, n]

theorem wordByTable_combine (v : BitVec 3) (o d : Word) : WordByTable v o d (combine (viewCombine v) o d) := by
  refine ⟨?_, ?_, ?_, ?_⟩ <;> rintro (rfl | rfl) <;> rfl

/-- With no record held, a degraded row leaves everything but the sets, the table and the notices, and ends the cycle
(R14). -/
theorem requestFull_of_merging {s : State} {c : WriteCycle} (hw : s.wmu.state = .merging c) (rows : RowSet) :
    requestFull rows s = addFull rows s := by
  have hadded : (addFull rows s).wmu.state = .merging c := by simpa using hw
  rw [requestFull, settleHold, hadded]
  split
  · exact (addFull_of_recordless ‹_› rows).symm
  · rfl

theorem placeOrHold_area {s : State} {c : WriteCycle} (hw : s.wmu.state = .merging c) (h : HeldChange) :
    (placeOrHold h s).area = s.area := by
  unfold placeOrHold
  split
  · next m hm => simp [mergeDifference_frame hm]
  · split
    · simp [degradeHeld, requestFull_of_merging hw]
    · rfl

theorem cycleServed_area (s : State) : (cycleServed s).area = s.area := rfl

theorem serveImage_merged {view : BitVec 3} {r : Row} {w : WordIx} {d o n : Word} {s m : State}
    (ho : o = readMem s (imageOffset r w)) (hn : n = combine (viewCombine view) o d) (hne : n ≠ o)
    (hm : mergeDifference r w (riseBits o n) (fallBits o n) (writeMem (imageOffset r w) n s) = some m) :
    serveImage view r w d s = endCycle m := by
  subst ho hn
  rw [serveImage_eq, if_neg hne, placeOrHold, hm]

/-- Settles O8: the write's unit writes the word, and what follows is the matter of the difference alone. -/
theorem readCombineWriteStoresTheNewWord : Obligations.ReadCombineWriteStoresTheNewWord := by
  intro s c r w hmem hw ht
  let o := readMem s (32 * r.val + w.val)
  let n := combine (viewCombine c.view) o c.data
  refine ⟨_, execReadCombineWrite_image hw ht, ?_⟩
  have hread : ∀ x, readMem (cycleServed (serveImage c.view r w c.data s)) x =
      readMem (writeMem (32 * r.val + w.val) n s) x := fun x => by
    simp only [readMem, cycleServed_frame, serveImage_mem]
    rfl
  have hself : readMem (cycleServed (serveImage c.view r w c.data s)) (32 * r.val + w.val) = n :=
    (hread _).trans (readMem_writeMem_self hmem)
  refine ⟨?_, fun x hx => (hread x).trans (readMem_writeMem_ne hx), ?_, by simp, by simp, by simp [SameDrive], ?_,
    by simp, by simp⟩
  · rw [hself]
    exact wordByTable_combine c.view o c.data
  · intro o' n' hne m hm
    have hn : n' = n := hself
    clear_value n'
    subst hn
    exact congrArg cycleServed (serveImage_merged rfl rfl hne hm)
  · have hwritten : (writeMem (imageOffset r w) n s).wmu.state = .merging c := by simpa using hw
    rw [cycleServed_area, serveImage_eq]
    split
    · rfl
    · exact placeOrHold_area hwritten _

/-! ## The hold -/

/-- A row is degraded (R14): it is counted with its notice, and the cycle ends. -/
theorem degradeHeld_outcome {r : Row} {s : State} (hn : (requestFull (oneRow r) s).notice = s.notice) :
    let t := degradeHeld r s
    t.wmu.state = .idle ∧ t.bus.ready = true ∧
      t.notice.degradedRows = min 65535 (s.notice.degradedRows + 1) ∧
      t.notice.notices = s.notice.notices ||| 0x40 := by
  have hraised : ∀ u : State, (raiseNotice .degraded u).notice.degradedRows = u.notice.degradedRows := fun u => by
    unfold raiseNotice
    split <;> simp [setNotices]
  refine ⟨rfl, rfl, ?_, ?_⟩
  · simp [degradeHeld, countDegraded, hraised, hn, saturate, Config.counterMax]
  · simp [degradeHeld, countDegraded, hn, noticeBit]

/-- The request of a held row finds its record in a resync set, or is ignored (R13, R45). -/
theorem requestFull_of_holding {s : State} {h : HeldChange} (hw : s.wmu.state = .holding h) :
    requestFull (oneRow h.row) s =
      if recordless s.seq.state then s else endCycle (addFull (oneRow h.row) s) := by
  have hadded : (addFull (oneRow h.row) s).wmu.state = .holding h := by simpa using hw
  rw [requestFull]
  split
  · rfl
  · next hrec =>
    obtain ⟨hrec', -⟩ | ⟨-, hfull, -⟩ := addFull_cases (oneRow h.row) s
    · exact absurd hrec' hrec
    · have hin : inResync (addFull (oneRow h.row) s) h.row = true := by simp [inResync, hfull, hasRow_oneRow]
      rw [settleHold, hadded]
      simp [hin]

theorem degradeHeld_records {s : State} {h : HeldChange} (hw : s.wmu.state = .holding h) :
    (degradeHeld h.row s).sets = (addFull (oneRow h.row) s).sets ∧
      (degradeHeld h.row s).table = (addFull (oneRow h.row) s).table ∧ (degradeHeld h.row s).area = s.area := by
  rw [degradeHeld, requestFull_of_holding hw]
  split
  · next hrec => simp [addFull_of_recordless hrec]
  · simp

/-- Settles O13: with no room the record is kept, or with a hold limit of 0 its row is degraded at once. -/
theorem writeWithoutRoomIsHeld : Obligations.WriteWithoutRoomIsHeld := by
  intro s c r w hw ht hdropped hopen hfull o n hne
  have hnoroom : mergeDifference r w (riseBits o n) (fallBits o n) (writeMem (imageOffset r w) n s) = none :=
    mergeDifference_eq_none.2 ⟨hdropped, hopen, Nat.not_lt.2 hfull⟩
  have hwritten : (writeMem (imageOffset r w) n s).wmu.state = .merging c := by simpa using hw
  have hplaced : serveImage c.view r w c.data s =
      if s.store.settings.holdLimit = 0 then degradeHeld r (writeMem (imageOffset r w) n s)
      else (writeMem (imageOffset r w) n s).setWmu
        { state := .holding { row := r, word := w, rise := riseBits o n, fall := fallBits o n }
          holdCounter := 0 } := by
    rw [serveImage_eq, if_neg hne, placeOrHold, hnoroom]
    rfl
  rw [execReadCombineWrite_image hw ht, hplaced]
  refine ⟨fun hlimit => ?_, fun hlimit => ?_⟩
  · rw [if_neg (Nat.ne_of_gt hlimit)]
    rfl
  · rw [if_pos hlimit]
    generalize hu : writeMem (imageOffset r w) n s = u at hwritten
    have hnotice : u.notice = s.notice := by simp [← hu]
    have hseq : u.seq = s.seq := by simp [← hu]
    have hrequest := requestFull_of_merging hwritten (oneRow r)
    obtain ⟨hidle, hready, hcount, hraised⟩ := degradeHeld_outcome (r := r) (s := u) (by simp [hrequest])
    refine ⟨_, rfl, by simp, hidle, hready, unitEnds_record _ _, by simpa [hnotice] using hcount,
      by simpa [hnotice] using hraised, fun hrec => ?_⟩
    obtain ⟨hrec', -⟩ | ⟨-, hrows, -⟩ := addFull_cases (oneRow r) u
    · simp [hseq, hrec] at hrec'
    · simp [degradeHeld, hrequest, hrows, hasRow_oneRow]

/-- Settles O14: the held row goes to the FULL set, where its record ends with the cycle. -/
theorem holdExpiryDegradesTheRow : Obligations.HoldExpiryDegradesTheRow := by
  intro s h hw hlimit
  have hexec : exec .holdExpiry s = .next (degradeHeld h.row s) := by
    have hdef : exec .holdExpiry s = execHoldExpiry s := rfl
    rw [hdef, execHoldExpiry, hw]
    simp [stepWhen, hlimit]
  have hrequest := requestFull_of_holding hw
  obtain ⟨hidle, hready, hcount, hraised⟩ := degradeHeld_outcome (r := h.row) (s := s) (by
    rw [hrequest]
    split <;> simp)
  obtain ⟨hsets, htable, harea⟩ := degradeHeld_records hw
  refine ⟨_, hexec, hidle, hready, by simp, hcount, hraised, fun hrec => ?_, fun hrec => ?_, by simp [htable], by simp,
    by simp, by simp [SameDrive], harea, by simp, by simp⟩
  · rw [hsets, htable, addFull_of_recordless hrec]
    exact ⟨rfl, rfl⟩
  · rw [hsets, htable]
    obtain ⟨hrec', -⟩ | ⟨-, hfull, hfill, hqueue⟩ := addFull_cases (oneRow h.row) s
    · simp [hrec] at hrec'
    · refine ⟨fun q => ?_, fun q => ?_, fun hout => ?_⟩
      · simp [hfull, hasRow_oneRow, beq_eq_decide]
      · simp [hfill, hasRow_oneRow, bne, beq_eq_decide]
      · simp only [inResync, Bool.or_eq_false_iff] at hout
        rw [hqueue, dropRows]
        refine List.filter_congr fun e _ => ?_
        by_cases he : e.row = h.row <;> simp [hasRow_oneRow, he, hout.1]

end Sys2Proof.Machine
end

