-- ==== Sys2Proof/Proofs/CommandWrites.lean ====
section
/-! PROOFS. Writes to the command row: stored while IDLE (R164), accepted as a command (R165), refused while RUNNING
(R166), seen by the setup matchers (R185); and the handler's own writes (R168). -/

namespace Sys2Proof.Machine

open Safety

/-! ## The row of the table that a write is -/

/-- Of a choice, with its condition in both cases. -/
theorem ite_of_both {α : Type} {P : α → Prop} {c : Prop} [Decidable c] {x y : α} (hx : c → P x) (hy : ¬ c → P y) :
    P (if c then x else y) := by
  split
  · next h => exact hx h
  · next h => exact hy h

/-- Whichever row of the table a privileged write to a command word is, the port serves its unit (R6, R165). -/
theorem exec_commandRowWrite_view {s : State} {a : BusAddr} {d n : Word} {w : WordIx} (h : WritesCommand s a d w n) :
    ∃ v, decodeIn s a = .aperture v (.command w) ∧ commandResult s v w d = n ∧
      exec (commandRowWrite w (highByte n) a d) s = .next (cycleServed (serveCommand v w d (noteFirst s))) := by
  obtain ⟨hgap, hready, v, hdecode, hview, rfl⟩ := h
  refine ⟨v, hdecode, rfl, ?_⟩
  have hport := portGap_of_noGap hgap
  let Served := fun i : Instr => exec i s = .next (cycleServed (serveCommand v w d (noteFirst s)))
  have posted : ∀ {p : Byte → Bool}, w = 0 → p (highByte (commandResult s v w d)) = true →
      busStep s (postingOf p a d s) = .next (cycleServed (serveCommand v w d (noteFirst s))) := by
    rintro p rfl hp
    simp [busStep, hready, postingOf, hdecode, hport, hview, hp]
  have aperture : w ≠ 31 → (w ≠ 0 ∨ highByte (commandResult s v w d) = 0) →
      execApertureWrite a d s = .next (cycleServed (serveCommand v w d (noteFirst s))) := by
    intro h31 h0
    obtain h0 | h0 := h0 <;> simp [execApertureWrite, busStep, hready, hdecode, hview, hport, h31, h0]
  have setup : w = 31 → execSetupSequenceWrite a d s = .next (cycleServed (serveCommand v w d (noteFirst s))) := by
    rintro rfl
    simp [execSetupSequenceWrite, busStep, hready, hdecode, hview, hport]
  change Served (commandRowWrite w (highByte (commandResult s v w d)) a d)
  generalize highByte (commandResult s v w d) = code at *
  refine ite_of_both (P := Served) setup fun h31 => ite_of_both (P := Served) (aperture h31) fun h0 => ?_
  obtain ⟨rfl, hcode⟩ : w = 0 ∧ code ≠ 0 := by tauto
  have named : ∀ k : Byte, code = k → (code == k) = true := fun k hk => by simp [hk]
  iterate 11 refine ite_of_both (P := Served) (fun hk => posted rfl (named _ hk)) fun _ => ?_
  refine posted rfl ?_
  simp only [commandCodes, List.contains_cons, List.contains_nil, Bool.or_false, Bool.not_or, bne, Bool.and_eq_true,
    Bool.not_eq_true', beq_eq_false_iff_ne]
  and_intros <;> assumption

theorem exec_commandRowWrite {s : State} {a : BusAddr} {d n : Word} {w : WordIx} (h : WritesCommand s a d w n) :
    ∃ v, commandResult s v w d = n ∧
      exec (commandRowWrite w (highByte n) a d) s = .next (cycleServed (serveCommand v w d (noteFirst s))) := by
  obtain ⟨v, -, hserved⟩ := exec_commandRowWrite_view h
  exact ⟨v, hserved⟩

/-! ## Words stored while IDLE -/

/-- A word is stored and seen by the handler while it is IDLE (R164, R165, R185). -/
theorem serveCommand_of_idle {s : State} {v : BitVec 3} {w : WordIx} {d n : Word} (hi : s.cmd.running = none)
    (hn : commandResult s v w d = n) :
    serveCommand v w d (noteFirst s) = seeStored w n (storeCommandWord w n (noteFirst s)) := by
  subst hn
  simp [serveCommand, hi, commandResult]

/-- Settles O15: a word that posts nothing and is no matter of the matchers is stored. -/
theorem commandWordsAreStoredWhileIdle : Obligations.CommandWordsAreStoredWhileIdle := by
  intro s a d w n hwrites hidle h31 h0
  obtain ⟨v, hn, hexec⟩ := exec_commandRowWrite hwrites
  have hrow : commandRowWrite w (highByte n) a d = .apertureWrite a d := by
    rw [commandRowWrite, if_neg h31, if_pos (by tauto)]
  rw [hrow] at hexec
  have hseen : ∀ u, seeStored w n u = u := fun u => by
    unfold seeStored
    exact ite_of_both (P := fun x => x = u) (fun hw => by rw [if_pos (h0 hw)]) fun _ => by rw [if_neg h31]
  rw [hexec, serveCommand_of_idle hidle hn, hseen]
  rfl

/-! ## Words offered while RUNNING -/

/-- Which command an ABORT is taken for (R66, R160, R191). -/
theorem abortable_iff {s : State} {r : Running} :
    abortable s r = true ↔ r.result = none ∧ r.abortTaken = false ∧
      ((r.code = 0x03 ∧ s.area ≠ none) ∨ (r.code = 0x02 ∧ s.sched.clearWaiting = true) ∨
        (r.code = 0x12 ∧ s.store.staged ≠ none)) := by
  have held : ∀ {α : Type} (o : Option α), o.isSome = true ↔ o ≠ none := fun o => by cases o <;> simp
  rw [abortable, Bool.and_eq_true, Bool.and_eq_true, Option.isNone_iff_eq_none, Bool.not_eq_true', and_assoc]
  refine and_congr_right fun _ => and_congr_right fun _ => ?_
  by_cases h3 : r.code = 0x03
  · simp [h3, held]
  · by_cases h2 : r.code = 0x02
    · simp [h2]
    · by_cases h12 : r.code = 0x12
      · simp [h12, held]
      · rw [if_neg h3, if_neg h2, if_neg h12]
        simp only [h3, h2, h12, false_and, or_self, Bool.false_eq_true]

/-- Settles O16: a write that is no ABORT to be taken is counted, and the port has served its unit. -/
theorem commandRowWritesAreRefusedWhileRunning : Obligations.CommandRowWritesAreRefusedWhileRunning := by
  intro s a d w n r hwrites hrun hnone
  obtain ⟨v, hn, hexec⟩ := exec_commandRowWrite hwrites
  have hrefused : ¬ (w = 0 ∧ highByte n = 0x07 ∧ abortable (noteFirst s) r = true) := by
    rintro ⟨hw, hcode, habort⟩
    obtain ⟨hres, htaken, hblock⟩ := abortable_iff.1 habort
    exact hnone ⟨hw, hcode, hres, htaken, by simpa using hblock⟩
  rw [hexec]
  subst hn
  have hserved : serveCommand v w d (noteFirst s) = countCommandDiscard (noteFirst s) := by
    simp only [serveCommand, noteFirst_frame, hrun]
    exact if_neg hrefused
  rw [hserved]
  rfl

/-! ## The setup matchers -/

/-- The matcher of the opening sequence acts while the setup state is closed (R185). -/
theorem seeSetup_closed {v : Word} {h : CommandHandler} (hc : h.setupOpen = false) :
    seeSetup v h =
      if matcherStep Config.openingSequence h.openStep v = 5 then
        { h with openStep := 0, closeStep := 0, setupOpen := true }
      else { h with openStep := matcherStep Config.openingSequence h.openStep v } := by
  simp [seeSetup, hc]

/-- The matcher of the closing sequence acts while it is open (R185). -/
theorem seeSetup_open {v : Word} {h : CommandHandler} (ho : h.setupOpen = true) :
    seeSetup v h =
      if matcherStep Config.openingSequence.reverse h.closeStep v = 5 then
        { h with openStep := 0, closeStep := 0, setupOpen := false }
      else { h with closeStep := matcherStep Config.openingSequence.reverse h.closeStep v } := by
  simp [seeSetup, ho]

@[simp] theorem seeSetup_frame (v : Word) (h : CommandHandler) :
    (seeSetup v h).copy = h.copy ∧ (seeSetup v h).running = h.running := by
  cases ho : h.setupOpen with
  | true =>
    rw [seeSetup_open ho]
    split <;> exact ⟨rfl, rfl⟩
  | false =>
    rw [seeSetup_closed ho]
    split <;> exact ⟨rfl, rfl⟩

/-- Settles O18: the word is stored, and the matcher of the setup state sees it. -/
theorem setupMatchersFollowTheSequences : Obligations.SetupMatchersFollowTheSequences := by
  intro s a d n hwrites hidle opening closing next
  obtain ⟨v, hn, hexec⟩ := exec_commandRowWrite hwrites
  have hrow : commandRowWrite 31 (highByte n) a d = .setupSequenceWrite a d := rfl
  rw [hrow, serveCommand_of_idle hidle hn] at hexec
  have hseen : ∀ u, seeStored 31 n u = u.setCmd (seeSetup n u.cmd) := fun u => rfl
  rw [hseen] at hexec
  let c : CommandHandler := { s.cmd with copy := cellsWrite 0 s.cmd.copy 31 n }
  refine ⟨_, hexec, rfl, (seeSetup_frame n c).1, (seeSetup_frame n c).2.trans hidle, fun hclosed => ?_, fun hopen => ?_,
    by simp, by simp, by simp, by simp [SameRecords], by simp [SameDrive], by simp, by simp, by simp⟩
  · have hstep : matcherStep Config.openingSequence c.openStep n = next opening s.cmd.openStep := rfl
    rw [show (cycleServed _).cmd = seeSetup n c from rfl, seeSetup_closed (h := c) hclosed, hstep]
    split <;> exact ⟨by simp [*, c], rfl, rfl⟩
  · have hstep : matcherStep Config.openingSequence.reverse c.closeStep n = next closing s.cmd.closeStep := rfl
    rw [show (cycleServed _).cmd = seeSetup n c from rfl, seeSetup_open (h := c) hopen, hstep]
    split <;> exact ⟨by simp [*, c], rfl, rfl⟩

/-! ## Commands accepted -/

theorem acceptBlank_hands (s : State) : Hands s (acceptBlank s) := by
  unfold acceptBlank
  dsimp only
  generalize hu : enterDark (s.setSeq { s.seq with blanked := true }) = u
  have dark : Hands s u := hands_of_eq (by simp [← hu])
  refine Hands.finish (Hands.trans ?_ (lossEffects_hands _))
  cases s.seq.state
  case lit => exact dark.trans (leaveLit_hands u)
  case priming => exact dark.trans (hands_of_eq (by simp))
  all_goals exact dark

theorem acceptArea_hands (s : State) : Hands s (acceptArea s) := by
  refine ite_of (finishCommand_hands _ _ s) ?_
  unfold areaFrom
  split
  · exact hands_of_eq rfl
  · exact (hands_of_eq (t := s.setArea none) rfl).finish

theorem acceptApply_hands (s : State) : Hands s (acceptApply s) := by
  unfold acceptApply
  dsimp only
  refine ite_of (finishCommand_hands _ _ s) ?_
  generalize hu : (if formatRight s.store.words = true then s else raiseNotice .settingsDefault s) = u
  have checked : Hands s u := by
    rw [← hu]
    exact ite_of (hands_of_eq rfl) (hands_of_eq (by simp))
  have staged : Hands s (u.setStore { u.store with staged := some (loadSettings u.store.words) }) :=
    checked.trans (hands_of_eq rfl)
  exact ite_of staged (staged.trans (installStaged_hands (fun _ => rfl) _))

/-- Each block goes on with its command or hands its result (R165, R168, R170). -/
theorem acceptCode_hands (code : Byte) (s : State) : Hands s (acceptCode code s) := by
  have at_once : ∀ {res words}, Hands s (finishCommand res words s) := finishCommand_hands _ _ s
  unfold acceptCode
  refine ite_of ?repaint <| ite_of ?clear <| ite_of (acceptArea_hands s) <| ite_of (acceptBlank_hands s) <|
    ite_of ?unblank <| ite_of ?probe <| ite_of at_once <| ite_of (ite_of at_once at_once) <| ite_of ?erase <|
    ite_of ?write <| ite_of (acceptApply_hands s) at_once
  case repaint => exact ite_of at_once (hands_of_eq (by simp)).finish
  case clear => exact ite_of (hands_of_eq rfl) at_once
  case unblank => exact (ite_of (hands_of_eq (by simp)) (hands_of_eq rfl)).finish
  case probe => exact ite_of at_once (ite_of at_once (hands_of_eq (by simp)))
  case erase => exact ite_of at_once (ite_of at_once (hands_of_eq rfl))
  case write => exact ite_of at_once (ite_of at_once (ite_of at_once (hands_of_eq rfl)))

/-- Settles O19: the command is accepted with the words of the copy, and its block adds at most its result. -/
theorem postingsAreAccepted : Obligations.PostingsAreAccepted := by
  intro s a d n hwrites hidle hcode
  obtain ⟨v, hn, hexec⟩ := exec_commandRowWrite hwrites
  rw [serveCommand_of_idle hidle hn, seeStored_of_code hcode] at hexec
  let u := accepted (highByte n) n s
  obtain ⟨r, rest, hcmd, hr⟩ : ∃ (r : Running) (rest : List (WordIx × Word)),
      (acceptCode (highByte n) u).cmd = { u.cmd with running := some r } ∧
        r.code = highByte n ∧ r.args = (argumentWords (highByte n)).map (copyWord u.cmd) ∧ r.abortTaken = false ∧
        r.writes = (0, highByte n ++ (0x01 : Byte)) :: rest := by
    obtain h | ⟨q, res, words, hq, -, h⟩ := acceptCode_hands (highByte n) u
    · exact ⟨_, [], h, rfl, rfl, rfl, rfl⟩
    · obtain rfl := Option.some_inj.1 hq
      exact ⟨_, words, h, rfl, rfl, rfl, rfl⟩
  obtain ⟨hrcode, hargs, htaken, hwords⟩ := hr
  have hform : acceptCommand (highByte n) (storeCommandWord 0 n (noteFirst s)) =
      requestCommandWrite (acceptCode (highByte n) u) := rfl
  rw [hform] at hexec
  have hposted : (cycleServed (requestCommandWrite (acceptCode (highByte n) u))).cmd =
      { u.cmd with running := some r } := by simpa using hcmd
  have hmem : u.mem = cellsWrite 0 s.mem 16384 n := rfl
  have hlatches : u.latches = s.latches := rfl
  refine ⟨_, r, rest, hexec, ?_⟩
  rw [hposted]
  exact ⟨by simp [hmem], rfl, rfl, hrcode, hargs, htaken, hwords, requestCommandWrite_mem _, by simp [hlatches], rfl,
    rfl, rfl, unitEnds_record _ _⟩

/-! ## The handler's own writes -/

/-- The state with a word of the handler's own stored in memory and in the copy, and its request granted (R164). -/
def wordWritten (r : Running) (w : WordIx) (v : Word) (rest : List (WordIx × Word)) (s : State) : State :=
  let u := storeCommandWord w v (popThird s)
  u.setCmd { u.cmd with running := some { r with writes := rest } }

theorem commandWriteUnit_eq (r : Running) (w : WordIx) (v : Word) (rest : List (WordIx × Word)) (s : State) :
    commandWriteUnit r w v rest s = unitEnds false
      (if rest.isEmpty then
        (if r.result.isSome then completeCommand (wordWritten r w v rest s) else wordWritten r w v rest s)
      else requestCommandWrite (wordWritten r w v rest s)) := rfl

theorem commandWriteUnit_stored (r : Running) (w : WordIx) (v : Word) (rest : List (WordIx × Word)) (s : State) :
    (commandWriteUnit r w v rest s).mem = cellsWrite 0 s.mem (16384 + w.val) v ∧
      (commandWriteUnit r w v rest s).cmd.copy = cellsWrite 0 s.cmd.copy w.val v := by
  have hmem : (wordWritten r w v rest s).mem = cellsWrite 0 s.mem (16384 + w.val) v := rfl
  have hcopy : (wordWritten r w v rest s).cmd.copy = cellsWrite 0 s.cmd.copy w.val v := rfl
  rw [commandWriteUnit_eq]
  split
  · split
    · simp [completeCommand, hmem, hcopy]
    · simp [hmem, hcopy]
  · simp [hmem, hcopy]

theorem requestCommandWrite_burst (s : State) : (requestCommandWrite s).port.burst = s.port.burst := by
  simp [requestCommandWrite]

theorem processorWaits_eq_false {s : State} (h : ∀ c, s.wmu.state ≠ .merging c) : processorWaits s = false := by
  unfold processorWaits
  split
  · next c hc => exact absurd hc (h c)
  · rfl

/-- Settles O32: the word is stored, and what follows is the next word's request or the completion. -/
theorem commandRowWritesAndCompletion : Obligations.CommandRowWritesAndCompletion := by
  intro s r w v rest u hrun hwrites hwmu hgranted hport
  have hnext : nextCommandWrite s = some (r, (w, v), rest) := by simp [nextCommandWrite, hrun, hwrites]
  have hexec : exec .commandRowWordWrite s = .next (commandWriteUnit r w v rest s) := by
    have hdef : exec .commandRowWordWrite s = execCommandRowWordWrite s := rfl
    simp [hdef, execCommandRowWordWrite, hnext, stepWhen, thirdDue, processorWaits_eq_false hwmu, hgranted, hport]
  have hthird : (wordWritten r w v rest s).port = { burst := false, third := u } := by
    simp [wordWritten, popThird, hport]
  have hrunning : (wordWritten r w v rest s).cmd.running = some { r with writes := rest } := rfl
  have hnotice : (wordWritten r w v rest s).notice = s.notice := rfl
  obtain ⟨hmem, hcopy⟩ := commandWriteUnit_stored r w v rest s
  refine ⟨_, hexec, hmem, hcopy, fun hgoes => ?_, fun hlast hres => ?_, unitEnds_record _ _, by simp, by simp,
    by simp [SameRecords], by simp [SameDrive], by simp, by simp⟩
  · rw [commandWriteUnit_eq]
    cases rest with
    | nil =>
      have hnone : r.result = none := hgoes.resolve_left (not_not.2 rfl)
      simp [hnone, hrunning, hnotice, hthird]
    | cons p rest => simp [hrunning, hnotice, requestCommandWrite_burst, hthird]
  · subst hlast
    rw [commandWriteUnit_eq]
    simp [Option.isSome_iff_ne_none.2 hres, completeCommand, hnotice, noticeBit]

end Sys2Proof.Machine
end

