-- ==== Sys2Proof/Proofs/AreaFrames.lean ====
section
/-! PROOFS. The operations that can settle a hold leave the area operation, but that its waiting unit may be granted at
the instant a slot is freed under a hold (R12, R158). -/

namespace Sys2Proof.Machine

open Safety

theorem areaKept_of_eq {s t : State} (h : t.area = s.area) : AreaKept s t := .inl h

/-- Before an operation that keeps the area operation, another may do what leaves it and the hold. -/
theorem areaKept_of_same {s u t : State} (ha : u.area = s.area) (hw : u.wmu = s.wmu) (h : AreaKept u t) :
    AreaKept s t := by rwa [AreaKept, ha, hw] at h

/-- With no record held the area operation is as it was. -/
theorem area_of_notHeld {s t : State} (h : AreaKept s t) (hw : ∀ x, s.wmu.state ≠ .holding x) :
    t.area = s.area := h.resolve_right fun ⟨⟨x, hx⟩, _⟩ => hw x hx

theorem requested_of_contends {h : HeldChange} {s : State} (hc : areaContends h s = true) :
    ∃ a, s.area = some a ∧ a.unit = .requested := by
  unfold areaContends at hc
  split at hc
  · next a ha =>
    simp only [Bool.and_eq_true, beq_iff_eq] at hc
    exact ⟨a, ha, hc.1.1.1.1⟩
  · cases hc

theorem offerHeld_area (h : HeldChange) (s : State) : (offerHeld h s).area = s.area := by
  obtain ⟨m, hm, heq⟩ | ⟨-, heq⟩ := offerHeld_cases h s
  · simp [heq, mergeDifference_frame hm]
  · rw [heq]

theorem settleHold_areaKept (s : State) : AreaKept s (settleHold s) := by
  obtain ⟨-, heq⟩ | ⟨h, hw, ⟨-, heq⟩ | ⟨-, -, heq⟩ | ⟨-, hc, heq | heq⟩⟩ := settleHold_cases s <;> rw [heq]
  · exact .inl rfl
  · exact .inl rfl
  · exact .inl (offerHeld_area h s)
  · obtain ⟨a, ha, hu⟩ := requested_of_contends hc
    exact .inr ⟨⟨h, hw⟩, a, ha, hu, by simp [grantArea, ha]⟩
  · exact .inl (offerHeld_area h _)

theorem completeOp_areaKept (op : RowOp) (s : State) : AreaKept s (completeOp op s) := by
  unfold completeOp freeTaken
  split
  · exact areaKept_of_same rfl rfl (settleHold_areaKept _)
  · exact .inl rfl

theorem enterLoading_area (op : RowOp) (m : ModuleNo) (rest : List ModuleNo) (s : State) :
    (enterLoading op m rest s).area = s.area := by simp

theorem startWrite_areaKept (op : RowOp) (s : State) : AreaKept s (startWrite op s) := by
  unfold startWrite
  dsimp only
  split
  · exact areaKept_of_same (u := countDropped _ s) (by simp) (by simp) (completeOp_areaKept _ _)
  · exact .inl (enterLoading_area _ _ _ _)

theorem startErase_areaKept (op : RowOp) (s : State) : AreaKept s (startErase op s) := by
  unfold startErase
  dsimp only
  split
  · exact areaKept_of_same (u := countDropped _ s) (by simp) (by simp) (startWrite_areaKept _ _)
  · exact .inl (enterLoading_area _ _ _ _)

theorem phaseDone_areaKept (op : RowOp) (s : State) : AreaKept s (phaseDone op s) := by
  unfold phaseDone
  split
  · exact startWrite_areaKept _ s
  · exact completeOp_areaKept _ s

theorem loadNext_areaKept (op : RowOp) (s : State) : AreaKept s (loadNext op s) := by
  unfold loadNext
  split
  · exact .inl (by simp)
  · split
    · exact phaseDone_areaKept op s
    · exact .inl rfl

theorem reportSlice_areaKept (loaded : Bool) (m : ModuleNo) (s : State) : AreaKept s (reportSlice loaded m s) := by
  unfold reportSlice
  split
  · split
    · exact loadNext_areaKept _ s
    · exact areaKept_of_same (u := countDropped _ s) (by simp) (by simp) (loadNext_areaKept _ _)
  · exact .inl rfl

theorem snapshotUnit_areaKept (op : RowOp) (c : Nat) (s : State) : AreaKept s (snapshotUnit op c s) := by
  have ended : ∀ u, AreaKept s u → AreaKept s (unitEnds false u) := fun u h => by simpa [AreaKept] using h
  unfold snapshotUnit
  refine ended _ ?_
  split
  · exact startErase_areaKept _ s
  · exact .inl (by simp)

end Sys2Proof.Machine
end

