-- ==== Sys2Proof/Proofs/BusCycles.lean ====
section
/-! PROOFS. The rows of the table as steps, and the bus cycles of the processor (R1 to R9) with what the port grants
before them (R17). -/

namespace Sys2Proof.Machine

open Safety

/-! ## Steps -/

/-- Settles O1. -/
theorem stepRunsTheFrontCommand : Obligations.StepRunsTheFrontCommand := fun _ _ _ => rfl

theorem messageOutcome_pending {m : Message} {scan : ByteScan} {s t : State} (h : messageOutcome m scan s = some t) :
    t.pending = s.pending := by
  unfold messageOutcome at h
  split at h <;> cases h <;> simp

/-- Settles O3: no operation has the queue for its own. -/
theorem commandsLeaveTheQueue : Obligations.CommandsLeaveTheQueue := by
  intro c s t h
  by_cases hreset : ∃ sources, c = .reset sources
  · obtain ⟨sources, rfl⟩ := hreset
    cases h
    rfl
  · cases exec_effect h fun sources hs => hreset ⟨sources, hs⟩ with
    | messageEnded m scan t _ ho => exact messageOutcome_pending ho
    | _ => simp

/-! ## Decoding and protection -/

theorem decodeIn_of_quarter {s : State} {a : BusAddr} (h : addrQuarter a = s.store.settings.aperture) :
    decodeIn s a = .aperture (addrView a) (regionOf (addrOffset a)) := by
  simp [decodeIn, decodeAddr, h]

/-- Views 4 to 7 are privileged (R2). -/
theorem privilegedView_eq (v : BitVec 3) : privilegedView v = decide (4 ≤ v) := by
  revert v
  decide

theorem regionOf_image {off : Nat} (h : off < 16384) :
    regionOf off = .image (Fin.ofNat 512 (off / 32)) (Fin.ofNat 32 (off % 32)) := if_pos h

theorem regionOf_command {off : Nat} (h : 16384 ≤ off) (h' : off < 16416) :
    regionOf off = .command (Fin.ofNat 32 (off - 16384)) := (if_neg (Nat.not_lt.2 h)).trans (if_pos h')

theorem regionOf_status {off : Nat} (h : 16416 ≤ off) (h' : off < 16448) :
    regionOf off = .status (Fin.ofNat 32 (off - 16416)) :=
  (if_neg (Nat.not_lt.2 (Nat.le_trans (by decide) h))).trans ((if_neg (Nat.not_lt.2 h)).trans (if_pos h'))

theorem regionOf_void {off : Nat} (h : 16448 ≤ off) : regionOf off = .void :=
  (if_neg (Nat.not_lt.2 (Nat.le_trans (by decide) h))).trans
    ((if_neg (Nat.not_lt.2 (Nat.le_trans (by decide) h))).trans (if_neg (Nat.not_lt.2 h)))

theorem busStep_some {s : State} (hready : s.bus.ready = true) (t : State) : busStep s (some t) = .next t := by
  simp [busStep, hready]

/-- A write to an image word is counted or accepted (R5, R9). -/
theorem exec_imageWordWrite_image {s : State} {a : BusAddr} {v : BitVec 3} {r : Row} {w : WordIx} (d : Word)
    (hready : s.bus.ready = true) (hdecode : decodeIn s a = .aperture v (.image r w)) :
    exec (.imageWordWrite a d) s =
      .next (if !privilegedView v && inBand s.store.settings r then countProtected s
        else acceptWrite { target := .image r w, view := v, data := d } (portGap s)) := by
  change execImageWordWrite a d s = _
  rw [execImageWordWrite, hdecode]
  dsimp only
  rw [← apply_ite some]
  exact busStep_some hready _

/-- A write to a command word is counted through an ordinary view, and otherwise accepted (R6, R9). -/
theorem exec_imageWordWrite_command {s : State} {a : BusAddr} {v : BitVec 3} {w : WordIx} (d : Word)
    (hready : s.bus.ready = true) (hdecode : decodeIn s a = .aperture v (.command w)) :
    exec (.imageWordWrite a d) s =
      .next (if privilegedView v then acceptWrite { target := .command w, view := v, data := d } (portGap s)
        else countProtected s) := by
  change execImageWordWrite a d s = _
  rw [execImageWordWrite, hdecode]
  dsimp only
  rw [← apply_ite some]
  exact busStep_some hready _

/-- Settles O6: the region and the view decide, and the write is counted. -/
theorem protectedWritesAreDiscardedAndCounted : Obligations.ProtectedWritesAreDiscardedAndCounted := by
  intro s a d hready hquarter counted
  have hdecode := decodeIn_of_quarter hquarter
  have ordinary : addrView a < 4 → privilegedView (addrView a) = false := fun hv => by
    rw [privilegedView_eq]
    simpa using hv
  refine ⟨fun hv himage hfirst hlast => ?_, fun hv hlow hhigh => ?_, fun hv hoff => ?_, fun hlow hhigh => ?_⟩
  · have hrow : addrOffset a / 32 < 512 := by omega
    have hband : inBand s.store.settings (Fin.ofNat 512 (addrOffset a / 32)) = true := by
      simp [inBand, Nat.mod_eq_of_lt hrow, hfirst, hlast]
    rw [regionOf_image himage] at hdecode
    rw [exec_imageWordWrite_image d hready hdecode, ordinary hv, hband]
    rfl
  · have hv := ordinary hv
    change execImageWordWrite a d s = _ ∧ execApertureWrite a d s = _
    simp only [execImageWordWrite, execApertureWrite, hdecode, busStep, hready, if_true]
    by_cases h : addrOffset a < 16416
    · rw [regionOf_command hlow h]
      simp only [hv]
      exact ⟨rfl, rfl⟩
    · rw [regionOf_status (Nat.not_lt.1 h) hhigh]
      simp only [hv]
      exact ⟨rfl, rfl⟩
  · have hv := ordinary hv
    change execSetupSequenceWrite a d s = _
    rw [regionOf_command (by omega) (by omega), hoff] at hdecode
    simp only [execSetupSequenceWrite, hdecode, busStep, hready, if_true, hv]
    rfl
  · have hword : (Fin.ofNat 32 (addrOffset a - 16416) == (0 : WordIx)) = false := by
      rw [beq_eq_false_iff_ne]
      intro h
      have := congrArg Fin.val h
      simp only [Fin.val_ofNat] at this
      omega
    change execApertureWrite a d s = _
    rw [regionOf_status (Nat.le_of_lt hlow) hhigh] at hdecode
    simp only [execApertureWrite, hdecode, busStep, hready, if_true, hword, Bool.and_false]
    rfl

/-! ## Accepted writes -/

theorem execReadCombineWrite_command {s : State} {c : WriteCycle} {w : WordIx} (hw : s.wmu.state = .merging c)
    (ht : c.target = .command w) :
    exec .readCombineWrite s = .next (cycleServed (serveCommand c.view w c.data (endCycle s))) := by
  change execReadCombineWrite s = _
  rw [execReadCombineWrite, hw]
  simp [ht]

/-- A write accepted and at once served leaves the unit and the bus as they were (R9). -/
theorem endCycle_acceptWrite {s : State} {c : WriteCycle} (hidle : s.wmu.state = .idle) (hready : s.bus.ready = true) :
    endCycle (acceptWrite c s) = noteFirst s := by
  have hwmu : ({ s.wmu with state := .idle } : WriteMerge) = s.wmu := by rw [← hidle]
  have hbus : ({ s.bus with ready := true } : BusPins) = s.bus := by rw [← hready]
  have hend : endCycle (acceptWrite c s) =
      ((noteFirst s).setWmu { s.wmu with state := .idle }).setBus { s.bus with ready := true } := rfl
  rw [hend, hwmu, hbus]
  rfl

/-- Settles O7: an accepted write with nothing to wait for leaves only the unit and READY, and the record of the port
(R9). -/
theorem writesThatPassAreAccepted : Obligations.WritesThatPassAreAccepted := by
  intro s a d hgap hready
  refine ⟨fun v r w hdecode hpass => ?_, fun v w hdecode hview => ?_⟩
  · have hband : (!privilegedView v && inBand s.store.settings r) = false := by
      rw [privilegedView_eq, inBand, Bool.eq_false_iff]
      simpa only [ne_eq, Bool.and_eq_true, Bool.not_eq_true', decide_eq_true_eq, decide_eq_false_iff_not,
        BitVec.not_le] using hpass
    rw [exec_imageWordWrite_image d hready hdecode, hband, portGap_of_noGap hgap]
    rfl
  · have hpriv : privilegedView v = true := by simpa [privilegedView_eq] using hview
    refine ⟨acceptWrite { target := .command w, view := v, data := d } s, ?_, rfl, fun n hwrites hidle => ?_⟩
    · rw [exec_imageWordWrite_command d hready hdecode, hpriv, portGap_of_noGap hgap]
      rfl
    · obtain ⟨v', hdecode', -, hserved⟩ := exec_commandRowWrite_view hwrites
      obtain ⟨rfl, -⟩ : v = v' ∧ w = w := by simpa [hdecode] using hdecode'
      rw [hserved, execReadCombineWrite_command (c := { target := .command w, view := v, data := d }) rfl rfl,
        endCycle_acceptWrite hidle hready]

/-! ## What the port grants between two cycles -/

theorem areaBegin_unit {t : Settings} {a a' : AreaOp} {fuel r : Nat} (h : areaBegin t a fuel r = some a') :
    a'.unit = .requested := by
  induction fuel generalizing r with
  | zero => cases h
  | succ fuel ih =>
    unfold areaBegin at h
    split at h
    · cases h
    · dsimp only at h
      split at h
      · exact ih h
      · cases h
        rfl

theorem areaGranted_of_area {s : State} (h : ∀ a, s.area = some a → a.unit ≠ .granted) : areaGranted s = false := by
  unfold areaGranted
  split
  · next a ha => simpa using h a ha
  · rfl

/-- After a word's unit the next word's is requested anew, or the area is done (R155, R161). -/
theorem areaNext_notGranted (a : AreaOp) (s : State) : areaGranted (areaNext a s) = false := by
  refine areaGranted_of_area fun x hx => ?_
  unfold areaNext at hx
  split at hx
  · simp [completeArea] at hx
  · split at hx
    · obtain rfl := Option.some_inj.1 hx
      nofun
    · unfold areaFrom at hx
      split at hx
      · next a' ha' =>
        obtain rfl := Option.some_inj.1 hx
        simp [areaBegin_unit ha']
      · simp [completeArea] at hx

theorem areaWordUnit_noGap (a : AreaOp) (s : State) : NoGap (areaWordUnit a s) :=
  ⟨rfl, areaNext_notGranted _ _⟩

/-- A unit that leaves the area operation leaves no word's unit granted (R17). -/
theorem noGap_of_unitEnded {s t : State} (h : UnitEnded false t) (ha : t.area = s.area)
    (hg : areaGranted s = false) : NoGap t := by
  refine ⟨h.1, ?_⟩
  rwa [areaGranted, ha]

theorem serveThird_area (u : ThirdRank) (s : State) : (serveThird u s).area = s.area := by
  unfold serveThird
  split
  · simp
  · split <;> simp

theorem granted_of_areaGranted {s : State} (h : areaGranted s = true) :
    ∃ a, s.area = some a ∧ a.unit = .granted := by
  unfold areaGranted at h
  cases ha : s.area with
  | none => simp [ha] at h
  | some a => exact ⟨a, rfl, by simpa [ha] using h⟩

theorem portGap_of_granted {s : State} {a : AreaOp} (ha : s.area = some a) (hu : a.unit = .granted) :
    portGap s = areaWordUnit a s := by
  have hin : areaIn .granted s = some a := by simp [areaIn, ha, hu]
  rw [portGap, hin]

/-- With no word's unit granted and a grant owed, the port serves the first in rank (R17). -/
theorem portGap_of_due {s : State} (hg : areaGranted s = false) (hd : s.gapDue = true) :
    portGap s =
      if s.port.burst then burstUnit s
      else
        match s.port.third with
        | u :: _ => serveThird u s
        | [] => serveLow s := by
  have hin : areaIn .granted s = none := by
    unfold areaGranted at hg
    unfold areaIn
    cases ha : s.area with
    | none => rfl
    | some x => simpa [ha] using hg
  rw [portGap, hin, hd]
  rfl

theorem serveLow_noGap {s : State} (hw : s.wmu.state = .idle) (hg : areaGranted s = false) : NoGap (serveLow s) := by
  have snapshot : ∀ op c, NoGap (snapshotUnit op c s) := fun op c =>
    noGap_of_unitEnded (snapshotUnit_record op c s)
      (area_of_notHeld (snapshotUnit_areaKept op c s) (by simp [hw])) hg
  unfold serveLow
  split
  · split
    · exact snapshot _ _
    · exact areaWordUnit_noGap _ s
  · exact snapshot _ _
  · exact areaWordUnit_noGap _ s
  · exact ⟨rfl, hg⟩

/-- What the port grants leaves nothing that a cycle of the processor would wait for (R17). -/
theorem portGap_noGap {s : State} (hw : s.wmu.state = .idle) : NoGap (portGap s) := by
  cases hg : areaGranted s with
  | true =>
    obtain ⟨a, ha, hu⟩ := granted_of_areaGranted hg
    rw [portGap_of_granted ha hu]
    exact areaWordUnit_noGap a s
  | false =>
    cases hd : s.gapDue with
    | false =>
      rw [portGap_of_noGap ⟨hd, hg⟩]
      exact ⟨hd, hg⟩
    | true =>
      rw [portGap_of_due hg hd]
      split
      · exact noGap_of_unitEnded (burstUnit_record s) (by simp) hg
      · split
        · exact noGap_of_unitEnded (serveThird_record _ s) (serveThird_area _ s) hg
        · exact serveLow_noGap hw hg

/-! ## Cycles that wait for no unit -/

theorem exec_passThroughCycle {s : State} {a : BusAddr} (cycle : SideCycle) (hready : s.bus.ready = true)
    (hq : addrQuarter a ≠ s.store.settings.aperture) :
    exec (.passThroughCycle a cycle) s = .next (sideCycle a cycle s) := by
  have hdecode : decodeIn s a = .passThrough := if_neg hq
  change execPassThroughCycle a cycle s = _
  rw [execPassThroughCycle, hdecode]
  exact busStep_some hready _

theorem exec_voidAccess {s : State} {a : BusAddr} {v : BitVec 3} (hready : s.bus.ready = true)
    (hdecode : decodeIn s a = .aperture v .void) :
    exec (.voidAccess a .read) s = .next (returnWord 0xFFFF s) ∧ ∀ d, exec (.voidAccess a (.write d)) s = .next s := by
  refine ⟨?_, fun d => ?_⟩
  · change execVoidAccess a .read s = _
    simp only [execVoidAccess, hdecode]
    exact busStep_some hready _
  · change execVoidAccess a (.write d) s = _
    simp only [execVoidAccess, hdecode]
    exact busStep_some hready _

/-- A read of an image, command or status word returns the word at its offset, after what the port grants (R4, R17). -/
theorem exec_processorRead {s : State} {a : BusAddr} (hready : s.bus.ready = true)
    (hq : addrQuarter a = s.store.settings.aperture) (hoff : addrOffset a < 16448) :
    exec (.processorRead a) s = .next (serveRead (addrOffset a) (portGap s)) := by
  have hdecode := decodeIn_of_quarter hq
  change execProcessorRead a s = _
  rw [execProcessorRead]
  by_cases himage : addrOffset a < 16384
  · have hoffset : imageOffset (Fin.ofNat 512 (addrOffset a / 32)) (Fin.ofNat 32 (addrOffset a % 32)) =
        addrOffset a := by
      simp only [imageOffset, Fin.val_ofNat]
      omega
    rw [hdecode, regionOf_image himage]
    dsimp only
    rw [hoffset]
    exact busStep_some hready _
  · by_cases hcommand : addrOffset a < 16416
    · have hoffset : commandOffset (Fin.ofNat 32 (addrOffset a - 16384)) = addrOffset a := by
        simp only [commandOffset, Config.commandBase, Fin.val_ofNat]
        omega
      rw [hdecode, regionOf_command (Nat.not_lt.1 himage) hcommand]
      dsimp only
      rw [hoffset]
      exact busStep_some hready _
    · have hoffset : statusOffset (Fin.ofNat 32 (addrOffset a - 16416)) = addrOffset a := by
        simp only [statusOffset, Config.statusBase, Fin.val_ofNat]
        omega
      rw [hdecode, regionOf_status (Nat.not_lt.1 hcommand) hoff]
      dsimp only
      rw [hoffset]
      exact busStep_some hready _

/-! ## Units run to their end -/

theorem unitEnded_of_stepWhen {p due : Bool} {why : Refusal} {t u : State} (h : stepWhen due why u = .next t)
    (hu : UnitEnded p u) : UnitEnded p t := by
  obtain ⟨-, rfl⟩ := stepWhen_eq_next.1 h
  exact hu

/-- After a unit below the processor's the port's record is empty (R17, log 21). -/
theorem exec_portUnit_ended {c : Instr} {s t : State} (h : exec c s = .next t)
    (hc : c ∈ [Instr.commandRowWordWrite, .noticeWordUpdate, .statusBurst, .areaWord, .snapshotWordRead]) :
    UnitEnded false t := by
  simp only [List.mem_cons, List.not_mem_nil, or_false] at hc
  obtain rfl | rfl | rfl | rfl | rfl := hc
  · change execCommandRowWordWrite s = _ at h
    unfold execCommandRowWordWrite at h
    split at h
    · exact unitEnded_of_stepWhen h (commandWriteUnit_record _ _ _ _ s)
    · cases h
  · exact unitEnded_of_stepWhen h (noticeUpdateUnit_record s)
  · exact unitEnded_of_stepWhen h (burstUnit_record s)
  · change execAreaWord s = _ at h
    unfold execAreaWord at h
    split at h
    · exact unitEnded_of_stepWhen h (areaWordUnit_record _ s)
    · cases h
  · change execSnapshotWordRead s = _ at h
    unfold execSnapshotWordRead at h
    split at h
    · exact unitEnded_of_stepWhen h (snapshotUnit_record _ _ s)
    · cases h

/-- After the processor's unit the record is empty, and a grant is owed (R17, logs 21, 37). -/
theorem exec_processorUnit_ended {c : Instr} {s t : State} (h : exec c s = .next t)
    (hc : c = .readCombineWrite ∨ ∃ a, c = .processorRead a) : UnitEnded true t := by
  obtain rfl | ⟨a, rfl⟩ := hc
  · change execReadCombineWrite s = _ at h
    unfold execReadCombineWrite at h
    split at h
    · split at h <;> cases h <;> exact unitEnds_record _ _
    · cases h
  · obtain ⟨-, h⟩ := busStep_eq_next.1 h
    split at h <;> cases h <;> exact unitEnds_record _ _

/-! ## Cycles behind waiting work -/

section Behind

variable {s : State} (hready : s.bus.ready = true) (hidle : s.wmu.state = .idle)
include hready hidle

omit hready in
theorem portGap_idem : portGap (portGap s) = portGap s := portGap_of_noGap (portGap_noGap hidle)

omit hidle in
theorem busStep_portGap (o : Option State) : busStep s o = busStep (portGap s) o := by
  simp [busStep, hready, portGap_ready hready]

omit hready hidle in
theorem decodeIn_portGap (a : BusAddr) : decodeIn (portGap s) a = decodeIn s a := by simp [decodeIn]

theorem postingOf_portGap (p : Byte → Bool) (a : BusAddr) (d : Word) :
    busStep s (postingOf p a d s) = busStep (portGap s) (postingOf p a d (portGap s)) := by
  rw [busStep_portGap hready, postingOf, postingOf, decodeIn_portGap, portGap_idem hidle]

theorem execProcessorRead_portGap (a : BusAddr) :
    execProcessorRead a s = execProcessorRead a (portGap s) := by
  rw [execProcessorRead, execProcessorRead, busStep_portGap hready, decodeIn_portGap, portGap_idem hidle]

theorem execSetupSequenceWrite_portGap {a : BusAddr} {d : Word} {v : BitVec 3} {w : WordIx}
    (hdecode : decodeIn s a = .aperture v (.command w)) (hv : privilegedView v = true) :
    execSetupSequenceWrite a d s = execSetupSequenceWrite a d (portGap s) := by
  rw [execSetupSequenceWrite, execSetupSequenceWrite, busStep_portGap hready, decodeIn_portGap,
    portGap_idem hidle, hdecode]
  simp only [hv, if_true]

theorem execApertureWrite_portGap {a : BusAddr} {d : Word} {v : BitVec 3} {w : WordIx}
    (hdecode : decodeIn s a = .aperture v (.command w)) (hv : privilegedView v = true) :
    execApertureWrite a d s = execApertureWrite a d (portGap s) := by
  rw [execApertureWrite, execApertureWrite, busStep_portGap hready, decodeIn_portGap,
    portGap_idem hidle, hdecode]
  simp only [hv, Bool.not_true, Bool.false_eq_true, if_false]

/-- Every row for a write to the command row has the outcome it has after what the port grants (R17). -/
theorem exec_commandRow_portGap {a : BusAddr} {d : Word} {v : BitVec 3} {w : WordIx} {c : Instr}
    (hdecode : decodeIn s a = .aperture v (.command w)) (hv : privilegedView v = true)
    (hc : c ∈ [Instr.imageWordWrite a d, .apertureWrite a d, .setupSequenceWrite a d, .repaint a d,
      .clearAndRepaint a d, .area a d, .blank a d, .unblank a d, .probe a d, .abort a d, .storeRead a d,
      .storeErase a d, .storeWrite a d, .settingsApply a d, .badCode a d]) : exec c s = exec c (portGap s) := by
  have hdecode' := (decodeIn_portGap (s := s) a).trans hdecode
  have posted := fun p => postingOf_portGap hready hidle p a d
  simp only [List.mem_cons, List.not_mem_nil, or_false] at hc
  obtain rfl | rfl | rfl | hc := hc
  · rw [exec_imageWordWrite_command d hready hdecode,
      exec_imageWordWrite_command d (portGap_ready hready) hdecode', hv, portGap_idem hidle]
    rfl
  · exact execApertureWrite_portGap hready hidle hdecode hv
  · exact execSetupSequenceWrite_portGap hready hidle hdecode hv
  · obtain rfl | rfl | rfl | rfl | rfl | rfl | rfl | rfl | rfl | rfl | rfl | rfl := hc <;> exact posted _

end Behind

theorem snapshotNext_of {s : State} {op : RowOp} {k : Nat} (hop : s.sched.op = some op) (hstage : op.stage = .snapshot)
    (hcursor : op.cursor = some k) (hk : k < 32) : snapshotNext s = some (op, k) := by
  simp [snapshotNext, hop, hcursor, hstage, hk]

theorem snapshotNext_eq_none {s : State} (h : ∀ op, s.sched.op = some op → op.stage ≠ .snapshot) :
    snapshotNext s = none := by
  unfold snapshotNext
  split
  · next op hop =>
    split
    · simp [h op hop]
    · rfl
  · rfl

theorem areaIn_requested_of {s : State} {x : AreaOp} (hx : s.area = some x) (hu : x.unit = .requested) :
    areaIn .requested s = some x := by simp [areaIn, hx, hu]

theorem areaIn_requested_eq_none {s : State} (h : ∀ x, s.area = some x → x.unit ≠ .requested) :
    areaIn .requested s = none := by
  unfold areaIn
  cases ha : s.area with
  | none => rfl
  | some x => simpa using h x ha

theorem exec_areaWord_of {s : State} {x : AreaOp} (hx : s.area = some x) (hdue : areaDue x s = true) :
    exec .areaWord s = .next (areaWordUnit x s) := by
  change execAreaWord s = _
  simp [execAreaWord, hx, stepWhen, hdue]

/-- With nothing above them waiting, the snapshot word is read before the area word, if it is requested (R17, log
33). -/
theorem exec_lowRank {s : State} (hidle : s.wmu.state = .idle) (hg : areaGranted s = false)
    (hport : s.port = { burst := false, third := [] }) :
    (∀ op k, s.sched.op = some op → op.stage = .snapshot → op.cursor = some k → k < 32 →
      (op.asked = true ∨ (∀ x, s.area = some x → x.unit ≠ .requested) →
        exec .snapshotWordRead s = .next (serveLow s)) ∧
      (∀ x, op.asked = false → s.area = some x → x.unit = .requested → exec .areaWord s = .next (serveLow s))) ∧
    ((∀ op, s.sched.op = some op → op.stage ≠ .snapshot) →
      (∀ x, s.area = some x → x.unit = .requested → exec .areaWord s = .next (serveLow s)) ∧
      ((∀ x, s.area = some x → x.unit ≠ .requested) → serveLow s = s.setGapDue false)) := by
  have hupper : upperRanksEmpty s = true := by simp [upperRanksEmpty, processorWaits, hidle, hport, hg]
  have hdue : ∀ x : AreaOp, x.unit = .requested → snapshotAsked s = false → areaDue x s = true := fun x hu ha => by
    simp [areaDue, areaGrantable, hu, hupper, ha]
  refine ⟨fun op k hop hstage hcursor hk => ⟨fun hfirst => ?_, fun x hasked hx hu => ?_⟩,
    fun hnone => ⟨fun x hx hu => ?_, fun hfree => ?_⟩⟩
  · have hnext := snapshotNext_of hop hstage hcursor hk
    have hserved : serveLow s = snapshotUnit op k s := by
      rw [serveLow, hnext]
      cases ha : areaIn .requested s with
      | none => rfl
      | some x =>
        obtain ⟨hx, hu⟩ := Option.filter_eq_some_iff.1 ha
        exact if_pos (hfirst.resolve_right fun hfree => hfree x hx (by simpa using hu))
    change execSnapshotWordRead s = _
    rw [execSnapshotWordRead, hnext, hserved]
    simp [stepWhen, hupper]
  · have hask : snapshotAsked s = false := by simp [snapshotAsked, hop, hasked]
    rw [exec_areaWord_of hx (hdue x hu hask), serveLow, snapshotNext_of hop hstage hcursor hk,
      areaIn_requested_of hx hu]
    simp [hasked]
  · have hask : snapshotAsked s = false := by
      unfold snapshotAsked
      split
      · next op hop => simp [hnone op hop]
      · rfl
    rw [exec_areaWord_of hx (hdue x hu hask), serveLow, snapshotNext_eq_none hnone, areaIn_requested_of hx hu]
  · rw [serveLow, snapshotNext_eq_none hnone, areaIn_requested_eq_none hfree]

/-- The unit that the port grants before a cycle is that of the row of the table for it (R17). -/
theorem exec_grantedUnit {s : State} (hidle : s.wmu.state = .idle) (hd : s.gapDue = true) (hg : areaGranted s = false) :
    (s.port.burst = true → exec .statusBurst s = .next (portGap s)) ∧
    (∀ rest, s.port = { burst := false, third := .noticeUpdate :: rest } →
      exec .noticeWordUpdate s = .next (portGap s)) ∧
    (∀ rest r, s.port = { burst := false, third := .commandWrite :: rest } → s.cmd.running = some r →
      r.writes ≠ [] → exec .commandRowWordWrite s = .next (portGap s)) ∧
    (s.port = { burst := false, third := [] } → portGap s = serveLow s) := by
  have hwaits : processorWaits s = false := by simp [processorWaits, hidle]
  have hgap := portGap_of_due hg hd
  refine ⟨fun hb => ?_, fun rest hport => ?_, fun rest r hport hr hw => ?_, fun hport => ?_⟩
  · rw [hgap, if_pos hb]
    change execStatusBurst s = _
    simp [execStatusBurst, stepWhen, hwaits, hg, hb]
  · rw [hgap, hport]
    change execNoticeWordUpdate s = _
    simp [execNoticeWordUpdate, stepWhen, thirdDue, hwaits, hg, hport, serveThird]
  · obtain ⟨p, words, hp⟩ := List.exists_cons_of_ne_nil hw
    have hnext : nextCommandWrite s = some (r, p, words) := by simp [nextCommandWrite, hr, hp]
    rw [hgap, hport]
    change execCommandRowWordWrite s = _
    simp [execCommandRowWordWrite, stepWhen, thirdDue, hwaits, hg, hport, serveThird, hnext]
  · rw [hgap, hport]
    rfl

/-- Settles O5: pass-through cycles and void accesses act at once, reads after the port's grant; each unit ends; and the
grant is the unit of its rank. -/
theorem readsAndPassThroughCyclesComplete : Obligations.ReadsAndPassThroughCyclesComplete := by
  refine ⟨fun s a hready => ⟨fun hq => ?_, fun hq hoff => ?_, fun hgap hq hoff => ?_⟩,
    fun c s t h => ⟨exec_portUnit_ended h, exec_processorUnit_ended h, fun a d w n hwrites hc => ?_⟩,
    fun s hready hidle => ?_⟩
  · exact ⟨fun v => exec_passThroughCycle (.read v) hready hq, fun v => exec_passThroughCycle (.write v) hready hq⟩
  · have hdecode := decodeIn_of_quarter hq
    rw [regionOf_void hoff] at hdecode
    exact exec_voidAccess hready hdecode
  · rw [exec_processorRead hready hq hoff, portGap_of_noGap hgap]
    rfl
  · obtain ⟨v, -, hserved⟩ := exec_commandRowWrite hwrites
    rw [hc, hserved] at h
    cases h
    exact unitEnds_record _ _
  · refine ⟨portGap_noGap hidle, portGap_ready hready, portGap_of_noGap,
      fun a => execProcessorRead_portGap hready hidle a, fun a d v r w hdecode hpass => ?_,
      fun a d v w hdecode hv c hc => ?_, fun hg => ?_, fun hd hg => ?_⟩
    · have hband : (!privilegedView v && inBand s.store.settings r) = false := by
        rw [privilegedView_eq]
        obtain hv | hout := hpass
        · rw [decide_eq_true hv]
          rfl
        · simp [hout]
      have hstore : (portGap s).store = s.store := by simp
      rw [exec_imageWordWrite_image d hready hdecode,
        exec_imageWordWrite_image d (portGap_ready hready) ((decodeIn_portGap a).trans hdecode), hstore, hband,
        portGap_idem hidle]
      rfl
    · exact exec_commandRow_portGap hready hidle hdecode (by simpa [privilegedView_eq] using hv) hc
    · obtain ⟨x, hx, hu⟩ := granted_of_areaGranted hg
      rw [exec_areaWord_of hx (by simp [areaDue, hu]), portGap_of_granted hx hu]
    · obtain ⟨hburst, hnotice, hwrite, hlow⟩ := exec_grantedUnit hidle hd hg
      refine ⟨hburst, hnotice, hwrite, fun hport => ?_⟩
      rw [hlow hport]
      exact exec_lowRank hidle hg hport

end Sys2Proof.Machine
end

