-- ==== Sys2Proof/Proofs/LinkCourse.lean ====
section
/-! PROOFS. One tick of the course of a message or of a recovery attempt (R70, R71, R79 to R83, R88), branch by branch,
and with it what a step with no command waiting is (log 1). -/

namespace Sys2Proof.Machine

open Safety

theorem clockedPart_iff (p : CoursePart) :
    clockedPart p = true ↔ p ∈ [CoursePart.pulses, .checkClose, .clocks, .byte, .spoiled, .closing] := by
  cases p <;> decide

theorem length_partHalves (b : Byte) (p : CoursePart) : (partHalves b p).length = partLength p := by
  cases p <;> rfl

/-- The lines are read in an idle check alone (R79). -/
theorem readLines_of_other {recovering lck lda : Bool} {c : LinkCourse} (h : c.part ≠ .check) (h' : c.part ≠ .recheck) :
    readLines recovering lck lda c = c := by
  unfold readLines
  split
  · next hp => exact absurd hp h
  · next hp => exact absurd hp h'
  · rfl

section Tick

variable (recovering : Bool) (limit halfBit : Nat) (bytes : List Byte) {lck lda : Bool} {c : LinkCourse}

/-- LCK held low where it is to read high stretches the part (R71). -/
theorem courseTick_stretched (hl : lck = true) (h : AwaitsLck c) :
    courseTick recovering limit halfBit bytes lck lda c = stretchCourse recovering limit c := by
  subst hl
  obtain h | ⟨htick, hhalf, hpart⟩ := h
  · have hread : readLines recovering true lda c = c := by simp [readLines, h]
    simp [courseTick, hread, h]
  · have hclocked := (clockedPart_iff c.part).2 hpart
    have hread : readLines recovering true lda c = c :=
      readLines_of_other (by rintro h; simp [h] at hpart) (by rintro h; simp [h] at hpart)
    have hended : c.part ≠ .ended := by
      rintro h
      simp [h] at hpart
    simp [courseTick, hread, hended, htick, hhalf, hclocked]

/-- A part that has just begun goes on for a tick (R69). -/
theorem advance_start_part {left : Nat} {b : Byte} {p : CoursePart} (h : 2 ≤ partLength p) :
    (advanceCourse recovering halfBit left b (LinkCourse.start p)).part = p := by
  have hlen : (LinkCourse.start p).half + 1 < (partHalves b (LinkCourse.start p).part).length := by
    rw [length_partHalves]
    exact h
  by_cases htick : (LinkCourse.start p).tick + 1 < halfBit
  · rw [advanceCourse, if_pos htick]
    rfl
  · rw [advanceCourse, if_neg htick, if_neg (by simp [LinkCourse.start]), if_pos hlen]
    rfl

/-- Where the lines as read begin a part with half-bits, the tick is its first (R79). -/
theorem courseTick_started {p : CoursePart} (hread : readLines recovering lck lda c = LinkCourse.start p)
    (hp : 2 ≤ partLength p) : (courseTick recovering limit halfBit bytes lck lda c).part = p := by
  have hended : p ≠ .ended := by
    rintro rfl
    simp [partLength] at hp
  have hcheck : p ≠ .check := by
    rintro rfl
    simp [partLength] at hp
  have hstart : (LinkCourse.start p).part = p ∧ (LinkCourse.start p).half = 0 := ⟨rfl, rfl⟩
  simp only [courseTick, hread, hstart, hended, hcheck, if_false, false_and, and_false, or_self, Nat.zero_mod,
    Nat.zero_ne_one]
  exact advance_start_part recovering halfBit hp

theorem afterCheck_length (recovering : Bool) : 2 ≤ partLength (afterCheck recovering) := by
  cases recovering <;> decide

/-- With LCK high the idle check reads LDA, and the next part begins in the same tick (R79). -/
theorem courseTick_check (hl : lck = false) (hp : c.part = .check) :
    (courseTick recovering limit halfBit bytes lck lda c).part = if lda then .pulses else afterCheck recovering := by
  subst hl
  cases lda
  · exact courseTick_started _ _ _ _ (by simp [readLines, hp]) (afterCheck_length recovering)
  · exact courseTick_started (p := .pulses) _ _ _ _ (by simp [readLines, hp]) (by decide)

theorem courseTick_ended (hp : c.part = .ended) : courseTick recovering limit halfBit bytes lck lda c = c := by
  have hread : readLines recovering lck lda c = c := readLines_of_other (by simp [hp]) (by simp [hp])
  simp [courseTick, hread, hp]

/-- After its CLOSE the idle check reads both lines (R79). -/
theorem courseTick_recheck (hp : c.part = .recheck) :
    (courseTick recovering limit halfBit bytes lck lda c).part =
      if lck || lda then .ended else afterCheck recovering := by
  cases h : lck || lda
  · exact courseTick_started _ _ _ _ (by simp only [readLines, hp, h]; rfl) (afterCheck_length recovering)
  · have hread : readLines recovering lck lda c = LinkCourse.start .ended := by
      simp only [readLines, hp, h]
      rfl
    simp [courseTick, hread, LinkCourse.start]

/-- A CLOSE attempted with LCK still low is the end of the course (R82). -/
theorem courseTick_attempt (hp : c.part = .attempt) (hr : c.tick = 0 ∧ c.half % 2 = 1) (hl : lck = true) :
    (courseTick recovering limit halfBit bytes lck lda c).part = .ended := by
  subst hl
  have hread : readLines recovering true lda c = c := readLines_of_other (by simp [hp]) (by simp [hp])
  simp [courseTick, hread, hp, hr, clockedPart, LinkCourse.start]

/-- A course that nothing stretches goes on by a tick, with LDA sampled as LCK rises (R69, R70). -/
theorem courseTick_advance (hs : ¬ (lck = true ∧ AwaitsLck c)) (hc : c.part ≠ .check) (hr : c.part ≠ .recheck)
    (he : c.part ≠ .ended) (ha : ¬ (c.part = .attempt ∧ (c.tick = 0 ∧ c.half % 2 = 1) ∧ lck = true)) :
    courseTick recovering limit halfBit bytes lck lda c =
      advanceCourse recovering halfBit (bytes.length - 1) (bytes.headD 0)
        (if c.tick = 0 ∧ c.half % 2 = 1 then sampleCourse (halfAt (bytes.headD 0) c.part c.half).2 lda c else c) := by
  have hread : readLines recovering lck lda c = c := readLines_of_other hc hr
  have hstretch : ¬ (lck = true ∧ (c.part = .check ∨ (c.tick = 0 ∧ c.half % 2 = 1) ∧ clockedPart c.part = true)) := by
    rw [clockedPart_iff, and_assoc]
    exact hs
  have hattempt : ¬ (lck = true ∧ (c.tick = 0 ∧ c.half % 2 = 1) ∧ c.part = .attempt) := fun ⟨hl, hrise, hp⟩ =>
    ha ⟨hp, hrise, hl⟩
  unfold courseTick
  dsimp only
  rw [hread, if_neg he, if_neg hstretch, if_neg hattempt]
  rfl

end Tick

/-! ## A tick of the course -/

theorem partAfter_eq {recovering : Bool} {left : Nat} {c : LinkCourse} (h : c.part = .pulses → c.ldaLow = true) :
    partAfter recovering left c = partFollowing (!recovering) (decide (0 < left)) c.ldaLow c.part := by
  unfold partAfter
  cases hp : c.part
  case pulses => simp [partFollowing, h hp]
  case opening => cases recovering <;> rfl
  all_goals rfl

/-- What a tick makes of a course that nothing stretches, by the part as the sample of LDA leaves it (R69, R70, R83). -/
theorem advanceCourse_goesOn (recovering : Bool) (halfBit left : Nat) (b : Byte) (c : LinkCourse) :
    (¬ halfBit ≤ c.tick + 1 → advanceCourse recovering halfBit left b c = { c with tick := c.tick + 1 }) ∧
    (halfBit ≤ c.tick + 1 → c.half + 1 < partLength c.part →
      ¬ (c.part = .pulses ∧ c.half % 2 = 1 ∧ c.ldaLow = false) →
      advanceCourse recovering halfBit left b c = { c with half := c.half + 1, tick := 0 }) ∧
    (halfBit ≤ c.tick + 1 → c.half + 1 = partLength c.part ∨ c.part = .pulses ∧ c.half % 2 = 1 ∧ c.ldaLow = false →
      advanceCourse recovering halfBit left b c =
        LinkCourse.start (partFollowing (!recovering) (decide (0 < left)) c.ldaLow c.part)) := by
  refine ⟨fun ht => ?_, fun ht hlen hfreed => ?_, fun ht hend => ?_⟩
  · rw [advanceCourse, if_pos (Nat.not_le.1 ht)]
  · rw [advanceCourse, if_neg (Nat.not_lt.2 ht), if_neg hfreed, length_partHalves, if_pos hlen]
  · rw [advanceCourse, if_neg (Nat.not_lt.2 ht)]
    by_cases hfreed : c.part = .pulses ∧ c.half % 2 = 1 ∧ c.ldaLow = false
    · rw [if_pos hfreed, hfreed.1, hfreed.2.2]
      rfl
    · have hlen := hend.resolve_right hfreed
      rw [if_neg hfreed, length_partHalves, if_neg (by omega)]
      rw [partAfter_eq fun hp => ?_]
      have hhalf : c.half + 1 = 18 := by rw [hlen, hp]; rfl
      by_contra hlow
      exact hfreed ⟨hp, by omega, Bool.eq_false_iff.2 hlow⟩

theorem advanceCourse_stretch {recovering : Bool} {halfBit left : Nat} {b : Byte} {c : LinkCourse}
    (h : c.stretch = 0) : (advanceCourse recovering halfBit left b c).stretch = 0 := by
  unfold advanceCourse
  split
  · exact h
  · split
    · rfl
    · split
      · exact h
      · rfl

/-- Where a stretch that has expired takes the course (R71, R79, R82, R88). -/
theorem partStretched (message : Bool) (p : CoursePart) :
    (match p with
      | .byte | .spoiled | .closing => if (!message) then CoursePart.ended else .attempt
      | _ => .ended) =
      if message = true ∧ p ∈ [CoursePart.byte, .spoiled, .closing] then .attempt else .ended := by
  cases p <;> cases message <;> rfl

/-- LDA as LCK rises, and what a data bit sent as 1 and read low makes of the byte (R70, R83). -/
theorem sampled_course (sent lda : Bool) (c : LinkCourse) :
    let rises := c.tick = 0 ∧ c.half % 2 = 1
    let u := if rises then sampleCourse sent lda c else c
    u.part = (if c.part = .byte ∧ rises ∧ c.half < 16 ∧ sent = true ∧ lda = true then .spoiled else c.part) ∧
      u.half = c.half ∧ u.tick = c.tick ∧ u.ldaLow = (if rises then lda || !sent else c.ldaLow) ∧
      (rises → u.stretch = 0) := by
  intro rises u
  by_cases hr : rises
  · have hu : u = sampleCourse sent lda c := if_pos hr
    simp [hu, sampleCourse, hr]
  · have hu : u = c := if_neg hr
    simp [hu, hr]

/-- The course of what is on the link goes on as R70, R71 and R79 to R83 say. -/
theorem courseGoesOn {lck lda : Bool} {bytes : List Byte} {l l' : DriverLink}
    (hc : l'.course = courseTick (!l.message.isSome) l.stretchLimit l.halfBit bytes lck lda l.course)
    (hmore : decide (0 < bytes.length - 1) = l.message.any (fun m => decide (m.bytesSent + 1 < 2 + m.data.length))) :
    CourseGoesOn lck lda (halfAt (bytes.headD 0) l.course.part l.course.half).2 l l' := by
  unfold CourseGoesOn
  intro c c' message more checked rises low halfEnds contended freed
  have hcourse : c' = courseTick (!message) l.stretchLimit l.halfBit bytes lck lda c := hc
  have hchecked : checked = afterCheck (!message) := by
    simp only [checked]
    cases message <;> rfl
  clear_value c' message
  split
  · next hstretched =>
    rw [courseTick_stretched _ _ _ _ hstretched.1 hstretched.2] at hcourse
    subst hcourse
    unfold stretchCourse
    split
    · rfl
    · exact ⟨rfl, rfl, rfl, partStretched message c.part⟩
  · next hstretched =>
    split
    · next hp =>
      have hlck : lck = false := Bool.eq_false_iff.2 fun hl => hstretched ⟨hl, .inl hp⟩
      rw [hcourse, courseTick_check _ _ _ _ hlck hp, hchecked]
    · next hcheck =>
      split
      · next hp => rw [hcourse, courseTick_recheck _ _ _ _ hp, hchecked]
      · next hrecheck =>
        split
        · next hp => rw [hcourse, courseTick_ended _ _ _ _ hp]
        · next hended =>
          split
          · next hattempt => rw [hcourse, courseTick_attempt _ _ _ _ hattempt.1 hattempt.2.1 hattempt.2.2]
          · next hattempt =>
            rw [courseTick_advance _ _ _ _ hstretched hcheck hrecheck hended hattempt] at hcourse
            obtain ⟨hpart, hhalf, htick, hlow, hstretch⟩ :=
              sampled_course (halfAt (bytes.headD 0) c.part c.half).2 lda c
            generalize (if c.tick = 0 ∧ c.half % 2 = 1 then _ else c) = u at hpart hhalf htick hlow hstretch hcourse
            obtain ⟨hsame, hnext, hend⟩ :=
              advanceCourse_goesOn (!message) l.halfBit (bytes.length - 1) (bytes.headD 0) u
            rw [← hcourse, htick] at hsame hnext hend
            have hfreed : freed ↔ u.part = .pulses ∧ u.half % 2 = 1 ∧ u.ldaLow = false := by
              rw [hpart, hhalf, hlow]
              refine and_congr_left fun _ => ?_
              split
              · next hcont => simp [hcont.1]
              · rfl
            have hpart' : (if contended then CoursePart.spoiled else c.part) = u.part := hpart.symm
            have hlow' : low = u.ldaLow := hlow.symm
            rw [hpart', hlow', hfreed, ← hhalf]
            refine ⟨fun hr => ?_, fun hn => ?_, fun he hlen hf => ?_, fun he hlen => ?_⟩
            · rw [hcourse]
              exact advanceCourse_stretch (hstretch hr)
            · rw [hsame hn]
              exact ⟨rfl, rfl, rfl⟩
            · rw [hnext he hlen hf]
              exact ⟨rfl, rfl, rfl⟩
            · rw [hend he hlen, hmore, Bool.not_not]
              exact ⟨rfl, rfl, rfl⟩

/-! ## A tick of the link -/

/-- The activity of a message in a part of its course (R75, log 9). -/
theorem partActivity_eq (before : Activity) (p : CoursePart) :
    partActivity before p =
      (if p ∈ [CoursePart.check, .pulses, .checkClose, .recheck, .clocks, .opening] then .checking
        else if p ∈ [CoursePart.byte, .spoiled] then .sending
        else if p ∈ [CoursePart.closing, .attempt] then .closing
        else before) := by
  cases p <;> rfl

theorem byteOver_iff {c c' : LinkCourse} :
    byteOver c c' = true ↔ c.part = .byte ∧ c.half = 17 ∧ c'.half = 0 ∧ (c'.part = .byte ∨ c'.part = .closing) := by
  simp [byteOver, and_assoc]

/-- A byte is over in the tick that ends its acknowledge bit (R70, R80). -/
theorem byteOver_courseTick {limit halfBit : Nat} {bytes : List Byte} {lck lda : Bool} {c : LinkCourse} :
    byteOver c (courseTick false limit halfBit bytes lck lda c) = true ↔
      c.part = .byte ∧ c.half = 17 ∧ halfBit ≤ c.tick + 1 ∧ ¬ (lck = true ∧ AwaitsLck c) := by
  rw [byteOver_iff]
  refine and_congr_right fun hp => and_congr_right fun hh => ?_
  by_cases hs : lck = true ∧ AwaitsLck c
  · rw [courseTick_stretched _ _ _ _ hs.1 hs.2, stretchCourse, hp]
    refine iff_of_false (fun ⟨hzero, hpart⟩ => ?_) fun h => h.2 hs
    split at hzero
    · simp [hh] at hzero
    · next hlimit =>
      rw [if_neg hlimit] at hpart
      simp [LinkCourse.start] at hpart
  · obtain ⟨hpart, hhalf, htick, -, -⟩ := sampled_course (halfAt (bytes.headD 0) c.part c.half).2 lda c
    rw [courseTick_advance _ _ _ _ hs (by simp [hp]) (by simp [hp]) (by simp [hp]) (by simp [hp])]
    generalize (if c.tick = 0 ∧ c.half % 2 = 1 then _ else c) = u at hpart hhalf htick
    have hbyte : u.part = .byte := by
      rw [hpart, if_neg (by omega), hp]
    obtain ⟨hsame, -, hend⟩ := advanceCourse_goesOn false halfBit (bytes.length - 1) (bytes.headD 0) u
    rw [htick] at hsame hend
    by_cases he : halfBit ≤ c.tick + 1
    · refine iff_of_true ?_ ⟨he, hs⟩
      rw [hend he (.inl (by rw [hhalf, hh, hbyte]; rfl)), hbyte]
      refine ⟨rfl, ?_⟩
      exact ite_of (P := fun p => p = CoursePart.byte ∨ p = .closing) (.inl rfl) (.inr rfl)
    · refine iff_of_false (fun ⟨hzero, _⟩ => ?_) fun h => he h.1
      rw [hsame he] at hzero
      simp [hhalf, hh] at hzero

/-- One tick of what is on the link (R75, R80, R88), whatever the recovery timer does. -/
theorem linkCourse_goesOn (lck lda expired : Bool) (timer elapsed : Nat) (s : State) :
    LinkGoesOn lck lda (linkLines s).2 s.link
      (linkCourse lck lda { s.link with timer := timer, expired := expired, elapsed := elapsed }) := by
  unfold linkCourse
  dsimp only
  cases hm : s.link.message with
  | some m =>
    have hlines : (linkLines s).2 =
        (halfAt (((messageBytes m).drop m.bytesSent).headD 0) s.link.course.part s.link.course.half).2 := by
      simp [linkLines, hm, halfAt]
    rw [hlines]
    refine ⟨fun hfree => absurd (.inl (by simp [hm])) hfree, fun _ => courseGoesOn (by rw [hm]; rfl) ?_,
      fun hnone => by simp [hm] at hnone, fun m' hm' => ?_⟩
    · simp only [hm, messageBytes, List.length_drop, List.length_cons, Option.any_some]
      refine decide_eq_decide.2 ?_
      omega
    · obtain rfl : m = m' := Option.some_inj.1 (hm.symm.trans hm')
      refine ⟨partActivity_eq _ _, ?_⟩
      simp only [byteOver_courseTick, apply_ite (m.bytesSent + ·)]
      rfl
  | none =>
    dsimp only
    split
    · next hr =>
      have hlines : (linkLines s).2 = (halfAt (([] : List Byte).headD 0) s.link.course.part s.link.course.half).2 := by
        simp [linkLines, hm, hr, halfAt]
      rw [hlines]
      exact ⟨fun hfree => absurd (.inr hr) hfree, fun _ => courseGoesOn (by rw [hm]; rfl) (by simp [hm]),
        fun _ => ⟨rfl, rfl⟩, fun m hsome => by simp [hm] at hsome⟩
    · next hr =>
      exact ⟨fun _ => ⟨rfl, rfl, rfl⟩, fun hu => absurd hu (by simp [LinkInUse, hm, hr]), fun _ => ⟨rfl, rfl⟩,
        fun m hsome => by simp [hm] at hsome⟩

end Sys2Proof.Machine
end

