-- ==== Sys2Proof/Proofs/Ticks.lean ====
section
/-! PROOFS. A step with no command waiting (log 1): the first own event that is due, or else a tick, at which the
counters count. -/

namespace Sys2Proof.Machine

open Safety

theorem firstStep_eq_none {s : State} {l : List Instr} (h : firstStep s l = none) :
    ∀ c ∈ l, ∀ t, exec c s ≠ .next t := by
  induction l with
  | nil => exact fun c hc => absurd hc List.not_mem_nil
  | cons c l ih =>
    unfold firstStep at h
    split at h
    · cases h
    · next hc =>
      intro c' hmem t ht
      obtain rfl | hmem := List.mem_cons.1 hmem
      · exact hc t ht
      · exact ih h c' hmem t ht

/-- A timer of 14 bits, while it counts and while it does not (R87, R177). -/
theorem timerTick_eq (counts : Bool) (n : Nat) :
    timerTick counts n =
      (if counts = true then (if n < 16383 then n + 1 else 0) else n, decide (counts = true ∧ 16383 ≤ n)) := by
  have hlimit : Config.timerTicks ≤ n + 1 ↔ 16383 ≤ n := by
    simp only [Config.timerTicks]
    omega
  unfold timerTick
  cases counts
  · simp
  · by_cases h : 16383 ≤ n
    · simp [hlimit, h, Nat.not_lt.2 h]
    · simp [hlimit, h, Nat.not_le.1 h]

theorem linkCourse_eq (lck lda : Bool) (l : DriverLink) :
    linkCourse lck lda l =
      { l with
        activity := (linkCourse lck lda l).activity
        message := (linkCourse lck lda l).message
        course := (linkCourse lck lda l).course } := by
  unfold linkCourse
  cases hm : l.message with
  | some m => rfl
  | none =>
    dsimp only
    split <;> simp [← hm]

theorem linkUsed_iff (l : DriverLink) : linkUsed l = true ↔ l.message ≠ none ∨ l.activity = .recovering := by
  unfold linkUsed
  cases l.message <;> simp

/-- A tick of the link: its timers, and what its course makes of the message (R75, R87). -/
theorem tickLink_eq (lit : Bool) (free : Nat) (l : DriverLink) :
    tickLink lit free l =
      { l with
        activity := (tickLink lit free l).activity
        message := (tickLink lit free l).message
        course := (tickLink lit free l).course
        timer := (timerTick (l.state == .faulted && !lit) l.timer).1
        expired := (timerTick (l.state == .faulted && !lit) l.timer).2
        elapsed := if linkUsed l then l.elapsed + 1 else l.elapsed } := linkCourse_eq _ _ _

/-- Settles O2: the first own event that is a step is taken, and with none a tick counts block by block. -/
theorem idleStepIsAnOwnEventOrATick : Obligations.IdleStepIsAnOwnEventOrATick := by
  intro s hpending
  have hstep : step s = .next (idleStep s) := by simp [step, hpending]
  cases hfirst : firstStep s (ownEvents s) with
  | some t =>
    obtain ⟨c, hmem, hc⟩ := firstStep_eq_some hfirst
    exact .inl ⟨c, hmem, t, hc, by rw [hstep, idleStep, hfirst]⟩
  | none =>
    have hlink : (tick s).link = tickLink (s.seq.state == .lit) s.freeCount s.link := by simp
    refine .inr ⟨firstStep_eq_none hfirst, by rw [hstep, idleStep, hfirst], fun h hh => ?hold, fun hh => ?noHold,
      by simp [tickPeriod], fun n again hc => ?clear, fun hc => ?noClear, by simp [tickSeq], ?link, ?course, ?notice,
      by simp [tickSense], rfl, by simp, by simp, by simp, by simp [SameRecords], by simp, by simp, by simp, by simp⟩
    case hold => simp [tickWmu, hh]
    case noHold =>
      have hw : tickWmu s.wmu = s.wmu := by
        unfold tickWmu
        split
        · next h hw => exact absurd hw (hh h)
        · rfl
      simpa using hw
    case clear => simp [tickPeriod, hc]
    case noClear =>
      simp only [tick_fields, tickPeriod]
    case link =>
      rw [hlink]
      refine (tickLink_eq _ _ _).trans ?_
      simp [timerTick_eq, linkUsed_iff, and_assoc]
    case course =>
      rw [hlink]
      exact linkCourse_goesOn _ _ _ _ _ s
    case notice => simp [tickNotice, timerTick_eq]

end Sys2Proof.Machine
end

