-- ==== Sys2Proof/Proofs/Postings.lean ====
section
/-! PROOFS. The postings whose block changes little but its own state: UNBLANK (R129), PROBE (R90), ABORT while IDLE
and a code that names no command (R170, R171), CLEAR_AND_REPAINT (R173). -/

namespace Sys2Proof.Machine

open Safety

/-! ## What a posting hands -/

/-- A block that leaves the handler's state leaves the command going on. -/
theorem goesOn_of_cmd {s t : State} {code : Byte} (h : t.cmd = s.cmd) (g : GoesOn s code) : GoesOn t code := by
  simpa only [GoesOn, h] using g

/-! ## UNBLANK -/

/-- A posting of UNBLANK goes to its block (R170). -/
theorem exec_unblank_of_posts {s : State} {a : BusAddr} {d : Word} (h : Posts s a d 0x05) :
    ∃ n, exec (.unblank a d) s = .next (cycleServed (requestCommandWrite (acceptUnblank (accepted 0x05 n s)))) :=
  postingOf_of_posts (p := fun c => c == 0x05) h (by decide) rfl

/-- UNBLANK is judged by the sequencer alone (R129). -/
def unblanked (q : Sequencer) : Sequencer :=
  if q.blanked = true ∧ q.state = .dark ∧ q.filtered = true then
    { q with blanked := false, state := .settling, settle := 0 }
  else { q with blanked := false }

/-- UNBLANK changes the sequencer and hands OK (R129). -/
theorem acceptUnblank_eq (s : State) :
    acceptUnblank s = finishCommand .ok [] (s.setSeq (unblanked s.seq)) := by
  unfold acceptUnblank judgeDark unblanked
  cases hb : s.seq.blanked with
  | true =>
    by_cases hd : s.seq.state = .dark ∧ s.seq.filtered = true
    · simp [hd, State.setSeq]
    · simp [hd]
  | false =>
    have hs : s.setSeq { s.seq with blanked := false } = s := by rw [← hb]; rfl
    simp [hs]

/-- Settles O24: the block changes the sequencer and hands OK. -/
theorem unblankJudgesTheSupply : Obligations.UnblankJudgesTheSupply := by
  intro s a d posts
  obtain ⟨n, hexec⟩ := exec_unblank_of_posts posts
  have hends := finishCommand_endsWith
    (goesOn_of_cmd (t := (accepted 0x05 n s).setSeq (unblanked s.seq)) rfl (accepted_goesOn 0x05 n s)) .ok []
  refine ⟨_, hexec, ?_⟩
  have hseq : (accepted 0x05 n s).seq = s.seq := (accepted_frame 0x05 n s).2.2.2.2.2.2.2.2.2.2.2.2.1
  rw [endsWith_posted, acceptUnblank_eq, hseq]
  exact ⟨hends, by simp [unblanked], by simp [SameRecords]⟩

/-! ## ABORT while IDLE, and codes that name no command -/

/-- A code of no block goes to no block (R170). -/
theorem acceptCode_bad {code : Byte} (h : code ∉ commandCodes) (s : State) : acceptCode code s = acceptBad s := by
  simp only [commandCodes, List.mem_cons, List.not_mem_nil, or_false, not_or] at h
  simp only [acceptCode, h, if_false]

/-- What a posting leaves whose block only hands a result (R168). -/
theorem finishCommand_posted (code : Byte) (n : Word) (res : Result) (s : State) :
    let t := cycleServed (requestCommandWrite (finishCommand res [] (accepted code n s)))
    EndsWith t code (resultCode res) [] ∧ t.bus = s.bus ∧ t.wmu = s.wmu ∧ SameRecords s t ∧ SameDrive s t ∧
      t.area = s.area ∧ t.notice = s.notice ∧ t.store = s.store := by
  intro t
  rw [endsWith_posted]
  exact ⟨finishCommand_endsWith (accepted_goesOn code n s) res [], by simp [t, SameRecords, SameDrive]⟩

/-- Settles O26: neither block does anything but hand its result. -/
theorem abortWhileIdleAndBadCodesDoNothing : Obligations.AbortWhileIdleAndBadCodesDoNothing := by
  intro s a d code posts
  refine ⟨fun hcode => ?_, fun hcode => ?_⟩
  · subst hcode
    obtain ⟨n, hexec⟩ := postingOf_of_posts (p := fun c => c == 0x07) posts (by decide) rfl
    exact ⟨_, hexec, finishCommand_posted 0x07 n .ok s⟩
  · obtain ⟨hzero, hcodes⟩ : code ≠ 0 ∧ code ∉ commandCodes := by
      simpa [commandCodes] using hcode
    obtain ⟨n, hexec⟩ := postingOf_of_posts (p := fun c => c != 0 && !commandCodes.contains c) posts hzero
      (by simpa using And.intro hzero hcodes)
    rw [acceptCode_bad hcodes] at hexec
    exact ⟨_, hexec, finishCommand_posted code n .badCode s⟩

/-! ## PROBE -/

/-- What the link takes up next, as its own record gives it with the phase in flight and the settings (R78). -/
theorem linkNext_eq (s : State) : linkNext s = s.setLink (linkServed s s.link) := by
  unfold linkNext linkServed
  by_cases hfree : s.link.state = .faulted ∨ s.link.message ≠ none
  · have hb : (s.link.state == .faulted || s.link.message.isSome) = true := by
      simpa [Option.ne_none_iff_isSome] using hfree
    rw [if_pos hb, if_pos hfree]
    rfl
  · have hb : ¬ (s.link.state == .faulted || s.link.message.isSome) = true := by
      simpa [Option.ne_none_iff_isSome] using hfree
    rw [if_neg hb, if_neg hfree]
    cases hw : s.link.waiting with
    | some v => rfl
    | none =>
      have hp : nextProbe s = probeDue s.link := by cases hr : s.link.round <;> simp [nextProbe, probeDue, hr]
      have hl : phaseLoading s = s.sched.op.any (fun o => o.stage == .loading) := by
        cases ho : s.sched.op <;> simp [phaseLoading, ho]
      dsimp only
      rw [hp, hl]
      cases probeDue s.link with
      | none => split <;> rfl
      | some m =>
        dsimp only
        split <;> rfl

theorem linkNext_link (s : State) : (linkNext s).link = linkServed s s.link := by
  rw [linkNext_eq]
  rfl

/-- What a link sends rests on the settings and the operation in flight alone. -/
theorem linkServed_congr {s t : State} (hstore : t.store = s.store) (hsched : t.sched = s.sched) (l : DriverLink) :
    linkServed t l = linkServed s l := by
  simp only [linkServed, sending, hstore, hsched]

/-- A posting of PROBE goes to its block (R170). -/
theorem exec_probe_of_posts {s : State} {a : BusAddr} {d : Word} (h : Posts s a d 0x06) :
    ∃ n, exec (.probe a d) s = .next (cycleServed (requestCommandWrite (acceptProbe (accepted 0x06 n s)))) :=
  postingOf_of_posts (p := fun c => c == 0x06) h (by decide) rfl

/-- PROBE with a module FAILED starts its round, and the link serves it (R90, R78). -/
theorem acceptProbe_round {s : State} (hok : s.link.state = .ok) (hfailed : s.link.failed ≠ 0) :
    acceptProbe s = linkNext (s.setLink { s.link with
      round := some { left := allModules.filter (fun m => hasModule s.link.failed m), restored := false } }) := by
  rw [acceptProbe, if_neg (by simp [hok]), if_neg hfailed]

/-- Settles O25: the three outcomes follow the state of the link, and a round is served as the link serves its work. -/
theorem probeStartsARoundOfFailedModules : Obligations.ProbeStartsARoundOfFailedModules := by
  intro s a d posts
  obtain ⟨n, hexec⟩ := exec_probe_of_posts posts
  refine ⟨_, hexec, ?_⟩
  have hgoes := accepted_goesOn 0x06 n s
  have hlink : (accepted 0x06 n s).link = s.link := rfl
  rw [endsWith_posted, endsWith_posted, goesOn_posted]
  refine ⟨fun hf => ?_, fun ho hz => ?_, fun ho hz => ?_, by simp [SameRecords]⟩
  · have h : acceptProbe (accepted 0x06 n s) = finishCommand .wrongState [] (accepted 0x06 n s) := by
      simp [acceptProbe, hf]
    rw [h]
    exact ⟨finishCommand_endsWith hgoes .wrongState [], by simp⟩
  · have h : acceptProbe (accepted 0x06 n s) = finishCommand .ok [] (accepted 0x06 n s) := by
      simp [acceptProbe, ho, hz]
    rw [h]
    exact ⟨finishCommand_endsWith hgoes .ok [], by simp⟩
  · rw [acceptProbe_round (s := accepted 0x06 n s) ho hz]
    refine ⟨goesOn_of_cmd (by simp) hgoes, ?_⟩
    rw [linkServed_congr (s := s) (by simp) (by simp)]
    simp only [cycleServed_frame, requestCommandWrite_frame, linkNext_link, State.setLink_link, hlink]
    exact linkServed_congr rfl rfl _

/-! ## CLEAR_AND_REPAINT -/

/-- A posting of CLEAR_AND_REPAINT goes to its block (R170). -/
theorem exec_clearAndRepaint_of_posts {s : State} {a : BusAddr} {d : Word} (h : Posts s a d 0x02) :
    ∃ n, exec (.clearAndRepaint a d) s =
      .next (cycleServed (requestCommandWrite (acceptClear (accepted 0x02 n s)))) :=
  postingOf_of_posts (p := fun c => c == 0x02) h (by decide) rfl

/-- The command of a CLEAR_AND_REPAINT whose strobe comes ends with OK, or with ABORTED after an ABORT (R65, R66). -/
theorem finishCommand_finishes {s t : State} (h : t.cmd = s.cmd) (res : Result) :
    Finishes s (finishCommand res [] t) (resultCode res) := by
  intro r hr hnone
  rw [finishCommand_of_running (h ▸ hr) hnone]
  simp [commandWord]

/-- With no record of a hold a hold drops nothing, and with one the record is gone (R13, R125). -/
theorem dropHold_not_holding (s : State) : ∀ h, (dropHold s).wmu.state ≠ .holding h := by
  unfold dropHold
  split
  · simp [endCycle]
  · assumption

/-- At the strobe of the global erase every row is dark and owed a write from memory (R65, R47). -/
theorem eraseStrobe_dark (p : Period) (s : State) : AllRowsDark s (eraseStrobe p s) := by
  have hhold := dropHold_not_holding
  simp [AllRowsDark, eraseStrobe, setOp, panelDark, allRowsDark, hhold]

/-- The strobe of the global erase ends the command of a CLEAR_AND_REPAINT, with ABORTED after an ABORT (R65, R66). -/
theorem eraseStrobe_finishes {s : State} {r : Running} (p : Period) (hr : s.cmd.running = some r) :
    Finishes s (eraseStrobe p s) (resultCode (if r.abortTaken then .aborted else .ok)) := by
  have habort : abortTaken (panelDark (setOp none (allRowsDark (markStrobe p s)))) = r.abortTaken := by
    simp [abortTaken, panelDark, setOp, hr]
  rw [eraseStrobe, habort]
  exact finishCommand_finishes (by simp [panelDark, setOp]) _

/-- Settles O21: the acceptance marks clear waiting or refuses; the strobe makes every row dark, and hands the
result. -/
theorem clearAndRepaintErasesThePanel : Obligations.ClearAndRepaintErasesThePanel := by
  refine ⟨fun s a d posts => ?_, fun s p hlit hp hkind hunstrobed hdue => ?_⟩
  · obtain ⟨n, hexec⟩ := exec_clearAndRepaint_of_posts posts
    have hgoes := accepted_goesOn 0x02 n s
    refine ⟨_, hexec, fun hs => ?_, fun hs => ?_, by simp [SameDrive]⟩
    · have h : acceptClear (accepted 0x02 n s) = finishCommand .wrongState [] (accepted 0x02 n s) := by
        simp [acceptClear, hs]
      rw [endsWith_posted, h]
      exact ⟨finishCommand_endsWith hgoes .wrongState [], by simp⟩
    · have h : acceptClear (accepted 0x02 n s) =
          (accepted 0x02 n s).setSched { s.sched with clearWaiting := true } := by
        simp [acceptClear, hs]
      rw [goesOn_posted, h]
      exact ⟨goesOn_of_cmd rfl hgoes, by simp⟩
  · have hexec : exec .globalEraseStrobe s = .next (eraseStrobe p s) := by
      change execGlobalEraseStrobe s = _
      have hstrobe : strobeDue .globalErase p s = true := by
        simp [strobeDue, strobeTick, hkind, hunstrobed, hdue]
      simp [execGlobalEraseStrobe, hp, hlit, stepWhen, hstrobe]
    refine ⟨_, hexec, eraseStrobe_dark p s, by simp [eraseStrobe], by simp [eraseStrobe, panelDark, markStrobe, setOp],
      fun r hr => ?_, by simp [eraseStrobe, panelDark, setOp]⟩
    have hfin := eraseStrobe_finishes p hr
    cases ha : r.abortTaken <;> (rw [ha] at hfin; exact hfin)

end Sys2Proof.Machine
end

