-- ==== Sys2Proof/Proofs/AreaStarts.lean ====
section
/-! PROOFS. AREA at its acceptance (R150, R151, R154): the first row that is not passed over, and the record formed. -/

namespace Sys2Proof.Machine

open Safety

/-! ## The rows an area passes over -/

/-- With every row from `r` on passed over, the rectangle is behind the engine (R154). -/
theorem areaBegin_eq_none {t : Settings} {a : AreaOp} :
    ∀ {fuel r : Nat}, (∀ q : Row, r ≤ q.val → q.val ≤ a.lastRow.val → areaSkips t a q = true) →
      areaBegin t a fuel r = none := by
  intro fuel
  induction fuel with
  | zero => exact fun _ => rfl
  | succ fuel ih =>
    intro r hskip
    rw [areaBegin]
    by_cases hpast : a.lastRow.val < r
    · rw [if_pos hpast]
    · have hval : (Fin.ofNat 512 r).val = r := Nat.mod_eq_of_lt (by omega)
      rw [if_neg hpast]
      dsimp only
      rw [if_pos (hskip _ (by omega) (by omega))]
      exact ih fun q hq => hskip q (by omega)

/-- The engine begins the first row from `r` on that is not passed over, at the rectangle's first word (R154). -/
theorem areaBegin_eq_some {t : Settings} {a : AreaOp} {q : Row} (hlast : q.val ≤ a.lastRow.val)
    (hq : areaSkips t a q = false) :
    ∀ {fuel r : Nat}, r ≤ q.val → q.val < r + fuel →
      (∀ p : Row, r ≤ p.val → p < q → areaSkips t a p = true) →
      areaBegin t a fuel r =
        some { a with row := q, word := a.firstWord, rowSkipped := false, unit := .requested } := by
  intro fuel
  induction fuel with
  | zero => intro r hr hfuel; omega
  | succ fuel ih =>
    intro r hr hfuel hskip
    have hval : (Fin.ofNat 512 r).val = r := Nat.mod_eq_of_lt (by omega)
    rw [areaBegin, if_neg (by omega)]
    dsimp only
    by_cases hrq : r = q.val
    · have hrow : Fin.ofNat 512 r = q := Fin.ext (hval.trans hrq)
      rw [hrow, if_neg (by simp [hq])]
    · rw [if_pos (hskip _ (by omega) (by rw [Fin.lt_def]; omega))]
      exact ih (by omega) (by omega) fun p hp => hskip p (by omega)

/-- A row is passed over exactly when it is protected and the area not privileged (R154). -/
theorem areaSkips_iff {t : Settings} {a : AreaOp} {q : Row} :
    areaSkips t a q = true ↔ inBand t q = true ∧ a.privileged = false := by
  simp [areaSkips]

/-! ## The block -/

/-- AREA is refused with 0 words written, or its record begins at its first row (R150, R154). -/
theorem acceptArea_eq (s : State) :
    acceptArea s = if areaRefused (areaArgs s.cmd) then finishCommand .badArgument [(2, 0)] s
      else areaFrom (areaRecord (areaArgs s.cmd)) (areaArgs s.cmd).firstRow s := rfl

/-- The arguments that AREA refuses (R150). -/
theorem areaRefused_iff (x : AreaArgs) :
    areaRefused x = true ↔ 3 < x.op ∨ x.rowCount = 0 ∨ x.wordCount = 0 ∨ 511 < x.firstRow ∨ 31 < x.firstWord := by
  simp [areaRefused, or_assoc]

/-- A run that starts below the limit has its last below it (R151). -/
theorem lastOf_lt {limit first count : Nat} (h : first < limit) : lastOf limit first count < limit := by
  unfold lastOf
  split <;> omega

/-- The engine at the end of its rows completes with its words written (R161). -/
theorem areaFrom_of_none {a : AreaOp} {r : Nat} {s : State} (h : areaBegin s.store.settings a 512 r = none) :
    areaFrom a r s = completeArea a s := by
  rw [areaFrom, h]

theorem areaFrom_of_some {a b : AreaOp} {r : Nat} {s : State} (h : areaBegin s.store.settings a 512 r = some b) :
    areaFrom a r s = s.setArea (some b) := by
  rw [areaFrom, h]

/-- The arguments of an AREA command are read from the copy, which its posting leaves but for word 0 (R193). -/
theorem areaArgs_accepted (code : Byte) (n : Word) (s : State) :
    areaArgs (accepted code n s).cmd = areaArgs s.cmd := by
  simp only [areaArgs, copyWord_accepted (show (1 : WordIx) ≠ 0 by decide),
    copyWord_accepted (show (3 : WordIx) ≠ 0 by decide), copyWord_accepted (show (4 : WordIx) ≠ 0 by decide),
    copyWord_accepted (show (5 : WordIx) ≠ 0 by decide), copyWord_accepted (show (6 : WordIx) ≠ 0 by decide),
    copyWord_accepted (show (7 : WordIx) ≠ 0 by decide), copyWord_accepted (show (8 : WordIx) ≠ 0 by decide),
    copyWord_accepted (show (9 : WordIx) ≠ 0 by decide), copyWord_accepted (show (10 : WordIx) ≠ 0 by decide),
    copyWord_accepted (show (11 : WordIx) ≠ 0 by decide), copyWord_accepted (show (12 : WordIx) ≠ 0 by decide)]

/-- A posting of AREA goes to its block (R170). -/
theorem exec_area_of_posts {s : State} {a : BusAddr} {d : Word} (h : Posts s a d 0x03) :
    ∃ n, exec (.area a d) s = .next (cycleServed (requestCommandWrite (acceptArea (accepted 0x03 n s)))) :=
  postingOf_of_posts (p := fun c => c == 0x03) h (by decide) rfl

/-- The op of AREA names its combine (R149, log 38). -/
theorem opCombine_eq (op : Nat) :
    opCombine op = if op = 0 then .replace else if op = 1 then .set else if op = 2 then .clear else .complement := by
  match op with
  | 0 | 1 | 2 => rfl
  | n + 3 => simp [opCombine]

/-- A posting leaves the area its block has begun. -/
theorem area_posted (a : AreaOp) (s : State) :
    (cycleServed (requestCommandWrite (s.setArea (some a)))).area = some a := by
  simp

/-- An argument within its range is its own number of a row or a word. -/
theorem ofNat_val {limit k : Nat} [NeZero limit] (h : k < limit) : (Fin.ofNat limit k).val = k := Nat.mod_eq_of_lt h

/-- Settles O22: the refusal is that of the arguments; otherwise the engine begins the first row of the clamped
rectangle that is not passed over, or completes when there is none. -/
theorem areaIsCheckedAndClamped : Obligations.AreaIsCheckedAndClamped := by
  intro s a d posts op priv row rows word words
  obtain ⟨n, hexec⟩ := exec_area_of_posts posts
  have hgoes := accepted_goesOn 0x03 n s
  have hop : (areaArgs s.cmd).op = op := by
    simp [areaArgs, lowByte, op, argument, BitVec.extractLsb'_toNat]
  refine ⟨_, hexec, ?_⟩
  rw [acceptArea_eq, areaArgs_accepted]
  by_cases hbad : 3 < op ∨ rows = 0 ∨ words = 0 ∨ 511 < row ∨ 31 < word
  · rw [if_pos (by rw [areaRefused_iff, hop]; exact hbad), if_pos hbad, endsWith_posted]
    refine ⟨by simp, by simp, by simp [SameRecords], by simp [SameDrive], by simp, by simp,
      finishCommand_endsWith hgoes .badArgument [(2, 0)], by simp⟩
  · rw [if_neg (by rw [areaRefused_iff, hop]; exact hbad), if_neg hbad]
    generalize hx : areaArgs s.cmd = x
    have hrow : x.firstRow = row := by rw [← hx]; rfl
    have hrows : x.rowCount = rows := by rw [← hx]; rfl
    have hword : x.firstWord = word := by rw [← hx]; rfl
    have hwords : x.wordCount = words := by rw [← hx]; rfl
    have hpriv : x.privileged = priv := by rw [← hx]; rfl
    have hlast : (areaRecord x).lastRow.val = if 512 < row + rows then 511 else row + rows - 1 := by
      rw [← hrow, ← hrows]
      exact ofNat_val (lastOf_lt (by omega))
    have hskips : ∀ q, areaSkips s.store.settings (areaRecord x) q = true ↔
        inBand s.store.settings q = true ∧ priv = false := fun q => by rw [← hpriv]; exact areaSkips_iff
    refine ⟨by simp, by simp, by simp [SameRecords], by simp [SameDrive], by simp, by simp, fun hall => ?_,
      fun q hq hql hpass hfirst => ?_⟩
    · have hnone : areaBegin (accepted 0x03 n s).store.settings (areaRecord x) 512 x.firstRow = none :=
        areaBegin_eq_none fun q hq hql => (hskips q).2 (hall q (by omega) (by rw [hlast] at hql; exact hql))
      rw [endsWith_posted, areaFrom_of_none hnone]
      have hres : resultCode (if (areaRecord x).abortPending then .aborted
          else if (areaRecord x).truncated then .truncated else .ok) =
          if 512 < row + rows ∨ 32 < word + words then 0x81 else 0x80 := by
        have htrunc : (areaRecord x).truncated = true ↔ 512 < row + rows ∨ 32 < word + words := by
          simp [areaRecord, hrow, hrows, hword, hwords]
        rw [if_neg (show ¬ (areaRecord x).abortPending = true by simp [areaRecord])]
        by_cases h : 512 < row + rows ∨ 32 < word + words
        · rw [if_pos h, if_pos (htrunc.2 h)]; rfl
        · rw [if_neg h, if_neg (mt htrunc.1 h)]; rfl
      rw [← hres]
      exact ⟨finishCommand_endsWith (goesOn_of_cmd (by simp) hgoes) _ _, by simp [completeArea]⟩
    · have hsome := areaBegin_eq_some (t := s.store.settings) (a := areaRecord x) (q := q)
          (fuel := 512) (r := x.firstRow)
          (by rw [hlast]; exact hql) (Bool.eq_false_iff.2 (mt (hskips q).1 hpass))
          (by omega) (by omega) fun p hp hpq => (hskips p).2 (hfirst p (by omega) hpq)
      rw [goesOn_posted, areaFrom_of_some (s := accepted 0x03 n s) hsome]
      have hxop : x.op = op := hx ▸ hop
      refine ⟨goesOn_of_cmd rfl hgoes, _, area_posted _ _, ?_, hpriv, ?_, hlast, ?_, ?_, ?_, ?_, ?_, ?_, rfl, rfl,
        rfl, rfl,
        rfl, rfl, rfl, rfl⟩
      · rw [← hxop]; exact opCombine_eq x.op
      · exact (ofNat_val (by omega)).trans hrow
      · exact (ofNat_val (by omega)).trans hword
      · rw [← hword, ← hwords]
        exact ofNat_val (lastOf_lt (by omega))
      · rw [← hx]; rfl
      · rw [← hx]; rfl
      · rw [← hx]; rfl
      · rw [← hrow, ← hrows, ← hword, ← hwords]; rfl

end Sys2Proof.Machine
end

