-- ==== Sys2Proof/Proofs/OwnEvents.lean ====
section
/-! PROOFS. Short events of the blocks: the ends of the store operations (R187, R188), the notices (R7, R175, R176), the
supply filter (R112, R114, R119) and the recovery of the link (R87 to R89). -/

namespace Sys2Proof.Machine

open Safety

/-! ## The store operations' ends -/

/-- What a store reads once some of its keys are dropped. -/
theorem cellsRead_filter {α : Type} {d : α} (keep : Nat → Bool) (m : Cells α) (a : Nat) :
    cellsRead d (m.filter (fun p => keep p.1)) a = if keep a then cellsRead d m a else d := by
  induction m with
  | nil => simp [cellsRead]
  | cons p m ih =>
    obtain ⟨k, v⟩ := p
    by_cases hak : a = k
    · subst hak
      cases hk : keep a <;> simp [hk, ih, cellsRead]
    · cases hk : keep k <;> simp [hk, ih, cellsRead, hak]

/-- An erased page reads 0xFFFF, and every other word as it was (R187). -/
theorem storeWord_erasePage (page : Nat) (words : Cells Word) (i : Nat) :
    storeWord (erasePage page words) i = if i / 32 = page then 0xFFFF else storeWord words i := by
  refine (cellsRead_filter (fun k => k / 32 != page) words i).trans ?_
  by_cases h : i / 32 = page <;> simp [h, storeWord, Config.erasedWord]

/-- A word written to the store reads its value, and every other word as it was (R188). -/
theorem storeWord_cellsWrite {words : Cells Word} (h : CellsWf 0xFFFF words) (i j : Nat) (v : Word) :
    storeWord (cellsWrite Config.erasedWord words i v) j = if j = i then v else storeWord words j := by
  split
  · next hji =>
    subst hji
    exact cellsRead_cellsWrite_self j v h
  · next hji => exact cellsRead_cellsWrite_ne words v hji

/-- Settles O29: each end changes the words of its page or its word, and hands OK. -/
theorem storeOperationsEnd : Obligations.StoreOperationsEnd := by
  intro s r hwf hrun hnone ends
  have hends : ∀ words, ends (finishCommand .ok [] (s.setStore { s.store with words := words, op := .none })) := by
    intro words
    rw [finishCommand_of_running (s := s.setStore { s.store with words := words, op := .none }) hrun hnone]
    simp [ends, SameWritePath, SameRecords, SameDrive, commandWord, resultCode]
  refine ⟨fun page k hop hk => ⟨_, ?_, hends (erasePage page s.store.words), fun i => ?_⟩,
    fun i v k hop hk => ⟨_, ?_, hends (cellsWrite Config.erasedWord s.store.words i v), fun j => ?_⟩⟩
  · change execStoreEraseEnd s = _
    simp [execStoreEraseEnd, hop, stepWhen, Config.storeEraseTicks, hk]
  · simp [storeWord_erasePage]
  · change execStoreWriteEnd s = _
    simp [execStoreWriteEnd, hop, stepWhen, Config.storeWriteTicks, hk]
  · simp [storeWord_cellsWrite hwf]

/-! ## Notices -/

/-- A clear that removes a notice has its update requested and READY held (R7, R175). -/
theorem clearNotices_eq (d : Word) (s : State) :
    let left := s.notice.notices &&& ~~~(d.setWidth 8)
    clearNotices d s = if left = s.notice.notices then s
      else (requestNoticeUpdate (setNotices left s)).setBus { s.bus with ready := false, clearHeld := true } := by
  have hlow : lowByte d = d.setWidth 8 := by ext i; simp [lowByte]
  simp [clearNotices, hlow, requestNoticeUpdate, setNotices]

/-- The unit of a notice-word update writes the set as it stands, and ends a clear that waits (R176, R7). -/
theorem noticeUpdateUnit_eq (s : State) :
    noticeUpdateUnit s = unitEnds false (((s.setMem (cellsWrite 0 s.mem 16416 (s.notice.notices.setWidth 16))).setPort
      { s.port with third := s.port.third.tail }).setBus
        { s.bus with ready := s.bus.ready || s.bus.clearHeld, clearHeld := false }) := by
  cases hc : s.bus.clearHeld with
  | true =>
    simp only [noticeUpdateUnit, writeMem, popThird, State.setPort_bus, State.setMem_bus, hc, if_true]
    simp
    rfl
  | false =>
    have hbus : s.bus = { s.bus with ready := s.bus.ready || false, clearHeld := false } := by
      rw [Bool.or_false, ← hc]
    simp only [noticeUpdateUnit, writeMem, popThird, State.setPort_bus, State.setMem_bus, hc, Bool.false_eq_true,
      if_false]
    rw [← hbus]
    rfl

/-- Settles O33: the clear and the update are those of the row's units. -/
theorem noticesAreClearedAndWritten : Obligations.NoticesAreClearedAndWritten := by
  refine ⟨fun s a d v hready hdecode hv => ?_, fun s u hmerging hgranted hport => ?_⟩
  · intro left
    have hview : privilegedView v = true := by rw [privilegedView_eq]; simpa using hv
    have hexec : exec (.noticeClear a d) s = .next (clearNotices d s) := by
      change execNoticeClear a d s = _
      simp [execNoticeClear, hdecode, hview, busStep, hready]
    rw [hexec, clearNotices_eq]
    refine ⟨fun h => by rw [if_pos h], fun h => ⟨_, by rw [if_neg h], ?_⟩⟩
    by_cases hm : ThirdRank.noticeUpdate ∈ s.port.third <;>
      simp [requestNoticeUpdate, setNotices, SameRecords, SameDrive, left, hm]
  · change execNoticeWordUpdate s = _
    have hdue : thirdDue .noticeUpdate s = true := by
      simp [thirdDue, processorWaits_eq_false hmerging, hgranted, hport]
    rw [execNoticeWordUpdate, noticeUpdateUnit_eq, stepWhen, if_pos hdue, hport]
    rfl

/-! ## The supply filter -/

/-- Settles O49: the filter's cases are those of the sample, and the good high moves DARK and GAP on. -/
theorem supplyFilterAndGoodHigh : Obligations.SupplyFilterAndGoodHigh := by
  intro s hsampled
  refine ⟨fun level h => ?_, fun level h hrun => ?_, fun hf hrun => ?_⟩
  · change execSupplyGoodSample level s = _
    rw [execSupplyGoodSample, if_neg (by simp [hsampled]), if_pos h]
    rfl
  · change execSupplyGoodSample level s = _
    rw [execSupplyGoodSample, if_neg (by simp [hsampled]), if_neg h, if_pos (by simp [Config.filterSamples]; omega)]
    rfl
  · change execGoodHigh s = _
    have hdue : filterChanges true s = true := by
      simp [filterChanges, hsampled, hf, Config.filterSamples]; omega
    rw [execGoodHigh, stepWhen, if_pos hdue]
    congr 1
    unfold goodHighEffect
    cases hstate : s.seq.state <;> cases hb : s.seq.blanked <;> simp [sampleSupply, judgeDark, hstate, hb, State.setSeq]

/-! ## The recovery of the link -/

/-- Settles O44: the expiry begins an attempt unless one runs, and an attempt ends by its check and its lines. -/
theorem recoveryFreesTheLink : Obligations.RecoveryFreesTheLink := by
  intro s
  refine ⟨fun hlit hexpired hfaulted => ?_, fun idle high hrec hposs hticks => ?_⟩
  · change execRecoveryTimerExpiry s = _
    have hdue : (s.link.state == .faulted && s.seq.state != .lit && s.link.expired) = true := by
      simp [hfaulted, hlit, hexpired]
    rw [execRecoveryTimerExpiry]
    dsimp only
    rw [stepWhen, if_pos hdue]
    by_cases hr : s.link.activity = .recovering
    · rw [if_pos (by simp [hr]), if_pos hr]
    · rw [if_neg (by simp [hr]), if_neg hr]
      rfl
  · have hexec : exec (.recoveryAttempt idle high) s =
        .next (if idlePasses idle && high then recoveryPasses s else recoveryFails s) := by
      change execRecoveryAttempt idle high s = _
      have hdue : (if idlePasses idle then idleHalves idle + recoveryHalves else idleHalves idle) * s.link.halfBit ≤
          s.link.elapsed := by
        refine le_trans (le_of_eq ?_) hticks
        cases idlePasses idle <;> rfl
      rw [execRecoveryAttempt, if_neg (by simp [hposs])]
      simp only [stepWhen, hrec, hdue, decide_true, Bool.and_true, beq_self_eq_true, if_true]
    rw [hexec]
    refine ⟨fun hp hh => ?_, fun h => ?_⟩
    · rw [if_pos (by simp [hp, hh])]
      exact congrArg _ (linkNext_eq _)
    · rw [if_neg (by cases h <;> simp [*])]
      rfl

end Sys2Proof.Machine
end

