-- ==== Sys2Proof/Proofs/PanelEvents.lean ====
section
/-! PROOFS. Entry to LIT, the driver clear pulse and the priming erase (R103, R107, R110, R117), and the conversions of
the load limiter (R137 to R143). -/

namespace Sys2Proof.Machine

open Safety

/-! ## Entry to LIT -/

/-- The first period of LIT starts with the new frame's timing and P (R107, R96). -/
theorem enterLit_started (s : State) :
    ((enterLit s).period, (enterLit s).sched) = started (framed s) s.sched := by
  rw [enterLit_eq, startPeriod_eq]
  dsimp only
  split <;> simp [setSeqState, restartTimers] <;> rfl

@[simp] theorem enterLit_seq (s : State) : (enterLit s).seq = { s.seq with state := .lit } := by
  rw [enterLit_eq]
  dsimp only
  split <;> simp [setSeqState]

@[simp] theorem enterLit_link (s : State) : (enterLit s).link = { s.link with timer := 0, expired := false } := by
  rw [enterLit_eq]
  dsimp only
  split <;> simp [restartTimers, setSeqState]

/-- A notice raised leaves everything of its unit but the set and the attention line. -/
theorem raiseNotice_rest (n : Notice) (s : State) :
    (raiseNotice n s).notice = { s.notice with
      notices := (raiseNotice n s).notice.notices, attention := (raiseNotice n s).notice.attention } := by
  unfold raiseNotice
  split <;> simp [requestNoticeUpdate, setNotices]

/-- The notice raised is in the set (R175). -/
theorem raiseNotice_present (n : Notice) (s : State) :
    (raiseNotice n s).notice.notices.getLsbD (noticeBit n) = true := by
  rw [raiseNotice_notices]
  cases n <;> simp [noticeBit]

/-- A frame that overloads raises OVERLOAD, and another leaves the notices; the burst timer counts anew (R135, R177). -/
theorem enterLit_notice (s : State) :
    let overload := (limitPeriod (timingOf s.store.settings) s.lit.total).2
    (enterLit s).notice.burstTimer = 0 ∧ (enterLit s).notice.burstExpired = false ∧
      (overload = true → (enterLit s).notice.notices.getLsbD 5 = true) ∧
      (overload = false → (enterLit s).notice = { s.notice with burstTimer := 0, burstExpired := false }) := by
  intro overload
  rw [enterLit_eq]
  dsimp only
  rw [(startPeriod_frame _).2.2.2.2.2.2.2.2.2.2.2.2.2.2.2.1]
  split
  · next h =>
    refine ⟨by rw [raiseNotice_rest]; rfl, by rw [raiseNotice_rest]; rfl, fun _ => raiseNotice_present .overload _,
      fun h' => ?_⟩
    exact absurd h (by simp [overload] at h'; simp [h'])
  · next h => exact ⟨rfl, rfl, fun h' => absurd h' h, fun _ => rfl⟩

/-! ## The driver clear pulse and the priming erase -/

/-- A clear pulse's end empties the latches, and in PRIMING begins the erase unless another pulse is due (R110,
R103). -/
theorem endClear_eq (again : Bool) (s : State) :
    endClear again s = (s.setLatches { cols := 0, writePhase := 0 }).setPeriod
      { s.period with
        clearPulse := if again = true then .pending else .idle
        current :=
          if s.seq.state = .priming ∧ again = false ∧ s.period.current = none then
            some { kind := .globalErase, fires := none, tick := 0, strobed := false, sampled := false }
          else s.period.current } := by
  unfold endClear
  by_cases h : s.seq.state = .priming ∧ again = false ∧ s.period.current = none
  · simp [h, beginPeriod, State.setPeriod]
  · have hb : ¬ (s.seq.state == .priming && !again && s.period.current.isNone) = true := by
      simpa [and_assoc] using h
    rw [if_neg h]
    exact if_neg hb

/-- Settles O47: each event is due by its hypotheses, and does what its block does. -/
theorem primingClearsAndErases : Obligations.PrimingClearsAndErases := by
  intro s
  refine ⟨fun hpulse hall => ?_, fun n again hpulse hn => ?_, fun p hp hs hk hu hd => ?_, fun p hp hs hk hd => ?_⟩
  · change execDriverClearPulse s = _
    have haddr : addressUnstrobed s = false := by
      unfold addressUnstrobed
      cases hc : s.period.current with
      | none => rfl
      | some p => simpa using hall p hc
    simp [execDriverClearPulse, stepWhen, hpulse, haddr]
  · change execClearPulseEnd s = _
    rw [execClearPulseEnd, hpulse]
    dsimp only
    rw [stepWhen, if_pos (decide_eq_true (show Config.clearPulseTicks ≤ n from hn))]
    exact congrArg _ (endClear_eq again s)
  · change execGlobalEraseStrobe s = _
    have hdue : strobeDue .globalErase p s = true := by simp [strobeDue, strobeTick, hk, hu, hd]
    simp only [execGlobalEraseStrobe, hp, hs, stepWhen, hdue, if_true]
    rfl
  · intro timing limited
    have hexec : exec .primingEraseEnd s = .next (enterLit (panelDark s)) := by
      change execPrimingEraseEnd s = _
      simp [execPrimingEraseEnd, hp, stepWhen, hs, hk, periodLength, hd]
    obtain ⟨htimer, -, hover, hnotice⟩ := enterLit_notice (panelDark s)
    refine ⟨_, hexec, by simp [panelDark], by simp [panelDark], ?_, htimer, by simp [panelDark], hover, hnotice, ?_⟩
    · exact enterLit_started (panelDark s)
    · simp [SameWritePath, panelDark]

/-! ## The conversions -/

theorem hasRow_or_all (a : RowSet) (q : Row) : hasRow (a ||| RowSet.all) q = true := by
  rw [hasRow_or, hasRow_all, Bool.or_true]

/-- A request of every row to the FULL set drops a hold, whose row is among them (R45, R13). -/
theorem requestFull_all_eq (s : State) :
    requestFull RowSet.all s = if recordless s.seq.state then s else dropHold (addFull RowSet.all s) := by
  rw [requestFull]
  split
  · rfl
  · next hrec =>
    obtain ⟨hrec', -⟩ | ⟨-, hfull, -⟩ := addFull_cases RowSet.all s
    · exact absurd hrec' hrec
    have hin : ∀ q, inResync (addFull RowSet.all s) q = true := fun q => by
      rw [inResync, hfull, hasRow_or_all, Bool.true_or]
    obtain ⟨hnone, hs⟩ | ⟨h, hw, ⟨-, hs⟩ | ⟨hout, -⟩ | ⟨hout, -⟩⟩ := settleHold_cases (addFull RowSet.all s)
    · rw [hs, dropHold]
      split
      · next h hw => exact absurd hw (hnone h)
      · rfl
    · rw [hs, dropHold, hw]
    · simp [hin] at hout
    · simp [hin] at hout

/-- What a request of every row to the FULL set leaves. -/
theorem requestFull_all_frame (s : State) :
    (requestFull RowSet.all s).notice = s.notice ∧ (requestFull RowSet.all s).area = s.area := by
  rw [requestFull_all_eq]
  split <;> simp

/-- Every row requested to the FULL set is in doubt (R45, R47). -/
theorem requestFull_all {s : State} (hrec : recordless s.seq.state = false) (third : ThirdLaw s) :
    AllRowsInDoubt (requestFull RowSet.all s) := by
  obtain ⟨hrec', -⟩ | ⟨-, hfull, hfill, hqueue⟩ := addFull_cases RowSet.all s
  · simp [hrec] at hrec'
  rw [requestFull_all_eq, if_neg (by simp [hrec])]
  have hfill' : (addFull RowSet.all s).sets.fill = 0 := by
    rw [hfill, RowSet.all, BitVec.not_allOnes]
    exact BitVec.and_zero
  refine ⟨fun q => by rw [(dropHold_frame _).2.2.2.2.1, hfull, hasRow_or_all], by simpa using hfill', ?_,
    dropHold_not_holding _⟩
  rw [(dropHold_frame _).2.2.2.1, hqueue, dropRows, List.filter_eq_nil_iff]
  intro e he
  have hout := third.2 e he
  simp only [inResync, Bool.or_eq_false_iff] at hout
  rw [hasRow_and_not, hasRow_all, hout.1]
  decide

/-- Settles O48: a sample captures when the converter is free; a completion tests the hold-off, or compares its reading,
whose third deviation in a row confirms a drift. -/
theorem driftIsConfirmedAtTheThirdDeviation : Obligations.DriftIsConfirmedAtTheThirdDeviation := by
  refine ⟨fun s p level hlit hp hk hi hsampled hd => ?_, fun s c third hc hticks => ?_⟩
  · change execSampleInstant level s = _
    have hdue : sampleDue p s = true := by simp [sampleDue, hlit, hk, hi, hsampled, hd]
    simp only [execSampleInstant, hp, stepWhen, hdue, if_true, takeSample]
    cases hconv : s.sense.conversion with
    | none => simp [hconv, expectedCode]
    | some c => simp [hconv]
  · intro m deviates stored
    have hexec : exec .conversionCompletion s = .next (completeConversion c s) := by
      change execConversionCompletion s = _
      simp [execConversionCompletion, hc, stepWhen, Config.conversionTicks, hticks]
    have hdev : (s.setSense stored).store.settings.tolerance <
        deviation (s.setSense stored).sense.m (s.setSense stored).sense.e ↔ deviates := by
      change s.store.settings.tolerance < (m - c.expected) + (c.expected - m) ↔
        s.store.settings.tolerance < max m c.expected - min m c.expected
      omega
    have hdrift : Config.driftRun ≤ (s.setSense stored).sense.runCount + 1 ↔ 2 ≤ s.sense.runCount :=
      Nat.succ_le_succ_iff
    have hcompare : s.sense.holdOff = false → completeConversion c s = compareReading (s.setSense stored) := fun h => by
      rw [completeConversion, h]; rfl
    rw [hexec]
    refine ⟨fun hoff => ?_, fun hon hn => ?_, fun hon hd hrun => ?_, fun hon hd hrun => ?_⟩
    · have hheld : completeConversion c s = testHoldOff (s.setSense stored) := by
        rw [completeConversion, hoff]; rfl
      rw [hheld, testHoldOff]
      have hsets : (s.setSense stored).sets = s.sets := rfl
      by_cases hempty : s.sets.full = 0 ∧ s.sets.fill = 0
      · have hb : (!(s.sets.full == 0 && s.sets.fill == 0)) = false := by
          rw [hempty.1, hempty.2, beq_self_eq_true, Bool.and_true, Bool.not_true]
        rw [hsets, if_pos hempty, hb]
        rfl
      · have hb : (!(s.sets.full == 0 && s.sets.fill == 0)) = stored.holdOff := by
          change _ = s.sense.holdOff
          rw [hoff, Bool.not_eq_true', Bool.and_eq_false_iff, beq_eq_false_iff_ne, beq_eq_false_iff_ne]
          exact not_and_or.1 hempty
        rw [hsets, if_neg hempty, hb]
    · rw [hcompare hon, compareReading, if_neg (mt hdev.1 hn)]
      rfl
    · rw [hcompare hon, compareReading, if_pos (hdev.2 hd), if_neg (mt hdrift.1 (by omega))]
      rfl
    · rw [hcompare hon, compareReading, if_pos (hdev.2 hd), if_pos (hdrift.2 hrun)]
      refine ⟨_, rfl, ?_, ?_, fun hrec => ?_, ?_⟩
      · simp [confirmDrift, stored]
      · rw [confirmDrift, (requestFull_all_frame _).1, raiseNotice_notices]
        rfl
      · exact requestFull_all (by simpa using hrec) (by simpa [ThirdLaw, inResync] using third)
      · simp [confirmDrift, requestFull_all_frame]

end Sys2Proof.Machine
end

