-- ==== Sys2Proof/Proofs/Resets.lean ====
section
/-! PROOFS. RESET (R132, R17, R189): the words that a reset which cuts a unit can leave, and the laws in the state after
reset. -/

namespace Sys2Proof.Machine

open Safety

/-! ## The units that may be being served -/

/-- The word of a granted or requested area unit is the engine's word (R153). -/
theorem areaUnit_offset {s : State} {u : List (Nat × Word)} (hu : u ∈ areaUnit s) {p : Nat × Word} (hp : p ∈ u) :
    ∃ x, s.area = some x ∧ p.1 = imageOffset x.row x.word := by
  unfold areaUnit at hu
  cases ha : s.area with
  | none => simp [ha] at hu
  | some x =>
    refine ⟨x, rfl, ?_⟩
    simp only [ha] at hu
    split at hu
    · obtain rfl := List.mem_singleton.1 hu
      obtain rfl := List.mem_singleton.1 hp
      rfl
    · simp at hu

/-- The processor's unit is none of the status row's (R16). -/
theorem processorUnit_lt {s : State} {u : List (Nat × Word)} (hu : u ∈ processorUnit s) {p : Nat × Word} (hp : p ∈ u) :
    p.1 < Config.statusBase := by
  unfold processorUnit at hu
  split at hu
  · split at hu
    · next r w _ =>
      obtain rfl := List.mem_singleton.1 hu
      obtain rfl := List.mem_singleton.1 hp
      have := imageOffset_lt r w
      simp only [Config.commandBase, Config.statusBase] at *
      omega
    · next w _ =>
      split at hu
      · obtain rfl := List.mem_singleton.1 hu
        obtain rfl := List.mem_singleton.1 hp
        exact commandOffset_lt w
      · simp at hu
  · simp at hu

/-- Without a write in MERGING the processor has no unit (R9). -/
theorem processorUnit_eq_nil {s : State} (h : ∀ c, s.wmu.state ≠ .merging c) : processorUnit s = [] := by
  unfold processorUnit
  split
  · next c hw => exact absurd hw (h c)
  · rfl

/-- Every word of a status burst is one of the status row (R178). -/
theorem statusRecord_offset {s : State} {p : Nat × Word} (hp : p ∈ statusRecord s) : 16416 ≤ p.1 := by
  obtain ⟨k, -, rfl⟩ := List.mem_map.1 hp
  exact Nat.le_add_right _ _

/-- A command-row word write is none of the image's or of the status row's (R168). -/
theorem thirdUnit_commandWrite_offset {s : State} {p : Nat × Word} (hp : p ∈ thirdUnit s .commandWrite) :
    16384 ≤ p.1 ∧ p.1 < 16416 := by
  unfold thirdUnit at hp
  dsimp only at hp
  split at hp
  · obtain ⟨q, -, rfl⟩ := List.mem_map.1 hp
    exact ⟨Nat.le_add_right _ _, commandOffset_lt q.1⟩
  · simp at hp

/-- A third-rank unit is none of the image's (R16). -/
theorem thirdUnit_offset {s : State} {u : ThirdRank} {p : Nat × Word} (hp : p ∈ thirdUnit s u) : 16384 ≤ p.1 := by
  cases u with
  | noticeUpdate =>
    obtain rfl := List.mem_singleton.1 hp
    exact Nat.le_add_right 16384 32
  | commandWrite => exact (thirdUnit_commandWrite_offset hp).1

/-- A unit that may be being served is the area word's, the processor's, the burst, or the first of the third rank
(R17). -/
theorem mem_servableUnits {s : State} {u : List (Nat × Word)} (hu : u ∈ servableUnits s) :
    (u ∈ areaUnit s ∧ (areaGranted s = true ∨ (reachedNow s).area = true)) ∨ u ∈ processorUnit s ∨
      (s.port.burst = true ∧ u = statusRecord s) ∨
      ∃ r, s.port.third.head? = some r ∧ (reachedNow s).third = true ∧ u = thirdUnit s r := by
  unfold servableUnits at hu
  split at hu
  · next hg => exact .inl ⟨hu, .inl hg⟩
  · simp only [List.mem_append] at hu
    rcases hu with ((hu | hu) | hu) | hu
    · exact .inr (.inl hu)
    · split at hu
      · next hb =>
        simp only [Bool.and_eq_true] at hb
        exact .inr (.inr (.inl ⟨hb.1, List.mem_singleton.1 hu⟩))
      · simp at hu
    · split at hu
      · next ht =>
        obtain ⟨r, hr, rfl⟩ := List.mem_map.1 hu
        refine .inr (.inr (.inr ⟨r, ?_, ht, rfl⟩))
        cases hthird : s.port.third with
        | nil => simp [hthird] at hr
        | cons v rest => simpa [hthird, eq_comm] using hr
      · simp at hu
    · split at hu
      · next ha => exact .inl ⟨hu, .inr ha⟩
      · simp at hu

/-! ## What the cut unit leaves in memory -/

/-- After several writes a word holds what it held, or what one of them wrote. -/
theorem cellsRead_cellsWriteAll_mem {α : Type} [DecidableEq α] {d : α} {a : Nat} (l : List (Nat × α)) :
    ∀ {m : Cells α}, CellsWf d m → cellsRead d (cellsWriteAll d m l) a = cellsRead d m a ∨
      (a, cellsRead d (cellsWriteAll d m l) a) ∈ l := by
  induction l with
  | nil => exact fun _ => .inl rfl
  | cons p l ih =>
    intro m hm
    obtain h | h := ih (cellsWf_write p.1 p.2 hm)
    · by_cases hap : a = p.1
      · refine .inr (List.mem_cons.2 (.inl ?_))
        change (a, cellsRead d (cellsWriteAll d (cellsWrite d m p.1 p.2) l) a) = p
        rw [h, hap, cellsRead_cellsWrite_self p.1 p.2 hm]
      · exact .inl (h.trans (cellsRead_cellsWrite_ne m p.2 hap))
    · exact .inr (List.mem_cons_of_mem p h)

/-- A word that a reset changes holds the new value that a unit being served was writing (R17). -/
theorem readMem_reset {sources : ResetSources} {s : State} (hwf : Memory.wf s.mem) {off : Nat}
    (h : readMem (resetState sources s) off ≠ readMem s off) :
    ∃ u ∈ servableUnits s, (off, readMem (resetState sources s) off) ∈ u := by
  have hread : readMem (resetState sources s) off = cellsRead Config.blankWord (cutMemory s) off := rfl
  obtain hold | hmem := cellsRead_cellsWriteAll_mem (a := off)
    (((servableUnits s).getD (Config.servedUnit s.freeCount) []).filter
      (fun p => Config.servedWord s.freeCount p.1)) hwf.1
  · exact absurd (hread.trans hold) h
  · have hin := (List.mem_filter.1 hmem).1
    by_cases hlt : Config.servedUnit s.freeCount < (servableUnits s).length
    · exact ⟨_, List.getElem_mem hlt, List.getD_eq_getElem _ _ hlt ▸ hin⟩
    · rw [List.getD_eq_default _ _ (not_lt.1 hlt)] at hin
      simp at hin

/-- A word that no unit being served writes is left by a reset (R17). -/
theorem readMem_reset_of_notMem {sources : ResetSources} {s : State} (hwf : Memory.wf s.mem) {off : Nat}
    (h : ∀ u ∈ servableUnits s, ∀ p ∈ u, p.1 ≠ off) : readMem (resetState sources s) off = readMem s off := by
  by_contra hne
  obtain ⟨u, hu, hp⟩ := readMem_reset hwf hne
  exact h u hu _ hp rfl

/-! ## What a cut store operation leaves -/

/-- A cut erase leaves each word of its page as it was or erased, and every other word as it was (R189). -/
theorem storeWord_cutErase (free page : Nat) (words : Cells Word) (i : Nat) :
    storeWord (cutEraseWords free page words) i = storeWord words i ∨
      i / 32 = page ∧ storeWord (cutEraseWords free page words) i = 0xFFFF := by
  have hread : storeWord (cutEraseWords free page words) i =
      if (i / 32 != page || Config.cutKept free i) then storeWord words i else 0xFFFF :=
    cellsRead_filter (fun k => k / 32 != page || Config.cutKept free k) words i
  rw [hread]
  split
  · exact .inl rfl
  · next h =>
    simp only [Bool.or_eq_true, bne_iff_ne, ne_eq, not_or, not_not] at h
    exact .inr ⟨h.1, rfl⟩

/-- A cut write leaves its word as it was or written, and every other word as it was (R189). -/
theorem storeWord_cutWrite {free i n : Nat} {v : Word} {t : SettingsStore} (hwf : CellsWf 0xFFFF t.words)
    (hop : t.op = .write i v n) (j : Nat) :
    storeWord (cutStore free t) j = storeWord t.words j ∨ j = i ∧ storeWord (cutStore free t) j = v := by
  rw [cutStore, hop]
  dsimp only
  split
  · rw [storeWord_cellsWrite hwf]
    split
    · next h => exact .inr ⟨h, rfl⟩
    · exact .inl rfl
  · exact .inl rfl

/-- The load of an erased or wrong format word raises SETTINGS_DEFAULT, and has its update requested (R183, R132). -/
theorem resetState_notices (sources : ResetSources) (s : State) :
    let t := resetState sources s
    if storeWord t.store.words 0 = 0x0F51 then
      t.notice.notices = 0 ∧ t.notice.attention = false ∧ t.port = { burst := false, third := [] }
    else
      t.notice.notices = 0x80 ∧ t.notice.attention = true ∧ t.port = { burst := false, third := [.noticeUpdate] } := by
  intro t
  have hnotices : t.notice.notices = if formatRight t.store.words then (0 : BitVec 8) else 1#8 <<< 7 := rfl
  have hattention : t.notice.attention = !formatRight t.store.words := rfl
  have hport : t.port =
      { burst := false, third := if formatRight t.store.words then [] else [.noticeUpdate] } := rfl
  rw [hnotices, hattention, hport]
  by_cases h : storeWord t.store.words 0 = 0x0F51
  · have hf : formatRight t.store.words = true := decide_eq_true h
    rw [if_pos h, hf]
    exact ⟨rfl, rfl, rfl⟩
  · have hf : formatRight t.store.words = false := decide_eq_false h
    rw [if_neg h, hf]
    exact ⟨rfl, rfl, rfl⟩

/-! ## Which words a cut unit cannot reach -/

/-- An area word's unit writes the image alone (R153). -/
theorem areaUnit_lt {s : State} {u : List (Nat × Word)} (hu : u ∈ areaUnit s) {p : Nat × Word} (hp : p ∈ u) :
    p.1 < 16384 := by
  obtain ⟨x, -, hx⟩ := areaUnit_offset hu hp
  exact hx ▸ imageOffset_lt x.row x.word

/-- With a burst or a third-rank unit waiting, an area word stands first only if it has done so before (R17). -/
theorem reachedNow_area {s : State} (h : s.reached.area = false) (hw : s.port.burst = true ∨ s.port.third ≠ []) :
    (reachedNow s).area = false := by
  have hupper : upperRanksEmpty s = false := by
    obtain hb | ht := hw
    · simp [upperRanksEmpty, hb]
    · simp [upperRanksEmpty, ht]
  simp [reachedNow, h, areaGrantable, hupper]

/-- No unit of an area is being served where no area word is granted (R149). -/
theorem areaGranted_of {s : State} (h : ∀ x, s.area = some x → x.unit ≠ .granted) : areaGranted s = false := by
  unfold areaGranted
  cases ha : s.area with
  | none => rfl
  | some x => simpa using h x ha

/-! ## The obligations -/

/-- Settles O52: the state after reset holds no record of work, and its settings are the defaults. -/
theorem lawsHoldAtReset : Obligations.LawsHoldAtReset := by
  refine ⟨⟨reset_memory_wf, cellsWf_nil, cellsWf_nil, cellsWf_nil, cellsWf_nil⟩, ?_, ?_, ?_, ?_, ?_, ?_, ?_, ?_, ?_,
    blocksOwned_of_noBlocks ⟨rfl, rfl, rfl, rfl, rfl⟩, periodOwned_of_none rfl⟩
  · exact ⟨Nat.zero_le 32, List.nodup_nil, rfl⟩
  · exact ⟨fun e he => absurd he List.not_mem_nil, fun e he => absurd he.symm (Option.some_ne_none e), trivial,
      trivial⟩
  · have hempty : (0#512) &&& RowSet.all = 0#512 := BitVec.zero_and
    exact ⟨hempty, fun e he => absurd he List.not_mem_nil⟩
  · exact ⟨cellsWf_nil, nofun, rfl⟩
  · exact ⟨by decide, nofun, by decide, nofun⟩
  · exact ⟨by decide, nofun⟩
  · exact fun _ => ⟨rfl, rfl, nofun, rfl, rfl, rfl⟩
  · exact ⟨iff_of_true rfl ⟨rfl, rfl⟩, nofun⟩
  · rfl

/-- Settles O4: the words of the cut unit by rank, the words of the cut store operation, and the reset values. -/
theorem resetGivesEveryBlockItsValues : Obligations.ResetGivesEveryBlockItsValues := by
  intro sources s
  refine ⟨resetState sources s, rfl, fun hwf off h => readMem_reset hwf h, fun hwf => ⟨fun x hx hg off hoff => ?_,
    fun rest hthird hidle k hk => ?_, fun rest hport => ?_, fun hnone => ⟨fun har hwork hidle off hoff => ?_,
      fun hr hb hidle off hoff => ?_, fun hr c hm off h => ?_⟩⟩, fun hnil => ?_, rfl, rfl,
    rfl, rfl, rfl, rfl, rfl, rfl, rfl, rfl, rfl, rfl, rfl, rfl, rfl, rfl, rfl, rfl, rfl, rfl, rfl, rfl, rfl,
    rfl, rfl, rfl, rfl, rfl, rfl, rfl, rfl, rfl, rfl, rfl, rfl, rfl, rfl, rfl, rfl, rfl, rfl, ?_, rfl, rfl, rfl, rfl,
    fun hop => ?_, fun hw => ⟨fun page n hop i => ?_, fun i v n hop j => storeWord_cutWrite hw hop j⟩, ?_⟩
  · have hgranted : areaGranted s = true := by simp [areaGranted, hx, hg]
    refine readMem_reset_of_notMem hwf fun u hu p hp => ?_
    rw [servableUnits_of_granted hgranted] at hu
    obtain ⟨x', hx', hoff'⟩ := areaUnit_offset hu hp
    obtain rfl : x = x' := Option.some.inj (hx.symm.trans hx')
    exact fun h => hoff (h.symm.trans hoff')
  · refine readMem_reset_of_notMem hwf fun u hu p hp => ?_
    obtain ⟨ha, -⟩ | hp' | ⟨-, rfl⟩ | ⟨r, hr, -, rfl⟩ := mem_servableUnits hu
    · have := areaUnit_lt ha hp
      omega
    · rw [processorUnit_eq_nil hidle] at hp'
      exact absurd hp' List.not_mem_nil
    · have := statusRecord_offset hp
      omega
    · obtain rfl : ThirdRank.noticeUpdate = r := by simpa [hthird] using hr
      obtain rfl := List.mem_singleton.1 hp
      change 16416 ≠ _
      omega
  · refine readMem_reset_of_notMem hwf fun u hu p hp => ?_
    obtain ⟨ha, -⟩ | hp' | ⟨hb, -⟩ | ⟨r, hr, -, rfl⟩ := mem_servableUnits hu
    · have := areaUnit_lt ha hp
      omega
    · exact (processorUnit_lt hp' hp).ne
    · simp [hport] at hb
    · obtain rfl : ThirdRank.commandWrite = r := by simpa [hport] using hr
      exact (thirdUnit_commandWrite_offset hp).2.ne
  · refine readMem_reset_of_notMem hwf fun u hu p hp => ?_
    obtain ⟨-, ha⟩ | hp' | ⟨-, rfl⟩ | ⟨r, -, -, rfl⟩ := mem_servableUnits hu
    · simp [areaGranted_of hnone, reachedNow_area har hwork] at ha
    · rw [processorUnit_eq_nil hidle] at hp'
      exact absurd hp' List.not_mem_nil
    · have := statusRecord_offset hp
      omega
    · have := thirdUnit_offset hp
      omega
  · refine readMem_reset_of_notMem hwf fun u hu p hp => ?_
    obtain ⟨-, ha⟩ | hp' | ⟨-, rfl⟩ | ⟨r, -, ht, -⟩ := mem_servableUnits hu
    · simp [areaGranted_of hnone, reachedNow_area (by rw [hr]) (.inl hb)] at ha
    · rw [processorUnit_eq_nil hidle] at hp'
      exact absurd hp' List.not_mem_nil
    · have := statusRecord_offset hp
      omega
    · simp [reachedNow, hr, hb] at ht
  · have hbehind : reachedNow s = { burst := false, third := false, area := false } := by
      simp [reachedNow, hr, processorWaits, hm, areaGrantable, upperRanksEmpty]
    rw [← servableUnits_of_behind (areaGranted_of hnone) hbehind]
    exact readMem_reset hwf h
  · change cutMemory s = s.mem
    rw [cutMemory, hnil]
    rfl
  · cases sources <;> rfl
  · change cutStore s.freeCount s.store = s.store.words
    simp [cutStore, hop]
  · have hcut : (resetState sources s).store.words = cutEraseWords s.freeCount page s.store.words := by
      change cutStore s.freeCount s.store = _
      simp [cutStore, hop]
    rw [hcut]
    exact storeWord_cutErase s.freeCount page s.store.words i
  · exact resetState_notices sources s

end Sys2Proof.Machine
end

