-- ==== Sys2Proof/Proofs/Losses.lean ====
section
/-! PROOFS. The loss effects and the limits of the sequencer (R115, R116, R120 to R125, R131). -/

namespace Sys2Proof.Machine

open Safety

/-! ## The loss effects -/

/-- What the loss effects leave of the records, the link, the period generator and the command of a CLEAR_AND_REPAINT
that waits, from the state `s` in which the loss comes (R125, R66, R93, R110). -/
def LostFrom (s t : State) : Prop :=
  AllRowsDark s t ∧ t.link = lostLink s.link ∧ t.period.clearPulse ≠ .idle ∧
    t.period = { s.period with clearPulse := t.period.clearPulse } ∧
    (s.sched.clearWaiting = true → t.sched.clearWaiting = false ∧ Finishes s t 0x82) ∧
    (s.sched.clearWaiting = false → t.cmd = s.cmd)

/-- A clear pulse asked for is due or being given (R110). -/
theorem requestClear_pulse (s : State) : (requestClear s).period.clearPulse ≠ .idle := by
  unfold requestClear
  cases s.period.clearPulse <;> simp

/-- The records, the panel, the link and the clear pulse as the loss effects leave them (R125). -/
def recordsLost (v : State) : State :=
  requestClear ((panelDark (setOp none (allRowsDark v))).setLink (lostLink v.link))

theorem recordsLost_dark (v : State) : AllRowsDark v (recordsLost v) := by
  have hhold := dropHold_not_holding
  simp [AllRowsDark, recordsLost, setOp, panelDark, allRowsDark, hhold]

@[simp] theorem recordsLost_fields (v : State) :
    (recordsLost v).link = lostLink v.link ∧ (recordsLost v).cmd = v.cmd ∧
      (recordsLost v).sched = { v.sched with op := none, runCount := 0 } := by
  simp [recordsLost, setOp, panelDark, allRowsDark]

/-- The loss effects ask for a clear pulse, and leave the rest of the period generator (R109, R110). -/
theorem recordsLost_period (v : State) :
    (recordsLost v).period = { v.period with clearPulse := (recordsLost v).period.clearPulse } ∧
      (recordsLost v).period.clearPulse ≠ .idle :=
  ⟨by simp [recordsLost, requestClear, panelDark], requestClear_pulse _⟩

/-- What the loss effects do to the command of a CLEAR_AND_REPAINT that waits (R66). -/
theorem lossEffects_eq_recordsLost (v : State) :
    lossEffects v = if v.sched.clearWaiting then abandonErase (recordsLost v) else recordsLost v := lossEffects_eq v

/-- Abandoning the erase of a CLEAR_AND_REPAINT leaves the records. -/
theorem abandonErase_sched (s : State) : (abandonErase s).sched = { s.sched with clearWaiting := false } := by
  simp [abandonErase]

theorem abandonErase_finishes {s t : State} (h : t.cmd = s.cmd) : Finishes s (abandonErase t) 0x82 :=
  finishCommand_finishes (t := t.setSched { t.sched with clearWaiting := false }) h .aborted

/-- The loss effects on a state that keeps what they read of `s`. -/
theorem lossEffects_lost {s v : State} (hcursor : v.sets.cursor = s.sets.cursor) (hsched : v.sched = s.sched)
    (hlink : v.link = s.link) (hcmd : v.cmd = s.cmd) (hperiod : PulseAsked s v) : LostFrom s (lossEffects v) := by
  obtain ⟨c, hperiod⟩ := hperiod
  obtain ⟨hasked, hpulse⟩ := recordsLost_period v
  have hdark : AllRowsDark s (recordsLost v) := by
    have := recordsLost_dark v
    rwa [AllRowsDark, hcursor] at this
  rw [hperiod] at hasked
  rw [lossEffects_eq_recordsLost, hsched]
  cases hc : s.sched.clearWaiting with
  | false => exact ⟨hdark, by simp [hlink], hpulse, hasked, by simp [hc], fun _ => by simp [hcmd]⟩
  | true =>
    have hfin : Finishes s (abandonErase (recordsLost v)) 0x82 := abandonErase_finishes (by simp [hcmd])
    exact ⟨by simpa [AllRowsDark, abandonErase_sched] using hdark, by simp [hlink], by simpa using hpulse,
      by simpa using hasked, fun _ => ⟨by simp [abandonErase_sched], hfin⟩, by simp [hc]⟩

/-- The judgement of the supply in DARK is no part of the loss. -/
theorem LostFrom.judgeDark {s t : State} (h : LostFrom s t) : LostFrom s (judgeDark t) := by
  simpa [LostFrom, AllRowsDark, Finishes] using h

/-! ## The losses -/

/-- The entry to DARK asks for a clear pulse (R110). -/
theorem enterDark_period (s : State) : PulseAsked s (enterDark s) := requestClear_period _

/-- The loss in GAP is the loss effects with the notice and the state of the sequencer (R121). -/
theorem lossInGap_lost (s : State) : LostFrom s (lossInGap s) :=
  (lossEffects_lost (by simp) (by simp) (by simp) (by simp)
    ((enterDark_period (s.setSeq { s.seq with gapLength := s.store.settings.lossLimit })).trans
      (pulseAsked_of_eq (by simp)))).judgeDark

/-- The loss in RESUMING is the loss effects with the notice and the state of the sequencer (R122). -/
theorem lossInResuming_lost (s : State) : LostFrom s (lossInResuming s) :=
  lossEffects_lost (by simp) (by simp) (by simp) (by simp) (pulseAsked_of_eq (by simp))

/-- The sequencer after the loss in GAP (R121, R114, R131). -/
theorem lossInGap_seq (s : State) :
    (lossInGap s).seq =
      { s.seq with
        state := if s.seq.filtered = true ∧ s.seq.blanked = false then .settling else .dark
        settle := 0, gap := 0, gapLength := s.store.settings.lossLimit } := by
  have hdark : (lossEffects (raiseNotice .panelLost
      (enterDark (s.setSeq { s.seq with gapLength := s.store.settings.lossLimit })))).seq =
        { s.seq with state := .dark, settle := 0, gap := 0, gapLength := s.store.settings.lossLimit } := by
    simp [enterDark]
  rw [lossInGap]
  dsimp only
  generalize lossEffects _ = u at hdark ⊢
  rw [judgeDark, hdark]
  by_cases h : s.seq.filtered = true ∧ s.seq.blanked = false
  · simp [h]
  · have hb : ¬ ((SeqState.dark == .dark) && s.seq.filtered && !s.seq.blanked) = true := by simpa using h
    rw [if_neg hb, if_neg h]
    exact hdark

/-- The sequencer after the loss in RESUMING (R122, R131). -/
theorem lossInResuming_seq (s : State) :
    (lossInResuming s).seq =
      { s.seq with state := .settling, gap := 0, gapLength := s.store.settings.lossLimit } := by
  simp [lossInResuming]

theorem lossInGap_notices (s : State) : (lossInGap s).notice.notices = s.notice.notices ||| 0x02 := by
  simp [lossInGap, noticeBit]

theorem lossInResuming_notices (s : State) : (lossInResuming s).notice.notices = s.notice.notices ||| 0x02 := by
  simp [lossInResuming, noticeBit]

/-! ## The entries to PRIMING and to LIT -/

/-- The entry to PRIMING takes the timing copy, empties the history and asks for a clear pulse (R103, R116). -/
theorem enterPriming_eq (s : State) :
    enterPriming s = (s.setSeq { s.seq with state := .priming }).setPeriod (enterPriming s).period ∧
      (enterPriming s).period = { s.period with
        timing := timingOf s.store.settings, window := [], current := none
        clearPulse := (enterPriming s).period.clearPulse } ∧
      (enterPriming s).period.clearPulse ≠ .idle :=
  ⟨rfl, rfl, requestClear_pulse _⟩

/-- Settles O51: the settle limit enters PRIMING or LIT; the loss limit has the loss effects. -/
theorem limitsPrimeResumeOrLose : Obligations.LimitsPrimeResumeOrLose := by
  intro s timing lost
  have hlost : ∀ t, LostFrom s t → t.notice.notices = s.notice.notices ||| 0x02 →
      t.seq.gapLength = s.store.settings.lossLimit → t.seq.gap = 0 →
      t.mem = s.mem ∧ t.latches = s.latches ∧ t.sense = s.sense ∧ t.area = s.area ∧ t.store = s.store → lost t := by
    rintro t ⟨hdark, hlink, hpulse, hperiod, hwaits, hcmd⟩ hnotices hlength hgap hrest
    exact ⟨hdark, hnotices, hlength, hgap, by rw [hlink]; rfl, by rw [hlink]; rfl, by rw [hlink]; rfl,
      by rw [hlink]; rfl, hpulse, hperiod, hwaits, hcmd, hrest⟩
  refine ⟨fun hsettle => ⟨fun hs => ⟨enterPriming s, ?_, enterPriming_eq s⟩, fun hs => ⟨endGap s, ?_, ?_⟩⟩,
    fun hgap => ⟨fun hs => ⟨lossInGap s, ?_, ?_, ?_, ?_⟩, fun hs => ⟨lossInResuming s, ?_, ?_, ?_, ?_⟩⟩⟩
  · change execSettleLimitReached s = _
    simp [execSettleLimitReached, hs, stepWhen, hsettle]
  · change execSettleLimitReached s = _
    simp [execSettleLimitReached, hs, stepWhen, hsettle]
  · dsimp only
    obtain ⟨htimer, hexpired, hover, -⟩ := enterLit_notice (s.setSeq { s.seq with gapLength := s.seq.gap })
    exact ⟨by simp [endGap], enterLit_started (s.setSeq { s.seq with gapLength := s.seq.gap }), hover,
      by simp [endGap], htimer, hexpired, by simp [SameWritePath]⟩
  · change execLossLimitReached s = _
    simp [execLossLimitReached, hs, stepWhen, hgap]
  · exact hlost _ (lossInGap_lost s) (lossInGap_notices s) (by rw [lossInGap_seq]) (by rw [lossInGap_seq]) (by simp)
  · rw [lossInGap_seq]
  · rw [lossInGap_seq]
  · change execLossLimitReached s = _
    simp [execLossLimitReached, hs, stepWhen, hgap]
  · exact hlost _ (lossInResuming_lost s) (lossInResuming_notices s) (by rw [lossInResuming_seq])
      (by rw [lossInResuming_seq]) (by simp)
  · rw [lossInResuming_seq]
  · rw [lossInResuming_seq]

end Sys2Proof.Machine
end

