-- ==== Sys2Proof/Proofs/Installs.lean ====
section
/-! PROOFS. The installation of settings (R190, R192): the hold that expires at it, the limits it reaches, and
SETTINGS_APPLY at its acceptance. -/

namespace Sys2Proof.Machine

open Safety

/-! ## The notices under the operations on the table -/

theorem mergeDifference_notices {r : Row} {w : WordIx} {rise fall : Word} {s t : State}
    (h : mergeDifference r w rise fall s = some t) : t.notice.notices = s.notice.notices := by
  obtain ⟨-, rfl⟩ | ⟨-, e, e', -, -, ⟨-, rfl⟩ | ⟨-, rfl⟩⟩ | ⟨-, -, -, rfl⟩ := mergeDifference_cases h
  · rfl
  · simp [countAnnulled]
  · rfl
  · rfl

@[simp] theorem offerHeld_notices (h : HeldChange) (s : State) :
    (offerHeld h s).notice.notices = s.notice.notices := by
  obtain ⟨t, ht, hs⟩ | ⟨-, hs⟩ := offerHeld_cases h s
  · rw [hs, (endCycle_frame t).2.2.2.2.2.2.2.2.2.2.2.2.2.2.2.1, mergeDifference_notices ht]
  · rw [hs]

/-- A hold settled counts annulments, and raises no notice (R28). -/
@[simp] theorem settleHold_notices (s : State) : (settleHold s).notice.notices = s.notice.notices := by
  obtain ⟨-, hs⟩ | ⟨h, -, ⟨-, hs⟩ | ⟨-, -, hs⟩ | ⟨-, -, hs | hs⟩⟩ := settleHold_cases s
  · rw [hs]
  · simp [hs]
  · simp [hs]
  · simp [hs, grantArea]
  · simp [hs]

@[simp] theorem requestFull_notices (rows : RowSet) (s : State) :
    (requestFull rows s).notice.notices = s.notice.notices := by
  unfold requestFull
  split <;> simp

theorem degradeHeld_notices (r : Row) (s : State) :
    (degradeHeld r s).notice.notices = s.notice.notices ||| 0x40 := by
  simp [degradeHeld, countDegraded, noticeBit]

/-- A notice in the set stays when others join it (R175). -/
theorem getLsbD_or_of_left {x y : BitVec 8} {i : Nat} (h : x.getLsbD i = true) : (x ||| y).getLsbD i = true := by
  simp [h]

/-! ## The hold at an installation -/

/-- An installation that brings the hold limit to the counter degrades the held row (R14). -/
theorem expireHold_of_reached {s : State} {h : HeldChange} (hw : s.wmu.state = .holding h)
    (hl : s.store.settings.holdLimit ≤ s.wmu.holdCounter) : expireHold s = degradeHeld h.row s := by
  simp [expireHold, hw, hl]

/-- With its counter below the hold limit a hold goes on (R11, R14). -/
theorem expireHold_of_below {s : State}
    (h : ∀ x, s.wmu.state = .holding x → s.wmu.holdCounter < s.store.settings.holdLimit) : expireHold s = s := by
  unfold expireHold
  split
  · next x hw => exact if_neg (Nat.not_le.2 (h x hw))
  · rfl

theorem expireHold_notice {s : State} {i : Nat} (h : s.notice.notices.getLsbD i = true) :
    (expireHold s).notice.notices.getLsbD i = true := by
  unfold expireHold
  split
  · split
    · rw [degradeHeld_notices]
      exact getLsbD_or_of_left h
    · exact h
  · exact h

/-! ## The limits reached -/

theorem enterLit_notices {s : State} {i : Nat} (h : s.notice.notices.getLsbD i = true) :
    (enterLit s).notice.notices.getLsbD i = true := by
  rw [enterLit_eq]
  dsimp only
  rw [(startPeriod_frame _).2.2.2.2.2.2.2.2.2.2.2.2.2.2.2.1]
  split
  · rw [raiseNotice_notices]
    exact getLsbD_or_of_left h
  · exact h

theorem reachAfterLoss_notices {s : State} {i : Nat} (h : s.notice.notices.getLsbD i = true) :
    (reachLimits.reachAfterLoss s).notice.notices.getLsbD i = true := by
  rw [reachLimits.reachAfterLoss, (enterPriming_frame _).2.2.2.2.2.2.2.2.2.2.2.2.2.2.2.1, lossInResuming_notices]
  exact getLsbD_or_of_left h

/-- Which limits an installation reaches, state by state (R115, R120, R123, R124). -/
theorem reachLimits_of_settling {s : State} (h : s.seq.state = .settling) :
    reachLimits s = if s.store.settings.settleLimit ≤ s.seq.settle then enterPriming s else s := by
  simp [reachLimits, h]

theorem reachLimits_of_gap {s : State} (h : s.seq.state = .gap) :
    reachLimits s = if s.store.settings.lossLimit ≤ s.seq.gap then lossInGap s else s := by
  simp [reachLimits, h]

theorem reachLimits_of_resuming {s : State} (h : s.seq.state = .resuming) :
    reachLimits s =
      if s.store.settings.settleLimit ≤ s.seq.settle then
        if s.store.settings.lossLimit ≤ s.seq.gap then
          if Config.firstWins s.freeCount then endGap (drawFree s) else reachLimits.reachAfterLoss (drawFree s)
        else endGap s
      else if s.store.settings.lossLimit ≤ s.seq.gap then lossInResuming s else s := by
  simp [reachLimits, h]

theorem reachLimits_of_other {s : State} (h : s.seq.state = .dark ∨ s.seq.state = .priming ∨ s.seq.state = .lit) :
    reachLimits s = s := by
  obtain h | h | h := h <;> simp [reachLimits, h]

/-- A property of a state and of every change a limit makes is one of the limits reached. -/
theorem reachLimits_ind {P : State → Prop} {s : State} (same : P s) (priming : P (enterPriming s))
    (gap : P (lossInGap s)) (resuming : P (lossInResuming s)) (lit : P (endGap s)) (litFree : P (endGap (drawFree s)))
    (afterLoss : P (reachLimits.reachAfterLoss (drawFree s))) : P (reachLimits s) := by
  cases hs : s.seq.state with
  | dark => rwa [reachLimits_of_other (.inl hs)]
  | settling => rw [reachLimits_of_settling hs]; exact ite_of priming same
  | priming => rwa [reachLimits_of_other (.inr (.inl hs))]
  | lit => rwa [reachLimits_of_other (.inr (.inr hs))]
  | gap => rw [reachLimits_of_gap hs]; exact ite_of gap same
  | resuming =>
    rw [reachLimits_of_resuming hs]
    exact ite_of (ite_of (ite_of litFree afterLoss) lit) (ite_of resuming same)

/-- The limits reached at an installation take no notice away (R175). -/
theorem reachLimits_notice {s : State} {i : Nat} (h : s.notice.notices.getLsbD i = true) :
    (reachLimits s).notice.notices.getLsbD i = true :=
  reachLimits_ind (P := fun t => t.notice.notices.getLsbD i = true) h (by simpa using h)
    (by rw [lossInGap_notices]; exact getLsbD_or_of_left h)
    (by rw [lossInResuming_notices]; exact getLsbD_or_of_left h)
    (enterLit_notices h) (enterLit_notices h) (reachAfterLoss_notices h)

/-- With no CLEAR_AND_REPAINT waiting a loss leaves the handler (R66). -/
theorem LostFrom.cmd {s t : State} (h : LostFrom s t) (hw : s.sched.clearWaiting = false) : t.cmd = s.cmd := by
  obtain ⟨-, -, -, -, -, hcmd⟩ := h
  exact hcmd hw

/-- With no CLEAR_AND_REPAINT waiting, an installation leaves the handler (R163). -/
theorem reachLimits_cmd {s : State} (h : s.sched.clearWaiting = false) : (reachLimits s).cmd = s.cmd := by
  refine reachLimits_ind (P := fun t => t.cmd = s.cmd) rfl (by simp) ((lossInGap_lost s).cmd h)
    ((lossInResuming_lost s).cmd h) (by simp) (by simp) ?_
  have hlost := (lossInResuming_lost (drawFree s)).cmd h
  simpa [reachLimits.reachAfterLoss] using hlost

/-- What the limits reached leave of a state, state by state, with the new limits (R115, R120 to R124): nothing, the
entry to PRIMING, the entry to LIT, or a loss. -/
def LimitsReached (new : Settings) (s t : State) : Prop :=
  let settled := decide (new.settleLimit ≤ s.seq.settle)
  let gone := decide (new.lossLimit ≤ s.seq.gap)
  let lost := AllRowsDark s t ∧ t.seq.gapLength = new.lossLimit ∧ t.seq.gap = 0 ∧
    t.notice.notices.getLsbD 1 = true
  let lit := t.seq = { s.seq with state := .lit, gapLength := s.seq.gap } ∧
    t.period.timing = timingOf new ∧ t.period.length = (limitPeriod (timingOf new) s.lit.total).1 ∧
    t.panel = s.panel ∧ t.lit = s.lit ∧ t.sets = s.sets
  (s.seq.state = .dark ∨ s.seq.state = .priming → t.seq = s.seq ∧ SameRecords s t ∧ t.panel = s.panel) ∧
  (s.seq.state = .settling →
    t.seq = { s.seq with state := if settled = true then .priming else .settling } ∧ SameRecords s t ∧
      t.panel = s.panel ∧
      (settled = true → t.period.timing = timingOf new ∧ t.period.window = [] ∧ t.period.clearPulse ≠ .idle)) ∧
  (s.seq.state = .gap → gone = true → lost ∧ t.seq.settle = 0 ∧
    t.seq.state = (if s.seq.filtered = true ∧ s.seq.blanked = false then .settling else .dark)) ∧
  (s.seq.state = .gap → gone = false → t.seq = s.seq ∧ SameRecords s t ∧ t.panel = s.panel) ∧
  (s.seq.state = .resuming → settled = false → gone = false →
    t.seq = s.seq ∧ SameRecords s t ∧ t.panel = s.panel) ∧
  (s.seq.state = .resuming → settled = true → gone = false → lit) ∧
  (s.seq.state = .resuming → settled = false → gone = true →
    lost ∧ t.seq.state = .settling ∧ t.seq.settle = s.seq.settle) ∧
  (s.seq.state = .resuming → settled = true → gone = true → lit ∨ lost ∧ t.seq.state = .priming)

theorem lossInGap_present (s : State) : (lossInGap s).notice.notices.getLsbD 1 = true := by
  rw [lossInGap_notices]
  simp

theorem lossInResuming_present (s : State) : (lossInResuming s).notice.notices.getLsbD 1 = true := by
  rw [lossInResuming_notices]
  simp

/-- The entry to LIT from RESUMING takes the timing and P of the settings (R107, R120). -/
theorem endGap_lit (s : State) :
    (endGap s).seq = { s.seq with state := .lit, gapLength := s.seq.gap } ∧
      (endGap s).period.timing = timingOf s.store.settings ∧
      (endGap s).period.length = (limitPeriod (timingOf s.store.settings) s.lit.total).1 ∧
      (endGap s).panel = s.panel ∧ (endGap s).lit = s.lit ∧ (endGap s).sets = s.sets := by
  obtain ⟨p, hp⟩ := started_period (framed (s.setSeq { s.seq with gapLength := s.seq.gap })) s.sched
  have hperiod : (endGap s).period =
      { framed (s.setSeq { s.seq with gapLength := s.seq.gap }) with current := some p } :=
    (congrArg Prod.fst (enterLit_started (s.setSeq { s.seq with gapLength := s.seq.gap }))).trans hp
  rw [hperiod]
  exact ⟨by simp [endGap], rfl, rfl, by simp⟩

theorem reachLimits_reached (s : State) : LimitsReached s.store.settings s (reachLimits s) := by
  unfold LimitsReached
  intro settled gone lost lit
  have hlit : ∀ u, u = s ∨ u = drawFree s → reachLimits s = endGap u → lit := by
    rintro u (rfl | rfl) h
    · simpa only [lit, h] using endGap_lit _
    · simpa only [lit, h, drawFree_frame] using endGap_lit (drawFree s)
  have hlost : ∀ u, reachLimits s = u → AllRowsDark s u ∧ u.seq.gapLength = s.store.settings.lossLimit ∧
      u.seq.gap = 0 ∧ u.notice.notices.getLsbD 1 = true → lost := by
    rintro u rfl h
    exact h
  have hsame : reachLimits s = s → SameRecords s (reachLimits s) ∧ (reachLimits s).panel = s.panel := fun h => by
    rw [h]
    exact ⟨⟨rfl, rfl, rfl, rfl⟩, rfl⟩
  refine ⟨fun hs => ?_, fun hs => ?_, fun hs hg => ?_, fun hs hg => ?_, fun hs h hg => ?_, fun hs h hg => ?_,
    fun hs h hg => ?_, fun hs h hg => ?_⟩
  · have hr := reachLimits_of_other (s := s) (hs.imp_right .inl)
    exact ⟨by rw [hr], hsame hr⟩
  · have hr := reachLimits_of_settling hs
    cases h : settled with
    | false =>
      rw [if_neg (of_decide_eq_false h)] at hr
      exact ⟨by rw [hr]; simp [← hs], (hsame hr).1, (hsame hr).2, nofun⟩
    | true =>
      rw [if_pos (of_decide_eq_true h)] at hr
      rw [hr]
      exact ⟨rfl, by simp [SameRecords], by simp, fun _ => ⟨rfl, rfl, requestClear_pulse _⟩⟩
  · have hr := reachLimits_of_gap hs
    rw [if_pos (of_decide_eq_true hg)] at hr
    exact ⟨hlost _ hr ⟨(lossInGap_lost s).1, by rw [lossInGap_seq], by rw [lossInGap_seq], lossInGap_present s⟩,
      by rw [hr, lossInGap_seq], by rw [hr, lossInGap_seq]⟩
  · have hr := reachLimits_of_gap hs
    rw [if_neg (of_decide_eq_false hg)] at hr
    exact ⟨by rw [hr], hsame hr⟩
  all_goals have hr := reachLimits_of_resuming hs
  · rw [if_neg (of_decide_eq_false h), if_neg (of_decide_eq_false hg)] at hr
    exact ⟨by rw [hr], hsame hr⟩
  · rw [if_pos (of_decide_eq_true h), if_neg (of_decide_eq_false hg)] at hr
    exact hlit s (.inl rfl) hr
  · rw [if_neg (of_decide_eq_false h), if_pos (of_decide_eq_true hg)] at hr
    exact ⟨hlost _ hr ⟨(lossInResuming_lost s).1, by rw [lossInResuming_seq], by rw [lossInResuming_seq],
      lossInResuming_present s⟩, by rw [hr, lossInResuming_seq], by rw [hr, lossInResuming_seq]⟩
  · rw [if_pos (of_decide_eq_true h), if_pos (of_decide_eq_true hg)] at hr
    split at hr
    · exact .inl (hlit _ (.inr rfl) hr)
    · have hdark := (lossInResuming_lost (drawFree s)).1
      have hpresent := lossInResuming_present (drawFree s)
      have hseq : (reachLimits.reachAfterLoss (drawFree s)).seq =
          { (lossInResuming (drawFree s)).seq with state := .priming } := rfl
      rw [lossInResuming_seq] at hseq
      refine .inr ⟨hlost _ hr ⟨?_, ?_, ?_, ?_⟩, ?_⟩
      · simpa [AllRowsDark, reachLimits.reachAfterLoss] using hdark
      · rw [hseq]; simp
      · rw [hseq]
      · simpa [reachLimits.reachAfterLoss] using hpresent
      · rw [hr, hseq]

/-! ## SETTINGS_APPLY -/

/-- A posting of SETTINGS_APPLY goes to its block (R170). -/
theorem exec_settingsApply_of_posts {s : State} {a : BusAddr} {d : Word} (h : Posts s a d 0x12) :
    ∃ n, exec (.settingsApply a d) s =
      .next (cycleServed (requestCommandWrite (acceptApply (accepted 0x12 n s)))) :=
  postingOf_of_posts (p := fun c => c == 0x12) h (by decide) rfl

/-- The load of the store's words, staged, with SETTINGS_DEFAULT raised for a wrong format word (R183, R190). -/
def staged (s : State) : State :=
  let u := if formatRight s.store.words then s else raiseNotice .settingsDefault s
  u.setStore { u.store with staged := some (loadSettings u.store.words) }

/-- SETTINGS_APPLY in the setup state stages its load in LIT, and installs it in the other states (R190). -/
theorem acceptApply_of_open {s : State} (h : s.cmd.setupOpen = true) :
    acceptApply s = if s.seq.state = .lit then staged s
      else finishCommand .ok [] (installSettings (loadSettings s.store.words) (staged s)) := by
  have hseq : (if formatRight s.store.words then s else raiseNotice .settingsDefault s).seq = s.seq := by
    split <;> simp
  have hwords : (if formatRight s.store.words then s else raiseNotice .settingsDefault s).store = s.store := by
    split <;> simp
  unfold acceptApply staged
  simp only [h, Bool.not_true, Bool.false_eq_true, if_false]
  generalize (if formatRight s.store.words = true then s else raiseNotice .settingsDefault s) = u at *
  have hloads : installStaged id (u.setStore { u.store with staged := some (loadSettings u.store.words) }) =
      finishCommand .ok [] (installSettings (loadSettings u.store.words)
        (u.setStore { u.store with staged := some (loadSettings u.store.words) })) := rfl
  rw [hloads, hwords]
  simp only [State.setStore_seq, hseq, beq_iff_eq]

/-- A load leaves everything but the staged settings and the notices. -/
@[simp] theorem staged_frame (s : State) :
    (staged s).pending = s.pending ∧ (staged s).mem = s.mem ∧ (staged s).bus = s.bus ∧ (staged s).wmu = s.wmu ∧
    (staged s).table = s.table ∧ (staged s).sets = s.sets ∧ (staged s).sched = s.sched ∧ (staged s).lit = s.lit ∧
    (staged s).link = s.link ∧ (staged s).latches = s.latches ∧ (staged s).panel = s.panel ∧
    (staged s).period = s.period ∧ (staged s).seq = s.seq ∧ (staged s).sense = s.sense ∧
    (staged s).area = s.area ∧ (staged s).cmd = s.cmd ∧ (staged s).freeCount = s.freeCount ∧
    (staged s).store = { s.store with staged := some (loadSettings s.store.words) } := by
  unfold staged
  dsimp only
  split <;> simp

theorem staged_notices (s : State) : (staged s).notice.notices =
    if storeWord s.store.words 0 = 0x0F51 then s.notice.notices else s.notice.notices ||| 0x80 := by
  unfold staged
  by_cases h : storeWord s.store.words 0 = 0x0F51
  · have hf : formatRight s.store.words = true := decide_eq_true h
    rw [if_pos h, if_pos hf]
    rfl
  · have hf : formatRight s.store.words = false := decide_eq_false h
    rw [if_neg h, hf]
    simp [noticeBit]

/-- The settings of a load, installed, before the limits are reached (R190). -/
def applied (s : State) : State :=
  (staged s).setStore { s.store with settings := loadSettings s.store.words, staged := none }

theorem installSettings_staged (s : State) :
    installSettings (loadSettings s.store.words) (staged s) = reachLimits (expireHold (applied s)) := by
  have h := (staged_frame s).2.2.2.2.2.2.2.2.2.2.2.2.2.2.2.2.2
  rw [installSettings, h]
  rfl

/-- Settles O30: the load is refused, staged or installed; READY high at the posting leaves no hold to expire, so the
installation is the limits reached. -/
theorem settingsApplyStagesOrInstalls : Obligations.SettingsApplyStagesOrInstalls := by
  intro s a d posts law
  obtain ⟨n, hexec⟩ := exec_settingsApply_of_posts posts
  have hgoes := accepted_goesOn 0x12 n s
  have hopen : (accepted 0x12 n s).cmd.setupOpen = s.cmd.setupOpen := rfl
  refine ⟨fun hs => ⟨_, hexec, ?_⟩, fun hs hlit => ⟨_, hexec, ?_⟩, fun hs hlit => ?_⟩
  · have h : acceptApply (accepted 0x12 n s) = finishCommand .notInSetup [] (accepted 0x12 n s) := by
      simp [acceptApply, hs]
    rw [h]
    obtain ⟨hends, -, -, hrec, hdrive, -, hnotice, hstore⟩ := finishCommand_posted 0x12 n .notInSetup s
    exact ⟨hends, hrec, hdrive, hnotice, hstore⟩
  · have h : acceptApply (accepted 0x12 n s) = staged (accepted 0x12 n s) := by
      rw [acceptApply_of_open (by rw [hopen, hs]), if_pos (by simpa using hlit)]
    rw [h, goesOn_posted]
    refine ⟨goesOn_of_cmd (by simp) hgoes, by simp, by simp [SameRecords], by simp [SameDrive], ?_⟩
    simpa using staged_notices (accepted 0x12 n s)
  · have h : acceptApply (accepted 0x12 n s) =
        finishCommand .ok [] (reachLimits (expireHold (applied (accepted 0x12 n s)))) := by
      rw [acceptApply_of_open (by rw [hopen, hs]), if_neg (by simpa using hlit), installSettings_staged]
    rw [h] at hexec
    have hwait : s.sched.clearWaiting = false := (noBlocks_of_idle law.1 posts.1).2.1
    have hcmd : (reachLimits (expireHold (applied (accepted 0x12 n s)))).cmd = (accepted 0x12 n s).cmd := by
      rw [reachLimits_cmd (by simpa [applied] using hwait)]
      simp [applied]
    refine ⟨_, hexec, ?_, by simp [applied], fun hformat => ?_, fun follows => ?_⟩
    · rw [endsWith_posted]
      exact finishCommand_endsWith (goesOn_of_cmd hcmd hgoes) .ok []
    · simp only [cycleServed_frame, requestCommandWrite_frame, finishCommand_frame]
      refine reachLimits_notice (expireHold_notice ?_)
      have hset := (staged_notices (accepted 0x12 n s)).trans (if_neg hformat)
      change (staged (accepted 0x12 n s)).notice.notices.getLsbD 7 = true
      rw [hset]
      simp
    · have hidle : (applied (accepted 0x12 n s)).wmu.state = .idle := by
        simpa [applied] using idle_of_posts posts follows
      rw [expireHold_of_below (fun x hx => absurd (hidle.symm.trans hx) nofun)]
      have hreached := reachLimits_reached (applied (accepted 0x12 n s))
      generalize reachLimits (applied (accepted 0x12 n s)) = r at hreached
      simpa [LimitsReached, applied, AllRowsDark, SameRecords] using hreached

end Sys2Proof.Machine
end

