-- ==== Sys2Proof/Proofs/HoldFrames.lean ====
section
/-! PROOFS. What the settlement of a hold reads (R12, R13, R30, R158): states that agree on it settle a hold alike. -/

namespace Sys2Proof.Machine

open Safety

/-- The merge, and so the settlement of a hold, leaves the TAKEN entry (R25 to R28). -/
theorem mergeDifference_taken {r : Row} {w : WordIx} {rise fall : Word} {s t : State}
    (h : mergeDifference r w rise fall s = some t) : t.table.taken = s.table.taken := by
  obtain ⟨-, rfl⟩ | ⟨-, e, e', -, -, ⟨-, rfl⟩ | ⟨-, rfl⟩⟩ | ⟨-, -, -, rfl⟩ := mergeDifference_cases h
  · rfl
  · simp [countAnnulled]
  · rfl
  · rfl

@[simp] theorem offerHeld_taken (h : HeldChange) (s : State) : (offerHeld h s).table.taken = s.table.taken := by
  obtain ⟨t, ht, hs⟩ | ⟨-, hs⟩ := offerHeld_cases h s
  · rw [hs, (endCycle_frame t).2.2.2.1, mergeDifference_taken ht]
  · rw [hs]

@[simp] theorem settleHold_taken (s : State) : (settleHold s).table.taken = s.table.taken := by
  obtain ⟨-, hs⟩ | ⟨h, -, ⟨-, hs⟩ | ⟨-, -, hs⟩ | ⟨-, -, hs | hs⟩⟩ := settleHold_cases s
  · rw [hs]
  · simp [hs]
  · simp [hs]
  · simp [hs, grantArea]
  · simp [hs]

theorem requestFull_taken (rows : RowSet) (s : State) : (requestFull rows s).table.taken = s.table.taken := by
  unfold requestFull
  split <;> simp

/-- Two states agree on everything that the settlement of a hold reads. -/
def SameHold (b c : State) : Prop :=
  c.mem = b.mem ∧ c.wmu = b.wmu ∧ c.bus.ready = b.bus.ready ∧ c.port = b.port ∧ c.table = b.table ∧
    c.sets = b.sets ∧ c.sched.op = b.sched.op ∧ c.area = b.area ∧ c.freeCount = b.freeCount

theorem SameHold.drawFree {b c : State} (h : SameHold b c) : SameHold (drawFree b) (drawFree c) := by
  obtain ⟨hmem, hwmu, hready, hport, htable, hsets, hop, harea, hfree⟩ := h
  exact ⟨hmem, hwmu, hready, hport, htable, hsets, hop, harea, congrArg (· + 1) hfree⟩

theorem SameHold.inResync {b c : State} (h : SameHold b c) (r : Row) : inResync c r = inResync b r := by
  obtain ⟨-, -, -, -, -, hsets, -⟩ := h
  simp only [Machine.inResync, hsets]

theorem SameHold.dropped {b c : State} (h : SameHold b c) (r : Row) (w : WordIx) : dropped c r w = dropped b r w := by
  have hin := h.inResync r
  obtain ⟨-, -, -, -, -, -, hop, -⟩ := h
  simp only [Machine.dropped, hin, aboveCursor, hop]

theorem SameHold.areaContends {b c : State} (h : SameHold b c) (x : HeldChange) :
    areaContends x c = areaContends x b := by
  have hdropped := h.dropped
  obtain ⟨hmem, hwmu, -, hport, htable, -, hop, harea, -⟩ := h
  simp only [Machine.areaContends, areaGrantable, upperRanksEmpty, processorWaits, snapshotAsked, areaGranted,
    areaSeeksSlot, readMem, hdropped, hmem, hwmu, hport, htable, hop, harea]

/-- States that agree still agree once the same rows join the FULL set (R45). -/
theorem SameHold.addFull {b c : State} (h : SameHold b c) (hq : c.seq.state = b.seq.state) (rows : RowSet) :
    SameHold (addFull rows b) (addFull rows c) := by
  obtain ⟨hmem, hwmu, hready, hport, htable, hsets, hop, harea, hfree⟩ := h
  refine ⟨by simpa using hmem, by simpa using hwmu, by simpa using hready, by simpa using hport, ?_, ?_,
    by simpa using hop, by simpa using harea, by simpa using hfree⟩
  all_goals
    unfold Machine.addFull
    rw [hq]
    split
    · assumption
    · simp [hsets, htable]

/-- The merge makes the same table of states that agree. -/
theorem SameHold.merge {b c : State} (h : SameHold b c) (r : Row) (w : WordIx) (rise fall : Word) :
    (mergeDifference r w rise fall c).map State.table = (mergeDifference r w rise fall b).map State.table := by
  have hdropped := h.dropped r w
  obtain ⟨-, -, -, -, htable, -⟩ := h
  unfold mergeDifference
  rw [hdropped, htable]
  cases Machine.dropped b r w with
  | true => simp [htable]
  | false =>
    cases openEntry b.table r with
    | some e => simp only [Bool.false_eq_true, if_false]; split <;> simp [countAnnulled]
    | none => simp only [Bool.false_eq_true, if_false]; split <;> simp

/-- An offer makes the same table and the same hold of states that agree. -/
theorem SameHold.offer {b c : State} (h : SameHold b c) (x : HeldChange) :
    (offerHeld x c).table = (offerHeld x b).table ∧ (offerHeld x c).wmu = (offerHeld x b).wmu ∧
      (offerHeld x c).bus.ready = (offerHeld x b).bus.ready ∧ (offerHeld x c).area = (offerHeld x b).area := by
  have hmerge := h.merge x.row x.word x.rise x.fall
  obtain ⟨-, hwmu, hready, -, htable, -, -, harea, -⟩ := h
  obtain ⟨c', hc, hoc⟩ | ⟨hc, hoc⟩ := offerHeld_cases x c <;>
    obtain ⟨b', hb, hob⟩ | ⟨hb, hob⟩ := offerHeld_cases x b <;>
    rw [hoc, hob] <;> rw [hc, hb] at hmerge
  · obtain ⟨-, -, -, hcw, -, -, -, -, -, -, -, -, -, -, hca, -⟩ := mergeDifference_frame hc
    obtain ⟨-, -, -, hbw, -, -, -, -, -, -, -, -, -, -, hba, -⟩ := mergeDifference_frame hb
    refine ⟨by simpa using hmerge, ?_, rfl, ?_⟩
    · simp [endCycle, hcw, hbw, hwmu]
    · simp [hca, hba, harea]
  · simp at hmerge
  · simp at hmerge
  · exact ⟨htable, hwmu, hready, harea⟩

/-- A hold is settled alike in states that agree. -/
theorem SameHold.settled {b c t : State} (h : SameHold b c) (ht : t.table = (settleHold c).table)
    (hw : t.wmu = (settleHold c).wmu) (hr : t.bus.ready = (settleHold c).bus.ready)
    (ha : t.area = (settleHold c).area) : HoldSettled b t := by
  have settles : (settleHold c).table = (settleHold b).table ∧ (settleHold c).wmu = (settleHold b).wmu ∧
      (settleHold c).bus.ready = (settleHold b).bus.ready ∧ (settleHold c).area = (settleHold b).area := by
    have hin := h.inResync
    have hcontends := h.areaContends
    have hoffer := h.offer
    have hofferFree := h.drawFree.offer
    obtain ⟨-, hwmu, hready, -, htable, -, -, harea, hfree⟩ := h
    unfold settleHold
    rw [hwmu, hfree]
    cases hw : b.wmu.state with
    | idle => exact ⟨htable, hwmu, hready, harea⟩
    | merging x => exact ⟨htable, hwmu, hready, harea⟩
    | holding x =>
      dsimp only
      rw [hin, hcontends]
      split
      · exact ⟨by simp [htable], by simp [endCycle, hwmu], rfl, by simp [harea]⟩
      · split
        · split
          · exact ⟨by simp [grantArea, htable], by simp [grantArea, hwmu], by simp [grantArea, hready],
              by simp [grantArea, harea]⟩
          · exact hofferFree x
        · exact hoffer x
  obtain ⟨hst, hsw, hsr, hsa⟩ := settles
  exact ⟨ht.trans hst, hw.trans hsw, hr.trans hsr, ha.trans hsa⟩

end Sys2Proof.Machine
end

