-- ==== Sys2Proof/Proofs/Cuts.lean ====
section
/-! PROOFS. The cut of a period and the leaving of LIT (R62, R66, R97, R108, R118, R144), and BLANK (R128). -/

namespace Sys2Proof.Machine

open Safety

/-! ## The period that is cut -/

/-- The period generator as LIT is left: the period it was in joins the history (R97, R108). -/
def cutGen (g : PeriodGen) : PeriodGen := { g with current := none, window := cutWindow g }

/-- The history of a cut period is that of a period over (R97). -/
theorem cutGen_eq_periodOver {g : PeriodGen} {p : Period} (h : g.current = some p) : cutGen g = periodOver p g := by
  cases hk : p.kind <;> simp [cutGen, periodOver, cutWindow, h, pushWindow, windowKind, hk, Config.windowPeriods]

/-- A cut is the end of the period and what it does to the work in it (R108). -/
theorem cutPeriod_eq (s : State) : cutPeriod s =
    match s.period.current with
    | some p => cutWork p (s.setPeriod (cutGen s.period))
    | none => s.setPeriod (cutGen s.period) := by
  unfold cutPeriod
  cases h : s.period.current with
  | some p =>
    rw [cutGen_eq_periodOver h]
    rfl
  | none =>
    have hw : cutWindow s.period = s.period.window := by simp [cutWindow, h]
    have hg : cutGen s.period = s.period := by rw [cutGen, hw, ← h]
    rw [hg]
    rfl

/-- A period past its strobe, or a SUSTAIN period, holds no work that its cut undoes (R108). -/
theorem cutWork_of_quiet {p : Period} (h : p.kind = .sustain ∨ p.strobed = true) (s : State) : cutWork p s = s := by
  unfold cutWork
  split
  · rfl
  · next hs => rw [h.resolve_right hs]

/-- With no work in its period LIT is left with the period over alone (R108). -/
theorem cutPeriod_of_quiet {s : State}
    (h : ∀ p, s.period.current = some p → p.kind = .sustain ∨ p.strobed = true) :
    cutPeriod s = s.setPeriod (cutGen s.period) := by
  rw [cutPeriod_eq]
  split
  · next p hp => exact cutWork_of_quiet (h p hp) _
  · rfl

/-- The erase of a CLEAR_AND_REPAINT cut before its strobe (R66). -/
theorem cutWork_erase {p : Period} (hk : p.kind = .globalErase) (hu : p.strobed = false) (s : State) :
    cutWork p s = cutErase s := by
  simp [cutWork, hk, hu]

/-- An ADDRESS period cut before its strobe (R62). -/
theorem cutWork_address {p : Period} {op : RowOp} {s : State} (hk : p.kind = .address) (hu : p.strobed = false)
    (ho : s.sched.op = some op) : cutWork p s = cutOperation op s := by
  simp [cutWork, hk, hu, ho]

/-- Every cut of work: none, of an operation, or of a global erase (R108). -/
theorem cutWork_ind {P : State → Prop} {p : Period} {s : State} (none : P s) (operation : ∀ op, s.sched.op = some op →
    P (cutOperation op s)) (erase : p.kind = .globalErase → p.strobed = false → P (cutErase s)) : P (cutWork p s) := by
  unfold cutWork
  split
  · exact none
  · next hs =>
    split
    · exact none
    · next hk => exact erase hk (Bool.eq_false_iff.2 hs)
    · split
      · next op ho => exact operation op ho
      · exact none

/-! ## What a cut leaves -/

theorem cutOperation_period (op : RowOp) (s : State) :
    (cutOperation op s).period = (requestClear s).period := by
  unfold cutOperation
  cases op.kind <;> simp [requestClear]

theorem cutOperation_notices (op : RowOp) (s : State) :
    (cutOperation op s).notice.notices = s.notice.notices := by
  unfold cutOperation
  cases op.kind <;> simp

theorem cutOperation_sched (op : RowOp) (s : State) :
    (cutOperation op s).sched = { s.sched with op := none } := by
  unfold cutOperation
  cases op.kind <;> simp [setOp]

theorem requestFull_cursor (rows : RowSet) (s : State) : (requestFull rows s).sets.cursor = s.sets.cursor := by
  unfold requestFull
  split <;> simp

theorem cutOperation_cursor (op : RowOp) (s : State) : (cutOperation op s).sets.cursor = s.sets.cursor := by
  unfold cutOperation
  cases op.kind <;> simp [setOp]

theorem cutErase_notices (s : State) : (cutErase s).notice.notices = s.notice.notices := by
  unfold cutErase
  dsimp only
  split <;> simp

theorem cutErase_cursor (s : State) : (cutErase s).sets.cursor = s.sets.cursor := by
  unfold cutErase
  dsimp only
  split <;> simp [requestFull_cursor]

theorem cutErase_of_notAborted {s : State} (h : abortTaken s = false) :
    cutErase s = requestFull RowSet.all (cutErasePanel s) := by
  have ha : abortTaken (requestFull RowSet.all (cutErasePanel s)) = abortTaken s := by simp [abortTaken]
  rw [cutErase, ha, h]
  simp

/-- A cut asks for a clear pulse at most, the period over (R110). -/
theorem cutPeriod_period (s : State) :
    ∃ c, (cutPeriod s).period = { cutGen s.period with clearPulse := c } := by
  rw [cutPeriod_eq]
  split
  · next p hp =>
    refine cutWork_ind (P := fun t => ∃ c, t.period = { cutGen s.period with clearPulse := c }) ⟨_, rfl⟩
      (fun op _ => ?_)
      (fun _ _ => ?_)
    · obtain ⟨c, hc⟩ := requestClear_period (s.setPeriod (cutGen s.period))
      exact ⟨c, (cutOperation_period op _).trans hc⟩
    · exact ⟨_, (cutErase_frame _).2.2.2.2.2.1⟩
  · exact ⟨_, rfl⟩

theorem cutPeriod_notices (s : State) : (cutPeriod s).notice.notices = s.notice.notices := by
  rw [cutPeriod_eq]
  split
  · exact cutWork_ind (P := fun t => t.notice.notices = s.notice.notices) rfl (fun op _ => cutOperation_notices op _)
      (fun _ _ => cutErase_notices _)
  · rfl

theorem cutPeriod_cursor (s : State) : (cutPeriod s).sets.cursor = s.sets.cursor := by
  rw [cutPeriod_eq]
  split
  · exact cutWork_ind (P := fun t => t.sets.cursor = s.sets.cursor) rfl (fun op _ => cutOperation_cursor op _)
      (fun _ _ => cutErase_cursor _)
  · rfl

/-- A cut that ends no command leaves the handler and clear waiting (R66). -/
theorem cutPeriod_cmd {s : State} (h : abortTaken s = false ∨
    ∀ p, s.period.current = some p → p.kind = .globalErase → p.strobed = true) :
    (cutPeriod s).cmd = s.cmd ∧ (cutPeriod s).sched.clearWaiting = s.sched.clearWaiting := by
  rw [cutPeriod_eq]
  split
  · next p hp =>
    refine cutWork_ind (P := fun t => t.cmd = s.cmd ∧ t.sched.clearWaiting = s.sched.clearWaiting) ⟨rfl, rfl⟩
      (fun op _ => ⟨by simp, by simp [cutOperation_sched]⟩) (fun hk hu => ?_)
    obtain ha | hall := h
    · rw [cutErase_of_notAborted (by simpa [abortTaken] using ha)]
      simp
    · simp [hall p hp hk] at hu
  · exact ⟨rfl, rfl⟩

/-- A cut changes the area at most by a grant that a hold's settlement brings (R30). -/
theorem cutPeriod_areaKept (s : State) : AreaKept s (cutPeriod s) := by
  rw [cutPeriod_eq]
  split
  · refine cutWork_ind (P := AreaKept s) (.inl rfl) (fun op _ => ?_) (fun _ _ => .inl ?_)
    · unfold cutOperation
      dsimp only
      refine areaKept_of_same ?_ ?_ (settleHold_areaKept _) <;> cases op.kind <;> simp
    · unfold cutErase
      dsimp only
      split <;> simp [requestFull_all_frame]
  · exact .inl rfl

/-! ## Leaving LIT -/

/-- LIT left with the conversion aborted and the timers restarted, before staged settings are installed (R108, R144). -/
def litLeft (s : State) : State := restartTimers ((cutPeriod s).setSense { s.sense with conversion := none })

theorem leaveLit_eq (s : State) : leaveLit s = installStaged id (litLeft s) := by
  simp [leaveLit, litLeft]

/-- With nothing staged LIT is left so (R108). -/
theorem leaveLit_of_notStaged {s : State} (h : s.store.staged = none) : leaveLit s = litLeft s := by
  have hnone : (litLeft s).store.staged = none := by simpa [litLeft, restartTimers] using h
  rw [leaveLit_eq, installStaged, hnone]
  rfl

/-- What LIT left holds, but for the work cut (R108, R144). -/
theorem litLeft_fields (s : State) :
    (litLeft s).seq = s.seq ∧ (litLeft s).store = s.store ∧ (litLeft s).mem = s.mem ∧ (litLeft s).lit = s.lit ∧
      (litLeft s).latches = s.latches ∧ (litLeft s).sense = { s.sense with conversion := none } ∧
      (litLeft s).link = { s.link with timer := 0, expired := false } ∧
      (litLeft s).notice = { (cutPeriod s).notice with burstTimer := 0, burstExpired := false } ∧
      (litLeft s).cmd = (cutPeriod s).cmd ∧ (litLeft s).sched = (cutPeriod s).sched ∧
      (litLeft s).sets = (cutPeriod s).sets ∧ (litLeft s).table = (cutPeriod s).table ∧
      (litLeft s).wmu = (cutPeriod s).wmu ∧ (litLeft s).bus = (cutPeriod s).bus ∧
      (litLeft s).area = (cutPeriod s).area ∧ (litLeft s).panel = (cutPeriod s).panel ∧
      (litLeft s).period = (cutPeriod s).period ∧ (litLeft s).port = (cutPeriod s).port := by
  simp [litLeft, restartTimers]

/-! ## BLANK -/

/-- A posting of BLANK goes to its block (R170). -/
theorem exec_blank_of_posts {s : State} {a : BusAddr} {d : Word} (h : Posts s a d 0x04) :
    ∃ n, exec (.blank a d) s = .next (cycleServed (requestCommandWrite (acceptBlank (accepted 0x04 n s)))) :=
  postingOf_of_posts (p := fun c => c == 0x04) h (by decide) rfl

/-- The sequencer DARK and blanked, and LIT or PRIMING left, before the loss effects (R128, R103, R108). -/
def blankLeft (s : State) : State :=
  let d := enterDark (s.setSeq { s.seq with blanked := true })
  match s.seq.state with
  | .lit => leaveLit d
  | .priming => endPriming d
  | _ => d

theorem acceptBlank_eq (s : State) : acceptBlank s = finishCommand .ok [] (lossEffects (blankLeft s)) := rfl

/-- What BLANK has before its loss effects, no block holding anything for a command before it (R128). -/
structure BlankLeft (s v : State) : Prop where
  seq : v.seq = { s.seq with state := .dark, blanked := true, settle := 0, gap := 0 }
  cmd : v.cmd = s.cmd
  waiting : v.sched.clearWaiting = false
  cursor : v.sets.cursor = s.sets.cursor
  link : ∃ n e, v.link = { s.link with timer := n, expired := e } ∧ (s.seq.state = .lit → n = 0)
  period : ∃ c, v.period = { s.period with
    current := none, window := if s.seq.state = .lit then cutWindow s.period else s.period.window, clearPulse := c }
  lit : s.seq.state = .lit → v.sense.conversion = none ∧ v.notice.burstTimer = 0
  notices : v.notice.notices = s.notice.notices
  area : v.area = s.area
  store : v.store = s.store
  latches : v.latches = s.latches

theorem blankLeft_of_lit {s : State} (hb : NoBlocks s) (ha : abortTaken s = false) (hs : s.seq.state = .lit) :
    BlankLeft s (blankLeft s) := by
  obtain ⟨harea, hwait, -, hstaged, -⟩ := hb
  have hleft : blankLeft s = litLeft (enterDark (s.setSeq { s.seq with blanked := true })) := by
    unfold blankLeft
    rw [hs]
    exact leaveLit_of_notStaged (by simpa using hstaged)
  generalize hd : enterDark (s.setSeq { s.seq with blanked := true }) = d at hleft
  obtain ⟨c, hperiod⟩ : PulseAsked s d := hd ▸ enterDark_period _
  have habort : abortTaken d = false := by simpa [abortTaken, ← hd] using ha
  obtain ⟨c', hcut⟩ := cutPeriod_period d
  obtain ⟨hcmd, hwaits⟩ := cutPeriod_cmd (.inl habort)
  have hkept : (cutPeriod d).area = s.area := by
    obtain h | ⟨-, x, hx, -⟩ := cutPeriod_areaKept d
    · exact h.trans (by simp [← hd])
    · simp [← hd, harea] at hx
  obtain ⟨lseq, lstore, -, -, llatches, lsense, llink, lnotice, lcmd, lsched, lsets, -, -, -, larea, -, lperiod, -⟩ :=
    litLeft_fields d
  rw [hleft]
  refine ⟨by rw [lseq]; simp [← hd, enterDark], by rw [lcmd, hcmd]; simp [← hd],
    by rw [lsched, hwaits]; simp [← hd, hwait],
    by rw [lsets, cutPeriod_cursor]; simp [← hd], ⟨0, false, by rw [llink]; simp [← hd], fun _ => rfl⟩, ⟨c', ?_⟩,
    fun _ => ⟨by rw [lsense], by rw [lnotice]⟩, by rw [lnotice]; exact (cutPeriod_notices d).trans (by simp [← hd]),
    by rw [larea, hkept], by rw [lstore]; simp [← hd], by rw [llatches]; simp [← hd]⟩
  rw [lperiod, hcut, hperiod, if_pos hs]
  rfl

/-- The erase of PRIMING ends with its lines released (R103). -/
theorem endPriming_period (s : State) : (endPriming s).period = { s.period with current := none } := by
  unfold endPriming
  cases s.period.current with
  | none => rfl
  | some p => cases hp : p.strobed <;> simp [hp]

/-- Outside LIT no period runs but the erase of PRIMING, which BLANK ends (R100, R103). -/
theorem blankLeft_of_dark {s : State} (hb : NoBlocks s) (ninth : NinthLaw s) (hs : s.seq.state ≠ .lit) :
    BlankLeft s (blankLeft s) := by
  obtain ⟨-, hwait, -⟩ := hb
  have hnone : s.seq.state ≠ .priming → s.period.current = none := fun hp => current_of_ninthLaw ninth hs hp
  obtain ⟨c, hperiod⟩ := enterDark_period (s.setSeq { s.seq with blanked := true })
  have dark : s.seq.state ≠ .priming →
      BlankLeft s (enterDark (s.setSeq { s.seq with blanked := true })) := fun hp => by
    refine ⟨by simp [enterDark], by simp, by simp [hwait], by simp,
      ⟨s.link.timer, s.link.expired, by simp, fun h => absurd h hs⟩,
      ⟨c, ?_⟩, fun h => absurd h hs, by simp, by simp, by simp, by simp⟩
    rw [hperiod, if_neg hs, ← hnone hp]
    rfl
  unfold blankLeft
  cases hst : s.seq.state with
  | lit => exact absurd hst hs
  | priming =>
    refine ⟨by simp [enterDark], by simp, by simp [hwait], by simp, ⟨s.link.timer, s.link.expired, by simp,
      fun h => absurd h hs⟩, ⟨c, ?_⟩, fun h => absurd h hs, by simp, by simp, by simp, by simp⟩
    rw [endPriming_period, hperiod, if_neg hs]
    rfl
  | dark | settling | gap | resuming => exact dark (by simp [hst])

/-- Settles O23: LIT or PRIMING is left with the handler's result still awaited, and the loss effects follow. -/
theorem blankDarkensThePanel : Obligations.BlankDarkensThePanel := by
  intro s a d posts law
  obtain ⟨n, hexec⟩ := exec_blank_of_posts posts
  have hblocks : NoBlocks (accepted 0x04 n s) := by
    simpa [NoBlocks] using noBlocks_of_idle law.1 posts.1
  have left : BlankLeft (accepted 0x04 n s) (blankLeft (accepted 0x04 n s)) := by
    by_cases hs : s.seq.state = .lit
    · exact blankLeft_of_lit hblocks (by simp [abortTaken, accepted]) (by simpa using hs)
    · exact blankLeft_of_dark hblocks (by simpa [NinthLaw] using law.2.1) (by simpa using hs)
  generalize hv : blankLeft (accepted 0x04 n s) = v at left
  rw [acceptBlank_eq, hv] at hexec
  obtain ⟨c, hperiod⟩ := left.period
  obtain ⟨n', e, hlink, htimer⟩ := left.link
  obtain ⟨hdark, hlost, hpulse, hasked, -, hcmd⟩ :=
    lossEffects_lost (s := v) (v := v) rfl rfl rfl rfl (pulseAsked_of_eq rfl)
  obtain ⟨htable, hsets, hlit, hop, hrun, hpanel, -⟩ := hdark
  refine ⟨_, hexec, ?_⟩
  rw [endsWith_posted]
  refine ⟨finishCommand_endsWith (goesOn_of_cmd ((hcmd left.waiting).trans left.cmd) (accepted_goesOn 0x04 n s)) .ok [],
    ?_⟩
  simp only [cycleServed_frame, requestCommandWrite_frame, finishCommand_frame]
  refine ⟨?_, htable, hop, hrun, ?_, hlit, hpulse, ?_, fun hs => ⟨?_, ?_, ?_⟩, ?_, ?_, ?_, ?_, ?_, ?_, ?_, ?_, ?_,
    hpanel⟩
  · simpa using left.seq
  · rw [hsets, left.cursor]; simp
  · rw [hasked, hperiod]; simp
  · simpa using (left.lit (by simpa using hs)).1
  · rw [hlost, lostLink, hlink]; exact htimer (by simpa using hs)
  · simpa using (left.lit (by simpa using hs)).2
  · simpa using left.notices
  · rw [hlost, lostLink, hlink]; simp
  · rw [hlost, lostLink, hlink]; simp
  · rw [hlost, lostLink, hlink]; simp
  · rw [hlost, lostLink]
  · rw [hlost, lostLink, hlink]; simp
  · simpa using left.latches
  · simpa using left.area
  · simpa using left.store

end Sys2Proof.Machine
end

