-- ==== Sys2Proof/Proofs/GoodLow.lean ====
section
/-! PROOFS. GOOD_LOW (R112, R115, R116, R118, R120): the return of each state, and what the leaving of LIT makes of the
work in its period and of staged settings. -/

namespace Sys2Proof.Machine

open Safety

/-! ## The erase of PRIMING cut before its strobe -/

/-- What a store reads once its values are changed key by key, with those that become empty removed. -/
theorem cellsRead_map_filter {α : Type} [DecidableEq α] {d : α} (f : Nat → α → α) (hf : ∀ k, f k d = d) (a : Nat) :
    ∀ {m : Cells α}, CellsWf d m →
      cellsRead d ((m.map (fun p => (p.1, f p.1 p.2))).filter (fun p => p.2 != d)) a = f a (cellsRead d m a) := by
  intro m
  induction m with
  | nil => exact fun _ => (hf a).symm
  | cons p m ih =>
    obtain ⟨k, v⟩ := p
    intro h
    obtain ⟨hlt, -, hm⟩ := cellsWf_cons.1 h
    rw [List.map_cons, List.filter_cons]
    by_cases hak : a = k
    · subst hak
      by_cases hv : f a v = d
      · have hrest : cellsRead d ((m.map (fun p => (p.1, f p.1 p.2))).filter (fun p => p.2 != d)) a = d := by
          refine cellsRead_of_lt fun q hq => ?_
          obtain ⟨q', hq', rfl⟩ := List.mem_map.1 (List.mem_filter.1 hq).1
          exact hlt q' hq'
        simp [hv, hrest, cellsRead]
      · simp [hv, cellsRead]
    · have hskip : ∀ x : α, ∀ l : Cells α, cellsRead d ((k, x) :: l) a = cellsRead d l a := fun x l => by
        simp [cellsRead, hak]
      by_cases hv : f k v = d
      · simp [hv, hskip, ih hm]
      · simp [hv, hskip, ih hm]

/-- An erase cut before its strobe lights no cell (R103). -/
theorem panelRow_cutErasePanel {s : State} (h : CellsWf 0 s.panel) (q : Row) :
    panelRow (cutErasePanel s) q &&& ~~~panelRow s q = 0 := by
  have hread : panelRow (cutErasePanel s) q = panelRow s q &&& Config.unreached s.freeCount q.val :=
    cellsRead_map_filter (fun k v => v &&& Config.unreached s.freeCount k) (fun k => BitVec.zero_and) q.val h
  rw [hread]
  generalize panelRow s q = x
  generalize Config.unreached s.freeCount q.val = y
  apply BitVec.eq_of_getLsbD_eq
  intro i hi
  cases hx : x.getLsbD i <;> simp [hx]

/-- The end of PRIMING's erase leaves the panel past its strobe, and lights no cell before it (R103). -/
theorem endPriming_panel (s : State) :
    (∀ p, s.period.current = some p → p.strobed = true → (endPriming s).panel = s.panel) ∧
      (CellsWf 0 s.panel → ∀ q, panelRow (endPriming s) q &&& ~~~panelRow s q = 0) := by
  have hself : ∀ x : Mask, x &&& ~~~x = 0 := fun x => by
    apply BitVec.eq_of_getLsbD_eq
    intro i hi
    cases x.getLsbD i <;> simp
  unfold endPriming
  cases hc : s.period.current with
  | none => exact ⟨nofun, fun _ q => hself _⟩
  | some p =>
    refine ⟨fun p' hp' hs => ?_, fun h q => ?_⟩
    · obtain rfl := Option.some.inj hp'
      simp [hs]
    · dsimp only
      split
      · exact hself _
      · exact panelRow_cutErasePanel h q

/-! ## Staged settings installed as LIT is left -/

/-- A hold that expires leaves the area. -/
theorem expireHold_area (s : State) : (expireHold s).area = s.area := by
  unfold expireHold
  split
  · next h hw =>
    split
    · exact (degradeHeld_records hw).2.2
    · rfl
  · rfl

/-- An installation in GAP reaches the loss limit alone (R120, R124). -/
theorem installSettings_of_gap {x : Settings} {s : State} (h : s.seq.state = .gap) :
    installSettings x s =
      let e := expireHold (s.setStore { s.store with settings := x, staged := none })
      if x.lossLimit ≤ s.seq.gap then lossInGap e else e := by
  have hgap : (expireHold (s.setStore { s.store with settings := x, staged := none })).seq.state = .gap := by
    simpa using h
  rw [installSettings, reachLimits_of_gap hgap]
  simp

/-- A hold whose counter reaches the installed hold limit expires with its row in doubt (R14, R45). -/
theorem expireHold_reached {s : State} {h : HeldChange} (hw : s.wmu.state = .holding h)
    (hl : s.store.settings.holdLimit ≤ s.wmu.holdCounter) (hrec : recordless s.seq.state = false) :
    (expireHold s).wmu.state = .idle ∧ (expireHold s).bus.ready = true ∧
      hasRow (expireHold s).sets.full h.row = true ∧
      (expireHold s).notice.degradedRows = min 65535 (s.notice.degradedRows + 1) ∧
      (expireHold s).notice.notices.getLsbD 6 = true := by
  have hrequest := requestFull_of_holding hw
  obtain ⟨hidle, hready, hcount, hraised⟩ := degradeHeld_outcome (r := h.row) (s := s) (by
    rw [hrequest]
    split <;> simp)
  rw [expireHold_of_reached hw hl]
  refine ⟨hidle, hready, ?_, hcount, by rw [hraised]; simp⟩
  rw [(degradeHeld_records hw).1]
  obtain ⟨hrec', -⟩ | ⟨-, hfull, -⟩ := addFull_cases (oneRow h.row) s
  · simp [hrec] at hrec'
  · simp [hfull, hasRow_oneRow]

/-! ## The return of each state -/

/-- The filter's change at the third differing sample, low (R112). -/
def lowSeq (q : Sequencer) : Sequencer := { q with input := false, sampled := true, filtered := false, runCount := 0 }

/-- The sequencer in GAP with its gap counter at 0 (R118). -/
def lowGap (s : State) : State := s.setSeq { lowSeq s.seq with state := .gap, gap := 0 }

/-- What good low leaves as it leaves LIT, before staged settings are installed (R118). -/
def lowLeft (s : State) : State := litLeft (lowGap s)

theorem goodLowEffect_of_lit {s : State} (h : s.seq.state = .lit) :
    goodLowEffect s = installStaged id (lowLeft s) := by
  have hq : (sampleSupply false false 0 s).seq.state = .lit := h
  unfold goodLowEffect
  dsimp only
  rw [hq]
  exact leaveLit_eq _

/-- Whatever is staged, LIT left has its period over and its conversion aborted (R97, R108, R144). -/
theorem goodLow_lit_frame {s : State} (h : s.seq.state = .lit) :
    (∃ c, (goodLowEffect s).period = { cutGen s.period with clearPulse := c }) ∧
      (goodLowEffect s).sense = { s.sense with conversion := none } ∧ (goodLowEffect s).mem = s.mem ∧
      AreaKept s (goodLowEffect s) := by
  obtain ⟨lseq, -, lmem, -, -, lsense, -, -, -, -, -, -, -, -, larea, -, lperiod, -⟩ := litLeft_fields (lowGap s)
  have lmem : (lowLeft s).mem = s.mem := lmem
  have lsense : (lowLeft s).sense = { s.sense with conversion := none } := lsense
  obtain ⟨c, hc⟩ := cutPeriod_period (lowGap s)
  have hkept : AreaKept s (cutPeriod (lowGap s)) := areaKept_of_same rfl rfl (cutPeriod_areaKept _)
  have same : ∀ t, t.area = (lowLeft s).area → AreaKept s t := fun t ht => by
    rwa [AreaKept, ht, lowLeft, larea]
  have hperiod : (lowLeft s).period = { cutGen s.period with clearPulse := c } := lperiod.trans hc
  rw [goodLowEffect_of_lit h, installStaged]
  split
  · next x hx =>
    rw [installSettings_of_gap (by rw [lowLeft, lseq]; rfl)]
    dsimp only
    generalize he : expireHold ((lowLeft s).setStore { (lowLeft s).store with settings := x, staged := none }) = e
    have hep : e.period = { cutGen s.period with clearPulse := c } := by rw [← he]; simpa using hperiod
    have hes : e.sense = { s.sense with conversion := none } := by rw [← he]; simpa using lsense
    have hem : e.mem = s.mem := by rw [← he]; simpa using lmem
    have hea : e.area = (lowLeft s).area := by rw [← he, expireHold_area]; rfl
    obtain ⟨-, -, -, hlp, -⟩ := lossInGap_lost e
    split
    · refine ⟨⟨(lossInGap e).period.clearPulse, ?_⟩, by simpa using hes, by simpa using hem,
        same _ (by simpa using hea)⟩
      rw [id, (finishCommand_frame _ _ _).2.2.2.2.2.2.2.2.2.2.2.1, hlp, hep]
    · exact ⟨⟨c, by simpa using hep⟩, by simpa using hes, by simpa using hem, same _ (by simpa using hea)⟩
  · exact ⟨⟨c, hperiod⟩, lsense, lmem, same _ rfl⟩

/-- With no work in the period LIT left keeps every record (R108). -/
theorem lowLeft_of_quiet {s : State} (h : ∀ p, s.period.current = some p → p.kind = .sustain ∨ p.strobed = true) :
    (lowLeft s).wmu = s.wmu ∧ SameRecords s (lowLeft s) ∧ (lowLeft s).panel = s.panel ∧ (lowLeft s).cmd = s.cmd ∧
      (lowLeft s).area = s.area ∧ (lowLeft s).bus = s.bus ∧
      (lowLeft s).notice = { s.notice with burstTimer := 0, burstExpired := false } := by
  have hcut : cutPeriod (lowGap s) = (lowGap s).setPeriod (cutGen s.period) := cutPeriod_of_quiet h
  rw [lowLeft, litLeft, hcut]
  simp [restartTimers, lowGap, SameRecords]

/-- The cut of an operation, as one settlement of a hold at its end (R62, R30). -/
theorem cutOperation_eq (op : RowOp) (s : State) :
    cutOperation op s = settleHold (addFull (oneRow op.row)
      (opEnded op.kind (requestClear (drivePanel op.row (Config.cutRow s.freeCount) (drawFree s))))) := by
  unfold cutOperation
  cases op.kind <;> rfl

@[simp] theorem opEnded_frame (kind : OpKind) (s : State) :
    (opEnded kind s).mem = s.mem ∧ (opEnded kind s).wmu = s.wmu ∧ (opEnded kind s).bus = s.bus ∧
    (opEnded kind s).port = s.port ∧ (opEnded kind s).sets = s.sets ∧ (opEnded kind s).seq = s.seq ∧
    (opEnded kind s).panel = s.panel ∧ (opEnded kind s).period = s.period ∧
    (opEnded kind s).area = s.area ∧ (opEnded kind s).freeCount = s.freeCount ∧
    (opEnded kind s).sched = { s.sched with op := none } := by
  cases kind <;> simp [opEnded, setOp]

/-- The operation FIRING is cut with its row in doubt, its slot free, and every other row of the panel as it was (R62,
R30, log 5). -/
theorem lowLeft_operation {s : State} {p : Period} {op : RowOp} (hp : s.period.current = some p)
    (hk : p.kind = .address) (hu : p.strobed = false) (ho : s.sched.op = some op) :
    (lowLeft s).sched = { s.sched with op := none } ∧ hasRow (lowLeft s).sets.full op.row = true ∧
      (op.kind = .delta → (lowLeft s).table.taken = none ∧
        HoldSettled (addFull (oneRow op.row) (((slotFreed s).setSeq
          { lowSeq s.seq with state := .gap, gap := 0 }).setFreeCount (s.freeCount + 1))) (lowLeft s)) ∧
      (lowLeft s).period.clearPulse ≠ .idle ∧ ∀ q : Row, q ≠ op.row → panelRow (lowLeft s) q = panelRow s q := by
  have hcut : cutPeriod (lowGap s) = cutOperation op ((lowGap s).setPeriod (cutGen s.period)) := by
    rw [cutPeriod_eq]
    have hp' : (lowGap s).period.current = some p := hp
    rw [hp']
    exact cutWork_address hk hu ho
  obtain ⟨-, -, -, -, -, -, -, -, -, lsched, lsets, ltable, lwmu, lbus, larea, lpanel, lperiod, -⟩ :=
    litLeft_fields (lowGap s)
  rw [hcut] at lsched lsets ltable lwmu lbus larea lpanel lperiod
  generalize hv : (lowGap s).setPeriod (cutGen s.period) = v at *
  have hvs : v.sched = s.sched ∧ v.seq.state = .gap ∧ v.panel = s.panel := by rw [← hv]; exact ⟨rfl, rfl, rfl⟩
  refine ⟨?_, ?_, fun hdelta => ⟨?_, ?_⟩, ?_, fun q hq => ?_⟩
  · exact lsched.trans ((cutOperation_sched op v).trans (by rw [hvs.1]))
  · rw [lowLeft, lsets, cutOperation_eq, (settleHold_frame _).2.2.2.1]
    generalize hw : opEnded op.kind (requestClear (drivePanel op.row (Config.cutRow v.freeCount) (drawFree v))) = w
    obtain ⟨hrec, -⟩ | ⟨-, hfull, -⟩ := addFull_cases (oneRow op.row) w
    · simp [← hw, hvs.2.1, recordless] at hrec
    · simp [hfull, hasRow_oneRow]
  · rw [lowLeft, ltable, cutOperation_eq, settleHold_taken, addFull_taken, hdelta]
    simp [opEnded]
  · rw [cutOperation_eq] at ltable lwmu lbus larea
    refine SameHold.settled (SameHold.addFull ?_ ?_ _) ltable lwmu (congrArg BusPins.ready lbus) larea
    · rw [hdelta, ← hv]
      simp [SameHold, opEnded, setOp, slotFreed, lowGap, drawFree]
    · simp [hvs]
  · rw [lowLeft, lperiod, cutOperation_period]
    exact requestClear_pulse v
  · rw [panelRow, lowLeft, lpanel, cutOperation_eq]
    simp only [settleHold_frame, addFull_frame, opEnded_frame, requestClear_frame, drivePanel, State.setPanel_panel,
      drawFree_frame]
    rw [cellsRead_cellsWrite_ne _ _ (fun h => hq (Fin.ext h)), hvs.2.2]
    rfl

/-- The erase of a CLEAR_AND_REPAINT cut before its strobe leaves every row in doubt, and ends the command after an
ABORT (R66). -/
theorem lowLeft_erase {s : State} {p : Period} (third : ThirdLaw s) (hp : s.period.current = some p)
    (hk : p.kind = .globalErase) (hu : p.strobed = false) :
    AllRowsInDoubt (lowLeft s) ∧ (lowLeft s).table.taken = s.table.taken ∧
      (abortTaken s = false → (lowLeft s).sched = s.sched ∧ (lowLeft s).cmd = s.cmd) ∧
      ∀ r, s.cmd.running = some r → r.abortTaken = true →
        (lowLeft s).sched = { s.sched with clearWaiting := false } ∧ Finishes s (lowLeft s) 0x82 := by
  have hcut : cutPeriod (lowGap s) = cutErase ((lowGap s).setPeriod (cutGen s.period)) := by
    rw [cutPeriod_eq]
    have hp' : (lowGap s).period.current = some p := hp
    rw [hp']
    exact cutWork_erase hk hu _
  obtain ⟨-, -, -, -, -, -, -, -, lcmd, lsched, lsets, ltable, lwmu, -⟩ := litLeft_fields (lowGap s)
  rw [hcut] at lcmd lsched lsets ltable lwmu
  generalize hv : (lowGap s).setPeriod (cutGen s.period) = v at *
  have hdoubt : AllRowsInDoubt (requestFull RowSet.all (cutErasePanel v)) := by
    refine requestFull_all ?_ ?_
    · simp [← hv, lowGap, recordless]
    · simpa [← hv, lowGap, ThirdLaw, inResync] using third
  have hcutErase : cutErase v = if abortTaken s then abandonErase (requestFull RowSet.all (cutErasePanel v))
      else requestFull RowSet.all (cutErasePanel v) := by
    have ha : abortTaken (requestFull RowSet.all (cutErasePanel v)) = abortTaken s := by
      simp [abortTaken, ← hv, lowGap]
    rw [cutErase, ha]
  have hsame : (cutErase v).sets = (requestFull RowSet.all (cutErasePanel v)).sets ∧
      (cutErase v).table = (requestFull RowSet.all (cutErasePanel v)).table ∧
      (cutErase v).wmu = (requestFull RowSet.all (cutErasePanel v)).wmu := by
    rw [hcutErase]
    split <;> simp
  refine ⟨?_, ?_, fun ha => ?_, fun r hr ha => ?_⟩
  · rw [lowLeft, AllRowsInDoubt, lsets, ltable, lwmu, hsame.1, hsame.2.1, hsame.2.2]
    exact hdoubt
  · rw [lowLeft, ltable, hsame.2.1, requestFull_taken]
    simp [← hv, lowGap]
  · rw [lowLeft, lsched, lcmd, hcutErase, ha]
    simp [← hv, lowGap]
  · have hab : abortTaken s = true := by simp [abortTaken, hr, ha]
    rw [hab, if_pos rfl] at hcutErase
    have hfin : Finishes s (abandonErase (requestFull RowSet.all (cutErasePanel v))) 0x82 :=
      abandonErase_finishes (by simp [← hv, lowGap])
    rw [lowLeft, lsched, Finishes, lcmd, hcutErase, abandonErase_sched]
    exact ⟨by simp [← hv, lowGap], hfin⟩

/-- The cells of a row less themselves are none. -/
theorem panelRow_sub_self (x : Mask) : x &&& ~~~x = 0 := by
  apply BitVec.eq_of_getLsbD_eq
  intro i hi
  cases x.getLsbD i <;> simp

/-- The entry to DARK asks for its clear pulse, and leaves the rest of the period generator (R110). -/
theorem enterDark_asks (s : State) :
    (enterDark s).period = { s.period with clearPulse := (enterDark s).period.clearPulse } ∧
      (enterDark s).period.clearPulse ≠ .idle := ⟨rfl, requestClear_pulse _⟩

/-- Settings staged as LIT is left: the hold that expires at their installation, and the loss limit that a gap counter
of 0 reaches (R190, R14, R124). -/
theorem goodLowEffect_of_staged {s : State} {x : Settings} (hs : s.seq.state = .lit) (hx : s.store.staged = some x) :
    goodLowEffect s = finishCommand .ok []
      (let e := expireHold ((lowLeft s).setStore { s.store with settings := x, staged := none })
       if x.lossLimit ≤ 0 then lossInGap e else e) := by
  obtain ⟨lseq, lstore, -⟩ := litLeft_fields (lowGap s)
  have hstore : (lowLeft s).store = s.store := lstore
  have hseq : (lowLeft s).seq = { lowSeq s.seq with state := .gap, gap := 0 } := lseq
  rw [goodLowEffect_of_lit hs, installStaged, hstore, hx]
  dsimp only [id]
  rw [installSettings_of_gap (by rw [hseq]), hstore, hseq]

/-- A staged SETTINGS_APPLY is the running command, so no ABORT and no CLEAR_AND_REPAINT is at hand (R163). -/
theorem staged_alone {s : State} {x : Settings} (law : CommandLaw s) (hs : s.seq.state = .lit)
    (hx : s.store.staged = some x) :
    s.sched.clearWaiting = false ∧ ∀ p, s.period.current = some p → p.kind = .globalErase → p.strobed = true := by
  obtain ⟨⟨-, hwaits, -, hstages, -⟩, -, herase⟩ := law
  obtain ⟨r, hr, hcode, -⟩ := hstages (by simp [hx])
  have hwait : s.sched.clearWaiting = false := by
    rw [Bool.eq_false_iff]
    intro h
    obtain ⟨r', hr', hcode', -⟩ := hwaits h
    have : r = r' := Option.some.inj (hr.symm.trans hr')
    rw [this, hcode'] at hcode
    exact absurd hcode (by decide)
  refine ⟨hwait, fun p hp hk => ?_⟩
  by_contra hu
  rw [herase hs p hp hk (Bool.eq_false_iff.2 hu)] at hwait
  exact absurd hwait (by decide)

/-- What good low makes of staged settings: they are installed with their command's OK, and a hold expires or goes on by
the hold limit installed (R190, R14). -/
theorem goodLow_staged {s : State} {x : Settings} (hs : s.seq.state = .lit) (hx : s.store.staged = some x) :
    let t := goodLowEffect s
    t.store = { s.store with settings := x, staged := none } ∧ (CommandLaw s → Finishes s t 0x80) ∧
      ((∀ p, s.period.current = some p → p.kind = .sustain ∨ p.strobed = true) → 0 < x.lossLimit →
        t.seq = { lowSeq s.seq with state := .gap, gap := 0 } ∧
        (∀ h, s.wmu.state = .holding h → x.holdLimit ≤ s.wmu.holdCounter →
          t.wmu.state = .idle ∧ t.bus.ready = true ∧ hasRow t.sets.full h.row = true ∧
            t.notice.degradedRows = min 65535 (s.notice.degradedRows + 1) ∧ t.notice.notices.getLsbD 6 = true) ∧
        (∀ h, s.wmu.state = .holding h → s.wmu.holdCounter < x.holdLimit → t.wmu = s.wmu ∧ SameRecords s t)) := by
  intro t
  obtain ⟨lseq, -, -, -, -, -, -, -, lcmd, lsched, -⟩ := litLeft_fields (lowGap s)
  have ht : t = _ := goodLowEffect_of_staged hs hx
  dsimp only at ht
  generalize hl : (lowLeft s).setStore { s.store with settings := x, staged := none } = l at ht
  refine ⟨?_, fun law => ?_, fun hq hloss => ?_⟩
  · rw [ht]
    split <;> simp [← hl]
  · obtain ⟨hwait, hend⟩ := staged_alone law hs hx
    obtain ⟨hcmd, hwaits⟩ := cutPeriod_cmd (s := lowGap s) (.inr hend)
    have hecmd : (expireHold l).cmd = s.cmd := by
      rw [← hl, (expireHold_frame _).2.2.2.2.2.2.2.2.2.2.1]
      exact lcmd.trans hcmd
    have hewait : (expireHold l).sched.clearWaiting = false := by
      rw [← hl, (expireHold_frame _).2.2.1]
      exact (congrArg Scheduler.clearWaiting lsched).trans (hwaits.trans hwait)
    rw [ht]
    refine finishCommand_finishes ?_ .ok
    split
    · rw [(lossInGap_lost _).cmd hewait, hecmd]
    · exact hecmd
  · obtain ⟨hwmu, hrec, -, -, -, hbus, hnotice⟩ := lowLeft_of_quiet hq
    rw [if_neg (by omega)] at ht
    have hseq : l.seq = { lowSeq s.seq with state := .gap, gap := 0 } := by rw [← hl]; exact lseq
    have hlw : l.wmu = s.wmu := by rw [← hl]; exact hwmu
    have hln : l.notice = { s.notice with burstTimer := 0, burstExpired := false } := by rw [← hl]; exact hnotice
    have hls : l.store.settings = x := by rw [← hl]; rfl
    rw [ht]
    refine ⟨by simpa using hseq, fun h hw hlimit => ?_, fun h hw hlimit => ?_⟩
    · obtain ⟨hidle, hready, hfull, hcount, hraised⟩ := expireHold_reached (s := l) (h := h) (by rw [hlw, hw])
        (by rw [hls, hlw]; exact hlimit) (by rw [hseq]; rfl)
      rw [hln] at hcount
      exact ⟨by simpa using hidle, by simpa using hready, by simpa using hfull, by simpa using hcount,
        by simpa using hraised⟩
    · rw [expireHold_of_below fun h' _ => by rw [hls, hlw]; exact hlimit]
      refine ⟨by simpa using hlw, ?_⟩
      rw [← hl]
      simpa [SameRecords] using hrec

/-- Settles O50: each state returns as its case of good low says; in LIT the cut, then the installation. -/
theorem goodLowStopsTheSustain : Obligations.GoodLowStopsTheSustain := by
  intro s hsampled hfiltered hrun
  have hexec : exec .goodLow s = .next (goodLowEffect s) := by
    change execGoodLow s = _
    have hdue : filterChanges false s = true := by
      simp [filterChanges, hsampled, hfiltered, Config.filterSamples]; omega
    rw [execGoodLow, stepWhen, if_pos hdue]
  rw [hexec]
  intro low
  refine ⟨fun hs => ?_, fun hs => ?_, fun hs => ⟨_, rfl, ?_⟩, fun hs => ⟨_, rfl, ?_⟩⟩
  · obtain hs | hs := hs <;> simp [goodLowEffect, sampleSupply, hs, low]
  · simp [goodLowEffect, sampleSupply, hs, low, State.setSeq]
  · obtain ⟨c, hdark⟩ : PulseAsked (s.setSeq low) (enterDark (s.setSeq low)) := enterDark_period _
    obtain hs | hs := hs
    · have heq : goodLowEffect s = enterDark (s.setSeq low) := by simp [goodLowEffect, sampleSupply, hs, low]
      rw [heq]
      obtain ⟨hasks, hpulse⟩ := enterDark_asks (s.setSeq low)
      refine ⟨by simp [enterDark], ?_, hpulse, fun _ => by simp, fun _ _ _ => by simp,
        fun _ q => panelRow_sub_self (panelRow s q), by simp [SameWritePath, SameRecords]⟩
      rw [if_neg (by simp [hs])]
      exact hasks
    · have heq : goodLowEffect s = enterDark (endPriming (s.setSeq low)) := by
        simp [goodLowEffect, sampleSupply, hs, low]
      rw [heq]
      obtain ⟨hasks, hpulse⟩ := enterDark_asks (endPriming (s.setSeq low))
      obtain ⟨hstrobed, hcells⟩ := endPriming_panel (s.setSeq low)
      refine ⟨by simp [enterDark], ?_, hpulse, by simp [hs], fun p hp hst => by simpa using hstrobed p hp hst,
        fun hw q => by simpa [panelRow] using hcells hw q, by simp [SameWritePath, SameRecords]⟩
      rw [if_pos hs]
      exact hasks.trans (by rw [endPriming_period]; rfl)
  · obtain ⟨⟨c, hperiod⟩, hsense, hmem, harea⟩ := goodLow_lit_frame hs
    obtain ⟨lseq, lstore, -, llit, llatches, -, llink, lnotice, -⟩ := litLeft_fields (lowGap s)
    refine ⟨by rw [hperiod]; rfl, hsense, hmem, harea, fun hstaged => ?_, fun x hx => ?_⟩
    · have heq : goodLowEffect s = lowLeft s := by
        rw [goodLowEffect_of_lit hs, installStaged, lowLeft, lstore]
        have hnone : (lowGap s).store.staged = none := hstaged
        rw [hnone]
        rfl
      rw [heq]
      refine ⟨lseq, lstore, ?_, ?_, llink, llit, llatches, fun hq => ?_, fun p op hp hk hu ho => ?_,
        fun p third hp hk hu => lowLeft_erase third hp hk hu⟩
      · rw [lowLeft, lnotice]
      · rw [lowLeft, lnotice]
      · obtain ⟨hwmu, hrec, hpanel, hcmd, harea, -⟩ := lowLeft_of_quiet hq
        exact ⟨hwmu, hrec, hpanel, hcmd, harea⟩
      · exact lowLeft_operation hp hk hu ho
    · exact goodLow_staged hs hx

end Sys2Proof.Machine
end

