-- ==== Sys2Proof/Proofs/FrameEnds.lean ====
section
/-! PROOFS. PERIOD_END (R95 to R98, R106): the next period within a frame, and the work of the frame end. -/

namespace Sys2Proof.Machine

open Safety

/-! ## The new frame -/

/-- The new frame once settings staged are installed: timing, P, the frame count, and a recovery attempt while the link
is FAULTED (R106, R87). -/
def frameBegun (s : State) : State :=
  let s := limitLoad (takeTiming s)
  let s := s.setPeriod { s.period with frameCount := (s.period.frameCount + 1) % 65536 }
  if s.link.state == .faulted && s.link.activity != .recovering then beginRecovery s else s

theorem frameEnd_eq (s : State) : frameEnd s = installStaged frameBegun (requestBurst s) := rfl

/-- A notice raised leaves whether a burst waits. -/
theorem raiseNotice_burst (n : Notice) (s : State) : (raiseNotice n s).port.burst = s.port.burst := by
  unfold raiseNotice
  split <;> simp [requestNoticeUpdate, setNotices]

@[simp] theorem frameBegun_frame (s : State) :
    (frameBegun s).mem = s.mem ∧ (frameBegun s).bus = s.bus ∧ (frameBegun s).wmu = s.wmu ∧
    (frameBegun s).table = s.table ∧ (frameBegun s).sets = s.sets ∧ (frameBegun s).sched = s.sched ∧
    (frameBegun s).lit = s.lit ∧ (frameBegun s).latches = s.latches ∧ (frameBegun s).panel = s.panel ∧
    (frameBegun s).seq = s.seq ∧ (frameBegun s).sense = s.sense ∧ (frameBegun s).area = s.area ∧
    (frameBegun s).cmd = s.cmd ∧ (frameBegun s).store = s.store ∧
    (frameBegun s).period =
      { framed s with frameCount := (s.period.frameCount + 1) % 65536 } := by
  unfold frameBegun
  dsimp only
  split <;> simp [framed]

/-- While the link is FAULTED an attempt runs in the new frame, and a link that is OK is as it was (R87). -/
theorem frameBegun_link (s : State) :
    (s.link.state = .faulted → (frameBegun s).link.activity = .recovering) ∧
      (s.link.state = .ok → (frameBegun s).link = s.link) := by
  unfold frameBegun
  dsimp only
  refine ⟨fun h => ?_, fun h => ?_⟩
  · split
    · rfl
    · next hc => simpa [h] using hc
  · rw [if_neg (by simp [h])]
    simp

theorem limitLoad_takeTiming_notice (s : State) :
    (limitLoad (takeTiming s)).notice =
      if (limitPeriod (timingOf s.store.settings) s.lit.total).2 then
        (raiseNotice .overload (s.setPeriod (framed s))).notice else s.notice := by
  rw [limitLoad_takeTiming]
  split <;> rfl

theorem frameBegun_notice (s : State) : (frameBegun s).notice = (limitLoad (takeTiming s)).notice := by
  unfold frameBegun
  dsimp only
  split <;> simp

/-- An overloaded frame raises OVERLOAD, and no notice is taken away (R135, R175). -/
theorem frameBegun_notices (s : State) :
    ((limitPeriod (timingOf s.store.settings) s.lit.total).2 = true →
        (frameBegun s).notice.notices.getLsbD 5 = true) ∧
      (∀ i, s.notice.notices.getLsbD i = true → (frameBegun s).notice.notices.getLsbD i = true) ∧
      (frameBegun s).notice.degradedRows = s.notice.degradedRows := by
  rw [frameBegun_notice, limitLoad_takeTiming_notice]
  split
  · refine ⟨fun _ => raiseNotice_present .overload _, fun i hi => ?_, by rw [raiseNotice_rest]; rfl⟩
    rw [raiseNotice_notices]
    exact getLsbD_or_of_left hi
  · next h => exact ⟨fun h' => absurd h' h, fun _ hi => hi, rfl⟩

theorem frameBegun_burst (s : State) : (frameBegun s).port.burst = s.port.burst := by
  unfold frameBegun
  dsimp only
  rw [limitLoad_takeTiming]
  split <;> split <;> simp [raiseNotice_burst, beginRecovery]

theorem finishCommand_burst (res : Result) (words : List (WordIx × Word)) (s : State) :
    (finishCommand res words s).port.burst = s.port.burst := by
  unfold finishCommand
  repeat' split
  all_goals simp [requestCommandWrite_burst]

/-! ## The frame end -/

/-- The settings installed at the frame end, if any are staged, and the hold that expires at it (R190, R14). -/
def frameInstalled (s : State) : State :=
  match s.store.staged with
  | some x => expireHold (s.setStore { s.store with settings := x, staged := none })
  | none => s

/-- A command completed with OK, if its settings were staged (R190). -/
def completedIf (staged : Bool) (s : State) : State := if staged then finishCommand .ok [] s else s

@[simp] theorem completedIf_frame (b : Bool) (s : State) :
    (completedIf b s).mem = s.mem ∧ (completedIf b s).bus = s.bus ∧ (completedIf b s).wmu = s.wmu ∧
    (completedIf b s).table = s.table ∧ (completedIf b s).sets = s.sets ∧ (completedIf b s).sched = s.sched ∧
    (completedIf b s).lit = s.lit ∧ (completedIf b s).link = s.link ∧ (completedIf b s).latches = s.latches ∧
    (completedIf b s).panel = s.panel ∧ (completedIf b s).period = s.period ∧ (completedIf b s).seq = s.seq ∧
    (completedIf b s).sense = s.sense ∧ (completedIf b s).area = s.area ∧ (completedIf b s).notice = s.notice ∧
    (completedIf b s).store = s.store ∧ (completedIf b s).port.burst = s.port.burst := by
  unfold completedIf
  split <;> simp [finishCommand_burst]

/-- In LIT the frame end installs what is staged, begins the frame, and completes SETTINGS_APPLY (R106, R190). -/
theorem frameEnd_of_lit {s : State} (h : s.seq.state = .lit) :
    frameEnd s = completedIf s.store.staged.isSome (frameBegun (frameInstalled (requestBurst s))) := by
  have hl : (requestBurst s).seq.state = .lit := by simpa using h
  have hs : (requestBurst s).store = s.store := by simp
  rw [frameEnd_eq, installStaged, frameInstalled, hs]
  cases hst : s.store.staged with
  | none => rfl
  | some x => simp [installSettings_of_lit hl, completedIf]

/-- What the installation at the frame end leaves (R190). -/
@[simp] theorem frameInstalled_frame (s : State) :
    (frameInstalled s).mem = s.mem ∧ (frameInstalled s).sched = s.sched ∧ (frameInstalled s).lit = s.lit ∧
    (frameInstalled s).link = s.link ∧ (frameInstalled s).latches = s.latches ∧
    (frameInstalled s).panel = s.panel ∧ (frameInstalled s).period = s.period ∧
    (frameInstalled s).seq = s.seq ∧ (frameInstalled s).sense = s.sense ∧ (frameInstalled s).cmd = s.cmd ∧
    (frameInstalled s).area = s.area ∧
    (frameInstalled s).store = { s.store with settings := s.store.staged.getD s.store.settings, staged := none } := by
  unfold frameInstalled
  cases h : s.store.staged with
  | none =>
    have hstore : s.store = { s.store with settings := s.store.settings, staged := none } := by rw [← h]
    simpa [h] using hstore
  | some x => simp [expireHold_area]

theorem degradeHeld_burst (r : Row) (s : State) : (degradeHeld r s).port.burst = s.port.burst := by
  simp [degradeHeld, countDegraded, raiseNotice_burst]

theorem frameInstalled_burst (s : State) : (frameInstalled s).port.burst = s.port.burst := by
  unfold frameInstalled expireHold
  repeat' split
  all_goals simp [degradeHeld_burst]

/-- A hold whose counter is below the hold limit in force goes on at the frame end (R11, R14). -/
theorem frameInstalled_of_below {s : State}
    (hl : s.wmu.holdCounter < (s.store.staged.getD s.store.settings).holdLimit) :
    (frameInstalled s).wmu = s.wmu ∧ (frameInstalled s).table = s.table ∧ (frameInstalled s).sets = s.sets := by
  unfold frameInstalled
  cases hst : s.store.staged with
  | none => exact ⟨rfl, rfl, rfl⟩
  | some x =>
    dsimp only
    rw [expireHold_of_below fun _ _ => by simpa [hst] using hl]
    exact ⟨rfl, rfl, rfl⟩

/-- A hold whose counter reaches the hold limit installed at the frame end expires (R14, R190). -/
theorem frameInstalled_of_reached {s : State} {h : HeldChange} {x : Settings} (hst : s.store.staged = some x)
    (hw : s.wmu.state = .holding h) (hl : x.holdLimit ≤ s.wmu.holdCounter) (hrec : recordless s.seq.state = false) :
    (frameInstalled s).wmu.state = .idle ∧ (frameInstalled s).bus.ready = true ∧
      hasRow (frameInstalled s).sets.full h.row = true ∧
      (frameInstalled s).notice.degradedRows = min 65535 (s.notice.degradedRows + 1) ∧
      (frameInstalled s).notice.notices.getLsbD 6 = true := by
  unfold frameInstalled
  rw [hst]
  exact expireHold_reached (s := s.setStore { s.store with settings := x, staged := none }) hw hl hrec

/-- Settles O46: the period that ended joins the history; the next one starts with the index one higher, or after the
work of the frame end. -/
theorem periodsFollowOneAnother : Obligations.PeriodsFollowOneAnother := by
  intro s p hlit hp hticks hstrobed hsampled history window
  have hover : periodOver p s.period = { s.period with window := window, current := none } := by
    cases hk : p.kind <;> simp [periodOver, pushWindow, windowKind, hk, window, history, Config.windowPeriods]
  have hexec : exec .periodEnd s = .next (endPeriod p s) := by
    change execPeriodEnd s = _
    have hlong : periodLength s.period p ≤ p.tick := by
      refine le_trans (le_of_eq ?_) hticks
      cases hk : p.kind <;> simp [periodLength, hk]
    have howes : periodOwes p s.period = false := by
      cases hk : p.kind <;> simp_all [periodOwes]
    simp [execPeriodEnd, hp, stepWhen, hlit, hlong, howes]
  rw [hexec]
  refine ⟨fun hi => ?_, fun hi => ?_⟩
  · intro next
    have hend : endPeriod p s =
        startPeriod (s.setPeriod { periodOver p s.period with index := s.period.index + 1 }) := by
      unfold endPeriod
      exact congrArg startPeriod (if_neg hi)
    rw [hend, startPeriod_eq, hover]
    rfl
  · intro settings limited
    have hend : endPeriod p s = startPeriod (frameEnd (s.setPeriod (periodOver p s.period))) := by
      unfold endPeriod
      exact congrArg startPeriod (if_pos hi)
    rw [frameEnd_of_lit (by simpa using hlit), hover] at hend
    generalize hu : requestBurst (s.setPeriod { s.period with window := window, current := none }) = u at hend
    have hstaged : (s.setPeriod { s.period with window := window, current := none }).store.staged = s.store.staged :=
      rfl
    rw [hstaged] at hend
    have hustore : u.store = s.store := by simp [← hu]
    have huwmu : u.wmu = s.wmu := by simp [← hu]
    have hulink : u.link = s.link := by simp [← hu]
    have hfwmu := fun hl => frameInstalled_of_below (s := u) hl
    obtain ⟨hover, hkeeps, hdegraded⟩ := frameBegun_notices (frameInstalled u)
    obtain ⟨hfaulted, hok⟩ := frameBegun_link (frameInstalled u)
    rw [hend]
    refine ⟨_, rfl, ?_, ?_, ?_, fun hst => ?_, fun hst => ?_, fun hst h hw hl => ?_, fun h hw hl => ?_, fun ho => ?_,
      fun hf => ?_, fun hk => ?_, ?_⟩
    · rw [startPeriod_eq]
      simp [framed, ← hu, settings]
      rfl
    · simp [frameBegun_burst, frameInstalled_burst, ← hu]
    · simp [hustore, settings]
    · have hsome : s.store.staged.isSome = true := Option.isSome_iff_ne_none.2 hst
      have hfin : Finishes s (finishCommand .ok [] (frameBegun (frameInstalled u))) 0x80 :=
        finishCommand_finishes (by simp [← hu]) .ok
      simpa [Finishes, hsome, completedIf] using hfin
    · simp [hst, completedIf, ← hu]
    · obtain ⟨x, hx⟩ := Option.ne_none_iff_exists'.1 hst
      have hlimit : x.holdLimit ≤ u.wmu.holdCounter := by simpa [settings, hx, huwmu] using hl
      obtain ⟨hidle, hready, hfull, hcount, hraised⟩ := frameInstalled_of_reached (s := u) (h := h)
        (by rw [hustore, hx]) (by rw [huwmu, hw]) hlimit (by simp [← hu, hlit, recordless])
      refine ⟨by simpa using hidle, by simpa using hready, by simpa using hfull, ?_, ?_⟩
      · have hun : u.notice = s.notice := by simp [← hu]
        rw [(startPeriod_frame _).2.2.2.2.2.2.2.2.2.2.2.2.2.2.2.1,
          (completedIf_frame _ _).2.2.2.2.2.2.2.2.2.2.2.2.2.2.1,
          hdegraded, hcount, hun]
      · simpa using hkeeps 6 hraised
    · have hsame := hfwmu (by rw [hustore, huwmu]; exact hl)
      simpa [← hu] using hsame
    · have := hover (by simpa [hustore, ← hu, settings] using ho)
      simpa using this
    · simpa using hfaulted (by simpa [hulink] using hf)
    · simpa [hulink] using hok (by simpa [hulink] using hk)
    · simp [← hu]

end Sys2Proof.Machine
end

