-- ==== Sys2Proof/Proofs/Aborts.lean ====
section
/-! PROOFS. ABORT taken while RUNNING (R66, R160, R167, R191). -/

namespace Sys2Proof.Machine

open Safety

/-- An ABORT that is to be taken is taken as the processor's unit is served (R167). -/
theorem exec_abort_taken {s : State} {a : BusAddr} {d n : Word} {r : Running} (h : WritesCommand s a d 0 n)
    (hn : highByte n = 0x07) (hrun : s.cmd.running = some r) (ha : abortable s r = true) :
    exec (.abort a d) s = .next (cycleServed (takeAbort r (noteFirst s))) := by
  obtain ⟨hgap, hready, v, hdecode, hview, rfl⟩ := h
  have habort : abortable (noteFirst s) r = true := ha
  have hserved : serveCommand v 0 d (noteFirst s) = takeAbort r (noteFirst s) := by
    simp only [serveCommand, noteFirst_frame, hrun]
    exact if_pos ⟨rfl, hn, habort⟩
  have hposted : postingOf (fun c => c == 0x07) a d s = some (cycleServed (serveCommand v 0 d (noteFirst s))) := by
    have hcode : (highByte (commandResult s v 0 d) == 0x07) = true := by
      rw [beq_iff_eq]
      exact hn
    simp only [postingOf, hdecode, portGap_of_noGap hgap]
    exact if_pos (by rw [hview, hcode]; rfl)
  change busStep s (postingOf (fun c => c == 0x07) a d s) = _
  rw [hposted, hserved]
  simp only [busStep, hready, if_true]

/-- The result of a command with an ABORT taken (R168). -/
theorem finishCommand_aborted {s t : State} {r : Running} (hnone : r.result = none)
    (ht : t.cmd = { s.cmd with running := some { r with abortTaken := true } }) (words : List (WordIx × Word)) :
    (finishCommand .aborted words t).cmd.running = some
      { r with
        abortTaken := true
        result := some 0x82
        writes := r.writes ++ words ++ [(0, r.code ++ (0x82 : Byte))] } := by
  rw [finishCommand_of_running (r := { r with abortTaken := true }) (by rw [ht]) hnone]
  simp [commandWord, resultCode]

/-- The handler with the ABORT taken (R167). -/
def abortNoted (r : Running) (s : State) : State :=
  s.setCmd { s.cmd with running := some { r with abortTaken := true } }

/-- Each command is stopped by the block that carries it out (R66, R160, R191). -/
theorem takeAbort_area {r : Running} {x : AreaOp} {s : State} (hr : r.code = 0x03) (hx : s.area = some x) :
    takeAbort r s = abortArea x (abortNoted r s) := by
  unfold takeAbort abortNoted
  rw [if_pos hr]
  simp [hx]

theorem takeAbort_clear {r : Running} {s : State} (hr : r.code = 0x02) :
    takeAbort r s = if eraseFiring s then abortNoted r s else abandonErase (abortNoted r s) := by
  unfold takeAbort
  rw [if_neg (by rw [hr]; decide), if_pos hr]
  rfl

theorem takeAbort_apply {r : Running} {s : State} (hr : r.code = 0x12) :
    takeAbort r s = finishCommand .aborted []
      ((abortNoted r s).setStore { s.store with staged := none }) := by
  unfold takeAbort
  rw [if_neg (by rw [hr]; decide), if_neg (by rw [hr]; decide)]
  rfl

/-- A global erase is FIRING while its period stands before its strobe (R66). -/
theorem eraseFiring_iff (s : State) :
    eraseFiring s = true ↔ ∃ p, s.period.current = some p ∧ p.kind = .globalErase ∧ p.strobed = false := by
  unfold eraseFiring
  cases hp : s.period.current <;> simp

/-- The port may grant the area word's unit with no rank above it waiting and no unit being served (R17). -/
theorem areaGrantable_iff {s : State} (hg : areaGranted s = false) :
    areaGrantable s = true ↔ (∀ c, s.wmu.state ≠ .merging c) ∧ s.port = { burst := false, third := [] } ∧
      ∀ op, s.sched.op = some op → op.stage = .snapshot → op.asked = false := by
  have hproc : processorWaits s = false ↔ ∀ c, s.wmu.state ≠ .merging c := by
    unfold processorWaits
    cases s.wmu.state <;> simp
  have hport : s.port = { burst := false, third := [] } ↔ s.port.burst = false ∧ s.port.third = [] := by
    cases s.port; simp
  have hsnap : snapshotAsked s = false ↔ ∀ op, s.sched.op = some op → op.stage = .snapshot → op.asked = false := by
    unfold snapshotAsked
    cases s.sched.op <;> simp
  rw [areaGrantable, upperRanksEmpty, ← hproc, hport, ← hsnap, hg]
  simp [List.isEmpty_iff, and_assoc]

/-- Settles O27: the ABORT's unit takes it, and the block of the running command stops as it says. -/
theorem abortStopsTheRunningCommand : Obligations.AbortStopsTheRunningCommand := by
  intro s a d n r hwrites hn hrun hnone htaken ended
  have taken : ((r.code = 0x03 ∧ s.area ≠ none) ∨ (r.code = 0x02 ∧ s.sched.clearWaiting = true) ∨
      (r.code = 0x12 ∧ s.store.staged ≠ none)) →
      exec (.abort a d) s = .next (cycleServed (takeAbort r (noteFirst s))) := fun h =>
    exec_abort_taken hwrites hn hrun (abortable_iff.2 ⟨hnone, htaken, h⟩)
  have hended : ∀ (t : State) (words : List (WordIx × Word)),
      t.cmd = { s.cmd with running := some { r with abortTaken := true } } →
      ended (cycleServed (finishCommand .aborted words t)) words := fun t words ht => by
    have := finishCommand_aborted hnone ht words
    simpa [ended] using this
  refine ⟨fun x hr hx => ?_, fun hr hwait => ?_, fun x hr hx => ?_⟩
  · intro granted
    refine ⟨_, taken (.inl ⟨hr, by simp [hx]⟩), ?_⟩
    rw [takeAbort_area hr (by simpa using hx)]
    have hnotGranted : ¬ (x.unit == .granted) = true := by
      have := hwrites.1.2
      simpa [areaGranted, hx] using this
    have hgrantable : areaGrantable (abortNoted r (noteFirst s)) = areaGrantable s := rfl
    have hiff : granted ↔ (x.unit == .requested && areaGrantable (abortNoted r (noteFirst s))) = true ∧
        Config.firstWins s.freeCount = true := by
      rw [hgrantable, Bool.and_eq_true, beq_iff_eq, areaGrantable_iff hwrites.1.2]
      simp only [granted, and_assoc]
    unfold abortArea withdrawWord
    rw [if_neg hnotGranted]
    by_cases hreq : (x.unit == .requested && areaGrantable (abortNoted r (noteFirst s))) = true
    · rw [if_pos hreq]
      by_cases hfirst : Config.firstWins s.freeCount = true
      · rw [if_pos (show Config.firstWins (abortNoted r (noteFirst s)).freeCount = true from hfirst)]
        exact ⟨fun _ => ⟨by simp, by simp [abortNoted], by simp [abortNoted]⟩,
          fun h => absurd (hiff.2 ⟨hreq, hfirst⟩) h,
          by simp [abortNoted, SameRecords, SameDrive]⟩
      · rw [if_neg (show ¬ Config.firstWins (abortNoted r (noteFirst s)).freeCount = true from hfirst)]
        exact ⟨fun h => absurd (hiff.1 h).2 hfirst, fun _ => ⟨by simp [completeArea], hended _ _ rfl⟩,
          by simp [abortNoted, SameRecords, SameDrive]⟩
    · rw [if_neg hreq]
      exact ⟨fun h => absurd (hiff.1 h).1 hreq, fun _ => ⟨by simp [completeArea], hended _ _ rfl⟩,
        by simp [abortNoted, SameRecords, SameDrive]⟩
  · refine ⟨_, taken (.inr (.inl ⟨hr, hwait⟩)), ?_⟩
    have hfiring : eraseFiring (noteFirst s) = eraseFiring s := by simp [eraseFiring]
    rw [takeAbort_clear hr, hfiring]
    by_cases hf : eraseFiring s = true
    · rw [if_pos hf, if_pos ((eraseFiring_iff s).1 hf)]
      simp [abortNoted, SameDrive]
    · rw [if_neg hf, if_neg (mt (eraseFiring_iff s).2 hf)]
      have hends : ended (cycleServed (abandonErase (abortNoted r (noteFirst s)))) [] :=
        hended ((abortNoted r (noteFirst s)).setSched _) [] rfl
      exact ⟨by simp [abortNoted], by simp [abortNoted], by simp [abortNoted], by simp [abortNoted],
        by simp [abortNoted, SameDrive], by simp [abortNoted], by simp [abortNoted],
        by simp [abandonErase_sched, abortNoted], hends⟩
  · refine ⟨_, taken (.inr (.inr ⟨hr, by simp [hx]⟩)), ?_⟩
    rw [takeAbort_apply hr]
    exact ⟨hended _ _ rfl, by simp, by simp [abortNoted], by simp [abortNoted, SameRecords],
      by simp [abortNoted, SameDrive], by simp [abortNoted]⟩

end Sys2Proof.Machine
end

