-- ==== Sys2Proof/Proofs/StatusBursts.lean ====
section
/-! PROOFS. The status burst (R177, R178) and the layout of the status record (R194). -/

namespace Sys2Proof.Machine

open Safety

/-! ## Many writes at once -/

/-- A word written once by several writes reads what that write wrote. -/
theorem cellsRead_cellsWriteAll_of_mem {α : Type} [DecidableEq α] {d : α} {a : Nat} {v : α} (l : List (Nat × α)) :
    ∀ {m : Cells α}, CellsWf d m → (l.map Prod.fst).Nodup → (a, v) ∈ l → cellsRead d (cellsWriteAll d m l) a = v := by
  induction l with
  | nil => exact fun _ _ h => absurd h List.not_mem_nil
  | cons p l ih =>
    intro m hm hnodup hmem
    obtain ⟨hfresh, hnodup⟩ := List.nodup_cons.1 hnodup
    obtain rfl | hmem := List.mem_cons.1 hmem
    · refine (cellsRead_cellsWriteAll_ne l (cellsWrite d m a v) fun q hq hqa => ?_).trans
        (cellsRead_cellsWrite_self a v hm)
      exact hfresh (List.mem_map.2 ⟨q, hq, hqa.symm⟩)
    · exact ih (cellsWf_write p.1 p.2 hm) hnodup hmem

/-- The burst writes word k of the record at its place in the status row (R178). -/
theorem readMem_burstUnit {s : State} (h : Memory.wf s.mem) {k : Nat} (hk : k < 32) :
    readMem (burstUnit s) (16416 + k) = statusWord s k := by
  have hmem : (burstUnit s).mem = cellsWriteAll Config.blankWord s.mem (statusRecord s) := by simp [burstUnit]
  have hnodup : ((statusRecord s).map Prod.fst).Nodup := by
    rw [statusRecord, List.map_map]
    exact List.nodup_range.map fun i j hij => Nat.add_left_cancel hij
  rw [readMem, hmem]
  exact cellsRead_cellsWriteAll_of_mem _ h.1 hnodup (List.mem_map.2 ⟨k, List.mem_range.2 hk, rfl⟩)

/-- The burst leaves every word out of the status row (R178). -/
theorem readMem_burstUnit_of_out {s : State} {x : Nat} (h : x < 16416 ∨ 16447 < x) :
    readMem (burstUnit s) x = readMem s x := by
  have hmem : (burstUnit s).mem = cellsWriteAll Config.blankWord s.mem (statusRecord s) := by simp [burstUnit]
  rw [readMem, hmem]
  refine cellsRead_cellsWriteAll_ne _ _ fun p hp => ?_
  obtain ⟨k, hk, rfl⟩ := List.mem_map.1 hp
  have := List.mem_range.1 hk
  simp only [Config.statusBase]
  omega

/-! ## The layout of the record -/

theorem toNat_append_add {m n : Nat} (x : BitVec m) (y : BitVec n) : (x ++ y).toNat = x.toNat * 2 ^ n + y.toNat := by
  rw [BitVec.toNat_append, ← Nat.shiftLeft_add_eq_or_of_lt y.isLt, Nat.shiftLeft_eq]

/-- The state word, field by field (R194). -/
theorem stateWord_toNat {s : State} (h : s.sense.runCount < 4) :
    (stateWord s).toNat = (seqCode s.seq.state).toNat + 8 * s.seq.blanked.toNat + 16 * s.seq.filtered.toNat +
      32 * (s.link.state == .faulted).toNat + 64 * s.cmd.setupOpen.toNat + 128 * s.sense.holdOff.toNat +
      256 * s.sense.runCount + 1024 * (causeBit s.notice.cause).toNat := by
  have hrun : (BitVec.ofNat 2 s.sense.runCount).toNat = s.sense.runCount := Nat.mod_eq_of_lt h
  rw [stateWord, BitVec.toNat_setWidth_of_le (by decide)]
  simp only [toNat_append_add, BitVec.toNat_ofBool, hrun]
  omega

/-- The words behind the counters read 0 (R194). -/
theorem statusWord_of_rest {s : State} {k : Nat} (h : 14 ≤ k) : statusWord s k = 0 := by
  obtain ⟨j, rfl⟩ := Nat.exists_eq_add_of_le h
  rw [Nat.add_comm]
  rfl

/-- Settles O34: each word of the record is the state's, at its place; the expiry requests the burst. -/
theorem statusBurstWritesTheRecord : Obligations.StatusBurstWritesTheRecord := by
  refine ⟨fun s hlit hexpired => ?_, fun s hwf hburst hidle hgranted hm he hrun => ?_⟩
  · change execBurstTimerExpiry s = _
    have hdue : (s.seq.state != .lit && s.notice.burstExpired) = true := by simp [hlit, hexpired]
    rw [execBurstTimerExpiry, stepWhen, if_pos hdue]
    congr 1
    unfold requestBurst
    cases hb : s.port.burst with
    | true =>
      have hport : s.port = { s.port with burst := true } := by rw [← hb]
      simp only [State.setNotice_port, hb, if_true]
      rw [← hport]
      rfl
    | false =>
      simp only [State.setNotice_port, hb, Bool.false_eq_true, if_false]
      rfl
  · have hexec : exec .statusBurst s = .next (burstUnit s) := by
      change execStatusBurst s = _
      simp [execStatusBurst, stepWhen, processorWaits_eq_false hidle, hgranted, hburst]
    have hword : ∀ k, k < 32 → readMem (burstUnit s) (16416 + k) = statusWord s k := fun k hk =>
      readMem_burstUnit hwf hk
    refine ⟨_, hexec, by simp [burstUnit], unitEnds_record _ _, fun x hx => readMem_burstUnit_of_out hx, ?_, ?_, ?_,
      hword 3 (by omega), hword 4 (by omega), ?_, ?_, hword 7 (by omega), hword 8 (by omega), hword 9 (by omega),
      hword 10 (by omega), hword 11 (by omega), hword 12 (by omega), hword 13 (by omega), fun k hk hk' => ?_, ?_⟩
    · rw [hword 0 (by omega)]
      exact BitVec.toNat_setWidth_of_le (by decide)
    · have hcause : causeBit s.notice.cause = (s.notice.cause == .resetInput) := by cases s.notice.cause <;> rfl
      rw [hword 1 (by omega), ← hcause]
      refine (stateWord_toNat hrun).trans ?_
      cases s.seq.state <;> rfl
    · rw [hword 2 (by omega)]
      exact BitVec.toNat_setWidth_of_le (by decide)
    · rw [hword 5 (by omega)]
      exact (BitVec.toNat_setWidth_of_le (by decide)).trans (Nat.mod_eq_of_lt hm)
    · rw [hword 6 (by omega)]
      exact (BitVec.toNat_setWidth_of_le (by decide)).trans (Nat.mod_eq_of_lt he)
    · rw [hword k hk']
      exact statusWord_of_rest hk
    · simp [burstUnit, SameRecords, SameDrive]

end Sys2Proof.Machine
end

