-- ==== Sys2Proof/Proofs/RowPhases.lean ====
section
/-! PROOFS. The phases of a row operation as the statements say them: the modules handed, the start of a phase, its
completion, and loading past a module (R55, R56, R60, R78). -/

namespace Sys2Proof.Machine

open Safety

/-! ## Masks and modules -/

theorem getLsbD_maskSlice (mask : Mask) (m : ModuleNo) {i : Nat} (hi : i < 64) :
    (maskSlice mask m).getLsbD i = mask.getLsbD (64 * (7 - m.val) + i) := by simp [maskSlice, hi]

/-- The empty mask, as the model writes it, has no cell. -/
theorem getLsbD_noCells {n : Nat} (i : Nat) : (0 : BitVec n).getLsbD i = false := BitVec.getLsbD_zero

theorem mem_allModules (m : ModuleNo) : m ∈ allModules := by
  revert m
  decide

theorem hasModule_not (q : ModuleSet) (m : ModuleNo) : hasModule (~~~q) m = !hasModule q m := by
  simp [hasModule, m.isLt]

theorem getLsbD_sliceCells_allOnes (m : ModuleNo) {i : Nat} (hi : i < 512) :
    (sliceCells m (BitVec.allOnes 64)).getLsbD i = decide (i / 64 = 7 - m.val) := by
  have hm := m.isLt
  simp only [sliceCells, BitVec.getLsbD_shiftLeft, BitVec.getLsbD_setWidth, BitVec.getLsbD_allOnes, hi, decide_true,
    Bool.true_and]
  rw [Bool.eq_iff_iff]
  simp only [Bool.and_eq_true, Bool.not_eq_true', decide_eq_false_iff_not, decide_eq_true_eq]
  omega

theorem getLsbD_foldl_or {α : Type} (p : α → Bool) (f : α → Mask) (i : Nat) (l : List α) (acc : Mask) :
    (l.foldl (fun acc a => if p a then acc ||| f a else acc) acc).getLsbD i =
      (acc.getLsbD i || l.any (fun a => p a && (f a).getLsbD i)) := by
  induction l generalizing acc with
  | nil => simp
  | cons a l ih =>
    rw [List.foldl_cons, ih, List.any_cons]
    cases hp : p a <;> simp [Bool.or_assoc]

/-- The columns of a set of modules: those whose slice belongs to one of them (R53). -/
theorem getLsbD_moduleColumns (q : ModuleSet) (m : ModuleNo) {i : Nat} (hi : i < 64) :
    (moduleColumns q).getLsbD (64 * (7 - m.val) + i) = hasModule q m := by
  have hm := m.isLt
  have hcol : 64 * (7 - m.val) + i < 512 := by omega
  have slot : ∀ n : ModuleNo, ((64 * (7 - m.val) + i) / 64 = 7 - n.val) ↔ n = m := fun n => by
    have hn := n.isLt
    rw [Fin.ext_iff]
    omega
  rw [moduleColumns, getLsbD_foldl_or, Bool.eq_iff_iff]
  simp only [getLsbD_noCells, Bool.false_or, List.any_eq_true, Bool.and_eq_true,
    getLsbD_sliceCells_allOnes _ hcol, decide_eq_true_eq, slot]
  constructor
  · rintro ⟨n, -, hn, rfl⟩
    exact hn
  · exact fun h => ⟨m, mem_allModules m, h, rfl⟩

/-- No PRESENT module has a cell of a mask just where each slice with a cell is a FAILED module's (R55). -/
theorem presentCells_eq_zero_iff (failed : ModuleSet) (mask : Mask) :
    presentCells failed mask = 0 ↔ ∀ m, hasModule failed m = false → maskSlice mask m = 0 := by
  constructor
  · refine fun h m hm => BitVec.eq_of_getLsbD_eq fun i hi => ?_
    have hcol := congrArg (fun v => v.getLsbD (64 * (7 - m.val) + i)) h
    simp only [BitVec.getLsbD_and, getLsbD_moduleColumns _ m hi, hasModule_not, hm, Bool.not_false, Bool.and_true,
      getLsbD_noCells] at hcol
    rw [getLsbD_maskSlice mask m hi, hcol, getLsbD_noCells]
  · refine fun h => BitVec.eq_of_getLsbD_eq fun i hi => ?_
    obtain ⟨m, j, hj, rfl⟩ : ∃ (m : ModuleNo) (j : Nat), j < 64 ∧ i = 64 * (7 - m.val) + j :=
      ⟨⟨7 - i / 64, by omega⟩, i % 64, by omega, by simp only []; omega⟩
    rw [BitVec.getLsbD_and, getLsbD_moduleColumns _ m hj, hasModule_not, getLsbD_noCells]
    cases hm : hasModule failed m with
    | true => simp
    | false =>
      have hcell := getLsbD_maskSlice mask m hj
      rw [h m hm, getLsbD_noCells] at hcell
      simp [← hcell]

theorem presentSlices_eq (failed : ModuleSet) (mask : Mask) :
    presentSlices failed mask = handedModules failed mask := by
  simp only [presentSlices, slicedModules, handedModules, List.filter_filter, allModules]

theorem handedModules_eq_nil (failed : ModuleSet) (mask : Mask) :
    handedModules failed mask = [] ↔ presentCells failed mask = 0 := by
  rw [presentCells_eq_zero_iff, ← presentSlices_eq, presentSlices, slicedModules, List.filter_filter,
    List.filter_eq_nil_iff]
  simp only [mem_allModules, true_imp_iff, Bool.and_eq_true, Bool.not_eq_true', bne_iff_ne, not_and, ne_eq,
    Classical.not_not]

/-- A slice without a cell has none to drop. -/
theorem cellCount_zero : cellCount 0 = 0 := by simp [cellCount]

theorem cellsDropped_eq (failed : ModuleSet) (mask : Mask) : cellsDropped failed mask = failedCells failed mask := by
  simp only [cellsDropped, failedCells, slicedModules, List.filter_filter]
  induction allModules with
  | nil => rfl
  | cons m l ih =>
    rw [List.filter_cons, List.filter_cons]
    cases hasModule failed m with
    | false => simpa only [Bool.false_and, Bool.false_eq_true, if_false] using ih
    | true =>
      by_cases hc : maskSlice mask m = 0
      · simpa only [hc, bne_self_eq_false, Bool.and_false, Bool.false_eq_true, if_false, if_true, List.map_cons,
          List.sum_cons, cellCount_zero, Nat.zero_add] using ih
      · simpa only [bne_iff_ne.2 hc, Bool.and_true, if_true, List.map_cons, List.sum_cons,
          Nat.add_left_cancel_iff] using ih

theorem presentCells_or (failed : ModuleSet) (a b : Mask) :
    presentCells failed (a ||| b) = 0 ↔ presentCells failed a = 0 ∧ presentCells failed b = 0 := by
  have joined : presentCells failed (a ||| b) = presentCells failed a ||| presentCells failed b := by
    simp only [presentCells, BitVec.and_comm _ (moduleColumns _), BitVec.and_or_distrib_left]
  rw [joined]
  exact BitVec.or_eq_zero_iff

/-! ## The dropped cells and the counters of the notices -/

/-- Between two states the notices, the attention line and the counters have stayed, but that cells were dropped and
entries annulled (R28, R55). -/
def CountsKept (s t : State) : Prop :=
  t.notice = { s.notice with droppedCells := t.notice.droppedCells, annulled := t.notice.annulled }

theorem CountsKept.refl (s : State) : CountsKept s s := rfl

theorem CountsKept.of_eq {s t : State} (h : t.notice = s.notice) : CountsKept s t := by
  rw [CountsKept, h]

theorem CountsKept.trans {s t u : State} (h : CountsKept s t) (k : CountsKept t u) : CountsKept s u := by
  rw [CountsKept] at *
  rw [k, h]

theorem CountsKept.notices {s t : State} (h : CountsKept s t) : t.notice.notices = s.notice.notices :=
  (congrArg NoticeUnit.notices h :)

theorem CountsKept.contentions {s t : State} (h : CountsKept s t) : t.notice.contentions = s.notice.contentions :=
  (congrArg NoticeUnit.contentions h :)

theorem CountsKept.retries {s t : State} (h : CountsKept s t) : t.notice.retries = s.notice.retries :=
  (congrArg NoticeUnit.retries h :)

/-- Between two states the notices, the attention line and the counters have stayed, but that entries were annulled. -/
def AnnulsOnly (s t : State) : Prop := t.notice = { s.notice with annulled := t.notice.annulled }

theorem AnnulsOnly.of_eq {s t : State} (h : t.notice = s.notice) : AnnulsOnly s t := by
  rw [AnnulsOnly, h]

theorem AnnulsOnly.trans {s t u : State} (h : AnnulsOnly s t) (k : AnnulsOnly t u) : AnnulsOnly s u := by
  rw [AnnulsOnly] at *
  rw [k, h]

theorem AnnulsOnly.countsKept {s t : State} (h : AnnulsOnly s t) : CountsKept s t := by
  rw [CountsKept, h]

theorem AnnulsOnly.droppedCells {s t : State} (h : AnnulsOnly s t) :
    t.notice.droppedCells = s.notice.droppedCells := (congrArg NoticeUnit.droppedCells h :)

/-- A hold settled counts annulments, and nothing else (R28). -/
theorem settleHold_annulsOnly (s : State) : AnnulsOnly s (settleHold s) := by
  unfold AnnulsOnly
  have offered : ∀ (h : HeldChange) (u : State),
      (offerHeld h u).notice = { u.notice with annulled := (offerHeld h u).notice.annulled } := fun h u => by
    obtain ⟨m, hm, heq⟩ | ⟨-, heq⟩ := offerHeld_cases h u
    · obtain ⟨-, rfl⟩ | ⟨-, e, e', -, -, ⟨-, rfl⟩ | ⟨-, rfl⟩⟩ | ⟨-, -, -, rfl⟩ := mergeDifference_cases hm <;>
        simp [heq, countAnnulled]
    · rw [heq]
  obtain ⟨-, hs⟩ | ⟨h, -, ⟨-, hs⟩ | ⟨-, -, hs⟩ | ⟨-, -, hs | hs⟩⟩ := settleHold_cases s
  · rw [hs]
  · simp [hs]
  · rw [hs]
    exact offered h s
  · simp [hs, grantArea]
  · rw [hs]
    exact offered h (drawFree s)

theorem countDropped_countsKept (n : Nat) (s : State) : CountsKept s (countDropped n s) := rfl

/-- Counters that saturate one after the other have counted the sum. -/
theorem Drops.trans {s t u : State} {m n : Nat} (h : Drops s t m) (k : Drops t u n) : Drops s u (m + n) := by
  rw [Drops] at *
  omega

theorem Drops.of_eq {s t u : State} {n : Nat} (h : Drops s t n)
    (k : u.notice.droppedCells = t.notice.droppedCells) : Drops s u n := k.trans h

theorem countDropped_drops (n : Nat) (s : State) : Drops s (countDropped n s) n := rfl

/-! ## What the scheduler's operations leave of the link and of the scheduler -/

/-- The link's state, its FAILED modules and its round have stayed, and so have the run count and clear waiting. -/
def RowKept (s t : State) : Prop :=
  t.link.state = s.link.state ∧ t.link.failed = s.link.failed ∧ t.link.round = s.link.round ∧
    t.sched.runCount = s.sched.runCount ∧ t.sched.clearWaiting = s.sched.clearWaiting

theorem RowKept.trans {s t u : State} (h : RowKept s t) (k : RowKept t u) : RowKept s u := by
  obtain ⟨hstate, hfailed, hround, hrun, hclear⟩ := h
  obtain ⟨kstate, kfailed, kround, krun, kclear⟩ := k
  exact ⟨kstate.trans hstate, kfailed.trans hfailed, kround.trans hround, krun.trans hrun, kclear.trans hclear⟩

theorem RowKept.of_eq {s t : State} (hl : t.link = s.link) (hs : t.sched = s.sched) : RowKept s t := by
  simp [RowKept, hl, hs]

theorem handSlice_rowKept (v : Slice) (s : State) : RowKept s (handSlice v s) := by
  unfold handSlice
  split <;> exact ⟨rfl, rfl, rfl, rfl, rfl⟩

theorem handFirst_rowKept (v : Slice) (s : State) : RowKept s (handFirst v s) := by
  unfold handFirst
  split
  · split
    · split <;> exact ⟨rfl, rfl, rfl, rfl, rfl⟩
    · exact ⟨rfl, rfl, rfl, rfl, rfl⟩
  · exact handSlice_rowKept v s

theorem completeOp_rowKept (op : RowOp) (s : State) : RowKept s (completeOp op s) := by
  have hlink : (completeOp op s).link = s.link := by simp
  have hsched : (completeOp op s).sched = { s.sched with op := none } := by simp [completeOp, setOp]
  exact ⟨by rw [hlink], by rw [hlink], by rw [hlink], by rw [hsched], by rw [hsched]⟩

theorem enterLoading_rowKept (op : RowOp) (m : ModuleNo) (rest : List ModuleNo) (s : State) :
    RowKept s (enterLoading op m rest s) :=
  .trans (t := setOp (some { op with stage := .loading, loaded := 0, toHand := rest }) s) ⟨rfl, rfl, rfl, rfl, rfl⟩
    (handFirst_rowKept _ _)

theorem countDropped_rowKept (n : Nat) (s : State) : RowKept s (countDropped n s) := .of_eq rfl rfl

theorem startWrite_rowKept (op : RowOp) (s : State) : RowKept s (startWrite op s) := by
  unfold startWrite
  dsimp only
  split
  · exact (countDropped_rowKept _ s).trans (completeOp_rowKept _ _)
  · exact (countDropped_rowKept _ s).trans (enterLoading_rowKept _ _ _ _)

theorem startErase_rowKept (op : RowOp) (s : State) : RowKept s (startErase op s) := by
  unfold startErase
  dsimp only
  split
  · exact (countDropped_rowKept _ s).trans (startWrite_rowKept _ _)
  · exact (countDropped_rowKept _ s).trans (enterLoading_rowKept _ _ _ _)

theorem phaseDone_rowKept (op : RowOp) (s : State) : RowKept s (phaseDone op s) := by
  unfold phaseDone
  split
  · exact startWrite_rowKept _ s
  · exact completeOp_rowKept _ s

theorem loadNext_rowKept (op : RowOp) (s : State) : RowKept s (loadNext op s) := by
  unfold loadNext
  split
  · exact .trans (t := setOp _ s) ⟨rfl, rfl, rfl, rfl, rfl⟩ (handSlice_rowKept _ _)
  · split
    · exact phaseDone_rowKept op s
    · exact ⟨rfl, rfl, rfl, rfl, rfl⟩

/-! ## The completion of an operation -/

theorem completeOp_op (op : RowOp) (s : State) : (completeOp op s).sched.op = none := by simp [completeOp, setOp]

theorem completeOp_annulsOnly (op : RowOp) (s : State) : AnnulsOnly s (completeOp op s) := by
  unfold completeOp freeTaken
  split
  · exact settleHold_annulsOnly _
  · exact .of_eq rfl

/-- A DELTA that completes frees its slot, and a hold is settled (R30, R60). -/
theorem completeOp_settled {op : RowOp} {b s : State} (hk : op.kind = .delta) (h : SameHold b (slotFreed s)) :
    HoldSettled b (completeOp op s) := by
  have heq : completeOp op s = settleHold (slotFreed s) := by
    rw [completeOp, hk]
    rfl
  exact h.settled (by rw [heq]) (by rw [heq]) (by rw [heq]) (by rw [heq])

theorem completeOp_taken {op : RowOp} (hk : op.kind = .delta) (s : State) : (completeOp op s).table.taken = none := by
  rw [completeOp, hk]
  simp [freeTaken]

/-! ## The first slice of a phase -/

theorem sending_congr {s t : State} (h : t.store = s.store) (m : Message) (l : DriverLink) :
    sending t m l = sending s m l := by rw [sending, sending, h]

theorem nextProbe_eq (s : State) : nextProbe s = probeDue s.link := by
  unfold nextProbe probeDue
  cases s.link.round <;> rfl

/-- While a message is on the link, a slice waits for its end. -/
theorem handFirst_waits {v : Slice} {s : State} (h : s.link.message ≠ none) :
    (handFirst v s).link = { s.link with waiting := some v } := by
  have hsome : s.link.message.isSome = true := Option.isSome_iff_ne_none.2 h
  have hnone : s.link.message.isNone = false := by rw [Option.isNone_eq_false_iff, hsome]
  rw [handFirst, hnone, Bool.false_and, if_neg Bool.false_ne_true, handSlice, if_pos hsome]
  rfl

/-- On a free link either the slice or a probe that is due is sent first (log 7). -/
theorem handFirst_sends {v : Slice} {s : State} (h : s.link.message = none) :
    (handFirst v s).link = sending s (loadMessageOf v) s.link ∨
      ∃ m, probeDue s.link = some m ∧
        (handFirst v s).link = sending s (probeOf m) { s.link with waiting := some v } := by
  have hnone : s.link.message.isNone = true := Option.isNone_iff_eq_none.2 h
  have hsome : ¬ s.link.message.isSome = true := by rw [h]; exact Bool.false_ne_true
  unfold handFirst
  rw [hnone, Bool.true_and]
  split
  · split
    · next m hm =>
      split
      · exact .inl rfl
      · exact .inr ⟨m, by rw [← nextProbe_eq, hm], rfl⟩
    · next hm => simp [hm] at *
  · rw [handSlice, if_neg hsome]
    exact .inl rfl

theorem handFirst_hands (v : Slice) (s : State) : HandsFirst s.link (handFirst v s) v := by
  have hstore : (handFirst v s).store = s.store := by simp
  simp only [HandsFirst, sending_congr hstore]
  exact ⟨handFirst_waits, handFirst_sends⟩

/-- With the link free before it, a message is on the link once the first slice is handed. -/
theorem HandsFirst.message {l : DriverLink} {t : State} {v : Slice} (h : HandsFirst l t v) (hl : l.message = none) :
    t.link.message ≠ none := by
  obtain hsent | ⟨m, -, hsent⟩ := h.2 hl <;> rw [hsent] <;> exact nofun

theorem enterLoading_op (op : RowOp) (m : ModuleNo) (rest : List ModuleNo) (s : State) :
    (enterLoading op m rest s).sched.op = some { op with stage := .loading, loaded := 0, toHand := rest } := by
  simp [enterLoading, setOp]

theorem enterLoading_loads {op : RowOp} {p : OpPhase} {m : ModuleNo} {rest : List ModuleNo} {s : State}
    (hp : op.phase = p) (hc : p ≠ .complete)
    (hlist : handedModules s.link.failed (if p = .erase then op.eraseMask else op.writeMask) = m :: rest)
    (hw : p = .write → op.eraseDone = true) : Loads s.link (enterLoading op m rest s) op p := by
  have hslice : phaseSlice { op with stage := .loading, loaded := 0, toHand := rest } m =
      { modNo := m, phase := if p = .erase then .erase else .write
        cells := maskSlice (if p = .erase then op.eraseMask else op.writeMask) m } := by
    simp only [phaseSlice, workingPhase, hp]
    cases p with
    | complete => exact absurd rfl hc
    | erase => rfl
    | write => rfl
  refine ⟨_, enterLoading_op op m rest s, rfl, rfl, rfl, rfl, hp, rfl, rfl, hw, rfl, rfl, m, hlist, ?_⟩
  rw [← hslice]
  exact handFirst_hands _ (setOp (some { op with stage := .loading, loaded := 0, toHand := rest }) s)

/-! ## The start of a phase -/

/-- With a cell in a PRESENT module the write phase is LOADING, and without one the operation completes (R55, R60). -/
theorem startWrite_eq (op : RowOp) (s : State) :
    startWrite op s =
      match handedModules s.link.failed op.writeMask with
      | [] => completeOp { op with phase := .complete, writeDone := true }
          (countDropped (failedCells s.link.failed op.writeMask) s)
      | m :: rest => enterLoading { op with phase := .write } m rest
          (countDropped (failedCells s.link.failed op.writeMask) s) := by
  rw [← cellsDropped_eq, ← presentSlices_eq]
  rfl

theorem startWrite_passed {op : RowOp} {s : State} (h : presentCells s.link.failed op.writeMask = 0) :
    startWrite op s = completeOp { op with phase := .complete, writeDone := true }
      (countDropped (failedCells s.link.failed op.writeMask) s) := by
  rw [startWrite_eq, (handedModules_eq_nil _ _).2 h]

theorem startWrite_enters {op : RowOp} {s : State} (h : presentCells s.link.failed op.writeMask ≠ 0) :
    ∃ m rest, handedModules s.link.failed op.writeMask = m :: rest ∧
      startWrite op s = enterLoading { op with phase := .write } m rest
        (countDropped (failedCells s.link.failed op.writeMask) s) := by
  rw [startWrite_eq]
  cases hlist : handedModules s.link.failed op.writeMask with
  | nil => exact absurd ((handedModules_eq_nil _ _).1 hlist) h
  | cons m rest => exact ⟨m, rest, rfl, rfl⟩

theorem startWrite_loads {op : RowOp} {s : State} (hd : op.eraseDone = true)
    (h : presentCells s.link.failed op.writeMask ≠ 0) : Loads s.link (startWrite op s) op .write := by
  obtain ⟨m, rest, hlist, heq⟩ := startWrite_enters h
  rw [heq]
  exact enterLoading_loads (op := { op with phase := .write })
    (s := countDropped (failedCells s.link.failed op.writeMask) s) rfl nofun hlist fun _ => hd

theorem startWrite_starts {op : RowOp} {s : State} (hd : op.eraseDone = true) :
    WriteStarts s.link s.link (startWrite op s) op := by
  unfold WriteStarts
  split
  · next h => exact startWrite_loads hd h
  · next h =>
    rw [startWrite_passed (Classical.not_not.1 h)]
    exact ⟨completeOp_op _ _, by simp, fun hk => completeOp_taken hk _⟩

theorem startWrite_droppedCells (op : RowOp) (s : State) :
    Drops s (startWrite op s) (failedCells s.link.failed op.writeMask) := by
  rw [startWrite_eq]
  split
  · exact Drops.of_eq (countDropped_drops _ s) (completeOp_annulsOnly _ _).droppedCells
  · exact Drops.of_eq (countDropped_drops _ s) (by simp)

theorem startWrite_countsKept (op : RowOp) (s : State) : CountsKept s (startWrite op s) := by
  rw [startWrite_eq]
  split
  · exact (countDropped_countsKept _ s).trans (completeOp_annulsOnly _ _).countsKept
  · exact (countDropped_countsKept (failedCells s.link.failed op.writeMask) s).trans (.of_eq (by simp))

/-- A DELTA whose write phase is passed over frees its slot, and a hold is settled (R30, R60). -/
theorem startWrite_settled {op : RowOp} {b s : State} (hk : op.kind = .delta)
    (h : presentCells s.link.failed op.writeMask = 0) (hb : SameHold b (slotFreed s)) :
    HoldSettled b (startWrite op s) := by
  rw [startWrite_passed h]
  exact completeOp_settled hk hb

theorem startErase_eq (op : RowOp) (s : State) :
    startErase op s =
      match handedModules s.link.failed op.eraseMask with
      | [] => startWrite { op with eraseDone := true } (countDropped (failedCells s.link.failed op.eraseMask) s)
      | m :: rest => enterLoading { op with phase := .erase } m rest
          (countDropped (failedCells s.link.failed op.eraseMask) s) := by
  rw [← cellsDropped_eq, ← presentSlices_eq]
  rfl

theorem startErase_passed {op : RowOp} {s : State} (h : presentCells s.link.failed op.eraseMask = 0) :
    startErase op s =
      startWrite { op with eraseDone := true } (countDropped (failedCells s.link.failed op.eraseMask) s) := by
  rw [startErase_eq, (handedModules_eq_nil _ _).2 h]

theorem startErase_enters {op : RowOp} {s : State} (h : presentCells s.link.failed op.eraseMask ≠ 0) :
    ∃ m rest, handedModules s.link.failed op.eraseMask = m :: rest ∧
      startErase op s = enterLoading { op with phase := .erase } m rest
        (countDropped (failedCells s.link.failed op.eraseMask) s) := by
  rw [startErase_eq]
  cases hlist : handedModules s.link.failed op.eraseMask with
  | nil => exact absurd ((handedModules_eq_nil _ _).1 hlist) h
  | cons m rest => exact ⟨m, rest, rfl, rfl⟩

theorem startErase_starts (op : RowOp) (s : State) : EraseStarts s.link (startErase op s) op := by
  unfold EraseStarts
  split
  · next h =>
    obtain ⟨m, rest, hlist, heq⟩ := startErase_enters h
    rw [heq]
    exact enterLoading_loads (op := { op with phase := .erase })
      (s := countDropped (failedCells s.link.failed op.eraseMask) s) rfl nofun hlist nofun
  · next h =>
    rw [startErase_passed (Classical.not_not.1 h)]
    exact startWrite_starts (op := { op with eraseDone := true })
      (s := countDropped (failedCells s.link.failed op.eraseMask) s) rfl

theorem startErase_droppedCells (op : RowOp) (s : State) :
    Drops s (startErase op s) (failedCellsFromErase s.link.failed op) := by
  unfold failedCellsFromErase
  split
  · next h =>
    rw [startErase_passed h]
    exact Drops.trans (countDropped_drops _ s)
      (startWrite_droppedCells { op with eraseDone := true } (countDropped _ s))
  · next h =>
    obtain ⟨m, rest, -, heq⟩ := startErase_enters h
    rw [heq]
    exact Drops.of_eq (countDropped_drops _ s) (by simp)

/-! ## Loading past a module -/

theorem phaseDone_starts {op : RowOp} {s : State} (hp : op.phase = .erase) :
    WriteStarts s.link s.link (phaseDone op s) op := by
  rw [phaseDone, hp]
  exact startWrite_starts (op := { op with eraseDone := true, loaded := 0 }) rfl

theorem phaseDone_completes {op : RowOp} {s : State} (hp : op.phase = .write) :
    phaseDone op s = completeOp { op with phase := .complete, writeDone := true, loaded := 0 } s := by
  rw [phaseDone, hp]

theorem linkNext_of_message {s : State} (h : s.link.message ≠ none) : linkNext s = s := by
  rw [linkNext_eq, linkServed, if_pos (.inr h)]
  rfl

/-- Past a module with its message ended, loading goes on, and a link then free sends its next work (R56, R78). -/
theorem loadNext_goesOn (op : RowOp) {s : State} (hm : s.link.message = none) :
    LoadingGoesOn s.link (linkNext (loadNext op s)) op := by
  have served : ∀ u : State, u.link = s.link → (linkNext u).link = linkServed (linkNext u) s.link := fun u hu => by
    rw [linkNext_link, hu]
    exact linkServed_congr (by simp) (by simp) _
  unfold LoadingGoesOn
  cases hh : op.toHand with
  | cons m rest =>
    have hsome : ¬ s.link.message.isSome = true := by rw [hm]; exact Bool.false_ne_true
    have hsent : loadNext op s = beginMessage (loadMessageOf (phaseSlice { op with toHand := rest } m))
        (setOp (some { op with toHand := rest }) s) := by
      rw [loadNext, hh]
      exact if_neg hsome
    dsimp only
    rw [hsent, linkNext_of_message (by exact nofun)]
    exact ⟨rfl, rfl⟩
  | nil =>
    have hnext : loadNext op s = if op.loaded = 0 then phaseDone op s
        else setOp (some { op with stage := .ready }) s := by rw [loadNext, hh]
    dsimp only
    rw [hnext]
    refine ⟨fun hl => ?_, fun hl hp => ?_, fun hl hp => ?_⟩
    · rw [if_neg hl]
      exact ⟨by simp [setOp, hh], served _ rfl⟩
    · rw [if_pos hl]
      have hstarts := phaseDone_starts (s := s) hp
      unfold WriteStarts at hstarts ⊢
      split
      · next hc =>
        rw [if_pos hc] at hstarts
        obtain ⟨o, ho, hkind, hrow, hem, hwm, hph, hst, hld, hed, hwd, hdue, m, hlist, hands⟩ := hstarts
        rw [linkNext_of_message (HandsFirst.message hands hm)]
        exact ⟨o, ho, hkind, hrow, hem, hwm, hph, hst, hld, hed, hwd, hdue, m, hlist, hands⟩
      · next hc =>
        rw [if_neg hc] at hstarts
        obtain ⟨hop, hlink, htaken⟩ := hstarts
        exact ⟨by simp [hop], served _ hlink, fun hk => by simp [htaken hk]⟩
    · rw [if_pos hl, phaseDone_completes hp]
      exact ⟨by simp [completeOp_op], served _ (by simp)⟩

theorem phaseDone_countsKept (op : RowOp) (s : State) : CountsKept s (phaseDone op s) := by
  unfold phaseDone
  split
  · exact startWrite_countsKept _ s
  · exact (completeOp_annulsOnly _ s).countsKept

theorem loadNext_countsKept (op : RowOp) (s : State) : CountsKept s (loadNext op s) := by
  unfold loadNext
  split
  · exact .of_eq (by simp)
  · split
    · exact phaseDone_countsKept op s
    · exact .refl s

end Sys2Proof.Machine
end

