-- ==== Sys2Proof/Proofs/RowWork.lean ====
section
/-! PROOFS. The scheduler's take and the snapshot's words (R49 to R55). -/

namespace Sys2Proof.Machine

open Safety

/-! ## The snapshot -/

/-- Settles O37: a word of the snapshot joins the write mask, and behind the last one the erase phase starts. -/
theorem snapshotReadsOneWord : Obligations.SnapshotReadsOneWord := by
  intro s op w hop hstage hcursor hidle hport hgranted op'
  have hupper : upperRanksEmpty s = true := by
    have hwaits : processorWaits s = false := processorWaits_eq_false hidle
    simp [upperRanksEmpty, hwaits, hport, hgranted]
  have hw : Fin.ofNat 32 w.val = w := Fin.ext (ofNat_val w.isLt)
  have hexec : exec .snapshotWordRead s = .next (snapshotUnit op w.val s) := by
    change execSnapshotWordRead s = _
    rw [execSnapshotWordRead, snapshotNext_of hop hstage hcursor w.isLt]
    exact stepWhen_eq_next.2 ⟨hupper, rfl⟩
  refine ⟨fun hlt => ⟨!Config.requestedLate s.freeCount, ?_⟩, fun hlast => ?_⟩
  · rw [hexec, snapshotUnit, if_neg (by omega), hw]
    rfl
  · have hunit : snapshotUnit op w.val s = unitEnds false (startErase op' s) := by
      rw [snapshotUnit, if_pos (by omega), hw]
      rfl
    obtain ⟨hstate, hfailed, -, hrun, hclear⟩ := startErase_rowKept op' s
    refine ⟨_, by rw [hexec, hunit], unitEnds_record _ _, startErase_starts op' s, startErase_droppedCells op' s,
      by simp, by simp, by simp, hrun, hclear, hstate, hfailed, by simp, by simp, by simp, by simp, by simp,
      ?_, by simp, by simp⟩
    simpa [AreaKept] using startErase_areaKept op' s

/-! ## The take -/

theorem resyncWork_eq_false {s : State}
    (h : ∀ r, ¬ (hasRow s.sets.full r = true ∨ hasRow s.sets.fill r = true)) : resyncWork s = false := by
  have hnone : s.sets.full ||| s.sets.fill = 0 := BitVec.eq_of_getLsbD_eq fun i hi => by
    have hrow := h ⟨i, hi⟩
    rw [← Bool.or_eq_true, ← hasRow_or, Bool.not_eq_true] at hrow
    exact hrow.trans (getLsbD_noCells i).symm
  rw [resyncWork, hnone]
  exact bne_self_eq_false _

theorem resyncWork_of_row {s : State} {r : Row} (h : hasRow s.sets.full r = true ∨ hasRow s.sets.fill r = true) :
    resyncWork s = true := by
  rw [resyncWork, bne_iff_ne]
  intro hnone
  rw [← Bool.or_eq_true, ← hasRow_or, hnone] at h
  exact absurd ((getLsbD_noCells r.val).symm.trans h) Bool.false_ne_true

/-- The number of rows from one row on to another, the search wrapping from 511 to 0 (R51). -/
def rowsAhead (c r : Row) : Nat := (r.val + 512 - c.val) % 512

theorem rowsAhead_succ {c r : Row} (h : r ≠ c) : rowsAhead c r = rowsAhead (c + 1) r + 1 := by
  have hr := r.isLt
  have hc := c.isLt
  have hne : r.val ≠ c.val := fun hv => h (Fin.ext hv)
  have hnext : (c + 1).val = (c.val + 1) % 512 := rfl
  simp only [rowsAhead, hnext]
  omega

theorem rowsAhead_self (c : Row) : rowsAhead c c = 0 := by
  have hc := c.isLt
  simp only [rowsAhead]
  omega

theorem rowsAhead_eq_zero {c r : Row} (h : rowsAhead c r = 0) : r = c := by
  by_contra hne
  rw [rowsAhead_succ hne] at h
  exact Nat.succ_ne_zero _ h

/-- The search finds the row of the set nearest at or after where it begins (R51). -/
theorem nextRow_nearest {q : RowSet} {fuel : Nat} {c r : Row} (hr : hasRow q r = true)
    (hnear : ∀ p, hasRow q p = true → rowsAhead c r ≤ rowsAhead c p) (hfuel : rowsAhead c r < fuel) :
    nextRow q fuel c = some r := by
  induction fuel generalizing c with
  | zero => exact absurd hfuel (Nat.not_lt_zero _)
  | succ fuel ih =>
    by_cases hc : hasRow q c = true
    · have hzero : rowsAhead c r = 0 := Nat.le_zero.1 (rowsAhead_self c ▸ hnear c hc)
      rw [nextRow, if_pos hc, rowsAhead_eq_zero hzero]
    · have hne : ∀ p, hasRow q p = true → p ≠ c := fun p hp h => hc (h ▸ hp)
      rw [nextRow, if_neg hc]
      rw [rowsAhead_succ (hne r hr)] at hfuel
      refine ih (fun p hp => ?_) (Nat.lt_of_succ_lt_succ hfuel)
      have hle := hnear p hp
      rw [rowsAhead_succ (hne r hr), rowsAhead_succ (hne p hp)] at hle
      exact Nat.le_of_succ_le_succ hle

theorem exec_schedulerTake {s : State} (hr : recordless s.seq.state = false) (hl : s.link.state = .ok)
    (ho : s.sched.op = none) (hc : s.sched.clearWaiting = false)
    (hwork : s.table.ageQueue ≠ [] ∨ resyncWork s = true) : exec .schedulerTake s = .next (takeWork s) := by
  refine stepWhen_eq_next.2 ⟨?_, rfl⟩
  simpa [takeDue, hr, hl, ho, hc] using hwork

/-- Of a DELTA the take leaves its entry TAKEN while a PRESENT module has a cell of it, and otherwise the operation has
completed, and a hold is settled (R30, R60). -/
theorem startErase_table {op : RowOp} {s : State} :
    (presentCells s.link.failed (op.eraseMask ||| op.writeMask) ≠ 0 →
      (startErase op s).table = s.table ∧ (startErase op s).wmu = s.wmu ∧ (startErase op s).bus = s.bus) ∧
    (presentCells s.link.failed (op.eraseMask ||| op.writeMask) = 0 → op.kind = .delta →
      ∀ b, SameHold b (slotFreed s) → HoldSettled b (startErase op s)) := by
  refine ⟨fun h => ?_, fun h hk b hb => ?_⟩
  · by_cases he : presentCells s.link.failed op.eraseMask = 0
    · have hw : presentCells s.link.failed op.writeMask ≠ 0 := fun hw => h ((presentCells_or _ _ _).2 ⟨he, hw⟩)
      obtain ⟨m, rest, -, heq⟩ := startWrite_enters (op := { op with eraseDone := true })
        (s := countDropped (failedCells s.link.failed op.eraseMask) s) hw
      rw [startErase_passed he, heq]
      simp
    · obtain ⟨m, rest, -, heq⟩ := startErase_enters he
      rw [heq]
      simp
  · obtain ⟨he, hw⟩ := (presentCells_or _ _ _).1 h
    rw [startErase_passed he]
    exact startWrite_settled (op := { op with eraseDone := true }) hk hw hb

/-- Settles O36: the head of the age queue, or the nearest row of the sets. -/
theorem takeFollowsWeightAndCursor : Obligations.TakeFollowsWeightAndCursor := by
  intro s hr hl ho hc inSet ahead
  refine ⟨fun e rest hqueue hcond => ?_, fun r hin hnear hcond => ?_⟩
  · have hcondition : (!resyncWork s || decide (s.sched.runCount < s.store.settings.weight)) = true := by
      obtain hnone | hlt := hcond
      · rw [resyncWork_eq_false hnone]
        rfl
      · rw [decide_eq_true hlt, Bool.or_true]
    have htake : takeWork s = takeEntry e rest s := by
      rw [takeWork, hqueue]
      exact if_pos hcondition
    generalize hu : (s.setTable { ageQueue := rest, taken := some e }).setSched
      { s.sched with runCount := min 15 (s.sched.runCount + 1), op := some (deltaOp e) } = u
    have hentry : takeEntry e rest s = startErase (deltaOp e) u := by rw [← hu]; rfl
    have hlink : u.link = s.link := by rw [← hu]; rfl
    have hnotice : u.notice = s.notice := by rw [← hu]; rfl
    have hsame : SameHold (s.setTable { ageQueue := rest, taken := none }) (slotFreed u) := by
      rw [← hu]
      exact ⟨rfl, rfl, rfl, rfl, rfl, rfl, ho.symm, rfl, rfl⟩
    obtain ⟨hstate, hfailed, -, hrun, -⟩ := startErase_rowKept (deltaOp e) u
    obtain ⟨hleft, hdone⟩ := startErase_table (op := deltaOp e) (s := u)
    have hstarts := startErase_starts (deltaOp e) u
    have hdrops := startErase_droppedCells (deltaOp e) u
    have harea : AreaKept s (startErase (deltaOp e) u) :=
      areaKept_of_same (by rw [← hu]; rfl) (by rw [← hu]; rfl) (startErase_areaKept (deltaOp e) u)
    rw [hlink] at hstate hfailed hleft hdone hstarts hdrops
    refine ⟨startErase (deltaOp e) u, ?_, ?_, ?_, hstarts, ?_, fun h => ?_, fun h => hdone h rfl _ hsame, ?_, ?_,
      hstate.trans hl, hfailed, ?_, ?_, ?_, ?_, ?_, harea, ?_, ?_⟩
    · rw [exec_schedulerTake hr hl ho hc (.inl (by simp [hqueue])), htake, hentry]
    · rw [hrun, ← hu]
      rfl
    · simp [← hu]
    · rw [Drops, ← hnotice]
      exact hdrops
    · obtain ⟨htable, hwmu, hbus⟩ := hleft h
      rw [htable, hwmu, hbus, ← hu]
      exact ⟨rfl, rfl, rfl⟩
    all_goals simp [← hu]
  · have hnext : nextRow (s.sets.full ||| s.sets.fill) 512 s.sets.cursor = some r := by
      have hset : ∀ q, hasRow (s.sets.full ||| s.sets.fill) q = true ↔ inSet q := fun q => by
        rw [hasRow_or, Bool.or_eq_true]
      exact nextRow_nearest ((hset r).2 hin) (fun p hp => hnear p ((hset p).1 hp)) (Nat.mod_lt _ (by decide))
    have htake : takeWork s = takeRow r s := by
      have hresync : takeWork.takeResync s = takeRow r s := by rw [takeWork.takeResync, hnext]
      rw [takeWork]
      obtain hqueue | hweight := hcond
      · rw [hqueue]
        exact hresync
      · split
        · rw [if_neg (by simp [resyncWork_of_row hin, Nat.not_lt.2 hweight]), hresync]
        · exact hresync
    refine ⟨takeRow r s, ?_, fun q => ?_, fun q => ?_, rfl, ?_⟩
    · rw [exec_schedulerTake hr hl ho hc (.inr (resyncWork_of_row hin)), htake]
      rfl
    · exact (hasRow_and_not _ _ q).trans (by rw [hasRow_oneRow]; rfl)
    · exact (hasRow_and_not _ _ q).trans (by rw [hasRow_oneRow]; rfl)
    · by_cases hfull : hasRow s.sets.full r = true
      · simp only [takeRow, hfull, if_true]
        rfl
      · simp only [takeRow, hfull]
        rfl

end Sys2Proof.Machine
end

