-- ==== Sys2Proof/Proofs/Returns.lean ====
section
/-! PROOFS. The return of an operation (R61), and the strobe, which applies a phase and can be followed by one. -/

namespace Sys2Proof.Machine

open Safety

/-! ## What a return gives back -/

/-- Two states agree on the hold and on what a difference is merged into. -/
def SameClaims (b c : State) : Prop :=
  c.wmu = b.wmu ∧ c.table = b.table ∧ c.sets = b.sets ∧ c.sched.op = b.sched.op

theorem SameClaims.dropped {b c : State} (h : SameClaims b c) (r : Row) (w : WordIx) :
    Machine.dropped c r w = Machine.dropped b r w := by
  obtain ⟨-, -, hsets, hop⟩ := h
  simp only [Machine.dropped, inResync, aboveCursor, hsets, hop]

theorem SameClaims.offer {b c : State} (h : SameClaims b c) (x : HeldChange) :
    (offerHeld x c).table = (offerHeld x b).table ∧ (offerHeld x c).wmu = (offerHeld x b).wmu := by
  have hmerge : (mergeDifference x.row x.word x.rise x.fall c).map State.table =
      (mergeDifference x.row x.word x.rise x.fall b).map State.table := by
    have hdropped := h.dropped x.row x.word
    obtain ⟨-, htable, -⟩ := h
    unfold mergeDifference
    rw [hdropped, htable]
    cases Machine.dropped b x.row x.word with
    | true => simp [htable]
    | false =>
      cases openEntry b.table x.row with
      | none =>
        simp only [Bool.false_eq_true, if_false]
        split <;> rfl
      | some e =>
        simp only [Bool.false_eq_true, if_false]
        split <;> rfl
  obtain ⟨hwmu, htable, -⟩ := h
  obtain ⟨c', hc, hoc⟩ | ⟨hc, hoc⟩ := offerHeld_cases x c <;>
    obtain ⟨b', hb, hob⟩ | ⟨hb, hob⟩ := offerHeld_cases x b <;>
    rw [hoc, hob] <;> rw [hc, hb] at hmerge
  · simp only [Option.map_some, Option.some.injEq] at hmerge
    simp [endCycle, hmerge, mergeDifference_frame hc, mergeDifference_frame hb, hwmu]
  · cases hmerge
  · cases hmerge
  · exact ⟨htable, hwmu⟩

/-- With no record held, or no area word to seek the slot, the settlement of a hold reads nothing else. -/
theorem SameClaims.settle {b c : State} (h : SameClaims b c)
    (hfree : (∀ x, b.wmu.state ≠ .holding x) ∨ b.area = none ∧ c.area = none) :
    (settleHold c).table = (settleHold b).table ∧ (settleHold c).wmu = (settleHold b).wmu := by
  have hoffer := h.offer
  obtain ⟨hwmu, htable, hsets, -⟩ := h
  unfold settleHold
  rw [hwmu]
  cases hw : b.wmu.state with
  | idle => exact ⟨htable, hwmu⟩
  | merging x => exact ⟨htable, hwmu⟩
  | holding x =>
    obtain hnone | ⟨hb, hc⟩ := hfree
    · exact absurd hw (hnone x)
    · have hin : inResync c x.row = inResync b x.row := by simp only [inResync, hsets]
      have hcb : areaContends x b = false := by simp [areaContends, hb]
      have hcc : areaContends x c = false := by simp [areaContends, hc]
      simp only [hin, hcb, hcc]
      split
      · exact ⟨by simp [htable], by simp [endCycle, hwmu]⟩
      · exact hoffer x

theorem SameClaims.mergeBack {b c : State} (h : SameClaims b c)
    (hfree : (∀ x, b.wmu.state ≠ .holding x) ∨ b.area = none ∧ c.area = none) (r : Row) (writes erases : Mask) :
    (mergeBack r writes erases c).table = (mergeBack r writes erases b).table ∧
      (mergeBack r writes erases c).sets = (mergeBack r writes erases b).sets ∧
      (mergeBack r writes erases c).wmu = (mergeBack r writes erases b).wmu := by
  obtain ⟨hwmu, htable, hsets, hop⟩ := h
  have hin : inResync c r = inResync b r := by simp only [inResync, hsets]
  have settled : ∀ (x : ChangeTable) (f : State → State),
      (∀ u, (f u).wmu = u.wmu ∧ (f u).table = u.table ∧ (f u).sets = u.sets ∧ (f u).sched = u.sched ∧
        (f u).area = u.area) →
      (settleHold (f (c.setTable x))).table = (settleHold (f (b.setTable x))).table ∧
        (settleHold (f (c.setTable x))).wmu = (settleHold (f (b.setTable x))).wmu := fun x f hf => by
    refine SameClaims.settle ?_ ?_
    · exact ⟨by simp [hf, hwmu], by simp [hf], by simp [hf, hsets], by simp [hf, hop]⟩
    · simpa [hf] using hfree
  refine ⟨?_, by simp [hsets], ?_⟩ <;> unfold Machine.mergeBack <;> dsimp only <;> rw [hin, htable] <;> split
  · exact (settled _ id fun u => ⟨rfl, rfl, rfl, rfl, rfl⟩).1
  · split
    · exact (settled _ countAnnulled fun u => ⟨rfl, rfl, rfl, rfl, rfl⟩).1
    · exact (settled _ id fun u => ⟨rfl, rfl, rfl, rfl, rfl⟩).1
  · exact (settled _ id fun u => ⟨rfl, rfl, rfl, rfl, rfl⟩).2
  · split
    · exact (settled _ countAnnulled fun u => ⟨rfl, rfl, rfl, rfl, rfl⟩).2
    · exact (settled _ id fun u => ⟨rfl, rfl, rfl, rfl, rfl⟩).2

theorem requestFull_asked {s : State} (h : recordless s.seq.state = false) (r : Row) :
    hasRow (requestFull (oneRow r) s).sets.full r = true := by
  obtain ⟨hrec, -⟩ | ⟨-, hfull, -⟩ := addFull_cases (oneRow r) s
  · simp [h] at hrec
  · rw [requestFull, if_neg (by simp [h])]
    simp [hfull, hasRow_oneRow]

theorem requestFill_asked (r : Row) (s : State) : inResync (requestFill r s) r = true := by
  unfold requestFill
  split
  · next h => simp [inResync, h]
  · simp [inResync, hasRow_oneRow]

/-- A return gives back what is not done, whatever else has happened between (R61). -/
theorem giveBack_givesBack {op : RowOp} {s u : State}
    (h : SameClaims (s.setSched { s.sched with op := none }) u) (harea : u.area = s.area)
    (hseq : u.seq = s.seq) : GivesBack s (giveBack op u) op := by
  refine ⟨?_, fun hk hd hrec => ?_, fun hk => ?_⟩
  · intro hk hfree b
    have hg : giveBack op u = mergeBack op.row (if op.writeDone = true then 0 else op.writeMask)
        (if op.eraseDone = true then 0 else op.eraseMask) u := by rw [giveBack, hk]
    rw [hg]
    exact h.mergeBack (hfree.imp id fun ha => ⟨ha, harea.trans ha⟩) _ _ _
  · have hg : giveBack op u = requestFull (oneRow op.row) u := by
      rw [giveBack, hk, hd]
      rfl
    rw [hg]
    exact requestFull_asked (by rw [hseq]; exact hrec) op.row
  · have hg : giveBack op u = requestFill op.row u := by
      obtain hk | ⟨hk, hd⟩ := hk
      · rw [giveBack, hk]
      · rw [giveBack, hk, hd]
        rfl
    rw [hg]
    exact requestFill_asked op.row u

theorem mergeBack_annulsOnly (r : Row) (writes erases : Mask) (s : State) :
    AnnulsOnly s (mergeBack r writes erases s) := by
  unfold mergeBack
  dsimp only
  split
  · exact settleHold_annulsOnly _
  · split
    · exact AnnulsOnly.trans (t := countAnnulled _) rfl (settleHold_annulsOnly _)
    · exact settleHold_annulsOnly _

theorem requestFull_annulsOnly (rows : RowSet) (s : State) : AnnulsOnly s (requestFull rows s) := by
  unfold requestFull
  split
  · exact .of_eq rfl
  · exact (AnnulsOnly.of_eq (by simp)).trans (settleHold_annulsOnly _)

theorem requestFill_annulsOnly (r : Row) (s : State) : AnnulsOnly s (requestFill r s) := by
  unfold requestFill
  split
  · exact .of_eq rfl
  · exact settleHold_annulsOnly _

theorem giveBack_annulsOnly (op : RowOp) (s : State) : AnnulsOnly s (giveBack op s) := by
  unfold giveBack
  split
  · exact mergeBack_annulsOnly _ _ _ s
  · split
    · exact requestFill_annulsOnly _ s
    · exact requestFull_annulsOnly _ s
  · exact requestFill_annulsOnly _ s

theorem mergeBack_areaKept (r : Row) (writes erases : Mask) (s : State) : AreaKept s (mergeBack r writes erases s) := by
  unfold mergeBack
  dsimp only
  split
  · exact areaKept_of_same rfl rfl (settleHold_areaKept _)
  · split <;> exact areaKept_of_same rfl rfl (settleHold_areaKept _)

theorem requestFull_areaKept (rows : RowSet) (s : State) : AreaKept s (requestFull rows s) := by
  unfold requestFull
  split
  · exact areaKept_of_eq rfl
  · exact areaKept_of_same (by simp) (by simp) (settleHold_areaKept _)

theorem giveBack_areaKept (op : RowOp) (s : State) : AreaKept s (giveBack op s) := by
  have fill : ∀ r, AreaKept s (requestFill r s) := fun r => by
    unfold requestFill
    split
    · exact areaKept_of_eq rfl
    · exact areaKept_of_same rfl rfl (settleHold_areaKept _)
  unfold giveBack
  split
  · exact mergeBack_areaKept _ _ _ s
  · split
    · exact fill _
    · exact requestFull_areaKept _ s
  · exact fill _

end Sys2Proof.Machine
end

