-- ==== Sys2Proof/Proofs/Strobes.lean ====
section
/-! PROOFS. The strobe of a phase: the panel and the lit table, and what follows the phase (R57, R58, R74). -/

namespace Sys2Proof.Machine

open Safety

/-! ## The lit table -/

theorem litKey_injective {q r : Row} {n m : ModuleNo} (h : litKey q n = litKey r m) : q = r ∧ n = m := by
  have hn := n.isLt
  have hm := m.isLt
  simp only [litKey] at h
  exact ⟨Fin.ext (by omega), Fin.ext (by omega)⟩

theorem litCount_setCount {t : LitTable} (h : CellsWf 0 t.counts) (r q : Row) (m n : ModuleNo) (v : Nat) :
    litCount (setCount r m v t) q n = if q = r ∧ n = m then v else litCount t q n := by
  split
  · next heq =>
    obtain ⟨rfl, rfl⟩ := heq
    exact cellsRead_cellsWrite_self _ v h
  · next hne => exact cellsRead_cellsWrite_ne _ v fun hkey => hne (litKey_injective hkey)

/-- A phase changes the counts of its row for the loaded modules, one module after the other (R58). -/
theorem litCount_foldl (op : RowOp) (q : Row) (n : ModuleNo) (l : List ModuleNo) (hl : l.Nodup) {t : LitTable}
    (ht : CellsWf 0 t.counts) :
    litCount (l.foldl (fun t m =>
        if hasModule op.loaded m then setCount op.row m (countAfter op m (litCount t op.row m)) t else t) t) q n =
      if q = op.row ∧ n ∈ l ∧ hasModule op.loaded n = true then countAfter op n (litCount t q n)
      else litCount t q n := by
  induction l generalizing t with
  | nil => simp
  | cons m l ih =>
    obtain ⟨hm, hl⟩ := List.nodup_cons.1 hl
    rw [List.foldl_cons]
    by_cases hload : hasModule op.loaded m = true
    · rw [if_pos hload, ih hl (cellsWf_write _ _ ht), litCount_setCount ht]
      by_cases heq : q = op.row ∧ n = m
      · obtain ⟨rfl, rfl⟩ := heq
        simp [hm, hload]
      · rw [if_neg heq]
        have hmem : (q = op.row ∧ n ∈ m :: l ∧ hasModule op.loaded n = true) ↔
            (q = op.row ∧ n ∈ l ∧ hasModule op.loaded n = true) := by
          rw [List.mem_cons]
          tauto
        simp only [hmem]
    · rw [if_neg hload, ih hl ht]
      have hmem : (q = op.row ∧ n ∈ m :: l ∧ hasModule op.loaded n = true) ↔
          (q = op.row ∧ n ∈ l ∧ hasModule op.loaded n = true) := by
        rw [List.mem_cons]
        constructor
        · rintro ⟨hq, rfl | hn, hload'⟩
          · exact absurd hload' hload
          · exact ⟨hq, hn, hload'⟩
        · exact fun ⟨hq, hn, hload'⟩ => ⟨hq, .inr hn, hload'⟩
      simp only [hmem]

theorem litCount_applyPhase {t : LitTable} (ht : CellsWf 0 t.counts) (op : RowOp) (q : Row) (n : ModuleNo) :
    litCount (applyPhase op t) q n =
      if q = op.row ∧ hasModule op.loaded n = true then countAfter op n (litCount t q n) else litCount t q n := by
  have hfold := litCount_foldl op q n allModules (by decide) ht
  simp only [mem_allModules, true_and] at hfold
  exact hfold

/-! ## The strobe -/

/-- The state with the phase applied to the panel, the latches and the lit table, and its strobe given (R57, R58). -/
def phaseApplied (op : RowOp) (p : Period) (s : State) : State :=
  (strobeColumns op.row (workingPhase op).1 (markStrobe p s)).setLit (applyPhase op s.lit)

theorem strobePhase_eq (op : RowOp) (p : Period) (s : State) :
    strobePhase op p s = afterStrobe op (phaseApplied op p s) := by
  unfold strobePhase phaseApplied
  simp

theorem panelRow_phaseApplied {s : State} (h : CellsWf 0 s.panel) (op : RowOp) (p : Period) (q : Row) :
    panelRow (phaseApplied op p s) q =
      if q = op.row then
        (match (workingPhase op).1 with
          | .erase => panelRow s q &&& ~~~pulsedColumns (workingPhase op).1 s.latches
          | .write => panelRow s q ||| pulsedColumns (workingPhase op).1 s.latches)
      else panelRow s q := by
  split
  · next heq =>
    subst heq
    exact cellsRead_cellsWrite_self _ _ h
  · next hne => exact cellsRead_cellsWrite_ne _ _ fun hv => hne (Fin.ext hv)

/-- A phase not yet strobed when the link faulted has its operation returned at the strobe, if a write is still to be
done, and otherwise the next phase starts, or the operation completes (R57, R61, R101). -/
theorem afterStrobe_cases {op : RowOp} {u : State} (hfiring : op.stage = .firing) :
    (op.phase = .write → afterStrobe op u =
      completeOp { op with phase := .complete, writeDone := true, loaded := 0 } u) ∧
    (op.phase = .erase → op.returnDue = true → presentCells u.link.failed op.writeMask ≠ 0 →
      afterStrobe op u = giveBack { op with eraseDone := true } (setOp none u)) ∧
    (op.phase = .erase → op.returnDue = false ∨ presentCells u.link.failed op.writeMask = 0 →
      afterStrobe op u = startWrite { op with eraseDone := true, loaded := 0 } u) := by
  have hempty : (presentSlices u.link.failed op.writeMask).isEmpty = true ↔
      presentCells u.link.failed op.writeMask = 0 := by
    rw [List.isEmpty_iff, presentSlices_eq, handedModules_eq_nil]
  refine ⟨fun hp => ?_, fun hp hd hc => ?_, fun hp hc => ?_⟩
  · rw [afterStrobe, if_neg (by simp [hp]), phaseDone, hp]
  · have hne : (presentSlices u.link.failed op.writeMask).isEmpty = false := by
      rw [Bool.eq_false_iff]
      exact fun h => hc (hempty.1 h)
    have hlatched : slicesLatched { op with eraseDone := true, loaded := 0 } = false := by
      simp [slicesLatched, hfiring]
    rw [afterStrobe, if_pos (by simp [hp, hd, hne]), returnOp, hlatched]
    rfl
  · have hcond : ¬ (op.returnDue && op.phase == .erase &&
        !(presentSlices u.link.failed op.writeMask).isEmpty) = true := by
      obtain hd | hc := hc
      · simp [hd]
      · simp [hempty.2 hc]
    rw [afterStrobe, if_neg hcond, phaseDone, hp]

theorem afterStrobe_keeps {op : RowOp} {u : State} (hfiring : op.stage = .firing)
    (hphase : op.phase = .erase ∨ op.phase = .write) :
    (afterStrobe op u).period = u.period ∧ (afterStrobe op u).link.state = u.link.state ∧
      (afterStrobe op u).link.failed = u.link.failed ∧ AreaKept u (afterStrobe op u) := by
  obtain ⟨hwrite, hreturn, hnext⟩ := afterStrobe_cases (u := u) hfiring
  obtain hp | hp := hphase
  · by_cases hc : op.returnDue = true ∧ presentCells u.link.failed op.writeMask ≠ 0
    · rw [hreturn hp hc.1 hc.2]
      exact ⟨by simp, by simp, by simp, areaKept_of_same rfl rfl (giveBack_areaKept _ _)⟩
    · have hor : op.returnDue = false ∨ presentCells u.link.failed op.writeMask = 0 := by
        simpa only [Classical.not_and_iff_not_or_not, Bool.not_eq_true, ne_eq, Classical.not_not] using hc
      obtain ⟨hstate, hfailed, -⟩ := startWrite_rowKept { op with eraseDone := true, loaded := 0 } u
      rw [hnext hp hor]
      exact ⟨by simp, hstate, hfailed, startWrite_areaKept _ u⟩
  · rw [hwrite hp]
    exact ⟨by simp, by simp, by simp, completeOp_areaKept _ u⟩

theorem giveBack_op (op : RowOp) (s : State) : (giveBack op s).sched.op = s.sched.op := by simp

/-- Settles O38: the phase is applied, and what follows is one of the completion, the return and the write phase. -/
theorem strobeAppliesThePhase : Obligations.StrobeAppliesThePhase := by
  intro s p op k hcanon hlit hp hkind hstrobed htick hop hfiring hk pulsed cells
  obtain ⟨-, -, -, hpanel, hcounts⟩ := hcanon
  have hexec : exec .strobe s = .next (afterStrobe op (phaseApplied op p s)) := by
    change execStrobe s = _
    rw [← strobePhase_eq, execStrobe, hp, hop]
    refine stepWhen_eq_next.2 ⟨?_, rfl⟩
    simpa [hlit, strobeDue, hkind, hstrobed, hfiring, strobeTick] using htick
  have hpanelRow := fun q => panelRow_phaseApplied hpanel op p q
  have hcount := fun q m => litCount_applyPhase hcounts op q m
  have happliedLit : (phaseApplied op p s).lit = applyPhase op s.lit := rfl
  have hlatches : (phaseApplied op p s).latches = { cols := 0, writePhase := 0 } := rfl
  have happliedPeriod : (phaseApplied op p s).period =
      { s.period with current := some { p with strobed := true } } := by
    simp [phaseApplied, markStrobe]
  have hlink : (phaseApplied op p s).link = s.link := by simp [phaseApplied]
  have hnotice : (phaseApplied op p s).notice = s.notice := by simp [phaseApplied]
  have hsets : (phaseApplied op p s).sets = s.sets := by simp [phaseApplied]
  have hseq : (phaseApplied op p s).seq = s.seq := by simp [phaseApplied]
  have harea : (phaseApplied op p s).area = s.area := by simp [phaseApplied]
  have hwmu : (phaseApplied op p s).wmu = s.wmu := by simp [phaseApplied]
  have hrest : (phaseApplied op p s).mem = s.mem ∧ (phaseApplied op p s).sense = s.sense ∧
      (phaseApplied op p s).cmd = s.cmd ∧ (phaseApplied op p s).store = s.store := by simp [phaseApplied]
  have hsame : SameHold (slotFreed s) (slotFreed (phaseApplied op p s)) := by
    simp [SameHold, slotFreed, phaseApplied]
  have hclaims : SameClaims (s.setSched { s.sched with op := none }) (setOp none (phaseApplied op p s)) := by
    simp [SameClaims, phaseApplied, setOp]
  generalize phaseApplied op p s = u at *
  obtain ⟨hwrite, hreturn, hnext⟩ := afterStrobe_cases (u := u) hfiring
  obtain ⟨hperiod, hstate, hfailed, hkept⟩ := afterStrobe_keeps (u := u) hfiring (hk.imp And.left And.left)
  obtain ⟨hmem, hsense, hcmd, hstore⟩ := hrest
  rw [hlink] at hreturn hnext
  have htpanel : ∀ q, panelRow (afterStrobe op u) q = panelRow u q := fun q => by simp [panelRow]
  have common : (∀ q : Row, panelRow (afterStrobe op u) q =
        if q = op.row then (if k = .erase then panelRow s q &&& ~~~pulsed else panelRow s q ||| pulsed)
        else panelRow s q) ∧
      (∀ (q : Row) (m : ModuleNo), litCount (afterStrobe op u).lit q m =
        if q = op.row ∧ hasModule op.loaded m = true then
          (if k = .write then min 64 (litCount s.lit q m + cells m)
          else if op.kind = .full then 0
          else litCount s.lit q m - cells m)
        else litCount s.lit q m) := by
    refine ⟨fun q => ?_, fun q m => ?_⟩
    · rw [htpanel, hpanelRow]
      obtain ⟨hph, rfl⟩ | ⟨hph, rfl⟩ := hk <;> simp [workingPhase, hph, pulsed]
    · have hafter : (afterStrobe op u).lit = applyPhase op s.lit := by simp [happliedLit]
      rw [hafter, hcount]
      obtain ⟨hph, rfl⟩ | ⟨hph, rfl⟩ := hk
      · cases hkd : op.kind <;> simp [countAfter, workingPhase, hph, hkd, cells]
      · simp [countAfter, workingPhase, hph, cells]
  obtain ⟨hrows, hlits⟩ := common
  refine ⟨_, hexec, hrows, by simp [hlatches], hlits, hperiod.trans happliedPeriod, ?_, ?_, ?_, ?_, ?_, ?_, ?_,
    by simp [hmem], hstate.trans (by rw [hlink]), hfailed.trans (by rw [hlink]), by simp [hseq], by simp [hsense],
    areaKept_of_same harea hwmu hkept, by simp [hcmd], by simp [hstore]⟩
  all_goals obtain ⟨hph, rfl⟩ | ⟨hph, rfl⟩ := hk
  · intro hd _
    rw [hnext hph (.inl hd), ← hlink]
    exact startWrite_starts (op := { op with eraseDone := true, loaded := 0 }) rfl
  · exact nofun
  · intro _ hd hc
    rw [hreturn hph hd hc]
    exact ⟨by rw [giveBack_op]; rfl, giveBack_givesBack hclaims harea hseq⟩
  · exact nofun
  · intro hc
    have hc := hc.resolve_left nofun
    rw [hnext hph (.inr hc)]
    have hpassed := startWrite_passed (op := { op with eraseDone := true, loaded := 0 }) (s := u)
      (by rw [hlink]; exact hc)
    exact ⟨by rw [hpassed, completeOp_op], fun hkd =>
      startWrite_settled (op := { op with eraseDone := true, loaded := 0 }) hkd (by rw [hlink]; exact hc) hsame⟩
  · intro _
    rw [hwrite hph]
    exact ⟨completeOp_op _ _, fun hkd => completeOp_settled hkd hsame⟩
  · intro hd
    have hd := hd.resolve_left nofun
    by_cases hc : presentCells s.link.failed op.writeMask = 0
    · rw [hnext hph (.inr hc), startWrite_passed (by rw [hlink]; exact hc)]
      simp [hlink]
    · rw [hreturn hph hd hc]
      simp [hlink]
  · intro _
    rw [hwrite hph]
    simp [hlink]
  · intro hd
    rw [hnext hph (.inl (hd.resolve_right nofun))]
    simp [hsets]
  · intro _
    rw [hwrite hph]
    simp [hsets]
  · intro _ hc
    have hdrops := startWrite_droppedCells { op with eraseDone := true, loaded := 0 } u
    rw [hlink] at hdrops
    rw [hnext hph hc, Drops, ← hnotice]
    exact hdrops
  · exact nofun
  · intro hc
    obtain ⟨hd, hc⟩ := hc.resolve_left nofun
    rw [hreturn hph hd hc, (giveBack_annulsOnly _ _).droppedCells, ← hnotice]
    rfl
  · intro _
    rw [hwrite hph, (completeOp_annulsOnly _ _).droppedCells, hnotice]

end Sys2Proof.Machine
end

