-- ==== Sys2Proof/Proofs/Samples.lean ====
section
/-! PROOFS. What the samples of LDA say of a message, and how long it lasts (R70, R76, R81, R83). -/

namespace Sys2Proof.Machine

open Safety

/-! ## The length of a message on the lines -/

theorem length_byteHalves (b : Byte) : (byteHalves b).length = 18 := rfl

theorem length_messageHalves (bytes : List Byte) : (messageHalves bytes).length = 18 * bytes.length + 4 := by
  have hbytes : (bytes.flatMap byteHalves).length = 18 * bytes.length := by
    rw [List.length_flatMap, List.map_congr_left fun b _ => length_byteHalves b, List.map_const', List.sum_replicate,
      smul_eq_mul, Nat.mul_comm]
  simp only [messageHalves, List.length_append, hbytes, openHalves, closeHalves, List.length_cons, List.length_nil]
  omega

theorem length_messageBytes (m : Message) : (messageBytes m).length = 2 + m.data.length := by
  simp only [messageBytes, List.length_cons]
  omega

theorem scanHalves_acked (bytes : List Byte) : scanHalves bytes .acked = 18 * bytes.length + 4 :=
  length_messageHalves bytes

theorem length_take_succ {bytes : List Byte} {k : Nat} {b : Byte} (h : bytes[k]? = some b) :
    (bytes.take (k + 1)).length = k + 1 := by
  obtain ⟨hk, -⟩ := List.getElem?_eq_some_iff.1 h
  rw [List.length_take, Nat.min_eq_left hk]

theorem scanHalves_nack {bytes : List Byte} {k : Nat} {b : Byte} (h : bytes[k]? = some b) :
    scanHalves bytes (.nack (k + 1)) = 18 * (k + 1) + 4 := by
  rw [scanHalves, length_messageHalves, length_take_succ h]

theorem scanHalves_contention {bytes : List Byte} {k : Nat} {b : Byte} (h : bytes[k]? = some b) :
    scanHalves bytes (.contention (k + 1)) = 18 * (k + 1) + 2 := by
  rw [scanHalves, length_messageHalves, length_take_succ h]
  rfl

theorem stretchHalves_take {bytes : List Byte} {k : Nat} (h : k ≤ bytes.length) :
    (messageHalves (bytes.take k)).length - closeHalves.length = 18 * k + 2 := by
  rw [length_messageHalves, List.length_take, Nat.min_eq_left h]
  rfl

/-! ## What the samples say -/

theorem shiftedSample (b : Byte) (a : BitVec 1) : ((b ++ a) >>> 1).setWidth 8 = b := by
  apply BitVec.eq_of_getLsbD_eq
  intro i hi
  simp only [BitVec.getLsbD_setWidth, BitVec.getLsbD_ushiftRight, BitVec.getLsbD_append, hi, decide_true, Bool.true_and]
  rw [if_neg (by omega)]
  congr 1
  omega

theorem not_contended_ackedSample (b : Byte) : ¬ Contended b (ackedSample b) := by
  rw [ackedSample, Contended, shiftedSample, BitVec.and_not_self]
  exact fun h => h rfl

theorem not_contended_refusedSample (b : Byte) : ¬ Contended b (refusedSample b) := by
  rw [refusedSample, Contended, shiftedSample, BitVec.and_not_self]
  exact fun h => h rfl

theorem scanSamples_ackedSample (b : Byte) (bs : List Byte) (vs : List (BitVec 9)) (n : Nat) :
    scanSamples (b :: bs) (ackedSample b :: vs) n = scanSamples bs vs (n + 1) := by
  have hlow : (ackedSample b).getLsbD 0 = false := by rw [ackedSample, BitVec.getLsbD_append]; rfl
  rw [scanSamples, if_neg (not_contended_ackedSample b), hlow, if_neg Bool.false_ne_true]

theorem scanSamples_take (bytes : List Byte) (vs : List (BitVec 9)) (k n : Nat) (h : k ≤ bytes.length) :
    scanSamples bytes ((bytes.take k).map ackedSample ++ vs) n = scanSamples (bytes.drop k) vs (n + k) := by
  induction k generalizing bytes n with
  | zero => rfl
  | succ k ih =>
    cases bytes with
    | nil => exact absurd h (Nat.not_succ_le_zero k)
    | cons b bs =>
      rw [List.take_succ_cons, List.map_cons, List.cons_append, scanSamples_ackedSample,
        ih bs (n + 1) (Nat.le_of_succ_le_succ h), List.drop_succ_cons, Nat.add_right_comm, Nat.add_assoc]

/-- Every byte acknowledged is a whole message (R80). -/
theorem scanSamples_acked (bytes : List Byte) : scanSamples bytes (bytes.map ackedSample) 0 = some .acked := by
  have h := scanSamples_take bytes [] bytes.length 0 (Nat.le_refl _)
  rw [List.take_length, List.append_nil, List.drop_length] at h
  exact h

/-- Samples that end before byte k show no outcome (R82). -/
theorem scanSamples_partly {bytes : List Byte} {k : Nat} (h : k < bytes.length) :
    scanSamples bytes ((bytes.take k).map ackedSample) 0 = some (.partly k) := by
  have htake := scanSamples_take bytes [] k 0 (Nat.le_of_lt h)
  rw [List.append_nil, List.drop_eq_getElem_cons h, Nat.zero_add] at htake
  exact htake

theorem scanSamples_at {bytes : List Byte} {k : Nat} {b : Byte} (h : bytes[k]? = some b) (v : BitVec 9) :
    scanSamples bytes ((bytes.take k).map ackedSample ++ [v]) 0 =
      scanSamples (b :: bytes.drop (k + 1)) [v] k := by
  obtain ⟨hk, rfl⟩ := List.getElem?_eq_some_iff.1 h
  rw [scanSamples_take bytes [v] k 0 (Nat.le_of_lt hk), List.drop_eq_getElem_cons hk, Nat.zero_add]

/-- A byte in contention ends the message (R83). -/
theorem scanSamples_contended {bytes : List Byte} {k : Nat} {b : Byte} {v : BitVec 9} (h : bytes[k]? = some b)
    (hv : Contended b v) :
    scanSamples bytes ((bytes.take k).map ackedSample ++ [v]) 0 = some (.contention (k + 1)) := by
  rw [scanSamples_at h, scanSamples, if_pos hv]
  rfl

/-- A byte refused ends the message (R81). -/
theorem scanSamples_refused {bytes : List Byte} {k : Nat} {b : Byte} (h : bytes[k]? = some b) :
    scanSamples bytes ((bytes.take k).map ackedSample ++ [refusedSample b]) 0 = some (.nack (k + 1)) := by
  have hhigh : (refusedSample b).getLsbD 0 = true := by rw [refusedSample, BitVec.getLsbD_append]; rfl
  rw [scanSamples_at h, scanSamples, if_neg (not_contended_refusedSample b), hhigh, if_pos rfl]
  rfl

/-! ## The end of a message -/

/-- A message whose idle check passes ends with the outcome its samples show, once its half-bits have passed. -/
theorem messageEnds_of_scan {s : State} {m : Message} {purpose : Purpose} {idle : IdleCheck}
    {samples : List (BitVec 9)} {scan : ByteScan} {t : State} (hm : s.link.message = some m)
    (hp : m.purpose = purpose) (hposs : idlePossible idle = true) (hpass : idlePasses idle = true)
    (hscan : scanSamples (messageBytes m) samples 0 = some scan)
    (hwait : (idleHalves idle + scanHalves (messageBytes m) scan) * s.link.halfBit ≤ s.link.elapsed)
    (ht : messageOutcome m scan s = some t) : messageEnds purpose idle samples s = .next t := by
  unfold messageEnds
  rw [hm]
  dsimp only
  rw [if_neg (fun h => h hp), if_neg (by simp [hposs]), if_neg (by simp [hpass]), hscan]
  dsimp only
  rw [if_pos hwait, ht]

/-- Whether a byte is in contention or refused, its sample fails the message there, and is counted if it is contention
(R81, R83, R84). -/
theorem scan_of_failed {m : Message} {k : Nat} {b : Byte} {v : BitVec 9} (s : State)
    (h : (messageBytes m)[k]? = some b) (hv : v = refusedSample b ∨ Contended b v) :
    ∃ scan, scanSamples (messageBytes m) (((messageBytes m).take k).map ackedSample ++ [v]) 0 = some scan ∧
      scanHalves (messageBytes m) scan = failedHalves k b v ∧
      messageOutcome m scan s = some (messageFailed m (if Contended b v then countContention s else s)) := by
  by_cases hc : Contended b v
  · exact ⟨_, scanSamples_contended h hc, by rw [scanHalves_contention h, failedHalves, if_pos hc], by
      rw [if_pos hc]; rfl⟩
  · obtain rfl := hv.resolve_right hc
    exact ⟨_, scanSamples_refused h, by rw [scanHalves_nack h, failedHalves, if_neg hc], by rw [if_neg hc]; rfl⟩

end Sys2Proof.Machine
end

