-- ==== Sys2Proof/Proofs/Messages.lean ====
section
/-! PROOFS. The outcomes of LOAD messages (R80 to R85, R93). -/

namespace Sys2Proof.Machine

open Safety

/-! ## A link that sends its next work -/

theorem linkServed_kept (t : State) (l : DriverLink) :
    (linkServed t l).state = l.state ∧ (linkServed t l).failed = l.failed ∧ (linkServed t l).round = l.round := by
  unfold linkServed
  split
  · exact ⟨rfl, rfl, rfl⟩
  · split
    · exact ⟨rfl, rfl, rfl⟩
    · split <;> exact ⟨rfl, rfl, rfl⟩
    · exact ⟨rfl, rfl, rfl⟩

theorem linkNext_rowKept (s : State) : RowKept s (linkNext s) := by
  obtain ⟨hstate, hfailed, hround⟩ := linkServed_kept s s.link
  rw [linkNext_eq]
  exact ⟨hstate, hfailed, hround, rfl, rfl⟩

theorem linkNext_served (s : State) : (linkNext s).link = linkServed (linkNext s) s.link := by
  rw [linkNext_link]
  exact (linkServed_congr (by simp) (by simp) _).symm

/-! ## LOAD messages that end well -/

/-- With a module loaded the phase does not end without its strobe, and loading going on is nothing to the table. -/
theorem loadNext_of_loaded {op : RowOp} (h : op.loaded ≠ 0) (s : State) :
    (loadNext op s).bus = s.bus ∧ (loadNext op s).wmu = s.wmu ∧ (loadNext op s).table = s.table ∧
      (loadNext op s).area = s.area ∧ (loadNext op s).notice = s.notice := by
  unfold loadNext
  split
  · simp
  · rw [if_neg h]
    simp

theorem joined_ne_zero (q : ModuleSet) (m : ModuleNo) : q ||| oneModule m ≠ 0 := by
  intro h
  have hm := m.isLt
  have hbit := congrArg (fun v => v.getLsbD m.val) h
  simp only [oneModule, BitVec.getLsbD_or, BitVec.getLsbD_shiftLeft, hm, decide_true, Nat.lt_irrefl, decide_false,
    Bool.not_false, Bool.true_and, Nat.sub_self, BitVec.getLsbD_one, getLsbD_noCells, Bool.or_eq_false_iff] at hbit
  exact absurd hbit.2 (by decide)

/-- The loading that a message of the phase in flight has going on, with no message left on the link (R56, R80). -/
theorem reportSlice_loaded (m : ModuleNo) {u : State} (hm : u.link.message = none) :
    (u.sched.op = none → linkNext (reportSlice true m u) = linkNext u) ∧
    (∀ op, u.sched.op = some op →
      LoadingGoesOn u.link (linkNext (reportSlice true m u)) { op with loaded := op.loaded ||| oneModule m }) ∧
    RowKept u (linkNext (reportSlice true m u)) ∧ SameWritePath u (linkNext (reportSlice true m u)) ∧
    (linkNext (reportSlice true m u)).table = u.table ∧ (linkNext (reportSlice true m u)).area = u.area ∧
    (linkNext (reportSlice true m u)).notice = u.notice := by
  have report : ∀ op, u.sched.op = some op →
      reportSlice true m u = loadNext { op with loaded := op.loaded ||| oneModule m } u := fun op hop => by
    rw [reportSlice, hop]
    rfl
  have idle : u.sched.op = none → reportSlice true m u = u := fun hop => by rw [reportSlice, hop]
  refine ⟨fun hop => by rw [idle hop], fun op hop => ?_, ?_⟩
  · rw [report op hop]
    exact loadNext_goesOn _ hm
  · cases hop : u.sched.op with
    | none =>
      rw [idle hop]
      exact ⟨linkNext_rowKept u, by simp [SameWritePath], by simp, by simp, by simp⟩
    | some op =>
      rw [report op hop]
      obtain ⟨hbus, hwmu, htable, harea, hnotice⟩ :=
        loadNext_of_loaded (op := { op with loaded := op.loaded ||| oneModule m }) (joined_ne_zero _ _) u
      exact ⟨(loadNext_rowKept _ u).trans (linkNext_rowKept _), by simp [SameWritePath, hbus, hwmu], by simp [htable],
        by simp [harea], by simp [hnotice]⟩

/-- Settles O40: the module latches the message, and loading goes on, or the latch is to be cleared. -/
theorem loadedSlicesAreLatched : Obligations.LoadedSlicesAreLatched := by
  intro s m idle hm hp hposs hpass hwait
  have hhalves : (idleHalves idle + scanHalves (messageBytes m) .acked) * s.link.halfBit ≤ s.link.elapsed := by
    rw [scanHalves_acked, length_messageBytes, Nat.add_mul]
    exact hwait
  have hexec : exec (.loadMessage idle ((messageBytes m).map ackedSample)) s = .next (messageSucceeded m s) :=
    messageEnds_of_scan hm hp hposs hpass (scanSamples_acked _) hhalves rfl
  generalize hu : (endMessage s).setLatches (latchMessage (messageBytes m) s.latches) = u
  have hlink : u.link = messageEnded s.link := by rw [← hu]; rfl
  have hsched : u.sched = s.sched := by rw [← hu]; rfl
  have hrest : u.mem = s.mem ∧ u.bus = s.bus ∧ u.wmu = s.wmu ∧ u.table = s.table ∧ u.sets = s.sets ∧ u.lit = s.lit ∧
      u.panel = s.panel ∧ u.period = s.period ∧ u.seq = s.seq ∧ u.sense = s.sense ∧ u.area = s.area ∧ u.cmd = s.cmd ∧
      u.notice = s.notice ∧ u.store = s.store := by simp [← hu]
  have hlatches : u.latches = latchMessage (messageBytes m) s.latches := by rw [← hu]; rfl
  obtain ⟨hmem, hbus, hwmu, htable, hsets, hlit, hpanel, hperiod, hseq, hsense, harea, hcmd, hnotice, hstore⟩ := hrest
  cases hb : m.beforeLoss with
  | true =>
    have hsucc : messageSucceeded m s = linkNext (requestClear u) := by
      rw [messageSucceeded, hp, hb, ← hu]
      rfl
    obtain ⟨hstate, hfailed, hround, -⟩ := linkNext_rowKept (requestClear u)
    have hserved := linkNext_served (requestClear u)
    rw [hsucc] at hexec
    refine ⟨_, hexec, by simp [hlatches], fun _ => ⟨by simp [hsched], ?_⟩, fun _ => ?_, nofun,
      by simp [SameWritePath, hmem, hbus, hwmu], by simp [htable], by simp [hsets], by simp [hlit], by simp [hpanel],
      by rw [hstate]; simp [hlink], by rw [hfailed]; simp [hlink], by rw [hround]; simp [hlink], by simp [hseq],
      by simp [hsense], by simp [harea], by simp [hcmd], by simp [hnotice], by simp [hstore]⟩
    · rw [hserved, (requestClear_frame u).2.2.2.2.2.2.2.2.2.1, hlink]
    · simpa using requestClear_pulse u
  | false =>
    have hsucc : messageSucceeded m s = linkNext (reportSlice true m.modNo u) := by
      rw [messageSucceeded, hp, hb, ← hu]
      rfl
    have hnone : u.link.message = none := by rw [hlink]
    obtain ⟨hidle, hloads, ⟨hstate, hfailed, hround, -⟩, ⟨hmem', hbus', hwmu'⟩, htable', harea', hnotice'⟩ :=
      reportSlice_loaded m.modNo hnone
    rw [hlink] at hstate hfailed hround hloads
    rw [hsched] at hloads
    rw [hsucc] at hexec
    refine ⟨_, hexec, by simp [hlatches], fun hor => ?_, nofun, fun _ => ⟨by simp [hperiod], hloads⟩,
      ⟨hmem'.trans hmem, hbus'.trans hbus, hwmu'.trans hwmu⟩, htable'.trans htable, by simp [hsets], by simp [hlit],
      by simp [hpanel], hstate, hfailed, hround, by simp [hseq], by simp [hsense], harea'.trans harea, by simp [hcmd],
      hnotice'.trans hnotice, by simp [hstore]⟩
    have hop : u.sched.op = none := by rw [hsched]; exact hor.resolve_left nofun
    rw [hidle hop, ← hlink]
    exact ⟨by simp [hsched], linkNext_served u⟩

/-! ## LOAD messages that fail -/

/-- The state with the contention counter at a value. -/
def contentionsAt (n : Nat) (s : State) : State := s.setNotice { s.notice with contentions := n }

theorem messageFailed_first {m : Message} (hp : m.purpose = .phaseLoad) (hb : m.beforeLoss = false)
    (ha : m.attempt = .first) (n : Nat) (s : State) :
    messageFailed m (contentionsAt n s) = retried s m n := by
  obtain ⟨purpose, modNo, phase, presence, data, attempt, sent, before⟩ := m
  dsimp only at hp hb ha
  subst hp hb ha
  rfl

/-- A LOAD message handed over before a loss is reported to no block (R93). -/
theorem messageFailed_late {m : Message} (hp : m.purpose = .phaseLoad) (hb : m.beforeLoss = true) (n : Nat)
    (s : State) : LateLoadFails s (messageFailed m (contentionsAt n s)) n := by
  generalize hu : requestClear (endMessage (contentionsAt n s)) = u
  have hfailed : messageFailed m (contentionsAt n s) = linkNext u := by
    rw [messageFailed, hp, hb, ← hu]
    rfl
  have hpulse : u.period.clearPulse ≠ .idle := by
    rw [← hu]
    exact requestClear_pulse _
  have hlink : u.link = messageEnded s.link := by rw [← hu]; rfl
  have hserved := linkNext_served u
  rw [hlink] at hserved
  rw [hfailed]
  refine ⟨by simp [← hu, contentionsAt], hserved, ?_, by simpa using hpulse, ?_⟩
  · rw [← hu]
    simp [requestClear, contentionsAt]
  · simp [← hu, contentionsAt]

theorem loadNext_done {op : RowOp} {s : State} (h : (loadNext op s).sched.op = none) :
    op.toHand = [] ∧ op.loaded = 0 := by
  unfold loadNext at h
  split at h
  · simp [setOp] at h
  · next hh =>
    split at h
    · next hl => exact ⟨hh, hl⟩
    · cases h

/-- A DELTA that completes as its last module fails frees its slot, and a hold is settled (R30, R56, R60). -/
theorem loadNext_settled {op : RowOp} {b s : State} (hk : op.kind = .delta) (hnone : (loadNext op s).sched.op = none)
    (hb : SameHold b (slotFreed s)) : HoldSettled b (loadNext op s) := by
  obtain ⟨hh, hl⟩ := loadNext_done hnone
  have hdone : loadNext op s = phaseDone op s := by
    rw [loadNext, hh]
    exact if_pos hl
  rw [hdone] at hnone ⊢
  unfold phaseDone at hnone ⊢
  split at hnone
  · have hstarts := startWrite_starts (op := { op with eraseDone := true, loaded := 0 }) (s := s) rfl
    unfold WriteStarts at hstarts
    split at hstarts
    · obtain ⟨o, ho, -⟩ := hstarts
      rw [hnone] at ho
      cases ho
    · next hc =>
      exact startWrite_settled (op := { op with eraseDone := true, loaded := 0 }) hk (Classical.not_not.1 hc) hb
  · exact completeOp_settled hk hb

/-- Where loading ends with the erase phase the write phase starts, and drops the cells of FAILED modules (R55). -/
theorem loadNext_droppedCells (op : RowOp) {s u : State} {n : Nat} (h : Drops s u n) :
    Drops s (loadNext op u) (n +
      if op.toHand = [] ∧ op.loaded = 0 ∧ op.phase = .erase then failedCells u.link.failed op.writeMask else 0) := by
  unfold loadNext
  split
  · next m rest hh =>
    rw [if_neg (by simp [hh])]
    exact Drops.of_eq h (by simp)
  · next hh =>
    by_cases hl : op.loaded = 0
    · rw [if_pos hl]
      unfold phaseDone
      split
      · next hp =>
        rw [if_pos ⟨hh, hl, hp⟩]
        exact Drops.trans h (startWrite_droppedCells { op with eraseDone := true, loaded := 0 } u)
      · next hp =>
        rw [if_neg fun hc => hp hc.2.2]
        exact Drops.of_eq h (completeOp_annulsOnly _ _).droppedCells
    · rw [if_neg hl, if_neg fun hc => hl hc.2.1]
      exact Drops.of_eq h (by simp)

/-- The retry of a LOAD message has failed: its module is FAILED, and loading goes on without it (R85). -/
theorem messageFailed_retry {m : Message} (hp : m.purpose = .phaseLoad) (hb : m.beforeLoss = false)
    (ha : m.attempt = .retry) (n : Nat) (s : State) : RetryFails s (messageFailed m (contentionsAt n s)) m n := by
  generalize hv : (endMessage (contentionsAt n s)).setLink
    { messageEnded s.link with failed := s.link.failed ||| oneModule m.modNo } = v
  have hfailed : messageFailed m (contentionsAt n s) =
      linkNext (reportSlice false m.modNo (raiseNotice .moduleFailed v)) := by
    rw [messageFailed, hp, hb, ha, ← hv]
    rfl
  have hlink : (raiseNotice .moduleFailed v).link =
      { messageEnded s.link with failed := s.link.failed ||| oneModule m.modNo } := by simp [← hv]
  have hnotices : (raiseNotice .moduleFailed v).notice.notices = s.notice.notices ||| 0x08 := by
    rw [raiseNotice_notices, ← hv]
    rfl
  have hcounts : (raiseNotice .moduleFailed v).notice.contentions = n ∧
      (raiseNotice .moduleFailed v).notice.retries = s.notice.retries ∧
      (raiseNotice .moduleFailed v).notice.droppedCells = s.notice.droppedCells := by
    rw [raiseNotice_rest, ← hv]
    exact ⟨rfl, rfl, rfl⟩
  have hrest : (raiseNotice .moduleFailed v).mem = s.mem ∧ (raiseNotice .moduleFailed v).sets = s.sets ∧
      (raiseNotice .moduleFailed v).lit = s.lit ∧ (raiseNotice .moduleFailed v).latches = s.latches ∧
      (raiseNotice .moduleFailed v).panel = s.panel ∧ (raiseNotice .moduleFailed v).period = s.period ∧
      (raiseNotice .moduleFailed v).seq = s.seq ∧ (raiseNotice .moduleFailed v).sense = s.sense ∧
      (raiseNotice .moduleFailed v).area = s.area ∧ (raiseNotice .moduleFailed v).wmu = s.wmu ∧
      (raiseNotice .moduleFailed v).cmd = s.cmd ∧ (raiseNotice .moduleFailed v).store = s.store ∧
      (raiseNotice .moduleFailed v).sched = s.sched ∧ (raiseNotice .moduleFailed v).table = s.table ∧
      (raiseNotice .moduleFailed v).bus = s.bus ∧ (raiseNotice .moduleFailed v).freeCount = s.freeCount := by
    simp [← hv, contentionsAt]
  rw [hfailed]
  generalize raiseNotice .moduleFailed v = u at *
  obtain ⟨hmem, hsets, hlit, hlatches, hpanel, hperiod, hseq, hsense, harea, hwmu, hcmd, hstore, hsched, htable, hbus,
    hfree⟩ := hrest
  obtain ⟨hcontentions, hretries, hdropped⟩ := hcounts
  have report : ∀ op, s.sched.op = some op → reportSlice false m.modNo u =
      loadNext op (countDropped (cellCount (maskSlice (workingPhase op).2 m.modNo)) u) := fun op hop => by
    rw [reportSlice, hsched, hop]
    rfl
  have idle : s.sched.op = none → reportSlice false m.modNo u = u := fun hop => by rw [reportSlice, hsched, hop]
  have reported : RowKept u (reportSlice false m.modNo u) ∧ CountsKept u (reportSlice false m.modNo u) := by
    cases hop : s.sched.op with
    | none =>
      rw [idle hop]
      exact ⟨.of_eq rfl rfl, .refl u⟩
    | some op =>
      rw [report op hop]
      exact ⟨(countDropped_rowKept _ u).trans (loadNext_rowKept op _),
        (countDropped_countsKept _ u).trans (loadNext_countsKept op _)⟩
  obtain ⟨hrow, hcount⟩ := reported
  obtain ⟨hstate', hfailed', hround', -⟩ := hrow.trans (linkNext_rowKept _)
  have hnext : CountsKept u (linkNext (reportSlice false m.modNo u)) := hcount.trans (.of_eq (by simp))
  rw [hlink] at hstate' hfailed' hround'
  have hkept : AreaKept s (linkNext (reportSlice false m.modNo u)) :=
    areaKept_of_same harea hwmu (by simpa [AreaKept] using reportSlice_areaKept false m.modNo u)
  refine ⟨hfailed', hstate', hround', fun hop => ?_, hnext.notices.trans hnotices,
    hnext.contentions.trans hcontentions, hnext.retries.trans hretries, fun op hop => ?_, by simp [hmem],
    by simp [hsets], by simp [hlit], by simp [hlatches], by simp [hpanel], by simp [hperiod], by simp [hseq],
    by simp [hsense], hkept, by simp [hcmd], by simp [hstore]⟩
  · rw [idle hop, ← hlink]
    exact linkNext_served u
  · have hdrops := loadNext_droppedCells op
      (countDropped_drops (cellCount (maskSlice (workingPhase op).2 m.modNo)) u)
    have hworking : (workingPhase op).2 = if op.phase = .erase then op.eraseMask else op.writeMask := by
      unfold workingPhase
      cases op.phase <;> rfl
    have hport : (linkNext (loadNext op
        (countDropped (cellCount (maskSlice (workingPhase op).2 m.modNo)) u))).port = u.port := by simp
    have hsame : SameHold ((slotFreed s).setPort u.port)
        (slotFreed (countDropped (cellCount (maskSlice (workingPhase op).2 m.modNo)) u)) := by
      simp [SameHold, slotFreed, hmem, hwmu, hbus, htable, hsets, harea, hfree]
    rw [report op hop] at hfailed' ⊢
    refine ⟨?_, ?_, fun hk hnone => ?_⟩
    · rw [← hlink]
      exact loadNext_goesOn op (by rw [(countDropped_frame _ u).2.2.2.2.2.2.2.2.2.1, hlink])
    · rw [Drops, ← hdropped, hfailed', ← hworking]
      rw [(countDropped_frame _ u).2.2.2.2.2.2.2.2.2.1, hlink] at hdrops
      simpa [Drops] using hdrops
    · rw [hport]
      have hsettled := loadNext_settled hk (by simpa using hnone) hsame
      simpa [HoldSettled] using hsettled

/-- Settles O41: the first attempt is retried, the retry makes its module FAILED, and a late load is neither. -/
theorem failedLoadsAreRetriedOnce : Obligations.FailedLoadsAreRetriedOnce := by
  intro s m idle k b v hm hp hposs hpass hbyte hv hwait samples seen
  obtain ⟨scan, hscan, hhalves, hout⟩ := scan_of_failed s hbyte hv
  have hseen : (if Contended b v then countContention s else s) = contentionsAt seen s := by
    simp only [seen]
    split <;> rfl
  rw [hseen] at hout
  have hexec : exec (.loadMessage idle samples) s = .next (messageFailed m (contentionsAt seen s)) :=
    messageEnds_of_scan hm hp hposs hpass hscan (by rw [hhalves]; exact hwait) hout
  exact ⟨fun hb => ⟨_, hexec, messageFailed_late hp hb seen s⟩,
    fun hb ha => by rw [hexec, messageFailed_first hp hb ha],
    fun hb ha => ⟨_, hexec, messageFailed_retry hp hb ha seen s⟩⟩

end Sys2Proof.Machine
end

