-- ==== Sys2Proof/Proofs/Probes.lean ====
section
/-! PROOFS. The outcomes of probes and the end of a probe round (R91, R92). -/

namespace Sys2Proof.Machine

open Safety

/-! ## The probe round -/

/-- A round that has modules left goes on (R91). -/
theorem roundNext_left {acked : Bool} {round : ProbeRound} {u : State} (hr : u.link.round = some round)
    (hleft : round.left.tail ≠ []) :
    roundNext acked u = u.setLink { u.link with
      round := some { left := round.left.tail, restored := round.restored || acked } } := by
  have hempty : ¬ round.left.tail.isEmpty = true := by rw [List.isEmpty_iff]; exact hleft
  rw [roundNext, hr]
  exact if_neg hempty

/-- After the last module the round is over, with every row in doubt if one was restored, and PROBE has OK (R92). -/
theorem roundNext_over {acked : Bool} {round : ProbeRound} {u : State} (hr : u.link.round = some round)
    (hleft : round.left.tail = []) :
    roundNext acked u = finishCommand .ok []
      (if (round.restored || acked) = true then requestFull RowSet.all (u.setLink { u.link with round := none })
        else u.setLink { u.link with round := none }) := by
  have hempty : round.left.tail.isEmpty = true := by rw [List.isEmpty_iff]; exact hleft
  rw [roundNext, hr]
  exact if_pos hempty

/-- Whatever the outcome of a probe, its module leaves the round, and the link sends its next work (R78, R91, R92). -/
theorem roundNext_ends {s u : State} {m : Message} {acked : Bool} {round : ProbeRound} {n : Nat} (third : ThirdLaw s)
    (hround : s.link.round = some round)
    (hlink : u.link = { messageEnded s.link with
      failed := if acked = true then s.link.failed &&& ~~~oneModule m.modNo else s.link.failed })
    (hlatches : u.latches = if acked = true then latchMessage (messageBytes m) s.latches else s.latches)
    (hnotice : u.notice = { s.notice with contentions := n })
    (hrest : u.mem = s.mem ∧ u.sched = s.sched ∧ u.lit = s.lit ∧ u.panel = s.panel ∧ u.period = s.period ∧
      u.seq = s.seq ∧ u.sense = s.sense ∧ u.area = s.area ∧ u.store = s.store ∧ u.cmd = s.cmd ∧ u.sets = s.sets ∧
      u.table = s.table) : ProbeEnds s (linkNext (roundNext acked u)) m round acked n := by
  obtain ⟨hmem, hsched, hlit, hpanel, hperiod, hseq, hsense, harea, hstore, hcmd, hsets, htable⟩ := hrest
  have hr : u.link.round = some round := by rw [hlink, ← hround]
  have hserved := linkNext_served (roundNext acked u)
  by_cases hleft : round.left.tail = []
  · have hover := roundNext_over (acked := acked) hr hleft
    generalize hw : u.setLink { u.link with round := none } = w at hover
    generalize hx : (if (round.restored || acked) = true then requestFull RowSet.all w else w) = x at hover
    have hframe : x.mem = w.mem ∧ x.sched = w.sched ∧ x.lit = w.lit ∧ x.panel = w.panel ∧ x.period = w.period ∧
        x.seq = w.seq ∧ x.sense = w.sense ∧ x.area = w.area ∧ x.store = w.store ∧ x.cmd = w.cmd ∧ x.link = w.link ∧
        x.latches = w.latches ∧ x.notice = w.notice := by
      rw [← hx]
      split
      · simp [requestFull_all_frame]
      · exact ⟨rfl, rfl, rfl, rfl, rfl, rfl, rfl, rfl, rfl, rfl, rfl, rfl, rfl⟩
    obtain ⟨hxmem, hxsched, hxlit, hxpanel, hxperiod, hxseq, hxsense, hxarea, hxstore, hxcmd, hxlink, hxlatches,
      hxnotice⟩ := hframe
    have hlink' : (roundNext acked u).link = { messageEnded s.link with
        failed := if acked = true then s.link.failed &&& ~~~oneModule m.modNo else s.link.failed
        round := none } := by
      rw [hover, (finishCommand_frame _ _ x).2.2.2.2.2.2.2.2.1, hxlink, ← hw, hlink]
      rfl
    obtain ⟨hstate', hfailed', hround', -⟩ := linkNext_rowKept (roundNext acked u)
    rw [hlink'] at hstate' hfailed' hround' hserved
    have hwseq : w.seq = s.seq := by rw [← hw]; exact hseq
    have thirdW : ThirdLaw w := by simpa [← hw, ThirdLaw, inResync, hsets, htable] using third
    have finished : Finishes s (roundNext acked u) 0x80 := by
      rw [hover]
      exact finishCommand_finishes (by rw [hxcmd, ← hw]; exact hcmd) .ok
    refine ⟨hfailed', ?_, ?_, fun h => absurd hleft h, fun _ => ⟨hround', by simpa [Finishes] using finished,
      fun hres hrec => ?_, fun hor => ?_⟩, ?_, ?_, ?_, ?_, ?_, hstate', ?_, ?_, ?_, ?_, ?_⟩
    · simp [hover, hxlatches, ← hw, hlatches]
    · rw [if_pos hleft]
      exact hserved
    · have hdoubt : AllRowsInDoubt x := by
        rw [← hx, if_pos hres]
        exact requestFull_all (by rw [hwseq]; exact hrec) thirdW
      simpa [AllRowsInDoubt, hover] using hdoubt
    · have hxw : x = w := by
        rw [← hx]
        obtain hres | hrec := hor
        · rw [if_neg (by rw [hres]; exact Bool.false_ne_true)]
        · have hnothing : requestFull RowSet.all w = w := by rw [requestFull, hwseq, if_pos hrec]
          rw [hnothing, ite_self]
      rw [hxw] at hover
      simp [hover, ← hw, hsets, htable]
    · simp [hover, hxnotice, ← hw, hnotice]
    all_goals simp [*, ← hw]
  · have hgoes := roundNext_left (acked := acked) hr hleft
    have hlink' : (roundNext acked u).link = { messageEnded s.link with
        failed := if acked = true then s.link.failed &&& ~~~oneModule m.modNo else s.link.failed
        round := some { left := round.left.tail, restored := round.restored || acked } } := by
      rw [hgoes, hlink]
      rfl
    obtain ⟨hstate', hfailed', hround', -⟩ := linkNext_rowKept (roundNext acked u)
    rw [hlink'] at hstate' hfailed' hround' hserved
    refine ⟨hfailed', by simp [hlatches], ?_, fun _ => ⟨hround', ?_⟩, fun h => absurd h hleft, ?_, by simp [hmem],
      by simp [hsched], by simp [hlit], by simp [hpanel], hstate', by simp [hperiod], by simp [hseq], by simp [hsense],
      ?_, by simp [hstore]⟩
    · rw [if_neg hleft]
      exact hserved
    all_goals rw [hgoes]
    · simp [hcmd, hsets, htable]
    · simp [hnotice]
    · simp [harea]

theorem messageSucceeded_probe {s : State} {m : Message} {round : ProbeRound} (hp : m.purpose = .probe)
    (third : ThirdLaw s) (hround : s.link.round = some round) :
    ProbeEnds s (messageSucceeded m s) m round true s.notice.contentions := by
  generalize hu : ((endMessage s).setLatches (latchMessage (messageBytes m) s.latches)).setLink
    { messageEnded s.link with failed := s.link.failed &&& ~~~oneModule m.modNo } = u
  have hsucc : messageSucceeded m s = linkNext (roundNext true u) := by
    rw [messageSucceeded, hp, ← hu]
    rfl
  rw [hsucc]
  exact roundNext_ends third hround (by rw [← hu]; rfl) (by rw [← hu]; rfl) (by rw [← hu]; rfl) (by simp [← hu])

theorem messageFailed_probe {s : State} {m : Message} {round : ProbeRound} (hp : m.purpose = .probe)
    (third : ThirdLaw s) (hround : s.link.round = some round) (n : Nat) :
    ProbeEnds s (messageFailed m (contentionsAt n s)) m round false n := by
  have hfailed : messageFailed m (contentionsAt n s) =
      linkNext (roundNext false (endMessage (contentionsAt n s))) := by
    rw [messageFailed, hp]
  rw [hfailed]
  exact roundNext_ends third hround rfl rfl rfl (by simp [contentionsAt])

/-- Settles O42: the module is restored or left FAILED, leaves the round, and the last one ends it. -/
theorem probesRestoreModules : Obligations.ProbesRestoreModules := by
  intro s m idle round acked k b v third hm hp hposs hpass hround hbyte hor hwait samples seen
  cases acked with
  | true =>
    have hseen : seen = s.notice.contentions := if_neg nofun
    have hhalves : (idleHalves idle + scanHalves (messageBytes m) .acked) * s.link.halfBit ≤ s.link.elapsed := by
      rw [scanHalves_acked, length_messageBytes]
      exact hwait
    rw [hseen]
    exact ⟨_, messageEnds_of_scan hm hp hposs hpass (scanSamples_acked _) hhalves rfl,
      messageSucceeded_probe hp third hround⟩
  | false =>
    obtain ⟨scan, hscan, hhalves, hout⟩ := scan_of_failed s hbyte (hor.resolve_left nofun)
    have hseen : (if Contended b v then countContention s else s) = contentionsAt seen s := by
      by_cases hc : Contended b v
      · rw [if_pos hc]
        exact congrArg (contentionsAt · s) (if_pos ⟨rfl, hc⟩).symm
      · rw [if_neg hc]
        exact congrArg (contentionsAt · s) (if_neg fun h => hc h.2).symm
    rw [hseen] at hout
    exact ⟨_, messageEnds_of_scan hm hp hposs hpass hscan (by rw [hhalves]; exact hwait) hout,
      messageFailed_probe hp third hround seen⟩

end Sys2Proof.Machine
end

