-- ==== Sys2Proof/Proofs/LinkFaults.lean ====
section
/-! PROOFS. The link fault and the stretches that expire (R79, R82, R86, R88). -/

namespace Sys2Proof.Machine

open Safety

/-! ## The end of a probe round -/

theorem endRound_of_none {res : Result} {s : State} (h : s.link.round = none) : endRound res s = s := by
  rw [endRound, h]

theorem endRound_of_some {res : Result} {s : State} {r : ProbeRound} (h : s.link.round = some r) :
    endRound res s = finishCommand res []
      (if r.restored then requestFull RowSet.all (s.setLink { s.link with round := none })
        else s.setLink { s.link with round := none }) := by
  rw [endRound, h]

theorem endRound_link (res : Result) (s : State) : (endRound res s).link = { s.link with round := none } := by
  cases h : s.link.round with
  | none =>
    rw [endRound_of_none h, ← h]
  | some r =>
    rw [endRound_of_some h]
    split <;> simp

theorem endRound_notice (res : Result) (s : State) : (endRound res s).notice = s.notice := by
  cases h : s.link.round with
  | none => rw [endRound_of_none h]
  | some r =>
    rw [endRound_of_some h]
    split <;> simp [requestFull_all_frame]

theorem endRound_area (res : Result) (s : State) : (endRound res s).area = s.area := by
  cases h : s.link.round with
  | none => rw [endRound_of_none h]
  | some r =>
    rw [endRound_of_some h]
    split <;> simp [requestFull_all_frame]

theorem endRound_taken (res : Result) (s : State) : (endRound res s).table.taken = s.table.taken := by
  cases h : s.link.round with
  | none => rw [endRound_of_none h]
  | some r =>
    rw [endRound_of_some h]
    split <;> simp [requestFull_taken]

theorem endRound_finishes {res : Result} {s u : State} (hround : u.link.round ≠ none) (hcmd : u.cmd = s.cmd) :
    Finishes s (endRound res u) (resultCode res) := by
  obtain ⟨r, hr⟩ := Option.ne_none_iff_exists'.1 hround
  rw [endRound_of_some hr]
  refine finishCommand_finishes ?_ res
  split <;> simpa using hcmd

theorem givesBack_of_eq {s u t : State} {op : RowOp} (h : GivesBack s u op) (htable : t.table = u.table)
    (hsets : t.sets = u.sets) (hwmu : t.wmu = u.wmu) : GivesBack s t op := by
  simpa only [GivesBack, inResync, htable, hsets, hwmu] using h

/-- A request of every row to the FULL set leaves each row in the sets that is in them. -/
theorem requestFull_all_keeps (s : State) (q : Row) :
    (hasRow s.sets.full q = true → hasRow (requestFull RowSet.all s).sets.full q = true) ∧
      (inResync s q = true → inResync (requestFull RowSet.all s) q = true) := by
  rw [requestFull_all_eq]
  split
  · exact ⟨id, id⟩
  · next hrec =>
    obtain ⟨hrec', -⟩ | ⟨-, hfull, -⟩ := addFull_cases RowSet.all s
    · exact absurd hrec' hrec
    · have hall : hasRow (dropHold (addFull RowSet.all s)).sets.full q = true := by
        rw [(dropHold_frame _).2.2.2.2.1, hfull, hasRow_or_all]
      exact ⟨fun _ => hall, fun _ => by rw [inResync, hall, Bool.true_or]⟩

/-- What an operation gives back stays given back when a probe round ends, whose restored modules bring every row
(R61, R92). -/
theorem endRound_givesBack {s u : State} {op : RowOp} (h : GivesBack s u op) (res : Result)
    (hc : (∀ r, u.link.round = some r → r.restored = false) ∨ op.kind ≠ .delta) :
    GivesBack s (endRound res u) op := by
  cases hr : u.link.round with
  | none => rwa [endRound_of_none hr]
  | some r =>
    rw [endRound_of_some hr]
    cases hres : r.restored with
    | false => exact givesBack_of_eq h (by simp) (by simp) (by simp)
    | true =>
      have hk : op.kind ≠ .delta := hc.resolve_left fun hall => by
        rw [hall r hr] at hres
        exact Bool.false_ne_true hres
      obtain ⟨-, hfull, hback⟩ := h
      obtain ⟨keepFull, keepResync⟩ := requestFull_all_keeps (u.setLink { u.link with round := none }) op.row
      have hasked : GivesBack s (requestFull RowSet.all (u.setLink { u.link with round := none })) op :=
        ⟨fun hd => absurd hd hk, fun hf hd hrec => keepFull (hfull hf hd hrec), fun hor => keepResync (hback hor)⟩
      exact givesBack_of_eq hasked (by simp) (by simp) (by simp)

/-! ## The operation in flight at a link fault -/

theorem schedulerFault_firing {s : State} {op : RowOp} (hop : s.sched.op = some op) (hf : op.stage = .firing) :
    schedulerFault s = setOp (some { op with returnDue := true }) s := by
  rw [schedulerFault, hop]
  exact if_pos (beq_iff_eq.2 hf)

theorem schedulerFault_returns {s : State} {op : RowOp} (hop : s.sched.op = some op) (hf : op.stage ≠ .firing) :
    schedulerFault s = giveBack op (if slicesLatched op then requestClear (setOp none s) else setOp none s) := by
  rw [schedulerFault, hop]
  exact if_neg fun h => hf (beq_iff_eq.1 h)

theorem schedulerFault_idle {s : State} (hop : s.sched.op = none) : schedulerFault s = s := by
  rw [schedulerFault, hop]

theorem slicesLatched_iff (op : RowOp) :
    slicesLatched op = true ↔ op.stage = .ready ∨ op.stage = .loading ∧ op.loaded ≠ 0 := by
  simp only [slicesLatched, Bool.or_eq_true, Bool.and_eq_true, beq_iff_eq, bne_iff_ne]

theorem mergeBack_taken (r : Row) (writes erases : Mask) (s : State) :
    (mergeBack r writes erases s).table.taken = none := by
  unfold mergeBack
  dsimp only
  split
  · simp
  · split <;> simp [countAnnulled]

/-- A returned operation is gone, with what it gives back, and latched slices are to be cleared (R61, R67). -/
theorem schedulerFault_returned {s u : State} {op : RowOp} (hop : u.sched.op = some op) (hf : op.stage ≠ .firing)
    (hsame : u.wmu = s.wmu ∧ u.table = s.table ∧ u.sets = s.sets ∧ u.area = s.area ∧ u.seq = s.seq) :
    (schedulerFault u).sched.op = none ∧ (op.kind = .delta → (schedulerFault u).table.taken = none) ∧
      GivesBack s (schedulerFault u) op ∧
      (op.stage = .ready ∨ op.stage = .loading ∧ op.loaded ≠ 0 →
        (schedulerFault u).period.clearPulse ≠ .idle) := by
  obtain ⟨hwmu, htable, hsets, harea, hseq⟩ := hsame
  rw [schedulerFault_returns hop hf]
  generalize hv : (if slicesLatched op then requestClear (setOp none u) else setOp none u) = v
  have hframe : v.wmu = u.wmu ∧ v.table = u.table ∧ v.sets = u.sets ∧ v.area = u.area ∧ v.seq = u.seq ∧
      v.sched.op = none := by
    rw [← hv]
    split
    · simp [setOp]
    · exact ⟨rfl, rfl, rfl, rfl, rfl, rfl⟩
  obtain ⟨vwmu, vtable, vsets, varea, vseq, vop⟩ := hframe
  refine ⟨by rw [giveBack_op, vop], fun hk => ?_, ?_, fun hor => ?_⟩
  · rw [giveBack, hk]
    exact mergeBack_taken _ _ _ v
  · refine giveBack_givesBack ⟨vwmu.trans hwmu, vtable.trans htable, vsets.trans hsets, vop⟩ (varea.trans harea)
      (vseq.trans hseq)
  · rw [(giveBack_frame op v).2.2.2.2.2.2.2.2.1, ← hv, if_pos ((slicesLatched_iff op).2 hor)]
    exact requestClear_pulse _

theorem schedulerFault_countsKept (s : State) : CountsKept s (schedulerFault s) := by
  cases hop : s.sched.op with
  | none =>
    rw [schedulerFault_idle hop]
    exact .refl s
  | some op =>
    by_cases hf : op.stage = .firing
    · rw [schedulerFault_firing hop hf]
      exact .of_eq rfl
    · rw [schedulerFault_returns hop hf]
      refine CountsKept.trans ?_ (giveBack_annulsOnly _ _).countsKept
      split <;> exact .of_eq (by simp)

theorem schedulerFault_areaKept (s : State) : AreaKept s (schedulerFault s) := by
  cases hop : s.sched.op with
  | none =>
    rw [schedulerFault_idle hop]
    exact areaKept_of_eq rfl
  | some op =>
    by_cases hf : op.stage = .firing
    · rw [schedulerFault_firing hop hf]
      exact areaKept_of_eq rfl
    · rw [schedulerFault_returns hop hf]
      split <;> exact areaKept_of_same rfl rfl (giveBack_areaKept _ _)

/-! ## The link fault -/

/-- The link has become FAULTED with nothing on it, the operation in flight is returned, at its strobe if its phase is
FIRING, and a probe round has ended with WRONG_STATE (R86, R101). -/
def Faulted (s t : State) (seen : Nat) : Prop :=
  t.link.state = .faulted ∧ t.link.activity = .idle ∧ t.link.message = none ∧ t.link.waiting = none ∧
    t.link.round = none ∧ t.link.timer = 0 ∧ t.link.expired = false ∧ t.link.failed = s.link.failed ∧
    t.notice.notices.getLsbD 2 = true ∧ t.notice.contentions = seen ∧
    (∀ op, s.sched.op = some op → op.stage = .firing → t.sched.op = some { op with returnDue := true }) ∧
    (∀ op, s.sched.op = some op → op.stage ≠ .firing → t.sched.op = none ∧
      (op.kind = .delta → t.table.taken = none) ∧
      ((∀ r, s.link.round = some r → r.restored = false) ∨ op.kind ≠ .delta → GivesBack s t op) ∧
      (op.stage = .ready ∨ op.stage = .loading ∧ op.loaded ≠ 0 → t.period.clearPulse ≠ .idle)) ∧
    (s.link.round ≠ none → Finishes s t 0xC4) ∧ t.mem = s.mem ∧ t.lit = s.lit ∧ t.latches = s.latches ∧
    t.panel = s.panel ∧ t.seq = s.seq ∧ t.sense = s.sense ∧ AreaKept s t ∧ t.store = s.store

/-- The link FAULTED with nothing on it, before the fault reaches the scheduler (R86). -/
def linkDown (s : State) : State :=
  raiseNotice .linkFault (s.setLink { s.link with
    state := .faulted, activity := .idle, message := none, waiting := none, timer := 0, expired := false })

theorem linkFault_eq (s : State) :
    linkFault s = endRound .wrongState (schedulerFault
      (if (s.link.message.any fun m => m.beforeLoss) then requestClear (linkDown s) else linkDown s)) := by
  unfold linkFault linkDown
  cases s.link.message <;> rfl

theorem linkFault_faulted (n : Nat) (s : State) : Faulted s (linkFault (contentionsAt n s)) n := by
  rw [linkFault_eq]
  generalize hu : (if ((contentionsAt n s).link.message.any fun m => m.beforeLoss) = true
    then requestClear (linkDown (contentionsAt n s)) else linkDown (contentionsAt n s)) = u
  have hframe : u.link = { s.link with
        state := .faulted, activity := .idle, message := none, waiting := none, timer := 0, expired := false } ∧
      u.sched = s.sched ∧ u.wmu = s.wmu ∧ u.table = s.table ∧ u.sets = s.sets ∧ u.area = s.area ∧ u.seq = s.seq ∧
      u.mem = s.mem ∧ u.lit = s.lit ∧ u.latches = s.latches ∧ u.panel = s.panel ∧ u.sense = s.sense ∧
      u.cmd = s.cmd ∧ u.store = s.store := by
    rw [← hu]
    split <;> simp [linkDown, contentionsAt]
  have hnotice : u.notice = (linkDown (contentionsAt n s)).notice := by
    rw [← hu]
    split <;> simp
  have hraised : u.notice.notices.getLsbD 2 = true := by
    rw [hnotice]
    exact raiseNotice_present .linkFault _
  have hcontentions : u.notice.contentions = n := by
    rw [hnotice, linkDown, raiseNotice_rest]
    rfl
  obtain ⟨hlink, hsched, hwmu, htable, hsets, harea, hseq, hmem, hlit, hlatches, hpanel, hsense, hcmd, hstore⟩ := hframe
  have hcounts := schedulerFault_countsKept u
  have hround : (schedulerFault u).link.round = s.link.round := by simp [hlink]
  have htlink : (endRound .wrongState (schedulerFault u)).link = { s.link with
      state := .faulted, activity := .idle, message := none, waiting := none, timer := 0, expired := false
      round := none } := by
    rw [endRound_link, (schedulerFault_frame u).2.2.2.2.1, hlink]
  have hkept : AreaKept s (endRound .wrongState (schedulerFault u)) := by
    rw [AreaKept, endRound_area]
    exact areaKept_of_same harea hwmu (schedulerFault_areaKept u)
  have htsched : (endRound .wrongState (schedulerFault u)).sched = (schedulerFault u).sched := by simp
  have htperiod : (endRound .wrongState (schedulerFault u)).period = (schedulerFault u).period := by simp
  refine ⟨by rw [htlink], by rw [htlink], by rw [htlink], by rw [htlink], by rw [htlink], by rw [htlink],
    by rw [htlink], by rw [htlink], ?_, ?_, fun op hop hf => ?_, fun op hop hf => ?_, fun hr => ?_, by simp [hmem],
    by simp [hlit], by simp [hlatches], by simp [hpanel], by simp [hseq], by simp [hsense], hkept, by simp [hstore]⟩
  · rw [endRound_notice, hcounts.notices, hraised]
  · rw [endRound_notice, hcounts.contentions, hcontentions]
  · rw [htsched, schedulerFault_firing (hsched ▸ hop) hf]
    rfl
  · obtain ⟨hnone, htaken, hback, hpulse⟩ :=
      schedulerFault_returned (hsched ▸ hop) hf ⟨hwmu, htable, hsets, harea, hseq⟩
    rw [htsched, htperiod, endRound_taken]
    exact ⟨hnone, htaken, fun hc => endRound_givesBack hback _ (by rwa [hround]), hpulse⟩
  · exact endRound_finishes (by rwa [hround]) (by simp [hcmd])

/-! ## Stretches that expire in a message -/

theorem contentionsAt_self {s b : State} (h : b.notice = s.notice) : contentionsAt s.notice.contentions b = b := by
  rw [← h]
  rfl

/-- What a stretch that expires in a message makes of it with LCK freed: the message has failed, from a state b that
differs at most in what the module may have latched (R82, R84, R85, R91, R93). -/
def FailsFrom (s b t : State) (m : Message) (seen : Nat) : Prop :=
  (m.purpose = .phaseLoad → m.beforeLoss = false → m.attempt = .first → t = retried b m seen) ∧
    (m.purpose = .phaseLoad → m.beforeLoss = false → m.attempt = .retry → RetryFails b t m seen) ∧
    (m.purpose = .phaseLoad → m.beforeLoss = true → LateLoadFails b t seen) ∧
    (m.purpose = .probe → ThirdLaw s → ∀ round, s.link.round = some round → ProbeEnds b t m round false seen)

theorem messageFailed_fails {s b : State} (hlink : b.link = s.link) (htable : b.table = s.table)
    (hsets : b.sets = s.sets) (m : Message) (n : Nat) : FailsFrom s b (messageFailed m (contentionsAt n b)) m n := by
  refine ⟨fun hp hb ha => messageFailed_first hp hb ha n b, fun hp hb ha => messageFailed_retry hp hb ha n b,
    fun hp hb => messageFailed_late hp hb n b, fun hp third round hround => ?_⟩
  have thirdB : ThirdLaw b := by
    simp only [ThirdLaw, inResync, hsets, htable]
    exact third
  exact messageFailed_probe hp thirdB (by rw [hlink, hround]) n

theorem exec_stretchExpiry {s : State} {m : Message} {samples : List (BitVec 9)} {scan : ByteScan} {whole : Nat}
    (hm : s.link.message = some m) (hscan : scanSamples (messageBytes m) samples 0 = some scan)
    (hhalves : stretchHalves (messageBytes m) scan = 18 * whole + 2)
    (hwait : (18 * whole + 2) * s.link.halfBit + s.link.stretchLimit ≤ s.link.elapsed) (freed : Bool) :
    exec (.stretchExpiry (.message samples freed)) s = .next (stretchOutcome m scan freed s) := by
  change execStretchExpiry _ s = _
  unfold execStretchExpiry
  rw [hm]
  dsimp only
  rw [hscan]
  refine stepWhen_eq_next.2 ⟨decide_eq_true ?_, rfl⟩
  rw [hhalves]
  exact hwait

/-- A module may have latched a message whose CLOSE follows the last acknowledge (R82, log 8). -/
theorem mayLatch_cases (m : Message) (s : State) :
    mayLatch m s = drawFree s ∨ mayLatch m s = (drawFree s).setLatches (latchMessage (messageBytes m) s.latches) := by
  unfold mayLatch
  split
  · exact .inr rfl
  · exact .inl rfl

/-- A stretch that expires after what the samples show faults the link with LCK stuck, and has the message failed with
LCK freed. -/
theorem stretchExpiry_outcome {s b : State} {m : Message} {samples : List (BitVec 9)} {scan : ByteScan}
    {whole seen : Nat} (hm : s.link.message = some m)
    (hscan : scanSamples (messageBytes m) samples 0 = some scan)
    (hhalves : stretchHalves (messageBytes m) scan = 18 * whole + 2)
    (hwait : (18 * whole + 2) * s.link.halfBit + s.link.stretchLimit ≤ s.link.elapsed)
    (hstuck : stretchOutcome m scan false s = linkFault (contentionsAt seen s))
    (hfreed : stretchOutcome m scan true s = messageFailed m (contentionsAt seen b))
    (hlink : b.link = s.link) (htable : b.table = s.table) (hsets : b.sets = s.sets) :
    (∃ t, exec (.stretchExpiry (.message samples false)) s = .next t ∧ Faulted s t seen) ∧
      (m.purpose = .phaseLoad → m.beforeLoss = false → m.attempt = .first →
        exec (.stretchExpiry (.message samples true)) s = .next (retried b m seen)) ∧
      (m.purpose = .phaseLoad → m.beforeLoss = false → m.attempt = .retry →
        ∃ t, exec (.stretchExpiry (.message samples true)) s = .next t ∧ RetryFails b t m seen) ∧
      (m.purpose = .phaseLoad → m.beforeLoss = true →
        ∃ t, exec (.stretchExpiry (.message samples true)) s = .next t ∧ LateLoadFails b t seen) ∧
      (m.purpose = .probe → ThirdLaw s → ∀ round, s.link.round = some round →
        ∃ t, exec (.stretchExpiry (.message samples true)) s = .next t ∧ ProbeEnds b t m round false seen) := by
  have hexec := exec_stretchExpiry hm hscan hhalves hwait
  obtain ⟨hfirst, hretry, hlate, hprobe⟩ := messageFailed_fails hlink htable hsets m seen
  have hfails := hexec true
  rw [hfreed] at hfails
  refine ⟨⟨_, hexec false, ?_⟩, fun hp hb ha => by rw [hfails, hfirst hp hb ha],
    fun hp hb ha => ⟨_, hfails, hretry hp hb ha⟩, fun hp hb => ⟨_, hfails, hlate hp hb⟩,
    fun hp third round hround => ⟨_, hfails, hprobe hp third round hround⟩⟩
  rw [hstuck]
  exact linkFault_faulted seen s

/-- A failed idle check faults the link (R79, R86). -/
theorem messageEnds_stuck {s : State} {m : Message} {purpose : Purpose} {idle : IdleCheck}
    (hm : s.link.message = some m) (hp : m.purpose = purpose) (hposs : idlePossible idle = true)
    (hpass : idlePasses idle = false) (hwait : idleHalves idle * s.link.halfBit ≤ s.link.elapsed) :
    messageEnds purpose idle [] s = .next (linkFault s) := by
  unfold messageEnds
  rw [hm]
  dsimp only
  rw [if_neg (fun h => h hp), if_neg (by simp [hposs]), if_pos (by simp [hpass])]
  exact stepWhen_eq_next.2 ⟨decide_eq_true hwait, rfl⟩

/-- Settles O43: each of these ends is a link fault, or has the message failed. -/
theorem expiredStretchesFaultTheLink : Obligations.ExpiredStretchesFaultTheLink := by
  unfold Obligations.ExpiredStretchesFaultTheLink
  intro s faults same counted
  have fault : ∀ c, exec c s = .next (linkFault s) → faults c same := fun c hc =>
    ⟨_, hc, linkFault_faulted s.notice.contentions s⟩
  refine ⟨fun m hm => ⟨fun hwait => fault _ ?_, fun idle hposs hpass hwait => ⟨fun hp => fault _ ?_,
    fun hp => fault _ ?_⟩, ?_⟩, fun hm hact hwait => ?_⟩
  · change execStretchExpiry _ s = _
    unfold execStretchExpiry
    rw [hm]
    exact stepWhen_eq_next.2 ⟨decide_eq_true hwait, rfl⟩
  · exact messageEnds_stuck hm hp hposs hpass hwait
  · exact messageEnds_stuck hm hp hposs hpass hwait
  · intro bytes before expires voided mayHaveLatched
    refine ⟨fun k hk hwait => ?_, fun k b v hbyte => ⟨?_, fun hv hwait => ?_⟩, fun hwait => ?_⟩
    · obtain ⟨hstuck, hfreed⟩ := stretchExpiry_outcome (b := s) (seen := same) hm (scanSamples_partly hk)
        (stretchHalves_take (Nat.le_of_lt hk)) hwait rfl rfl rfl rfl rfl
      exact ⟨hstuck, s, rfl, hfreed⟩
    · rintro rfl hwait
      have hk : k + 1 ≤ bytes.length := (List.getElem?_eq_some_iff.1 hbyte).1
      obtain ⟨hstuck, hfreed⟩ := stretchExpiry_outcome (b := s) (seen := same) hm (scanSamples_refused hbyte)
        (stretchHalves_take hk) hwait rfl rfl rfl rfl rfl
      exact ⟨hstuck, s, rfl, hfreed⟩
    · have hk : k ≤ bytes.length := Nat.le_of_lt (List.getElem?_eq_some_iff.1 hbyte).1
      obtain ⟨hstuck, hfreed⟩ := stretchExpiry_outcome (b := s) (seen := counted) hm (scanSamples_contended hbyte hv)
        (stretchHalves_take hk) hwait rfl rfl rfl rfl rfl
      exact ⟨hstuck, s, rfl, hfreed⟩
    · have hhalves : stretchHalves bytes .acked = 18 * bytes.length + 2 := stretchHalves_take (Nat.le_refl _)
      have hnotice : contentionsAt same (mayLatch m s) = mayLatch m s := contentionsAt_self (by simp)
      obtain ⟨hstuck, hfreed⟩ := stretchExpiry_outcome (b := mayLatch m s) (seen := same) hm (scanSamples_acked _)
        hhalves hwait rfl (by rw [hnotice]; rfl) (by simp) (by simp) (by simp)
      exact ⟨hstuck, _, mayLatch_cases m s, hfreed⟩
  · change execStretchExpiry _ s = _
    unfold execStretchExpiry
    rw [hm]
    refine stepWhen_eq_next.2 ⟨?_, rfl⟩
    rw [hact, decide_eq_true hwait]
    rfl

end Sys2Proof.Machine
end

