-- ==== Sys2Proof/Proofs/AreaWords.lean ====
section
/-! PROOFS. One word of an area: its combine, its difference, and where the engine goes on (R152 to R161). -/

namespace Sys2Proof.Machine

open Safety

/-! ## The combine of a word -/

/-- The cells of a word that an area writes (R152). -/
theorem getLsbD_areaCells (a : AreaOp) (w : WordIx) {i : Nat} (hi : i < 16) :
    (areaCells a w).getLsbD i =
      if a.firstWord = a.lastWord then a.leftMask.getLsbD i && a.rightMask.getLsbD i
      else if w = a.firstWord then a.leftMask.getLsbD i
      else if w = a.lastWord then a.rightMask.getLsbD i
      else true := by
  have hall : (BitVec.allOnes 16).getLsbD i = true := by
    rw [BitVec.getLsbD_allOnes]
    exact decide_eq_true hi
  rw [← hall, areaCells]
  split
  · rw [BitVec.getLsbD_and]
  · split
    · rfl
    · split <;> rfl

/-- The combine of a word within its cells (R153). -/
theorem getLsbD_areaCombine (c : Combine) (o d cells : Word) {i : Nat} (hi : i < 16) :
    (areaCombine c o d cells).getLsbD i =
      if cells.getLsbD i = true then
        match c with
        | .replace => d.getLsbD i
        | .set => o.getLsbD i || d.getLsbD i
        | .clear => o.getLsbD i && !d.getLsbD i
        | .complement => o.getLsbD i ^^ d.getLsbD i
      else o.getLsbD i := by
  cases c <;> cases hc : cells.getLsbD i <;>
    simp only [areaCombine, BitVec.getLsbD_or, BitVec.getLsbD_and, BitVec.getLsbD_xor, BitVec.getLsbD_not, hi, hc,
      decide_true, Bool.true_and, Bool.and_true, Bool.and_false, Bool.or_false, Bool.false_or, Bool.not_true,
      Bool.not_false, Bool.xor_false, if_true, Bool.false_eq_true, if_false]

/-! ## The difference of a word, and the area's own record -/

theorem mergeDifference_setArea (r : Row) (w : WordIx) (rise fall : Word) (x : Option AreaOp) (s : State) :
    mergeDifference r w rise fall (s.setArea x) = (mergeDifference r w rise fall s).map (·.setArea x) := by
  have hdropped : dropped (s.setArea x) r w = dropped s r w := rfl
  unfold mergeDifference
  rw [hdropped]
  cases dropped s r w with
  | true => rfl
  | false =>
    dsimp only [State.setArea_table]
    cases openEntry s.table r with
    | none =>
      by_cases hroom : slotsInUse s.table < Config.slots
      · simp only [hroom, Bool.false_eq_true, if_false, if_true]
        rfl
      · simp only [hroom, Bool.false_eq_true, if_false]
        rfl
    | some e =>
      simp only [Bool.false_eq_true, if_false]
      split <;> rfl

theorem offerHeld_setArea (h : HeldChange) (x : Option AreaOp) (s : State) :
    offerHeld h (s.setArea x) = (offerHeld h s).setArea x := by
  unfold offerHeld
  rw [mergeDifference_setArea]
  cases mergeDifference h.row h.word h.rise h.fall s <;> rfl

theorem areaContends_of_notRequested {h : HeldChange} {s : State} {a : AreaOp} (ha : s.area = some a)
    (hu : a.unit ≠ .requested) : areaContends h s = false := by
  simp [areaContends, ha, hu]

/-- With no word of the area requested, the settlement of a hold reads nothing of it (R12). -/
theorem settleHold_setArea {s : State} {a a' : AreaOp} (ha : s.area = some a) (hu : a.unit = .none)
    (hu' : a'.unit = .none) : settleHold (s.setArea (some a')) = (settleHold s).setArea (some a') := by
  have hwmu : (s.setArea (some a')).wmu = s.wmu := rfl
  unfold settleHold
  rw [hwmu]
  cases hw : s.wmu.state with
  | idle => rfl
  | merging c => rfl
  | holding h =>
    have hcontends : areaContends h s = false := areaContends_of_notRequested ha (by rw [hu]; nofun)
    have hcontends' : areaContends h (s.setArea (some a')) = false :=
      areaContends_of_notRequested rfl (by rw [hu']; nofun)
    have hin : inResync (s.setArea (some a')) h.row = inResync s h.row := rfl
    dsimp only
    rw [hcontends, hcontends', hin, offerHeld_setArea]
    split <;> rfl

section Placing

variable {b : State} {a a' : AreaOp} (ha : b.area = some a) (hu : a.unit = .none) (hu' : a'.unit = .none)
  (r : Row) (w : WordIx) (o n : Word)

include ha hu hu'

/-- A word left as it was gives no difference, and its slot is offered if its unit was being served (R12, R156). -/
theorem placeArea_same (offer : Bool) (h : n = o) :
    placeArea offer r w (riseBits o n) (fallBits o n) (b.setArea (some a')) =
      if offer = true then (settleHold b).setArea (some a') else b.setArea (some a') := by
  rw [placeArea, if_pos ((changes_eq_zero_iff o n).2 h), settleHold_setArea ha hu hu']

/-- A difference with a place is merged, and a hold follows it (R12, R25 to R28). -/
theorem placeArea_merged (offer : Bool) (h : n ≠ o) {m : State}
    (hm : mergeDifference r w (riseBits o n) (fallBits o n) b = some m) :
    placeArea offer r w (riseBits o n) (fallBits o n) (b.setArea (some a')) = (settleHold m).setArea (some a') := by
  have harea : m.area = some a := by simp [mergeDifference_frame hm, ha]
  rw [placeArea, if_neg fun h' => h ((changes_eq_zero_iff o n).1 h'), mergeDifference_setArea, hm]
  exact settleHold_setArea harea hu hu'

end Placing

/-- A difference without room degrades its row (R157). -/
theorem placeArea_noRoom {b : State} {x : Option AreaOp} {r : Row} {w : WordIx} {o n : Word} (offer : Bool)
    (h : n ≠ o) (hm : mergeDifference r w (riseBits o n) (fallBits o n) b = none) :
    placeArea offer r w (riseBits o n) (fallBits o n) (b.setArea x) =
      countDegraded (requestFull (oneRow r) (b.setArea x)) := by
  rw [placeArea, if_neg fun h' => h ((changes_eq_zero_iff o n).1 h'), mergeDifference_setArea, hm]
  rfl

/-- A row degraded is counted, raises DEGRADED, and is in the FULL set while records are kept (R45, R157). -/
theorem countDegraded_requestFull (r : Row) (s : State) :
    (countDegraded (requestFull (oneRow r) s)).notice.degradedRows = min 65535 (s.notice.degradedRows + 1) ∧
      (countDegraded (requestFull (oneRow r) s)).notice.notices = s.notice.notices ||| 0x40 ∧
      (recordless s.seq.state = false →
        hasRow (countDegraded (requestFull (oneRow r) s)).sets.full r = true) := by
  have hcounts := (requestFull_annulsOnly (oneRow r) s)
  have hdegraded : (requestFull (oneRow r) s).notice.degradedRows = s.notice.degradedRows :=
    (congrArg NoticeUnit.degradedRows hcounts :)
  refine ⟨?_, ?_, fun hrec => ?_⟩
  · rw [countDegraded, raiseNotice_rest]
    simp only [State.setNotice_notice, hdegraded]
    rfl
  · rw [countDegraded, raiseNotice_notices]
    simp only [State.setNotice_notice, requestFull_notices]
    rfl
  · have hasked := requestFull_asked hrec r
    simpa [countDegraded] using hasked

/-! ## Where the engine goes on -/

/-- The area completes with its words written (R160, R161). -/
theorem completeArea_finishes (a : AreaOp) {s : State} {r : Running} (hr : s.cmd.running = some r)
    (hnone : r.result = none) :
    (completeArea a s).cmd.running = some
      { r with
        result := some (if a.abortPending = true then 0x82 else if a.truncated = true then 0x81 else 0x80)
        writes := r.writes ++ [(2, BitVec.ofNat 16 a.wordsWritten),
          (0, r.code ++
            (if a.abortPending = true then 0x82 else if a.truncated = true then 0x81 else 0x80 : Byte))] } := by
  have hcode : resultCode (if a.abortPending then .aborted else if a.truncated then .truncated else .ok) =
      if a.abortPending = true then 0x82 else if a.truncated = true then 0x81 else 0x80 := by
    cases a.abortPending <;> cases a.truncated <;> rfl
  have hrun : (s.setArea none).cmd.running = some r := hr
  rw [completeArea, finishCommand_of_running hrun hnone, hcode]
  simp [commandWord]

theorem completeArea_area (a : AreaOp) (s : State) : (completeArea a s).area = none := by simp [completeArea]

theorem areaNext_word {a : AreaOp} (hb : a.abortPending = false) (hw : a.word.val < a.lastWord.val) (s : State) :
    areaNext a s = s.setArea (some { a with word := a.word + 1, unit := .requested }) := by
  rw [areaNext, if_neg (by rw [hb]; exact Bool.false_ne_true), if_pos hw]

theorem areaNext_row {a : AreaOp} (hb : a.abortPending = false) (hw : a.lastWord.val ≤ a.word.val) (s : State) :
    areaNext a s = areaFrom a (a.row.val + 1) s := by
  rw [areaNext, if_neg (by rw [hb]; exact Bool.false_ne_true), if_neg (Nat.not_lt.2 hw)]

/-! ## The unit -/

/-- The word's unit is granted, or the port grants it now, with every rank above it empty (R17, R159). -/
theorem areaDue_of {s : State} {x : AreaOp} (hx : s.area = some x)
    (h : x.unit = .granted ∨ x.unit = .requested ∧ (∀ c, s.wmu.state ≠ .merging c) ∧
      s.port = { burst := false, third := [] } ∧
      (∀ op, s.sched.op = some op → op.stage = .snapshot → op.asked = false)) : areaDue x s = true := by
  rw [areaDue, Bool.or_eq_true, Bool.and_eq_true, beq_iff_eq, beq_iff_eq]
  refine h.imp id fun ⟨hu, hrest⟩ => ⟨hu, (areaGrantable_iff ?_).2 hrest⟩
  simp [areaGranted, hx, hu]

/-- The record of the area with its word counted, and no unit of it waiting (R155). -/
def areaCounted (x : AreaOp) : AreaOp := { x with wordsWritten := x.wordsWritten + 1, unit := .none }

/-- The word written, with no unit of the area waiting. -/
def areaWritten (x : AreaOp) (n : Word) (s : State) : State :=
  (writeMem (imageOffset x.row x.word) n s).setArea (some { x with unit := .none })

/-- The word written, counted, and its difference placed (R153, R155, R156). -/
def areaPlaced (x : AreaOp) (n : Word) (s : State) : State :=
  placeArea (x.unit == .granted) x.row x.word (riseBits (readMem s (imageOffset x.row x.word)) n)
    (fallBits (readMem s (imageOffset x.row x.word)) n) ((areaWritten x n s).setArea (some (areaCounted x)))

theorem areaWordUnit_eq (x : AreaOp) (s : State) :
    areaWordUnit x s = unitEnds false (areaNext (areaCounted x) (askSnapshot (areaPlaced x
      (areaCombine x.op (readMem s (imageOffset x.row x.word)) (areaPattern x x.row) (areaCells x x.word)) s))) := rfl

theorem askSnapshot_sched (s : State) :
    ((∀ op, s.sched.op = some op → op.stage ≠ .snapshot) → (askSnapshot s).sched = s.sched) ∧
      (∀ op, s.sched.op = some op → op.stage = .snapshot →
        (askSnapshot s).sched = { s.sched with op := some { op with asked := true } }) := by
  unfold askSnapshot
  cases hop : s.sched.op with
  | none => exact ⟨fun _ => rfl, fun _ h => absurd h.symm (Option.some_ne_none _)⟩
  | some op =>
    refine ⟨fun h => ?_, fun op' hop' hstage => ?_⟩
    · dsimp only
      rw [if_neg fun hb => h op rfl (beq_iff_eq.1 hb)]
    · obtain rfl := Option.some_inj.1 hop'
      dsimp only
      rw [if_pos (beq_iff_eq.2 hstage)]
      rfl

/-- What the difference of a word leaves of the table, the sets, the hold and the notices (R12, R156, R157). -/
theorem areaPlaced_outcome (x : AreaOp) (n : Word) (s : State) :
    let o := readMem s (imageOffset x.row x.word)
    let b := areaWritten x n s
    let t := areaPlaced x n s
    ((n = o → x.unit = .requested →
        t.table = s.table ∧ t.sets = s.sets ∧ t.wmu = s.wmu ∧ t.notice = s.notice) ∧
      (n = o → x.unit = .granted →
        t.table = (settleHold b).table ∧ t.sets = s.sets ∧ t.wmu = (settleHold b).wmu) ∧
      (n ≠ o → ∀ m, mergeDifference x.row x.word (n &&& ~~~o) (o &&& ~~~n) b = some m →
        t.table = (settleHold m).table ∧ t.sets = s.sets ∧ t.wmu = (settleHold m).wmu ∧
          t.bus = (settleHold m).bus ∧ t.notice = (settleHold m).notice)) ∧
    (n ≠ o → dropped s x.row x.word = false → openEntry s.table x.row = none → 32 ≤ slotsInUse s.table →
      t.notice.degradedRows = min 65535 (s.notice.degradedRows + 1) ∧
        t.notice.notices = s.notice.notices ||| 0x40 ∧
        (recordless s.seq.state = false → hasRow t.sets.full x.row = true)) := by
  intro o b t
  have hsame : ∀ h : n = o, t = if (x.unit == .granted) = true then (settleHold b).setArea (some (areaCounted x))
      else b.setArea (some (areaCounted x)) := fun h =>
    placeArea_same (b := b) (a := { x with unit := .none }) rfl rfl rfl x.row x.word o n _ h
  refine ⟨⟨fun h hu => ?_, fun h hu => ?_, fun h m hm => ?_⟩, fun h hdrop hopen hslots => ?_⟩
  · rw [hsame h, if_neg (by rw [hu]; decide)]
    exact ⟨rfl, rfl, rfl, rfl⟩
  · rw [hsame h, if_pos (by rw [hu]; rfl)]
    exact ⟨rfl, by simp [b, areaWritten], rfl⟩
  · have hmerged : t = (settleHold m).setArea (some (areaCounted x)) :=
      placeArea_merged (b := b) (a := { x with unit := .none }) rfl rfl rfl x.row x.word o n _ h hm
    rw [hmerged]
    exact ⟨rfl, by simp [mergeDifference_frame hm, b, areaWritten], rfl, rfl, rfl⟩
  · have hnone : mergeDifference x.row x.word (riseBits o n) (fallBits o n) b = none :=
      mergeDifference_eq_none.2 ⟨hdrop, hopen, Nat.not_lt.2 hslots⟩
    have hdegraded : t = countDegraded (requestFull (oneRow x.row) (b.setArea (some (areaCounted x)))) :=
      placeArea_noRoom _ h hnone
    rw [hdegraded]
    exact countDegraded_requestFull x.row _

/-- Settles O35: the word is combined and counted, its difference placed, and the engine goes on or completes. -/
theorem areaWordCombinesAndGoesOn : Obligations.AreaWordCombinesAndGoesOn := by
  intro s x hwf hx hunit off o d cell skipped
  have hexec := exec_areaWord_of hx (areaDue_of hx hunit)
  rw [areaWordUnit_eq] at hexec
  generalize hn : areaCombine x.op o d (areaCells x x.word) = n
  have hplaced := areaPlaced_outcome x n s
  have hcombine : areaCombine x.op (readMem s (imageOffset x.row x.word)) (areaPattern x x.row)
      (areaCells x x.word) = n :=
    hn
  rw [hcombine] at hexec
  have hkeep : (areaPlaced x n s).mem = (writeMem off n s).mem ∧ (areaPlaced x n s).sched = s.sched ∧
      (areaPlaced x n s).lit = s.lit ∧ (areaPlaced x n s).link = s.link ∧ (areaPlaced x n s).latches = s.latches ∧
      (areaPlaced x n s).panel = s.panel ∧ (areaPlaced x n s).period = s.period ∧ (areaPlaced x n s).seq = s.seq ∧
      (areaPlaced x n s).sense = s.sense ∧ (areaPlaced x n s).cmd = s.cmd ∧ (areaPlaced x n s).store = s.store := by
    simp [areaPlaced, areaWritten, off, imageOffset]
  generalize areaPlaced x n s = p at hexec hplaced hkeep
  obtain ⟨hmem, hsched, hlit, hlink, hlatches, hpanel, hperiod, hseq, hsense, hcmd, hstore⟩ := hkeep
  obtain ⟨hplace, hdegrade⟩ := hplaced
  generalize hu : unitEnds false (areaNext (areaCounted x) (askSnapshot p)) = t at hexec
  have htmem : ∀ y, readMem t y = readMem (writeMem off n s) y := fun y => by
    simp [← hu, readMem, hmem]
  have hword : readMem t off = n := (htmem off).trans (readMem_writeMem_self hwf)
  have htable : t.table = p.table ∧ t.sets = p.sets ∧ t.wmu = p.wmu ∧ t.bus = p.bus ∧ t.notice = p.notice := by
    simp [← hu]
  obtain ⟨httable, htsets, htwmu, htbus, htnotice⟩ := htable
  have hask := askSnapshot_sched p
  have htsched : t.sched = (askSnapshot p).sched := by simp [← hu]
  have hpcmd : (askSnapshot p).cmd = s.cmd := by simp [hcmd]
  have htcmd : t.cmd = (areaNext (areaCounted x) (askSnapshot p)).cmd := by simp [← hu]
  have htarea : t.area = (areaNext (areaCounted x) (askSnapshot p)).area := by simp [← hu]
  have hskips : ∀ q, areaSkips s.store.settings (areaCounted x) q = true ↔ skipped q := fun q => by
    rw [areaSkips_iff, inBand, Bool.and_eq_true, decide_eq_true_eq, decide_eq_true_eq, and_comm]
    rfl
  have hastore : (askSnapshot p).store = s.store := by simp [hstore]
  refine ⟨t, hexec, fun i hi => ?_, fun y hy => ?_, fun hb => ?_, fun hb hw => ?_, fun hb hw => ⟨?_, ?_⟩, ?_, ?_,
    fun h => ?_, fun op hop hstage => ?_, ?_, ?_, ?_, ?_⟩
  · have hbit := getLsbD_areaCombine x.op o d (areaCells x x.word) hi
    rw [getLsbD_areaCells x x.word hi] at hbit
    rw [hword, ← hn]
    exact hbit
  · rw [htmem, readMem_writeMem_ne hy]
  · have hnext := areaNext_of_abort (a := areaCounted x) hb (askSnapshot p)
    rw [htarea, htcmd, hnext]
    refine ⟨completeArea_area _ _, fun r hr hnone => ?_⟩
    rw [completeArea_finishes _ (hpcmd ▸ hr) hnone]
    simp only [areaCounted, hb, if_true]
  · have hnext := areaNext_word (a := areaCounted x) hb hw (askSnapshot p)
    have hlast : x.lastWord.val ≤ 31 := Nat.le_of_lt_succ x.lastWord.isLt
    rw [htarea, htcmd, hnext]
    exact ⟨hpcmd, x.word + 1, Fin.val_add_one_of_lt (by rw [Fin.lt_def]; exact Nat.lt_of_lt_of_le hw hlast), rfl⟩
  · intro q hafter hle hq hbetween
    have hnext := areaNext_row (a := areaCounted x) hb hw (askSnapshot p)
    have hbegin := areaBegin_eq_some (t := s.store.settings) (a := areaCounted x) (q := q) hle
      (Bool.eq_false_iff.2 fun h => hq ((hskips q).1 h)) (fuel := 512) (r := x.row.val + 1) hafter
      (by have := q.isLt; omega) (fun r hr hlt => (hskips r).2 (hbetween r hr hlt))
    rw [htarea, htcmd, hnext, areaFrom_of_some (b := _) (by rw [hastore]; exact hbegin)]
    exact ⟨hpcmd, rfl⟩
  · intro hall
    have hnext := areaNext_row (a := areaCounted x) hb hw (askSnapshot p)
    have hbegin := areaBegin_eq_none (t := s.store.settings) (a := areaCounted x) (fuel := 512) (r := x.row.val + 1)
      fun q hq hle => (hskips q).2 (hall q hq hle)
    rw [htarea, htcmd, hnext, areaFrom_of_none (by rw [hastore]; exact hbegin)]
    refine ⟨completeArea_area _ _, fun r hr hnone => ?_⟩
    rw [completeArea_finishes _ (hpcmd ▸ hr) hnone]
    simp only [areaCounted, hb, Bool.false_eq_true, if_false]
  · rw [hword]
    intro n' b'
    rw [httable, htsets, htwmu, htbus, htnotice]
    exact hplace
  · rw [hword, htnotice, htsets]
    exact hdegrade
  · rw [htsched, hask.1 (by rw [hsched]; exact h), hsched]
  · rw [htsched, hask.2 op (by rw [hsched]; exact hop) hstage, hsched]
  · rw [← hu]
    exact unitEnds_record _ _
  · simp [← hu, hlit]
  · simp [← hu, SameDrive, hlink, hlatches, hpanel, hperiod, hseq, hsense]
  · simp [← hu, hstore]

end Sys2Proof.Machine
end

