-- ==== Sys2Proof/Proofs/Wires.lean ====
section
/-! PROOFS. The bytes of a LOAD message, and the slice a module rebuilds from them (R73, R76, R195). -/

namespace Sys2Proof.Machine

open Safety

/-! ## The presence byte -/

theorem getLsbD_dataByte (v : SliceCells) (k : Nat) {i : Nat} (hi : i < 8) :
    (dataByte v k).getLsbD i = v.getLsbD (8 * (7 - k) + i) := by simp [dataByte, hi]

theorem getLsbD_oneBit {j k : Nat} (hk : k < 8) : (1#8 <<< j).getLsbD k = decide (k = j) := by
  rw [BitVec.getLsbD_shiftLeft, BitVec.getLsbD_one, Bool.eq_iff_iff]
  simp only [Bool.and_eq_true, decide_eq_true_eq, Bool.not_eq_true', decide_eq_false_iff_not]
  omega

/-- Each bit of a presence byte comes from its own data byte, whatever bytes came before (R76). -/
theorem getLsbD_presenceFold (v : SliceCells) {k : Nat} (hk : k < 8) (l : List Nat) (acc : Byte) :
    (l.foldl (fun acc k => if dataByte v k = 0 then acc else acc ||| (1#8 <<< k)) acc).getLsbD k =
      (acc.getLsbD k || decide (k ∈ l) && dataByte v k != 0) := by
  induction l generalizing acc with
  | nil => simp
  | cons j l ih =>
    rw [List.foldl_cons, ih]
    by_cases hj : k = j
    · subst hj
      by_cases hz : dataByte v k = 0
      · simp [hz]
      · rw [if_neg hz, BitVec.getLsbD_or, getLsbD_oneBit hk]
        have hset : (dataByte v k != 0) = true := bne_iff_ne.2 hz
        simp only [hset, List.mem_cons, true_or, decide_true, Bool.and_true, Bool.or_true, Bool.true_or]
    · have hbit : (if dataByte v j = 0 then acc else acc ||| (1#8 <<< j)).getLsbD k = acc.getLsbD k := by
        split
        · rfl
        · rw [BitVec.getLsbD_or, getLsbD_oneBit hk, decide_eq_false hj, Bool.or_false]
      rw [hbit]
      simp [hj]

theorem getLsbD_presenceByte (v : SliceCells) {k : Nat} (hk : k < 8) :
    (presenceByte v).getLsbD k = (dataByte v k != 0) := by
  rw [presenceByte, getLsbD_presenceFold v hk, getLsbD_noCells, decide_eq_true (List.mem_range.2 hk)]
  simp

/-! ## The slice rebuilt -/

/-- The columns of a slice whose data bytes are the last n (R76). -/
def lastBytes (v : SliceCells) (n : Nat) : SliceCells := (v.setWidth (8 * n)).setWidth 64

theorem lastBytes_succ (v : SliceCells) {k n : Nat} (h : k + n = 7) :
    lastBytes v (n + 1) = lastBytes v n ||| ((dataByte v k).setWidth 64 <<< (8 * (7 - k))) := by
  apply BitVec.eq_of_getLsbD_eq
  intro i hi
  obtain rfl : n = 7 - k := by omega
  simp only [lastBytes, BitVec.getLsbD_or, BitVec.getLsbD_setWidth, BitVec.getLsbD_shiftLeft, hi, decide_true,
    Bool.true_and]
  by_cases hlow : i < 8 * (7 - k)
  · simp [hlow, show i < 8 * (7 - k + 1) by omega]
  · by_cases hhigh : i < 8 * (7 - k + 1)
    · have hcol : 8 * (7 - k) + (i - 8 * (7 - k)) = i := by omega
      rw [getLsbD_dataByte v k (show i - 8 * (7 - k) < 8 by omega), hcol]
      simp [hlow, hhigh, show i - 8 * (7 - k) < 64 by omega]
    · have hout : (dataByte v k).getLsbD (i - 8 * (7 - k)) = false :=
        BitVec.getLsbD_of_ge _ _ (by omega)
      simp [hlow, hhigh, hout]

/-- From the bytes present, from byte k on, a module rebuilds the columns of those bytes (R73). -/
theorem rebuildBytes_present (v : SliceCells) (n : Nat) : ∀ k, k + n = 8 →
    rebuildBytes (presenceByte v) n k (((List.range' k n).map (dataByte v)).filter (fun b => b != 0)) =
      some (lastBytes v n) := by
  induction n with
  | zero =>
    intro k _
    have hnone : lastBytes v 0 = 0 := BitVec.eq_of_getLsbD_eq fun i _ => by simp [lastBytes]
    rw [hnone]
    rfl
  | succ n ih =>
    intro k hk
    have hrest := ih (k + 1) (by omega)
    have hbit := getLsbD_presenceByte v (show k < 8 by omega)
    have hcols := lastBytes_succ v (show k + n = 7 by omega)
    rw [List.range'_succ, List.map_cons, List.filter_cons]
    unfold rebuildBytes
    rw [hbit]
    cases hz : dataByte v k != 0 with
    | true =>
      simp only [if_true]
      rw [hrest, hcols]
      rfl
    | false =>
      have hzero : dataByte v k = 0 := by simpa using hz
      simp only [Bool.false_eq_true, if_false]
      rw [hrest, hcols, hzero]
      simp

theorem lastBytes_all (v : SliceCells) : lastBytes v 8 = v := by simp [lastBytes]

theorem rebuildBytes_presentBytes (v : SliceCells) :
    rebuildBytes (presenceByte v) 8 0 (presentBytes v) = some v := by
  have h := rebuildBytes_present v 8 0 rfl
  rwa [← List.range_eq_range', lastBytes_all] at h

/-! ## The address byte -/

/-- The address byte names its module and its phase (R195). -/
theorem addressByte_names (m k : ModuleNo) (p : Phase) :
    ((addressByte m p).extractLsb' 5 3 = BitVec.ofNat 3 k.val ∧
        (addressByte m p).extractLsb' 0 4 = (0b1010 : BitVec 4) ↔ k = m) ∧
      (addressByte m p).getLsbD 4 = (p == .write) := by
  cases p <;> revert m k <;> decide

theorem moduleReceives_load (v : Slice) (k : ModuleNo) :
    moduleReceives k (messageBytes (loadMessageOf v)) =
      if k = v.modNo then some (v.cells, v.phase == .write) else none := by
  obtain ⟨hnames, hphase⟩ := addressByte_names v.modNo k v.phase
  have hbytes : messageBytes (loadMessageOf v) =
      addressByte v.modNo v.phase :: presenceByte v.cells :: presentBytes v.cells := rfl
  rw [hbytes, moduleReceives, rebuildBytes_presentBytes, hphase]
  by_cases h : k = v.modNo
  · rw [if_pos (hnames.2 h), if_pos h]
    rfl
  · rw [if_neg (mt hnames.1 h), if_neg h]

/-! ## The data bytes of a mask -/

theorem getLsbD_maskWord (mask : Mask) (w : WordIx) {i : Nat} (hi : i < 16) :
    (maskWord mask w).getLsbD i = mask.getLsbD (16 * (31 - w.val) + i) := by simp [maskWord, hi]

/-- Data byte k of a module's slice is the high or the low byte of its word of the mask (R76). -/
theorem dataByte_maskSlice (mask : Mask) (m : ModuleNo) {k : Nat} {w : WordIx} (hk : k < 8)
    (hw : w.val = 4 * m.val + k / 2) :
    dataByte (maskSlice mask m) k =
      if k % 2 = 0 then highByte (maskWord mask w) else lowByte (maskWord mask w) := by
  have hm := m.isLt
  apply BitVec.eq_of_getLsbD_eq
  intro i hi
  rw [getLsbD_dataByte _ _ hi, getLsbD_maskSlice mask m (show 8 * (7 - k) + i < 64 by omega)]
  split
  · rw [highByte, BitVec.getLsbD_extractLsb', decide_eq_true hi, Bool.true_and,
      getLsbD_maskWord mask w (show 8 + i < 16 by omega), hw]
    congr 1
    omega
  · rw [lowByte, BitVec.getLsbD_extractLsb', decide_eq_true hi, Bool.true_and,
      getLsbD_maskWord mask w (show 0 + i < 16 by omega), hw]
    congr 1
    omega

/-- Settles O39: the bytes announce the slice's data bytes, and the module named rebuilds the slice from them. -/
theorem modulesRebuildTheSlicesSent : Obligations.ModulesRebuildTheSlicesSent := by
  intro v bytes
  refine ⟨length_messageBytes (loadMessageOf v), length_messageHalves bytes, fun k => moduleReceives_load v k,
    fun k hk => getLsbD_presenceByte v.cells hk, fun mask k w hmask hk hw => ?_⟩
  rw [← hmask]
  exact dataByte_maskSlice mask v.modNo hk hw

end Sys2Proof.Machine
end
